-- ==== Sys2Proof/Word.lean ====
section
/-! DEFINITION. The words of the part: a mailbox word of 128 bits (10.2), a byte of a link, a network address,
and the index types of the part's like things (Conventions, "Indices"). -/

namespace Sys2Proof

/-- A mailbox word: 128 bits, numbered 127 down to 0 (10.2). -/
abbrev Word := BitVec 128

/-- A byte of an SPI link, of a reference message or of a network frame. -/
abbrev Byte := BitVec 8

/-- A 6-byte network address, the first byte in bits 47:40 (10.2). -/
abbrev NetAddress := BitVec 48

/-- Masters MP0 to MP3. -/
abbrev Mp := Fin 4

/-- References REF0 to REF3. -/
abbrev RefId := Fin 4

/-- Output lines OL0 to OL15. -/
abbrev LineId := Fin 16

/-- Grades G0 to G7: G0 is best, a higher number is worse (R71, R84). -/
abbrev Grade := Fin 8

/-- A timescale instant as whole nanoseconds since 0 s 0 ns: seconds are its quotient by 10^9 and nanoseconds the
remainder (R1). -/
abbrev Instant := Nat

end Sys2Proof
end

