-- ==== Sys2Proof/Config.lean ====
section
/-! DEFINITION. What the part fixes (the codes of 10.1, 10.3 and 10.6) and the free values: constants with no
body, for the three values that the spec does not state (log entries 8, 9 and 32). -/

namespace Sys2Proof.Config

/-- Nanoseconds in a second. -/
abbrev nsPerSec : Nat := 1000000000

/-- The seconds field runs from 0 to 2^48 - 1 and then returns to 0 (R1). -/
abbrev secRange : Nat := 2 ^ 48

/-- The timescale as nanoseconds returns to 0 after this many (R1). -/
abbrev nsRange : Nat := secRange * nsPerSec

/-- Resolution of the fraction: 2^32 units to the nanosecond (R1). -/
abbrev fracRange : Nat := 2 ^ 32

/-- Parts per trillion in one: the rate correction's unit (R2, R3). -/
abbrev pptOne : Nat := 1000000000000

/-- Ticks in a millisecond of run time (R4). -/
abbrev ticksPerMs : Nat := 250000

/-- Ticks in a second of run time (R33). -/
abbrev ticksPerSec : Nat := 250000000

/-- The tick count is 64 bits (R4). -/
abbrev tickRange : Nat := 2 ^ 64

/-- U saturates at 4,294,967,295,000 ps (R69). -/
abbrev uncertaintyCap : Nat := 4294967295000

/-- The vendor code, part code and revision that IDENTIFY returns (10.4). -/
abbrev vendorCode : Nat := 0x0A71
abbrev partCode : Nat := 0x0460
abbrev revision : Nat := 0x01

/-- The frame type of every TD460 frame (10.6). -/
abbrev frameType : BitVec 16 := 0x89C2#16

/-- The group address 03:A0:54:46:00:01 (10.6). -/
abbrev groupAddress : NetAddress := 0x03A054460001#48

/-- FREE VALUE. What the tick count reads after its largest value, 2^64 - 1: R4 gives it 64 bits and states neither
that it wraps nor that it saturates (log entry 8). Read as a 64-bit value. -/
opaque freeTickCount : Nat → Nat

/-- FREE VALUE. The 64 bits of a step-amount field for a step whose amount in nanoseconds does not fit a signed
64-bit field: SET_TIME can step by more (R20), and 10.2 gives the field 64 bits (log entry 9). Applied to the
amount. -/
opaque freeAmountBits : Int → Nat

/-- FREE VALUE. The 48 bits of a beacon's day end field for a leap record whose day end does not fit them: SET_LEAP
carries 64 bits and sets no upper bound (R24), and 10.6 gives the field 6 bytes (log entry 32). Applied to the day
end. -/
opaque freeDayEnd : Int → Nat

end Sys2Proof.Config
end

