-- ==== Sys2Proof/Syntax.lean ====
section
/-! DEFINITION. The commands: one constructor of Instr for each row of spec/opcode_table.json. A command is one
whole event of the part (spec/95). The row of a posted command is the event at which its owner takes it from the
command slot of the port it names (R174); its parameters are the words in that slot (R192). -/

namespace Sys2Proof

/-- The two network ports. -/
inductive NetId where
  | na
  | nb
deriving DecidableEq, Repr

/-- The direction of a change on a reference pulse input (R31), and the edge polarity setting (R28). -/
inductive Edge where
  | rising
  | falling
deriving DecidableEq, Repr

/-- What a line's load monitor finds at the start of an active period (R114). -/
inductive Load where
  | good
  | openLoad
  | overloaded
deriving DecidableEq, Repr

/-- A character received on a reference message input (R36): its eight data bits and whether its stop bit was
found. -/
structure Character where
  data   : Byte
  framed : Bool
deriving DecidableEq, Repr

/-- A frame as a network port has it at the end of reception (R143, R194): whether it passed the Ethernet reception
checks, its addresses, its frame type, and the bytes after the frame type. -/
structure RxFrame where
  receptionOk : Bool
  destination : NetAddress
  source      : NetAddress
  frameType   : BitVec 16
  body        : List Byte
deriving DecidableEq, Repr

/-- The commands, in the table's order. `mp` is the master port concerned, `r` a reference, `l` a line, `p` a network
port. -/
inductive Instr where
  /-- POWER_ON: power-on, or assertion of the RESET input; `held` says whether RESET is then asserted (R4, R190). -/
  | powerOn (held : Bool)
  /-- RESET_RELEASE (R4). -/
  | resetRelease
  /-- SLEW_COMPLETION (R11). -/
  | slewCompletion
  /-- INSERTED_SECOND_START (R15). -/
  | insertedSecondStart
  /-- LEAP_INSTANT (R16). -/
  | leapInstant
  /-- READ_TIME (R19). -/
  | readTime (mp : Mp)
  /-- SET_TIME (R20). -/
  | setTime (mp : Mp)
  /-- STEP_BY (R22). -/
  | stepBy (mp : Mp)
  /-- SLEW_BY (R23). -/
  | slewBy (mp : Mp)
  /-- SET_LEAP (R24). -/
  | setLeap (mp : Mp)
  /-- CLEAR_LEAP (R24). -/
  | clearLeap (mp : Mp)
  /-- SET_UTC_OFFSET (R25). -/
  | setUtcOffset (mp : Mp)
  /-- SET_LOCAL_OFFSET (R26). -/
  | setLocalOffset (mp : Mp)
  /-- REFERENCE_EDGE: the pulse input of `r` changes in the direction `e` (R31). -/
  | referenceEdge (r : RefId) (e : Edge)
  /-- MISSING_EDGE_EXPIRY (R35). -/
  | missingEdgeExpiry (r : RefId)
  /-- MESSAGE_ARRIVAL: the character that completes a message being gathered, or has it rejected (R37, R193). -/
  | messageArrival (r : RefId) (c : Character)
  /-- SETTLE_EXPIRY (R40). -/
  | settleExpiry (r : RefId)
  /-- HOLD_OFF_EXPIRY (R45). -/
  | holdOffExpiry (r : RefId)
  /-- SET_REFERENCE (R48). -/
  | setReference (mp : Mp)
  /-- READ_REFERENCE (R50). -/
  | readReference (mp : Mp)
  /-- GRADE_GROWTH_CROSSING (R71). -/
  | gradeGrowthCrossing
  /-- SET_ENGINE (R74). -/
  | setEngine (mp : Mp)
  /-- READ_ENGINE (R75). -/
  | readEngine (mp : Mp)
  /-- PIN (R67). -/
  | pin (mp : Mp)
  /-- UNPIN (R68). -/
  | unpin (mp : Mp)
  /-- ADD_MARK (R80). -/
  | addMark (mp : Mp)
  /-- CANCEL_MARK (R89). -/
  | cancelMark (mp : Mp)
  /-- TAKE_OUTCOMES (R95). -/
  | takeOutcomes (mp : Mp)
  /-- MARK_TAKING; bit n of `faulty` says that the load monitor of OLn would find its load open or overloaded at an
  active start made in this taking (R83, R110, R114). -/
  | markTaking (faulty : BitVec 16)
  /-- SET_LINE (R101). -/
  | setLine (mp : Mp)
  /-- CHANGE_POINT (R102). -/
  | changePoint (l : LineId)
  /-- PULSE_START, with what the load monitor finds (R105, R114). -/
  | pulseStart (l : LineId) (load : Load)
  /-- PULSE_END (R103). -/
  | pulseEnd (l : LineId)
  /-- COMMITMENT_START, with what the load monitor finds (R110, R114). -/
  | commitmentStart (l : LineId) (load : Load)
  /-- LINE_RESTART (R115). -/
  | lineRestart (mp : Mp)
  /-- SENSE_LINE (R117). -/
  | senseLine (mp : Mp)
  /-- COMPOSITION (R122). -/
  | composition
  /-- FRAME_RELEASE (R122). -/
  | frameRelease
  /-- FRAME_BEGIN, with what the load monitor finds at the symbol of slot 0 (R127, R132). -/
  | frameBegin (l : LineId) (load : Load)
  /-- SYMBOL_START, with what the load monitor finds (R120, R132). -/
  | symbolStart (l : LineId) (load : Load)
  /-- SYMBOL_END (R120). -/
  | symbolEnd (l : LineId)
  /-- FRAME_END (R127). -/
  | frameEnd (l : LineId)
  /-- LINK_UP (R137). -/
  | linkUp (p : NetId)
  /-- LINK_DOWN (R137). -/
  | linkDown (p : NetId)
  /-- BEACON_DUE (R139). -/
  | beaconDue
  /-- TRANSMIT_END (R149). -/
  | transmitEnd (p : NetId)
  /-- ASK_TIMING_POINT (R143). -/
  | askTimingPoint (p : NetId)
  /-- ASK_ARRIVAL: the end of the reception of `f` at `p` (R143, R144). -/
  | askArrival (p : NetId) (f : RxFrame)
  /-- SET_NETWORK (R150). -/
  | setNetwork (mp : Mp)
  /-- READ_PORT (R151). -/
  | readPort (mp : Mp)
  /-- IDLE_CHECK (R164). -/
  | idleCheck
  /-- FORGET_CLIENT (R167). -/
  | forgetClient (mp : Mp)
  /-- WRITE_PARAMS: select is released after the code and the bytes `rest` (R173, R191). -/
  | writeParams (mp : Mp) (rest : List Byte)
  /-- POST: select is released after the code and the bytes `rest` (R174, R191). -/
  | post (mp : Mp) (rest : List Byte)
  /-- READ_RESULT: select is released after `len` bytes in all, the code among them (R175). -/
  | readResult (mp : Mp) (len : Nat)
  /-- READ_STATE: select is released after `len` bytes in all (R175). -/
  | readState (mp : Mp) (len : Nat)
  /-- SENSE: select is released after the code and the bytes `rest` (R183, R191). -/
  | sense (mp : Mp) (rest : List Byte)
  /-- READ_ERRORS: select is released after `len` bytes in all (R176). -/
  | readErrors (mp : Mp) (len : Nat)
  /-- PORT_CLEAR: select is released after `len` bytes in all (R188). -/
  | portClear (mp : Mp) (len : Nat)
  /-- UNKNOWN_TRANSACTION: select is released after the first byte `code` and any number of others (R172). -/
  | unknownTransaction (mp : Mp) (code : Byte)
  /-- UNKNOWN_COMMAND: the posted command's number names no command (R177). -/
  | unknownCommand (mp : Mp)
  /-- CLAIM (R178). -/
  | claim (mp : Mp)
  /-- RELEASE (R179). -/
  | release (mp : Mp)
  /-- LEASE_EXPIRY (R180). -/
  | leaseExpiry
  /-- SET_EVENT_MASK (R182). -/
  | setEventMask (mp : Mp)
  /-- READ_TABLE (R184). -/
  | readTable (mp : Mp)
  /-- READ_MORE (R185). -/
  | readMore (mp : Mp)
  /-- IDENTIFY (R186). -/
  | identify (mp : Mp)
  /-- RESTART (R187). -/
  | restart (mp : Mp)
  /-- NETWORK_CLEAR (R189). -/
  | networkClear (mp : Mp)
  /-- TICK (R2). -/
  | tick
  /-- MESSAGE_CHARACTER (R193). -/
  | messageCharacter (r : RefId) (c : Character)
  /-- TRANSACTION_BEGIN: the master asserts select (R172). -/
  | transactionBegin (mp : Mp)
deriving DecidableEq, Repr

end Sys2Proof
end

