-- ==== Sys2Proof/Machine/State.lean ====
section
/-! DEFINITION. The state of the part as plain data: every piece of state that the spec gives a block, under the
block's name, and the queue of commands that are waiting. Values at reset are the spec's power-on values; the few the
spec does not give are named in log entry 5. -/

namespace Sys2Proof.Machine

/-! ### Containers of like things -/

/-- One thing for each of four masters or references. -/
structure Four (α : Type) where
  x0 : α
  x1 : α
  x2 : α
  x3 : α
deriving DecidableEq, Repr

/-- The same thing four times. -/
def Four.all {α : Type} (x : α) : Four α := ⟨x, x, x, x⟩

/-- One thing for each of the sixteen lines: line n stands in row n / 4, column n % 4. -/
structure Sixteen (α : Type) where
  rows : Four (Four α)
deriving DecidableEq, Repr

def Sixteen.all {α : Type} (x : α) : Sixteen α := ⟨Four.all (Four.all x)⟩

/-- One thing for each network port. -/
structure Two (α : Type) where
  na : α
  nb : α
deriving DecidableEq, Repr

def Two.all {α : Type} (x : α) : Two α := ⟨x, x⟩

/-! ### Chapter 1: the timescale unit -/

/-- A value of the timescale (R1). -/
structure TimeValue where
  sec  : Nat
  ns   : Nat
  frac : Nat
deriving DecidableEq, Repr

/-- Who made a slew, a step or a leap record: a reference, a master or the engine (R8, R14, R15). -/
inductive Origin where
  | ref (r : RefId)
  | master (mp : Mp)
  | engine
deriving DecidableEq, Repr

inductive SlewOutcome where
  | done
  | cancelled
deriving DecidableEq, Repr

/-- The slew record (R8). The residual is held exactly, in units of 2^-32 ns divided by 10^12, so that it falls by
exactly the part of each tick's advance that the slew term contributed (R9; log entry 7). -/
structure Slew where
  origin    : Origin
  requested : Int
  residual  : Int
  start     : TimeValue
deriving DecidableEq, Repr

/-- The last-slew record (R11, R12); the residual left is in whole nanoseconds, as it is reported (R9). -/
structure LastSlew where
  origin       : Origin
  requested    : Int
  start        : TimeValue
  outcome      : SlewOutcome
  residualLeft : Int
  endRun       : Nat
deriving DecidableEq, Repr

/-- The last-step record (R14). -/
structure LastStep where
  source : Origin
  amount : Int
  before : TimeValue
  after  : TimeValue
  run    : Nat
deriving DecidableEq, Repr

inductive LeapKind where
  | insert
  | delete
deriving DecidableEq, Repr

inductive LeapPhase where
  | pending
  | inserting
deriving DecidableEq, Repr

/-- The leap record (R15). -/
structure Leap where
  kind   : LeapKind
  dayEnd : Int
  source : Origin
  phase  : LeapPhase
deriving DecidableEq, Repr

/-- The timescale unit (R1 to R16). `rem` is what the advance has gathered below the fraction's resolution (R2, log
entry 6). `reachedFrom` is the timescale before the last tick: the instants after it, up to the timescale, are those
reached by advance at this tick (R2); it is absent when no tick has been counted or a step has been made since the
last one (log entry 3). -/
structure TimescaleUnit where
  time        : TimeValue
  rem         : Nat
  rate        : Int
  tickCount   : Nat
  utcOffset   : Nat
  localOffset : Int
  slew        : Option Slew
  slewLimit   : Nat
  lastSlew    : Option LastSlew
  lastStep    : Option LastStep
  leap        : Option Leap
  reachedFrom : Option Instant
deriving DecidableEq, Repr

def TimescaleUnit.powerOn : TimescaleUnit where
  time := ⟨0, 0, 0⟩
  rem := 0
  rate := 0
  tickCount := 0
  utcOffset := 0
  localOffset := 0
  slew := none
  slewLimit := 100
  lastSlew := none
  lastStep := none
  leap := none
  reachedFrom := none

/-! ### Chapter 2: the reference inputs -/

inductive RefKind where
  | off
  | receiver
  | link
  | pulseOnly
deriving DecidableEq, Repr

/-- The nine settings of a reference record (R28). -/
structure RefSettings where
  kind         : RefKind
  priority     : Nat
  compensation : Nat
  polarity     : Edge
  accuracy     : Nat
  qualifyCount : Nat
  holdOff      : Nat
  phaseLimit   : Nat
  baud         : Nat
deriving DecidableEq, Repr

inductive RefState where
  | off
  | seeking
  | qualifying
  | usable
  | heldOff
deriving DecidableEq, Repr

/-- A capture in the latch: the compensated timescale value, the tick count at the edge, and the bad-message-seen mark
(R30). -/
structure Capture where
  value   : Instant
  tick    : Nat
  badSeen : Bool
deriving DecidableEq, Repr

inductive Announcement where
  | none
  | insert (dayEnd : Nat)
  | delete (dayEnd : Nat)
deriving DecidableEq, Repr

/-- The fields of a reference message apart from its check (section 2.3). -/
structure Message where
  kind         : RefKind
  utcCount     : Nat
  utcOffset    : Nat
  accuracy     : Nat
  status       : Nat
  announcement : Announcement
deriving DecidableEq, Repr

/-- The latest measurement record (R38, R40): its cause is MESSAGE exactly when it holds a message, SETTLE
otherwise. -/
structure Measurement where
  run      : Nat
  value    : Instant
  tick     : Nat
  offset   : Int
  accuracy : Nat
  message  : Option Message
deriving DecidableEq, Repr

/-- The gathering condition of the message input with the characters gathered so far (R193). -/
inductive Gather where
  | hunting
  | gathering (chars : List Byte)
deriving DecidableEq, Repr

/-- A reference record: settings (R28), state (R29), dynamic state (R30) and gathering condition (R193). -/
structure Reference where
  settings      : RefSettings
  state         : RefState
  latch         : Option Capture
  lastEdge      : Option Nat
  goodRun       : Nat
  comparison    : Option Int
  missingRun    : Nat
  badRun        : Nat
  phaseRun      : Nat
  disagree      : Bool
  latest        : Option Measurement
  holdOffExpiry : Option Nat
  settleExpiry  : Option Nat
  glitches      : Nat
  missingEdges  : Nat
  messageErrors : Nat
  disqualified  : Nat
  gather        : Gather
deriving DecidableEq, Repr

def RefSettings.powerOn : RefSettings where
  kind := .off
  priority := 15
  compensation := 0
  polarity := .rising
  accuracy := 1000
  qualifyCount := 10
  holdOff := 60
  phaseLimit := 2000
  baud := 9600

def Reference.powerOn : Reference where
  settings := .powerOn
  state := .off
  latch := none
  lastEdge := none
  goodRun := 0
  comparison := none
  missingRun := 0
  badRun := 0
  phaseRun := 0
  disagree := false
  latest := none
  holdOffExpiry := none
  settleExpiry := none
  glitches := 0
  missingEdges := 0
  messageErrors := 0
  disqualified := 0
  gather := .hunting

/-! ### Chapter 3: the discipline engine -/

inductive EngineState where
  | freerun
  | acquiring
  | locked
  | holdover
  | pinned
deriving DecidableEq, Repr

/-- The six settings that the engine holds; the seventh, the slew rate limit, is the timescale unit's (R74). -/
structure EngineSettings where
  timeConstant : Nat
  lockWindow   : Nat
  lockCount    : Nat
  threshold    : Nat
  autoStep     : Bool
  growth       : Nat
deriving DecidableEq, Repr

/-- The anchor that U grows from: a value in picoseconds and a run time (R69). -/
structure Anchor where
  ps  : Nat
  run : Nat
deriving DecidableEq, Repr

inductive EngineAction where
  | initialStep
  | autoStep
  | slew
  | stepNeeded
  | loop
  | ignored
deriving DecidableEq, Repr

/-- The last-measurement record (R58). -/
structure LastMeasurement where
  ref      : RefId
  offset   : Int
  accuracy : Nat
  run      : Nat
  action   : EngineAction
deriving DecidableEq, Repr

/-- The discipline engine. `anchor` is absent when U is unset (R69). `announced` is the grade as the changes of grade
taken so far have left it, the one that the last GRADE_CHANGED told of, or G7 before the first (log entries 17 and
40). -/
structure Engine where
  state           : EngineState
  entryTime       : Nat
  selection       : Option RefId
  settings        : EngineSettings
  integral        : Int
  goodRun         : Nat
  initialStep     : Bool
  stepNeeded      : Bool
  anchor          : Option Anchor
  lastMeasurement : Option LastMeasurement
  announced       : Grade
deriving DecidableEq, Repr

def EngineSettings.powerOn : EngineSettings where
  timeConstant := 64
  lockWindow := 200
  lockCount := 16
  threshold := 500000
  autoStep := true
  growth := 100

def Engine.powerOn : Engine where
  state := .freerun
  entryTime := 0
  selection := none
  settings := .powerOn
  integral := 0
  goodRun := 0
  initialStep := false
  stepNeeded := false
  anchor := none
  lastMeasurement := none
  announced := 7

/-! ### Chapter 4: the mark scheduler -/

/-- A mark (R77) with its taking compensation (R79). Period in milliseconds, width in microseconds. -/
structure Mark where
  id           : Nat
  owner        : Mp
  lines        : BitVec 16
  due          : Instant
  width        : Nat
  period       : Option Nat
  remaining    : Option Nat
  minGrade     : Option Grade
  tag          : Nat
  taking       : Instant
  takingComp   : Nat
  fired        : Nat
  withheld     : Nat
  skipped      : Nat
  partialTakes : Nat
deriving DecidableEq, Repr

inductive MarkOutcome where
  | completed
  | cancelled
deriving DecidableEq, Repr

/-- An outcome record (R93). -/
structure Outcome where
  id           : Nat
  tag          : Nat
  owner        : Mp
  outcome      : MarkOutcome
  lastDue      : Instant
  fired        : Nat
  withheld     : Nat
  skipped      : Nat
  partialTakes : Nat
deriving DecidableEq, Repr

/-! ### Chapters 5 and 6: the output lines and the frame composer -/

inductive LineMode where
  | off
  | pulse
  | coded
  | marks
deriving DecidableEq, Repr

inductive LinePolarity where
  | activeHigh
  | activeLow
deriving DecidableEq, Repr

/-- The six settings of a line (R100): compensation in nanoseconds, period in milliseconds, width in
microseconds. -/
structure LineSettings where
  mode         : LineMode
  polarity     : LinePolarity
  compensation : Nat
  period       : Nat
  width        : Nat
  gate         : Option Grade
deriving DecidableEq, Repr

inductive LineState where
  | off
  | running
  | faulted
deriving DecidableEq, Repr

/-- The three symbols of a frame (R120). -/
inductive Symbol where
  | zero
  | one
  | mark
deriving DecidableEq, Repr

/-- A composed frame: the target second, the field values and the 50 symbols that follow from them (R121, R122). -/
structure Frame where
  target      : Nat
  secOfDay    : Nat
  dayOfYear   : Nat
  year        : Nat
  grade       : Grade
  leapField   : Nat
  localOffset : Int
  symbols     : List Symbol
deriving DecidableEq, Repr

/-- A line's copy of a frame with the compensation fixed for it and the instant of its slot 0 (R123). -/
structure HeldFrame where
  frame        : Frame
  compensation : Nat
  slot0        : Instant
deriving DecidableEq, Repr

inductive PulseKind where
  | pulse
  | mark
deriving DecidableEq, Repr

/-- A line's emission (R103): none, a pulse with its end instant, or a frame in flight with the number of the next
slot to start and, while a symbol's pulse lasts, that symbol's end (R120, R127). -/
inductive Emission where
  | none
  | pulse (kind : PulseKind) (ends : Instant)
  | frame (held : HeldFrame) (nextSlot : Nat) (symbolEnds : Option Instant)
deriving DecidableEq, Repr

/-- A commitment (R109). -/
structure Commitment where
  start : Instant
  ends  : Instant
  mark  : Nat
  owner : Mp
deriving DecidableEq, Repr

/-- The latched flags of a line's status word (R116). -/
structure LineFlags where
  fault        : Bool
  pulseCut     : Bool
  pulseDropped : Bool
  markMerged   : Bool
  frameCut     : Bool
deriving DecidableEq, Repr

/-- An output line. `startAt` and `changeAt` are the tick counts at which the line last acted on a regular start and on
a whole second: an instant is acted on once (log entry 3). `overtaken` is the tick count at which a step last took away a
start that the line had reached and not yet acted on: a load fault that arrives at that tick still enters FAULTED (R114;
log entry 37). -/
structure Line where
  settings    : LineSettings
  pending     : Option LineSettings
  state       : LineState
  emission    : Emission
  commitments : List Commitment
  held        : Option HeldFrame
  flags       : LineFlags
  gated       : Nat
  faults      : Nat
  emissions   : Nat
  startAt     : Option Nat
  changeAt    : Option Nat
  overtaken   : Option Nat
deriving DecidableEq, Repr

def LineSettings.powerOn : LineSettings where
  mode := .off
  polarity := .activeHigh
  compensation := 0
  period := 1000
  width := 10000
  gate := none

def LineFlags.clear : LineFlags := ⟨false, false, false, false, false⟩

def Line.powerOn : Line where
  settings := .powerOn
  pending := none
  state := .off
  emission := .none
  commitments := []
  held := none
  flags := .clear
  gated := 0
  faults := 0
  emissions := 0
  startAt := none
  changeAt := none
  overtaken := none

/-- The frame composer (R122). `composedAt` is the tick count at which a composition was last made (log entry 3). -/
structure Composer where
  frame      : Option Frame
  composedAt : Option Nat
deriving DecidableEq, Repr

/-! ### Chapter 7: the process network ports -/

/-- The seven settings of the network ports (R135): interval and spacing in milliseconds, straggler limit in
nanoseconds, idle limit in beacon intervals. -/
structure NetSettings where
  enable         : Two Bool
  address        : NetAddress
  interval       : Nat
  spacing        : Nat
  stragglerLimit : Nat
  idleLimit      : Nat
deriving DecidableEq, Repr

inductive LinkState where
  | down
  | up
deriving DecidableEq, Repr

inductive PortState where
  | disabled
  | down
  | active
deriving DecidableEq, Repr

/-- A beacon as it left (R140). -/
structure BeaconFrame where
  sequence    : Nat
  source      : NetAddress
  departure   : Instant
  utcOffset   : Nat
  leap        : Option Leap
  grade       : Grade
  uncertainty : Nat
  engineState : EngineState
  refKind     : Option RefKind
  interval    : Nat
deriving DecidableEq, Repr

/-- An answer, queued or on the wire (R142). `t1` is echoed as the ten bytes the ask carried. -/
structure Answer where
  destination : NetAddress
  tag         : BitVec 16
  sequence    : BitVec 16
  t1          : List Byte
  t2          : Instant
  t3          : Option Instant
  untracked   : Bool
  grade       : Grade
deriving DecidableEq, Repr

/-- What a port's wire carries (R141, R151); an answer leaves from the station address as it stood at the
departure (R136). -/
inductive Wire where
  | idle
  | beacon (b : BeaconFrame)
  | answer (a : Answer) (source : NetAddress)
deriving DecidableEq, Repr

/-- A frame being received: the timescale and the run counter at its timing point, and whether a step has marked it
(R143). -/
structure Reception where
  t2     : Instant
  run    : Nat
  marked : Bool
deriving DecidableEq, Repr

/-- The counters of a port (R148), each 32 bits and wrapping. -/
structure PortCounters where
  beaconsSent   : Nat
  answersSent   : Nat
  untracked     : Nat
  unknown       : Nat
  notReady      : Nat
  repeats       : Nat
  spacing       : Nat
  queueFull     : Nat
  stepFlush     : Nat
  linkFlush     : Nat
  receiveErrors : Nat
  linkLosses    : Nat
deriving DecidableEq, Repr

def PortCounters.zero : PortCounters := ⟨0, 0, 0, 0, 0, 0, 0, 0, 0, 0, 0, 0⟩

/-- A network port. `pendingBeacon` holds the interval under which a pending beacon was scheduled (R150). -/
structure NetPort where
  link          : LinkState
  queue         : List Answer
  wire          : Wire
  pendingBeacon : Option Nat
  nextDue       : Instant
  beaconSeq     : Nat
  reception     : Option Reception
  counters      : PortCounters
deriving DecidableEq, Repr

def NetSettings.powerOn : NetSettings where
  enable := Two.all false
  address := 0
  interval := 1000
  spacing := 100
  stragglerLimit := 1000
  idleLimit := 32

/-- A port after power-on; the first due instant after 0 s at 1,000 ms is 1 s (R152). The link indication is the
physical layer's. -/
def NetPort.powerOn (link : LinkState) : NetPort where
  link := link
  queue := []
  wire := .idle
  pendingBeacon := none
  nextDue := 1000000000
  beaconSeq := 0
  reception := none
  counters := .zero

structure Network where
  settings : NetSettings
  ports    : Two NetPort
deriving DecidableEq, Repr

/-! ### Chapter 8: the client table -/

inductive ClientState where
  | new
  | tracked
  | straggler
deriving DecidableEq, Repr

/-- A port sub-record (R155). -/
structure SubRecord where
  sequence    : BitVec 16
  answeredRun : Nat
  lastArrival : Instant
  answered    : Nat
  refused     : Nat
  repeats     : Nat
deriving DecidableEq, Repr

/-- A self-report taken from an ask (R156). -/
structure SelfReport where
  offset    : Int
  pathDelay : Nat
  grade     : Grade
  arrival   : Instant
  port      : NetId
deriving DecidableEq, Repr

/-- An entry of the client table (R154). -/
structure Client where
  slot    : Nat
  address : NetAddress
  tag     : BitVec 16
  state   : ClientState
  subA    : Option SubRecord
  subB    : Option SubRecord
  report  : Option SelfReport
deriving DecidableEq, Repr

/-- The client table: its entries in increasing slot; a slot of 0 to 95 that no entry names is free (R154).
`checkedAt` is the tick count at which an idle check was last made (log entry 3). -/
structure ClientTable where
  entries   : List Client
  checkedAt : Option Nat
deriving DecidableEq, Repr

/-! ### Chapter 9: the master ports and the control claim -/

inductive Handshake where
  | idle
  | busy
  | done
deriving DecidableEq, Repr

/-- The result codes (10.3). -/
inductive ResultCode where
  | ok
  | unknown
  | params
  | claimNeeded
  | state
  | range
  | claimed
  | notHolder
  | slewBusy
  | full
  | quota
  | tooLate
  | notFound
  | notOwner
deriving DecidableEq, Repr

/-- A result: its code and its 16 words (R171). -/
structure Result where
  code  : ResultCode
  words : List Word
deriving DecidableEq, Repr

/-- A posted command in the command slot (R171). -/
structure Posted where
  number : Byte
  count  : Nat
  words  : List Word
deriving DecidableEq, Repr

/-- The communication error flags (R176). -/
structure ErrorFlags where
  unknownTransaction : Bool
  length             : Bool
  resultOverwritten  : Bool
deriving DecidableEq, Repr

def ErrorFlags.clear : ErrorFlags := ⟨false, false, false⟩

/-- The tables of R184. -/
inductive Table where
  | references
  | lines
  | marks
  | clients
  | ports
deriving DecidableEq, Repr

structure Cursor where
  table : Table
  slot  : Nat
deriving DecidableEq, Repr

/-- What is fixed when a transaction begins: the header, and the mailbox data it may shift out and later clear
(R172). `stateBytes` are the nine bytes of READ_STATE (10.1). -/
structure Transaction where
  header     : Byte
  handshake  : Handshake
  result     : Option Result
  stateBytes : List Byte
  summary    : BitVec 16
  errors     : ErrorFlags
deriving DecidableEq, Repr

/-- A master port: its mailbox (R171), its event summary and mask (R181, R182), the transaction in progress, and the
bytes shifted out in the transaction last begun or ended (log entry 15). -/
structure MasterPort where
  params      : List Word
  slot        : Option Posted
  result      : Option Result
  handshake   : Handshake
  lastCommand : Option Byte
  errors      : ErrorFlags
  cursor      : Option Cursor
  summary     : BitVec 16
  mask        : BitVec 16
  transaction : Option Transaction
  dataOut     : List Byte
deriving DecidableEq, Repr

/-- A mailbox after power-on: RESTARTED (bit 0) alone set, every flag unmasked (R171). -/
def MasterPort.powerOn : MasterPort where
  params := List.replicate 16 0
  slot := none
  result := none
  handshake := .idle
  lastCommand := none
  errors := .clear
  cursor := none
  summary := 1
  mask := 0
  transaction := none
  dataOut := []

/-- The control claim record (R178). -/
structure Claim where
  holder : Mp
  expiry : Nat
deriving DecidableEq, Repr

/-! ### The whole part -/

/-- The part stops on nothing: the spec gives every command an effect, or none, and the machine goes on. So no reason
for a fault exists. -/
inductive Fault where
deriving DecidableEq, Repr

/-- Why a command has no meaning in the model. -/
inductive Refusal where
  /-- Raised only by an arm of exec that has no meaning yet; it stops where the part goes on, which is safe. -/
  | notModelled (mnemonic : String)
deriving DecidableEq, Repr

/-- The state of the part, with the queue of commands that are waiting, first in first out. -/
structure State where
  pending   : List Instr
  resetHeld : Bool
  ts        : TimescaleUnit
  refs      : Four Reference
  engine    : Engine
  marks     : List Mark
  outcomes  : Four (List Outcome)
  lines     : Sixteen Line
  composer  : Composer
  net       : Network
  clients   : ClientTable
  ports     : Four MasterPort
  claim     : Option Claim
deriving DecidableEq, Repr

/-- The part in its power-on state, with the queue, the RESET input and the link indications given (R190; R137: a link
indication is whatever its physical layer reports). -/
def State.powerOn (pending : List Instr) (held : Bool) (linkA linkB : LinkState) : State where
  pending := pending
  resetHeld := held
  ts := .powerOn
  refs := Four.all .powerOn
  engine := .powerOn
  marks := []
  outcomes := Four.all []
  lines := Sixteen.all .powerOn
  composer := ⟨none, none⟩
  net := ⟨.powerOn, ⟨.powerOn linkA, .powerOn linkB⟩⟩
  clients := ⟨[], none⟩
  ports := Four.all .powerOn
  claim := none

/-- The machine right after reset: power-on values, RESET released, both links down (log entries 4 and 5), nothing
waiting. -/
def State.reset : State := State.powerOn [] false .down .down

end Sys2Proof.Machine
end

