-- ==== Sys2Proof/Machine/Ops.lean ====
section
/-! DEFINITION. The named operations the meanings share: the containers of like things, the timescale as a number and
the instants it reaches, run time, counters, and ordered lists. -/

namespace Sys2Proof.Machine

open Sys2Proof

/-! ### Containers -/

def Four.get {α : Type} (q : Four α) (i : Fin 4) : α :=
  match i with
  | 0 => q.x0
  | 1 => q.x1
  | 2 => q.x2
  | 3 => q.x3

def Four.set {α : Type} (q : Four α) (i : Fin 4) (x : α) : Four α :=
  match i with
  | 0 => { q with x0 := x }
  | 1 => { q with x1 := x }
  | 2 => { q with x2 := x }
  | 3 => { q with x3 := x }

def Four.map {α β : Type} (f : α → β) (q : Four α) : Four β := ⟨f q.x0, f q.x1, f q.x2, f q.x3⟩

def Four.mapIdx {α β : Type} (f : Fin 4 → α → β) (q : Four α) : Four β := ⟨f 0 q.x0, f 1 q.x1, f 2 q.x2, f 3 q.x3⟩

/-- The row and the column at which a line stands. -/
def lineRow (l : LineId) : Fin 4 := ⟨l.val / 4, by omega⟩
def lineColumn (l : LineId) : Fin 4 := ⟨l.val % 4, by omega⟩

/-- The line that stands at a row and a column. -/
def lineAt (row column : Fin 4) : LineId := ⟨4 * row.val + column.val, by omega⟩

def Sixteen.get {α : Type} (q : Sixteen α) (l : LineId) : α := (q.rows.get (lineRow l)).get (lineColumn l)

def Sixteen.set {α : Type} (q : Sixteen α) (l : LineId) (x : α) : Sixteen α :=
  ⟨q.rows.set (lineRow l) ((q.rows.get (lineRow l)).set (lineColumn l) x)⟩

def Sixteen.map {α β : Type} (f : α → β) (q : Sixteen α) : Sixteen β := ⟨q.rows.map (Four.map f)⟩

/-- Each of the sixteen by its number. -/
def Sixteen.mapIdx {α β : Type} (f : LineId → α → β) (q : Sixteen α) : Sixteen β :=
  ⟨q.rows.mapIdx fun r row => row.mapIdx fun c x => f (lineAt r c) x⟩

def Two.get {α : Type} (q : Two α) (p : NetId) : α :=
  match p with
  | .na => q.na
  | .nb => q.nb

def Two.set {α : Type} (q : Two α) (p : NetId) (x : α) : Two α :=
  match p with
  | .na => { q with na := x }
  | .nb => { q with nb := x }

def Two.map {α β : Type} (f : α → β) (q : Two α) : Two β := ⟨f q.na, f q.nb⟩

/-! ### State by its parts -/

def State.ref (s : State) (r : RefId) : Reference := s.refs.get r
def State.setRef (s : State) (r : RefId) (x : Reference) : State := { s with refs := s.refs.set r x }

def State.line (s : State) (l : LineId) : Line := s.lines.get l
def State.setLine (s : State) (l : LineId) (x : Line) : State := { s with lines := s.lines.set l x }

def State.port (s : State) (mp : Mp) : MasterPort := s.ports.get mp
def State.setPort (s : State) (mp : Mp) (x : MasterPort) : State := { s with ports := s.ports.set mp x }

def State.netPort (s : State) (p : NetId) : NetPort := s.net.ports.get p
def State.setNetPort (s : State) (p : NetId) (x : NetPort) : State :=
  { s with net := { s.net with ports := s.net.ports.set p x } }

def State.queue (s : State) (mp : Mp) : List Outcome := s.outcomes.get mp
def State.setQueue (s : State) (mp : Mp) (q : List Outcome) : State := { s with outcomes := s.outcomes.set mp q }

def State.setTs (s : State) (ts : TimescaleUnit) : State := { s with ts := ts }
def State.setEngine (s : State) (e : Engine) : State := { s with engine := e }

/-! ### The timescale as a number (R1) -/

def TimeValue.toNs (t : TimeValue) : Instant := t.sec * Config.nsPerSec + t.ns

def TimeValue.ofNs (n : Instant) (frac : Nat) : TimeValue := ⟨n / Config.nsPerSec, n % Config.nsPerSec, frac⟩

/-- The timescale now, in whole nanoseconds with the fraction dropped. -/
def State.nowNs (s : State) : Instant := s.ts.time.toNs

/-- Run time in milliseconds: the tick count divided by 250,000, rounded toward zero (R4). -/
def State.run (s : State) : Nat := s.ts.tickCount / Config.ticksPerMs

/-! ### Instants reached (R2) -/

/-- Instant `t` was reached by advance at this tick: it lies after the timescale before the tick and not after the
timescale now (R2). `t` may be negative, for an instant before the return of the timescale to 0 (R1). -/
def State.reachedNow (s : State) (t : Int) : Bool :=
  match s.ts.reachedFrom with
  | none => false
  | some f =>
    let low : Int := if f ≤ s.nowNs then f else (f : Int) - Config.nsRange
    decide (low < t ∧ t ≤ s.nowNs)

/-- An instant held by a mark or a commitment has been reached: it is not ahead of the timescale, or it was passed at
this tick as the timescale returned to 0. A backward step leaves it ahead again (R88, R90). -/
def State.hasReached (s : State) (t : Instant) : Bool :=
  decide (t ≤ s.nowNs) || s.reachedNow ((t : Int) - Config.nsRange)

/-- Instant `a` is not after instant `b`, for two instants less than half the range apart; the comparison is made round
the return of the timescale to 0 (log entry 28). -/
def notAfter (a b : Instant) : Bool :=
  decide ((b + Config.nsRange - a % Config.nsRange) % Config.nsRange < Config.nsRange / 2)

/-- The later of two instants, less than half the range apart (R110). -/
def laterOf (a b : Instant) : Instant := if notAfter b a then a else b

/-- An instant less than half the range away, held by a block for what is in flight or comes next, has been reached. -/
def State.hasPassed (s : State) (t : Instant) : Bool := notAfter t s.nowNs

/-- The latest instant not after the timescale that is a whole multiple of `span` nanoseconds less `early`. -/
def State.latestMultiple (s : State) (span early : Nat) : Int :=
  (((s.nowNs + early) / span * span : Nat) : Int) - early

/-- The instant `t`, brought into the range of the timescale (R1). -/
def wrapInstant (t : Int) : Instant := (t % Config.nsRange).toNat

/-! ### Counters -/

/-- A 16-bit counter that saturates. -/
def sat16 (n : Nat) : Nat := if n < 65535 then n + 1 else n

/-- A 16-bit counter that saturates, raised by `k`. -/
def sat16By (n k : Nat) : Nat := min (n + k) 65535

/-- A consecutive count, which stops at 3 (R30). -/
def upTo3 (n : Nat) : Nat := if n < 3 then n + 1 else n

/-- A 32-bit counter that wraps. -/
def wrap32 (n k : Nat) : Nat := (n + k) % 2 ^ 32

/-- A signed quantity held to a range. -/
def clampInt (lo hi x : Int) : Int := if x < lo then lo else if hi < x then hi else x

/-! ### Ordered lists -/

/-- Put `x` in its place: before the first element `y` for which `after y x` says that it comes after `x`. -/
def insertBy {α : Type} (after : α → α → Bool) (x : α) : List α → List α
  | [] => [x]
  | y :: ys => if after y x then x :: y :: ys else y :: insertBy after x ys

/-- The lowest number below `bound` that is not in use. -/
def lowestFree (used : List Nat) (bound : Nat) : Option Nat :=
  (List.range bound).find? fun n => !used.contains n

/-- The lines in increasing number. -/
def allLines : List LineId := List.finRange 16

/-! ### While the RESET input is held -/

/-- While the RESET input is held, every block is held in its power-on state and no event acts (R190). -/
def State.unlessHeld (s : State) (f : State → State) : State := if s.resetHeld then s else f s

end Sys2Proof.Machine
end

