-- ==== Sys2Proof/Machine/Flags.lean ====
section
/-! DEFINITION. The flags: the sixteen events and the masters' summaries (R181), the attention line (R182), the
communication error flags (R176) and the header (10.1), and the shown fields of a line that are computed rather than
held (R103, R107, R116). -/

namespace Sys2Proof.Machine

open Sys2Proof

/-! ### Events and summaries -/

/-- The sixteen events (R181), in the order of their bits (10.1). -/
inductive Event where
  | restarted
  | stateChanged
  | gradeChanged
  | selectionChanged
  | refChanged
  | stepTaken
  | slewEnded
  | leapTaken
  | stepNeeded
  | claimTaken
  | claimEnded
  | lineFault
  | straggler
  | clientLost
  | outcomesReady
  | outcomeOverrun
deriving DecidableEq, Repr

/-- The bit of an event in the summary and the mask (10.1). -/
def Event.bit : Event → Nat
  | .restarted => 0
  | .stateChanged => 1
  | .gradeChanged => 2
  | .selectionChanged => 3
  | .refChanged => 4
  | .stepTaken => 5
  | .slewEnded => 6
  | .leapTaken => 7
  | .stepNeeded => 8
  | .claimTaken => 9
  | .claimEnded => 10
  | .lineFault => 11
  | .straggler => 12
  | .clientLost => 13
  | .outcomesReady => 14
  | .outcomeOverrun => 15

def Event.flag (e : Event) : BitVec 16 := BitVec.ofNat 16 (2 ^ e.bit)

/-- A port's summary with an event's flag set; a flag already set stays set (R181). -/
def MasterPort.withFlag (p : MasterPort) (e : Event) : MasterPort := { p with summary := p.summary ||| e.flag }

/-- The event's flag is set in the port's summary. -/
def MasterPort.has (p : MasterPort) (e : Event) : Bool := p.summary &&& e.flag != 0

/-- Post an event in every master's summary (R181). -/
def State.post (s : State) (e : Event) : State := { s with ports := s.ports.map (·.withFlag e) }

/-- Post an event in one master's summary (R181: OUTCOMES_READY and OUTCOME_OVERRUN). -/
def State.postTo (s : State) (mp : Mp) (e : Event) : State := s.setPort mp ((s.port mp).withFlag e)

/-- The attention line is asserted while at least one flag of the summary is set and unmasked (R182). -/
def MasterPort.attention (p : MasterPort) : Bool := p.summary &&& ~~~p.mask != 0

/-- The level of a port's attention output: asserted once the RESET input is released (R190). -/
def State.attentionOutput (s : State) (mp : Mp) : Bool := !s.resetHeld && (s.port mp).attention

/-! ### The mailbox's flags and header -/

def ErrorFlags.any (e : ErrorFlags) : Bool := e.unknownTransaction || e.length || e.resultOverwritten

/-- The error byte of READ_ERRORS (10.1). -/
def ErrorFlags.toByte (e : ErrorFlags) : Byte :=
  BitVec.ofNat 8 (e.unknownTransaction.toNat + 2 * e.length.toNat + 4 * e.resultOverwritten.toNat)

/-- Clear the flags that `shown` holds as set (R176). -/
def ErrorFlags.without (e shown : ErrorFlags) : ErrorFlags :=
  ⟨e.unknownTransaction && !shown.unknownTransaction, e.length && !shown.length,
    e.resultOverwritten && !shown.resultOverwritten⟩

def Handshake.code : Handshake → Nat
  | .idle => 0
  | .busy => 1
  | .done => 2

/-- The header (10.1): handshake in bits 1:0, attention line in bit 2, any error flag in bit 3, port index in bits 5:4,
then 1, 0 in bits 7:6. -/
def MasterPort.header (p : MasterPort) (mp : Mp) : Byte :=
  BitVec.ofNat 8 (p.handshake.code + 4 * p.attention.toNat + 8 * p.errors.any.toNat + 16 * mp.val + 128)

/-! ### Shown fields of a line -/

/-- The output is active: during a pulse in flight, and during each symbol of a frame in flight (R103). -/
def Line.active (l : Line) : Bool :=
  match l.emission with
  | .none => false
  | .pulse _ _ => true
  | .frame _ _ symbolEnds => symbolEnds.isSome

/-- The level of the driver: the inactive level is low for ACTIVE_HIGH and high for ACTIVE_LOW (R103). -/
def Line.level (l : Line) : Bool :=
  match l.settings.polarity with
  | .activeHigh => l.active
  | .activeLow => !l.active

/-- While the RESET input is held every output is driven low (R103). -/
def State.outputLevel (s : State) (l : LineId) : Bool := !s.resetHeld && (s.line l).level

/-- A grade gate that is present passes the grades not worse than it (R107). -/
def gatePasses (gate : Option Grade) (grade : Grade) : Bool :=
  match gate with
  | none => true
  | some g => decide (grade ≤ g)

/-- GATED: RUNNING in PULSE or MARKS mode with a gate present and the grade worse than it (R107). -/
def Line.gatedNow (l : Line) (grade : Grade) : Bool :=
  decide (l.state = .running) && (decide (l.settings.mode = .pulse) || decide (l.settings.mode = .marks))
    && !gatePasses l.settings.gate grade

/-- The current CODED slot while a frame is in flight: the slot whose span contains the timescale (R116, R127). -/
def State.codedSlot (s : State) (l : Line) : Option Nat :=
  match l.emission with
  | .frame held _ _ => some (min 49 (wrapInstant ((s.nowNs : Int) - held.slot0) / 20000000))
  | _ => none

/-- The line is RUNNING with effective mode CODED (R123). -/
def Line.runningCoded (l : Line) : Bool := decide (l.state = .running) && decide (l.settings.mode = .coded)

end Sys2Proof.Machine
end

