-- ==== Sys2Proof/Machine/Operands.lean ====
section
/-! DEFINITION. Operand forms: the packing of fields into mailbox words (10.2), the codes of enumerations (10.2,
10.3), and the decoding of every posted command's parameters with the range checks of its rule (R192). -/

namespace Sys2Proof.Machine

open Sys2Proof

/-! ### Packing results -/

/-- A field of a result: so many bits with a value, an instant in a word of its own, or a place at which the next
field must begin a word of its own (10.2). -/
inductive Field where
  | bits (width value : Nat)
  | instant (value : Nat)
  | newWord
deriving DecidableEq, Repr

/-- The same field with its bits 0, for an absent optional field (10.2). -/
def Field.blank : Field → Field
  | .bits w _ => .bits w 0
  | .instant _ => .instant 0
  | .newWord => .newWord

/-- Words packed so far, newest first, with the current word and the next free bit in it. -/
structure Packing where
  done : List Nat
  word : Nat
  pos  : Nat
deriving DecidableEq, Repr

def Packing.closeWord (p : Packing) : Packing := if p.pos = 0 then p else ⟨p.word :: p.done, 0, 0⟩

/-- Place one field: in the next free bits of the current word, or at bit 0 of the next word (10.2). -/
def Packing.place (p : Packing) : Field → Packing
  | .bits w v =>
    let q := if p.pos + w ≤ 128 then p else p.closeWord
    { q with word := q.word + v % 2 ^ w * 2 ^ q.pos, pos := q.pos + w }
  | .instant v =>
    let q := p.closeWord
    { q with done := v % 2 ^ 128 :: q.done }
  | .newWord => p.closeWord

/-- The words that a list of fields fills (10.2). -/
def pack (fs : List Field) : List Word :=
  ((fs.foldl Packing.place ⟨[], 0, 0⟩).closeWord.done.reverse).map (BitVec.ofNat 128)

/-- The 16 words of a result: words that no field occupies are 0 (10.2). -/
def resultWords (ws : List Word) : List Word := (ws ++ List.replicate 16 0).take 16

def fCode (n : Nat) : Field := .bits 8 n
def fFlag (b : Bool) : Field := .bits 8 b.toNat
def fSigned (w : Nat) (x : Int) : Field := .bits w (x % 2 ^ w).toNat

/-- An instant's word: seconds in bits 127:64, nanoseconds in bits 63:32, fraction in bits 31:0 (10.2). -/
def fTime (t : TimeValue) : Field := .instant (t.sec * 2 ^ 64 + t.ns * 2 ^ 32 + t.frac)
def fInstant (t : Instant) : Field := fTime (TimeValue.ofNs t 0)

/-- A step amount in a signed 64-bit field; an amount that does not fit one gives a free value (log entry 9). -/
def fAmount (a : Int) : Field :=
  if -(2 ^ 63) ≤ a ∧ a < 2 ^ 63 then fSigned 64 a else .bits 64 (Config.freeAmountBits a)

/-- An optional field or group: a presence field, then the fields, with their bits 0 when absent (10.2). `shape` is any
value of the group's type: it gives the widths. -/
def fOption {α : Type} (o : Option α) (shape : α) (fields : α → List Field) : List Field :=
  match o with
  | none => fCode 0 :: (fields shape).map Field.blank
  | some x => fCode 1 :: fields x

/-! ### Codes of enumerations (10.2) -/

def Origin.code : Origin → Nat
  | .ref r => r.val
  | .master mp => 16 + mp.val
  | .engine => 32

def EngineState.code : EngineState → Nat
  | .freerun => 0
  | .acquiring => 1
  | .locked => 2
  | .holdover => 3
  | .pinned => 4

def RefKind.code : RefKind → Nat
  | .off => 0
  | .receiver => 1
  | .link => 2
  | .pulseOnly => 3

def Edge.code : Edge → Nat
  | .rising => 0
  | .falling => 1

/-- The reference state shown: SELECTED in place of USABLE for the selected reference (R29). -/
def RefState.shownCode (st : RefState) (selected : Bool) : Nat :=
  match st with
  | .off => 0
  | .seeking => 1
  | .qualifying => 2
  | .usable => if selected then 5 else 3
  | .heldOff => 4

def LeapKind.code : LeapKind → Nat
  | .insert => 1
  | .delete => 2

def LeapPhase.code : LeapPhase → Nat
  | .pending => 0
  | .inserting => 1

def Announcement.code : Announcement → Nat
  | .none => 0
  | .insert _ => 1
  | .delete _ => 2

def Announcement.dayEnd : Announcement → Nat
  | .none => 0
  | .insert d => d
  | .delete d => d

def SlewOutcome.code : SlewOutcome → Nat
  | .done => 0
  | .cancelled => 1

def MarkOutcome.code : MarkOutcome → Nat
  | .completed => 0
  | .cancelled => 1

def LineMode.code : LineMode → Nat
  | .off => 0
  | .pulse => 1
  | .coded => 2
  | .marks => 3

def LineState.code : LineState → Nat
  | .off => 0
  | .running => 1
  | .faulted => 2

def LinePolarity.code : LinePolarity → Nat
  | .activeHigh => 0
  | .activeLow => 1

def PortState.code : PortState → Nat
  | .disabled => 0
  | .down => 1
  | .active => 2

def LinkState.code : LinkState → Nat
  | .down => 0
  | .up => 1

def ClientState.code : ClientState → Nat
  | .new => 0
  | .tracked => 1
  | .straggler => 2

def NetId.code : NetId → Nat
  | .na => 0
  | .nb => 1

def Table.code : Table → Nat
  | .references => 0
  | .lines => 1
  | .marks => 2
  | .clients => 3
  | .ports => 4

/-- The action of a last-measurement record: its position in the list of R58. -/
def EngineAction.code : EngineAction → Nat
  | .initialStep => 0
  | .autoStep => 1
  | .slew => 2
  | .stepNeeded => 3
  | .loop => 4
  | .ignored => 5

/-- What the wire carries: its position in the list of R151. -/
def Wire.code : Wire → Nat
  | .idle => 0
  | .beacon _ => 1
  | .answer _ _ => 2

def ResultCode.code : ResultCode → Nat
  | .ok => 0x00
  | .unknown => 0x01
  | .params => 0x02
  | .claimNeeded => 0x03
  | .state => 0x04
  | .range => 0x05
  | .claimed => 0x10
  | .notHolder => 0x11
  | .slewBusy => 0x12
  | .full => 0x13
  | .quota => 0x14
  | .tooLate => 0x15
  | .notFound => 0x16
  | .notOwner => 0x17

/-! ### Unpacking parameters -/

/-- The shape of a parameter: so many bits, or an instant in a word of its own (10.2). -/
inductive Param where
  | bits (width : Nat)
  | instant
deriving DecidableEq, Repr

def wordAt (ws : List Word) (k : Nat) : Nat := (ws.getD k 0).toNat

/-- Read the parameters of a command from its words, from word `k` bit `pos` on (10.2). -/
def unpackFrom (ws : List Word) (k pos : Nat) : List Param → List Nat
  | [] => []
  | .bits w :: ps =>
    if pos + w ≤ 128 then wordAt ws k / 2 ^ pos % 2 ^ w :: unpackFrom ws k (pos + w) ps
    else wordAt ws (k + 1) % 2 ^ w :: unpackFrom ws (k + 1) w ps
  | .instant :: ps =>
    if pos = 0 then wordAt ws k :: unpackFrom ws (k + 1) 0 ps
    else wordAt ws (k + 1) :: unpackFrom ws (k + 2) 0 ps

def unpack (ws : List Word) (ps : List Param) : List Nat := unpackFrom ws 0 0 ps

/-- A two's complement field of `w` bits. -/
def toSigned (w n : Nat) : Int := if n < 2 ^ (w - 1) then n else (n : Int) - 2 ^ w

/-- A quantity within its range. -/
def inRange (lo hi n : Nat) : Option Nat := if lo ≤ n ∧ n ≤ hi then some n else none

/-- An instant parameter: refused when its seconds exceed 2^48 - 1 or its nanoseconds 999,999,999; its fraction is
disregarded (R192). -/
def instantOf (w : Nat) : Option Instant :=
  let sec := w / 2 ^ 64
  let ns := w / 2 ^ 32 % 2 ^ 32
  if sec < Config.secRange ∧ ns < Config.nsPerSec then some (sec * Config.nsPerSec + ns) else none

def flagOf (n : Nat) : Option Bool :=
  match n with
  | 0 => some false
  | 1 => some true
  | _ => none

/-- An optional parameter: its presence field, then its value where present; when absent its bits are ignored
(R192). -/
def optionOf {α : Type} (presence : Nat) (value : Option α) : Option (Option α) :=
  match presence with
  | 0 => some none
  | 1 => value.map some
  | _ => none

def gradeOf (n : Nat) : Option Grade := if h : n < 8 then some ⟨n, h⟩ else none

/-- A grade from G0 to G6 (R77, R100). -/
def gateOf (n : Nat) : Option Grade := if n ≤ 6 then gradeOf n else none

def refKindOf (n : Nat) : Option RefKind :=
  match n with
  | 0 => some .off
  | 1 => some .receiver
  | 2 => some .link
  | 3 => some .pulseOnly
  | _ => none

def edgeOf (n : Nat) : Option Edge :=
  match n with
  | 0 => some .rising
  | 1 => some .falling
  | _ => none

def leapKindOf (n : Nat) : Option LeapKind :=
  match n with
  | 1 => some .insert
  | 2 => some .delete
  | _ => none

def lineModeOf (n : Nat) : Option LineMode :=
  match n with
  | 0 => some .off
  | 1 => some .pulse
  | 2 => some .coded
  | 3 => some .marks
  | _ => none

def linePolarityOf (n : Nat) : Option LinePolarity :=
  match n with
  | 0 => some .activeHigh
  | 1 => some .activeLow
  | _ => none

def netIdOf (n : Nat) : Option NetId :=
  match n with
  | 0 => some .na
  | 1 => some .nb
  | _ => none

def tableOf (n : Nat) : Option Table :=
  match n with
  | 0 => some .references
  | 1 => some .lines
  | 2 => some .marks
  | 3 => some .clients
  | 4 => some .ports
  | _ => none

def refIdOf (n : Nat) : Option RefId := if h : n < 4 then some ⟨n, h⟩ else none
def lineIdOf (n : Nat) : Option LineId := if h : n < 16 then some ⟨n, h⟩ else none

/-- A group address has the least significant bit of its first byte one (R136); the first byte stands in bits
47:40. -/
def isGroup (a : NetAddress) : Bool := a.getLsbD 40

/-! ### The parameters of each command, with the ranges its rule gives -/

/-- SET_TIME: the value and the declared uncertainty in nanoseconds (R20, 10.4). -/
def setTimeParams (ws : List Word) : Option (Instant × Nat) :=
  match unpack ws [.instant, .bits 32] with
  | [t, u] => do
    let t ← instantOf t
    some (t, u)
  | _ => none

/-- STEP_BY: a signed amount of 64 bits (R22). -/
def stepByParams (ws : List Word) : Int := toSigned 64 (wordAt ws 0 % 2 ^ 64)

/-- SLEW_BY: a signed amount of 32 bits, of magnitude 1 to 1,000,000,000 ns (R23). -/
def slewByParams (ws : List Word) : Option Int :=
  let a := toSigned 32 (wordAt ws 0 % 2 ^ 32)
  if 1 ≤ a.natAbs ∧ a.natAbs ≤ Config.nsPerSec then some a else none

/-- SET_LEAP: kind and day end (R24). -/
def setLeapParams (ws : List Word) : Option (LeapKind × Int) :=
  match unpack ws [.bits 8, .bits 64] with
  | [k, d] => do
    let k ← leapKindOf k
    some (k, toSigned 64 d)
  | _ => none

/-- SET_UTC_OFFSET: a value of 8 bits (R25; the range 0 to 255 takes 8 bits, 10.2). -/
def setUtcOffsetParams (ws : List Word) : Nat := wordAt ws 0 % 2 ^ 8

/-- SET_LOCAL_OFFSET: a signed value of 8 bits, -48 to 56 (R26). -/
def setLocalOffsetParams (ws : List Word) : Option Int :=
  let x := toSigned 8 (wordAt ws 0 % 2 ^ 8)
  if -48 ≤ x ∧ x ≤ 56 then some x else none

/-- SET_REFERENCE: the index and the nine settings (R28, R48). -/
def setReferenceParams (ws : List Word) : Option (RefId × RefSettings) :=
  match unpack ws [.bits 8, .bits 8, .bits 8, .bits 16, .bits 8, .bits 16, .bits 8, .bits 16, .bits 32, .bits 32] with
  | [i, k, pr, comp, pol, acc, q, h, ph, b] => do
    let i ← refIdOf i
    let k ← refKindOf k
    let pr ← inRange 0 15 pr
    let pol ← edgeOf pol
    let q ← inRange 3 60 q
    let h ← inRange 10 3600 h
    let ph ← inRange 100 1000000 ph
    if b = 9600 ∨ b = 19200 ∨ b = 38400 ∨ b = 115200 then some (i, ⟨k, pr, comp, pol, acc, q, h, ph, b⟩) else none
  | _ => none

/-- READ_REFERENCE: a reference index (R50). -/
def readReferenceParams (ws : List Word) : Option RefId := refIdOf (wordAt ws 0 % 2 ^ 8)

/-- SET_ENGINE: the six settings of the engine and the slew rate limit in ppm (R74). -/
def setEngineParams (ws : List Word) : Option (EngineSettings × Nat) :=
  match unpack ws [.bits 16, .bits 32, .bits 8, .bits 32, .bits 8, .bits 32, .bits 16] with
  | [tc, win, cnt, thr, auto, g, lim] => do
    let tc ← inRange 16 1024 tc
    let win ← inRange 10 100000 win
    let cnt ← inRange 4 64 cnt
    let thr ← inRange 1000 1000000000 thr
    let auto ← flagOf auto
    let g ← inRange 0 1000000 g
    let lim ← inRange 1 500 lim
    some (⟨tc, win, cnt, thr, auto, g⟩, lim)
  | _ => none

/-- PIN: the declared uncertainty in nanoseconds, 32 bits like SET_TIME's (R67; log entry 14). -/
def pinParams (ws : List Word) : Nat := wordAt ws 0 % 2 ^ 32

/-- What ADD_MARK carries (R80). -/
structure MarkParams where
  lines     : BitVec 16
  due       : Instant
  width     : Nat
  period    : Option Nat
  remaining : Option Nat
  minGrade  : Option Grade
  tag       : Nat
deriving DecidableEq, Repr

/-- ADD_MARK's second check: every parameter within its range, the width less than the period in the same unit, and a
remaining count only with a period (R80). -/
def addMarkParams (ws : List Word) : Option MarkParams :=
  match unpack ws [.bits 16, .instant, .bits 32, .bits 8, .bits 32, .bits 8, .bits 16, .bits 8, .bits 8, .bits 16] with
  | [lines, due, width, pp, period, cp, count, gp, grade, tag] => do
    let due ← instantOf due
    let width ← inRange 1 500000 width
    let period ← optionOf pp (inRange 1 86400000 period)
    let remaining ← optionOf cp (inRange 1 65535 count)
    let minGrade ← optionOf gp (gateOf grade)
    if lines ≠ 0 ∧ (∀ p ∈ period, width < p * 1000) ∧ (remaining.isSome → period.isSome) then
      some ⟨BitVec.ofNat 16 lines, due, width, period, remaining, minGrade, tag⟩
    else none
  | _ => none

/-- CANCEL_MARK: an id of 0 to 63 (R89). -/
def cancelMarkParams (ws : List Word) : Option Nat := inRange 0 63 (wordAt ws 0 % 2 ^ 8)

/-- SET_LINE: the index and the six settings (R100, R101). -/
def setLineParams (ws : List Word) : Option (LineId × LineSettings) :=
  match unpack ws [.bits 8, .bits 8, .bits 8, .bits 16, .bits 16, .bits 32, .bits 8, .bits 8] with
  | [i, m, pol, comp, period, width, gp, gate] => do
    let i ← lineIdOf i
    let m ← lineModeOf m
    let pol ← linePolarityOf pol
    let width ← inRange 1 500000 width
    let gate ← optionOf gp (gateOf gate)
    if [1, 10, 100, 1000, 2000, 10000, 60000].contains period ∧ width < period * 1000 then
      some (i, ⟨m, pol, comp, period, width, gate⟩)
    else none
  | _ => none

/-- LINE_RESTART: a line index (R115). -/
def lineRestartParams (ws : List Word) : Option LineId := lineIdOf (wordAt ws 0 % 2 ^ 8)

/-- SENSE_LINE: a line index and the clear option (R117). -/
def senseLineParams (ws : List Word) : Option (LineId × Bool) :=
  match unpack ws [.bits 8, .bits 8] with
  | [i, c] => do
    let i ← lineIdOf i
    let c ← flagOf c
    some (i, c)
  | _ => none

/-- SET_NETWORK: the seven settings, and the cases of R150 in which they are refused. -/
def setNetworkParams (ws : List Word) : Option NetSettings :=
  match unpack ws [.bits 8, .bits 8, .bits 48, .bits 16, .bits 16, .bits 32, .bits 8] with
  | [ea, eb, addr, interval, spacing, straggler, idle] => do
    let ea ← flagOf ea
    let eb ← flagOf eb
    let spacing ← inRange 10 10000 spacing
    let straggler ← inRange 10 1000000 straggler
    let idle ← inRange 8 255 idle
    let addr := BitVec.ofNat 48 addr
    if [125, 250, 500, 1000, 2000].contains interval ∧ isGroup addr = false ∧ ((ea || eb) = true → addr ≠ 0) then
      some ⟨⟨ea, eb⟩, addr, interval, spacing, straggler, idle⟩
    else none
  | _ => none

/-- READ_PORT: a port index (R151). -/
def readPortParams (ws : List Word) : Option NetId := netIdOf (wordAt ws 0 % 2 ^ 8)

/-- FORGET_CLIENT: an individual address other than all zero (R167). -/
def forgetClientParams (ws : List Word) : Option NetAddress :=
  let a := BitVec.ofNat 48 (wordAt ws 0)
  if isGroup a = false ∧ a ≠ 0 then some a else none

/-- CLAIM: a lease of 1 to 120 s (R178). -/
def claimParams (ws : List Word) : Option Nat := inRange 1 120 (wordAt ws 0 % 2 ^ 8)

/-- SET_EVENT_MASK: sixteen mask settings (R182). -/
def setEventMaskParams (ws : List Word) : BitVec 16 := BitVec.ofNat 16 (wordAt ws 0)

/-- The last slot of each table (R184). -/
def Table.lastSlot : Table → Nat
  | .references => 3
  | .lines => 15
  | .marks => 63
  | .clients => 95
  | .ports => 1

/-- READ_TABLE: a table and a start slot (R184). -/
def readTableParams (ws : List Word) : Option Cursor :=
  match unpack ws [.bits 8, .bits 8] with
  | [t, k] => do
    let t ← tableOf t
    if k ≤ t.lastSlot then some ⟨t, k⟩ else none
  | _ => none

/-! ### Bytes of wire layouts (10.5, 10.6): most significant byte first -/

/-- The number that a list of bytes holds, most significant byte first. -/
def beNat (bs : List Byte) : Nat := bs.foldl (fun n b => n * 256 + b.toNat) 0

/-- The `k` bytes of a number, most significant byte first. -/
def beBytes : Nat → Nat → List Byte
  | 0, _ => []
  | k + 1, n => BitVec.ofNat 8 (n / 256 ^ k) :: beBytes k n

/-- An instant on the wire: 6 bytes of seconds, then 4 bytes of nanoseconds (10.6). -/
def instantBytes (t : Instant) : List Byte := beBytes 6 (t / Config.nsPerSec) ++ beBytes 4 (t % Config.nsPerSec)

/-- A mailbox word on the link: the byte with bits 127:120 first (10.1). -/
def wordBytes (w : Word) : List Byte := beBytes 16 w.toNat

/-- The word that 16 bytes of the link make. -/
def bytesWord (bs : List Byte) : Word := BitVec.ofNat 128 (beNat bs)

/-- The words of a run of data bytes, 16 bytes each. -/
def bytesWords : Nat → List Byte → List Word
  | 0, _ => []
  | n + 1, bs => bytesWord (bs.take 16) :: bytesWords n (bs.drop 16)

end Sys2Proof.Machine
end

