-- ==== Sys2Proof/Machine/Timescale.lean ====
section
/-! DEFINITION. Chapter 1, the timescale unit: the advance at a tick, the calendar labels, slews and leap seconds, and
the events TICK, SLEW_COMPLETION, INSERTED_SECOND_START and LEAP_INSTANT. Steps reach every block and stand in
Steps.lean. -/

namespace Sys2Proof.Machine

open Sys2Proof

/-! ### The advance (R2, R9, R11) -/

/-- Units of the finest part of the advance, 2^-32 ns divided by 10^12, in one nanosecond. -/
def finePerNs : Nat := Config.fracRange * Config.pptOne

/-- The part of one tick's advance that the rate correction and the nominal rate give: 4 ns times one plus the rate, in
fine units; a rate of r ppt is r fine units to each of the 4 times 2^32 units of a tick. -/
def rateAdvance (rate : Int) : Int := 4 * Config.fracRange * (Config.pptOne + rate)

/-- The whole slew part of one tick at a limit in ppm, in fine units (R9). -/
def slewPartAt (limit : Nat) : Int := 4 * Config.fracRange * (limit * 1000000)

/-- The slew part of this tick: the limit with the sign of the residual, cut to the residual that is left (R9,
R11). -/
def slewAdvance (limit : Nat) (residual : Int) : Int :=
  if residual < 0 then max residual (-(slewPartAt limit)) else min residual (slewPartAt limit)

/-- The slew part of the next tick; 0 with no slew present (R2). -/
def TimescaleUnit.slewPart (ts : TimescaleUnit) : Int :=
  match ts.slew with
  | none => 0
  | some w => slewAdvance ts.slewLimit w.residual

/-- The advance of the next tick in fine units; the rates keep it positive (R2). -/
def TimescaleUnit.advance (ts : TimescaleUnit) : Nat := (rateAdvance ts.rate + ts.slewPart).toNat

/-- The timescale and the remainder after an advance of `x` fine units: the surplus is carried upward, and the seconds
return to 0 after 2^48 - 1 (R1). -/
def TimescaleUnit.advanceBy (ts : TimescaleUnit) (x : Nat) : TimeValue × Nat :=
  let fine := ts.rem + x
  let frac := ts.time.frac + fine / Config.pptOne
  let ns := ts.time.ns + frac / Config.fracRange
  let sec := ts.time.sec + ns / Config.nsPerSec
  (⟨sec % Config.secRange, ns % Config.nsPerSec, frac % Config.fracRange⟩, fine % Config.pptOne)

/-- The tick count after one tick: 64 bits, what follows its largest value being a free value (R4, log entry 8). -/
def nextTickCount (n : Nat) : Nat :=
  if n + 1 < Config.tickRange then n + 1 else Config.freeTickCount n % Config.tickRange

/-- One tick at the timescale unit (R2, R4, R9). -/
def TimescaleUnit.tick (ts : TimescaleUnit) : TimescaleUnit :=
  let t := ts.advanceBy ts.advance
  { ts with
    time := t.1
    rem := t.2
    tickCount := nextTickCount ts.tickCount
    slew := ts.slew.map fun w => { w with residual := w.residual - slewAdvance ts.slewLimit w.residual }
    reachedFrom := some ts.time.toNs }

/-- TICK (R2): the timescale, the tick count and the residual of a slew move; nothing else does. -/
def tickState (s : State) : State := s.unlessHeld fun s => s.setTs s.ts.tick

def execTick (s : State) : Host.Outcome State Fault Refusal := .next (tickState s)

/-! ### Calendar labels (R5) -/

/-- A calendar label: year, day of year from 1, seconds-of-day. -/
structure Label where
  year      : Int
  dayOfYear : Nat
  secOfDay  : Nat
deriving DecidableEq, Repr

/-- Days in a year: 366 when its number is divisible by 4 and not by 100, or by 400 (R5). -/
def daysInYear (y : Nat) : Nat := if (y % 4 = 0 ∧ y % 100 ≠ 0) ∨ y % 400 = 0 then 366 else 365

/-- Count years forward from year `y` of a 400-year cycle: the year and the day within it of day `d`. -/
def walkYears : Nat → Nat → Nat → Nat × Nat
  | 0, y, d => (y, d)
  | n + 1, y, d => if d < daysInYear y then (y, d) else walkYears n (y + 1) (d - daysInYear y)

/-- The label of a UTC count (R5). The day count is rounded toward negative infinity. Years repeat in cycles of 400
years, 146,097 days, and 2000 begins one, so counting forward from 2000 and backward from 1999 is done by cycles (log
entry 20). -/
def labelOf (u : Int) : Label :=
  let day := u / 86400
  let cycle := day / 146097
  let yd := walkYears 400 0 (day % 146097).toNat
  ⟨2000 + 400 * cycle + yd.1, yd.2 + 1, (u % 86400).toNat⟩

/-- The label of the inserted second at the end of the day that ends at UTC count `d`: seconds-of-day 86,400 of that day
(R15). -/
def insertedLabel (d : Int) : Label := { labelOf (d - 1) with secOfDay := 86400 }

/-- The UTC count of the timescale: its seconds less utc_offset (R5). -/
def TimescaleUnit.utcCount (ts : TimescaleUnit) : Int := (ts.time.sec : Int) - ts.utcOffset

/-- The label of the timescale, with that of the inserted second while the leap record is INSERTING (R15, R19). -/
def TimescaleUnit.labelNow (ts : TimescaleUnit) : Label :=
  match ts.leap with
  | some r => if r.phase = .inserting then insertedLabel r.dayEnd else labelOf ts.utcCount
  | none => labelOf ts.utcCount

/-- How a second is labelled ahead of its beginning: its label and its UTC count, and whether it is the inserted
second. -/
structure SecondLabel where
  label    : Label
  utcCount : Int
  inserted : Bool
deriving DecidableEq, Repr

/-- The label of second `sec` from utc_offset and the leap record as they stand, with a leap instant that falls at or
before its beginning taken into account (R106, R124). -/
def TimescaleUnit.labelAhead (ts : TimescaleUnit) (sec : Nat) : SecondLabel :=
  let u : Int := ts.utcOffset
  let plain (offset : Int) : SecondLabel := ⟨labelOf (sec - offset), sec - offset, false⟩
  match ts.leap with
  | none => plain u
  | some r =>
    match r.kind with
    | .insert =>
      if (sec : Int) = r.dayEnd + u then ⟨insertedLabel r.dayEnd, sec - u, true⟩
      else if (sec : Int) > r.dayEnd + u then plain (u + 1)
      else plain u
    | .delete => if (sec : Int) ≥ r.dayEnd - 1 + u then plain (u - 1) else plain u

/-! ### Slews (R8 to R12) -/

/-- Create a slew record; a present one is not replaced by this operation's callers (R8). -/
def State.beginSlew (s : State) (origin : Origin) (amount : Int) : State :=
  s.setTs { s.ts with slew := some ⟨origin, amount, amount * finePerNs, s.ts.time⟩ }

/-- The residual in whole nanoseconds, rounded toward zero (R9). -/
def Slew.residualNs (w : Slew) : Int := w.residual.tdiv finePerNs

/-- Remove the slew record `w`, write the last-slew record and post SLEW_ENDED (R11, R12). -/
def State.endSlew (s : State) (w : Slew) (outcome : SlewOutcome) : State :=
  (s.setTs { s.ts with
    slew := none
    lastSlew := some ⟨w.origin, w.requested, w.start, outcome, w.residualNs, s.run⟩ }).post .slewEnded

/-- Cancel the present slew if its origin is one that the request names; otherwise nothing happens (R12). -/
def State.cancelSlew (s : State) (named : Origin → Bool) : State :=
  match s.ts.slew with
  | none => s
  | some w => if named w.origin then s.endSlew w .cancelled else s

def anyOrigin : Origin → Bool := fun _ => true

def Origin.isMaster : Origin → Bool
  | .master _ => true
  | .ref _ | .engine => false

def Origin.isEngine : Origin → Bool
  | .engine => true
  | .ref _ | .master _ => false

/-- SLEW_COMPLETION (R11): the residual has reached zero. -/
def slewCompletionState (s : State) : State :=
  s.unlessHeld fun s =>
    match s.ts.slew with
    | none => s
    | some w => if w.residual = 0 then s.endSlew w .done else s

def execSlewCompletion (s : State) : Host.Outcome State Fault Refusal := .next (slewCompletionState s)

/-! ### Leap seconds (R15 to R17) -/

/-- The leap takes effect: utc_offset changes by one, the record is removed and LEAP_TAKEN is posted (R16). -/
def State.applyLeap (s : State) (kind : LeapKind) : State :=
  let u := match kind with
    | .insert => s.ts.utcOffset + 1
    | .delete => s.ts.utcOffset - 1
  (s.setTs { s.ts with utcOffset := u, leap := none }).post .leapTaken

/-- The record with another phase. -/
def State.setLeapPhase (s : State) (r : Leap) (phase : LeapPhase) : State :=
  s.setTs { s.ts with leap := some { r with phase := phase } }

/-- The start of the inserted second, D plus utc_offset, in timescale seconds (R17). -/
def TimescaleUnit.insertedSecond (ts : TimescaleUnit) (r : Leap) : Int := r.dayEnd + ts.utcOffset

/-- Bring a leap record that is present into line with the timescale and utc_offset as they stand (R17, R25). -/
def State.alignLeap (s : State) : State :=
  match s.ts.leap with
  | none => s
  | some r =>
    let sec : Int := s.ts.time.sec
    match r.kind with
    | .insert =>
      let b := s.ts.insertedSecond r
      if sec < b then s.setLeapPhase r .pending
      else if sec = b then s.setLeapPhase r .inserting
      else s.applyLeap .insert
    | .delete => if s.ts.insertedSecond r - 1 ≤ sec then s.applyLeap .delete else s.setLeapPhase r .pending

/-- The timescale has reached the beginning of second `sec`; second 2^48 begins where the seconds return to 0
(R1). -/
def State.secondReached (s : State) (sec : Int) : Bool :=
  decide (sec ≤ s.ts.time.sec) || (decide (sec = Config.secRange) && s.reachedNow 0)

/-- INSERTED_SECOND_START (R15): a pending INSERT record meets the start of second c+1. -/
def insertedSecondStartState (s : State) : State :=
  s.unlessHeld fun s =>
    match s.ts.leap with
    | none => s
    | some r =>
      if r.kind = .insert ∧ r.phase = .pending ∧ s.secondReached (s.ts.insertedSecond r) then
        s.setLeapPhase r .inserting
      else s

def execInsertedSecondStart (s : State) : Host.Outcome State Fault Refusal := .next (insertedSecondStartState s)

/-- LEAP_INSTANT (R16): the end of the inserted second, or the end of the second whose UTC count is D-2. -/
def leapInstantState (s : State) : State :=
  s.unlessHeld fun s =>
    match s.ts.leap with
    | none => s
    | some r =>
      match r.kind with
      | .insert =>
        if r.phase = .inserting ∧ s.secondReached (s.ts.insertedSecond r + 1) then s.applyLeap .insert else s
      | .delete => if s.secondReached (s.ts.insertedSecond r - 1) then s.applyLeap .delete else s

def execLeapInstant (s : State) : Host.Outcome State Fault Refusal := .next (leapInstantState s)

/-! ### The checks of SET_LEAP and the update from a message (R18, R24) -/

/-- The range checks of SET_LEAP on a kind and a day end, against utc_offset and the UTC count as they stand (R24). -/
def TimescaleUnit.leapInRange (ts : TimescaleUnit) (kind : LeapKind) (d : Int) : Bool :=
  decide (d % 86400 = 0) && decide (ts.utcCount < d) &&
    match kind with
    | .insert => decide (ts.utcOffset ≠ 255)
    | .delete => decide (ts.utcCount < d - 1) && decide (ts.utcOffset ≠ 0)

/-- A leap record that utc_offset leaves no room for: an INSERT at 255 or a DELETE at 0 (R18). -/
def TimescaleUnit.leapHasNoRoom (ts : TimescaleUnit) (r : Leap) : Bool :=
  match r.kind with
  | .insert => decide (ts.utcOffset = 255)
  | .delete => decide (ts.utcOffset = 0)

/-- A record that utc_offset leaves no room for is removed (R18). -/
def State.dropLeapWithoutRoom (s : State) : State :=
  match s.ts.leap with
  | none => s
  | some r => if s.ts.leapHasNoRoom r then s.setTs { s.ts with leap := none } else s

/-- Take an announcement of reference `r` (R18). -/
def State.takeAnnouncement (s : State) (r : RefId) (a : Announcement) : State :=
  let place (kind : LeapKind) (d : Nat) : State :=
    if s.ts.leapInRange kind d then s.setTs { s.ts with leap := some ⟨kind, d, .ref r, .pending⟩ } else s
  match a with
  | .none =>
    match s.ts.leap with
    | none => s
    | some old => if old.source = .ref r then s.setTs { s.ts with leap := none } else s
  | .insert d => place .insert d
  | .delete d => place .delete d

/-- The update that the engine hands over from a valid message of the selected reference: utc_offset, the announcement,
a record with no room, and the alignment, in that order; ignored while a record is INSERTING (R18). -/
def State.leapUpdate (s : State) (r : RefId) (m : Message) : State :=
  if s.ts.leap.any (fun old => old.phase = .inserting) then s
  else
    (((s.setTs { s.ts with utcOffset := m.utcOffset }).takeAnnouncement r m.announcement).dropLeapWithoutRoom).alignLeap

end Sys2Proof.Machine
end

