-- ==== Sys2Proof/Machine/Quality.lean ====
section
/-! DEFINITION. Section 3.5, time quality: the uncertainty U and its growth, the grade derived from it, and the event
GRADE_GROWTH_CROSSING. -/

namespace Sys2Proof.Machine

open Sys2Proof

/-- U held to its largest value (R69). -/
def capPs (ps : Nat) : Nat := min ps Config.uncertaintyCap

/-- U in picoseconds at run time `run`: in ACQUIRING, HOLDOVER and PINNED it grows from its anchor at the holdover
growth setting, rounded toward zero; in LOCKED it does not grow (R69). -/
def Engine.uncertaintyAt (e : Engine) (run : Nat) : Option Nat :=
  match e.anchor with
  | none => none
  | some a =>
    match e.state with
    | .freerun | .locked => some (capPs a.ps)
    | .acquiring | .holdover | .pinned => some (capPs (a.ps + e.settings.growth * (run - a.run) / 1000))

def State.uncertainty (s : State) : Option Nat := s.engine.uncertaintyAt s.run

/-- U in nanoseconds as it is reported (R69). -/
def State.uncertaintyNs (s : State) : Nat := (s.uncertainty.getD Config.uncertaintyCap) / 1000

/-- The grade of an uncertainty: a value equal to a bound is within the better grade; unset is G7 (R71). -/
def gradeOfPs (u : Option Nat) : Grade :=
  match u with
  | none => 7
  | some ps =>
    if ps ≤ 100000 then 0
    else if ps ≤ 250000 then 1
    else if ps ≤ 1000000 then 2
    else if ps ≤ 4000000 then 3
    else if ps ≤ 25000000 then 4
    else if ps ≤ 100000000 then 5
    else if ps ≤ 1000000000 then 6
    else 7

/-- The grade, derived from U at every moment (R71). -/
def State.grade (s : State) : Grade := gradeOfPs s.uncertainty

/-- The grade as the changes of grade taken so far have left it. A taking, a gate, GATED and a composition go by it, so that
a change of grade and a taking, a start or a composition that arrive together are decided by which is taken first (R84,
R85, R107, R126). It differs from the grade derived from U only between the tick at which growth carries U past a bound and
its GRADE_GROWTH_CROSSING (R71; log entry 40). -/
def State.gradeTaken (s : State) : Grade := s.engine.announced

/-- Set U, with its anchor at this run time; a change of grade posts GRADE_CHANGED (R69 to R71; log entry 40). -/
def State.setUncertainty (s : State) (ps : Nat) : State :=
  let t := s.setEngine { s.engine with anchor := some ⟨capPs ps, s.run⟩ }
  if gradeOfPs (some (capPs ps)) = s.gradeTaken then t
  else (t.setEngine { t.engine with announced := gradeOfPs (some (capPs ps)) }).post .gradeChanged

/-- A new anchor at the value U has reached (R69). -/
def State.reanchor (s : State) : State :=
  s.setEngine { s.engine with anchor := s.uncertainty.map fun ps => ⟨ps, s.run⟩ }

/-- GRADE_GROWTH_CROSSING (R71): growth has carried U past a bound since the last change of grade was taken. -/
def gradeGrowthCrossingState (s : State) : State :=
  s.unlessHeld fun s =>
    if s.grade = s.gradeTaken then s
    else (s.setEngine { s.engine with announced := s.grade }).post .gradeChanged

def execGradeGrowthCrossing (s : State) : Host.Outcome State Fault Refusal := .next (gradeGrowthCrossingState s)

end Sys2Proof.Machine
end

