-- ==== Sys2Proof/Machine/Lines.lean ====
section
/-! DEFINITION. Chapter 5, the output lines: pulses, commitments, load faults, the change point and what a step does to a
line, and the events CHANGE_POINT, PULSE_START and COMMITMENT_START. PULSE_END waits for the starts that marks are yet
to offer and stands in Marks.lean. What a line does with frames is in chapter 6: its pure parts stand here, since the
change point and the step reach them too. -/

namespace Sys2Proof.Machine

open Sys2Proof

/-! ### Ends, cuts and faults -/

def Line.setFlags (l : Line) (f : LineFlags) : Line := { l with flags := f }

/-- Discard the commitments that `gone` names, setting PULSE_DROPPED if at least one is discarded (R102, R113, R114). -/
def Line.dropCommitments (l : Line) (gone : Commitment → Bool) : Line :=
  if l.commitments.any gone then
    { l with
      commitments := l.commitments.filter fun c => !gone c
      flags := { l.flags with pulseDropped := true } }
  else l

/-- End the emission in flight, setting PULSE_CUT for a pulse and FRAME_CUT for a frame (R102, R112, R129). -/
def Line.cutEmission (l : Line) : Line :=
  match l.emission with
  | .none => l
  | .pulse _ _ => { l with emission := .none, flags := { l.flags with pulseCut := true } }
  | .frame _ _ _ => { l with emission := .none, flags := { l.flags with frameCut := true } }

/-- Discard a held frame, setting FRAME_CUT (R129, R131). -/
def Line.cutHeld (l : Line) : Line :=
  match l.held with
  | none => l
  | some _ => { l with held := none, flags := { l.flags with frameCut := true } }

/-- A load fault: FAULTED, the emission that was starting ends, commitments and held frame are discarded, FAULT is set
and counted; a frame ended by it sets FRAME_CUT (R114, R132). -/
def Line.faulted (l : Line) : Line :=
  let cut := match l.emission with
    | .frame _ _ _ => true
    | _ => l.flags.frameCut
  { l with
    state := .faulted
    emission := .none
    commitments := []
    held := none
    flags := { l.flags with
      fault := true
      pulseDropped := l.flags.pulseDropped || !l.commitments.isEmpty
      frameCut := cut }
    faults := sat16 l.faults
    overtaken := none }

/-- Judge the load at the start of an active period of line `i` (R114). -/
def State.judgeLoad (s : State) (i : LineId) (load : Load) : State :=
  match load with
  | .good => s
  | .openLoad | .overloaded => (s.setLine i (s.line i).faulted).post .lineFault

/-- A start that arrives with a step taken first: line `i`, RUNNING in its mode, has nothing left to start, since the step
has cut or passed it, and the load fault that arrived with it then enters FAULTED (R114; log entry 37). -/
def State.judgeOvertaken (s : State) (i : LineId) (mode : LineMode) (load : Load) : State :=
  let l := s.line i
  if l.state = .running ∧ l.settings.mode = mode ∧ l.overtaken = some s.ts.tickCount then s.judgeLoad i load else s

/-! ### Starts -/

/-- The end instant of a pulse of `width` microseconds that starts at `start` (R104), in the timescale's range. -/
def pulseEndOf (start : Int) (width : Nat) : Instant := wrapInstant (start + width * 1000)

/-- Start a pulse: the output goes active until `ends`, and the emissions counter rises (R105, R108, R110). -/
def Line.startPulse (l : Line) (kind : PulseKind) (ends : Instant) : Line :=
  { l with emission := .pulse kind ends, emissions := wrap32 l.emissions 1 }

/-- Act on a commitment whose start is reached, already taken from the list: start a pulse, or merge into the pulse in
flight (R110). A merge begins no active period, so its load is not judged (R114). -/
def State.startCommitment (s : State) (i : LineId) (c : Commitment) (load : Load) : State :=
  let l := s.line i
  match l.emission with
  | .pulse kind ends =>
    s.setLine i { l with emission := .pulse kind (laterOf ends c.ends), flags := { l.flags with markMerged := true } }
  | _ => (s.setLine i (l.startPulse .mark c.ends)).judgeLoad i load

/-- COMMITMENT_START (R110): the first commitment's start is reached; or a step taken first has passed it (R114). -/
def commitmentStartState (i : LineId) (load : Load) (s : State) : State :=
  s.unlessHeld fun s =>
    let l := s.line i
    match l.commitments with
    | [] => s.judgeOvertaken i .marks load
    | c :: rest =>
      if l.state = .running ∧ l.settings.mode = .marks ∧ s.hasReached c.start then
        (s.setLine i { l with commitments := rest }).startCommitment i c load
      else s.judgeOvertaken i .marks load

def execCommitmentStart (i : LineId) (load : Load) (s : State) : Host.Outcome State Fault Refusal :=
  .next (commitmentStartState i load s)

/-- A commitment joins the list at its place, by start and then by order of acceptance; a list of 65 loses the one with
the latest start, the latest accepted among equals, with PULSE_DROPPED (R109). -/
def Line.joinCommitment (l : Line) (c : Commitment) : Line :=
  let joined := insertBy (fun y x => decide (x.start < y.start)) c l.commitments
  if joined.length ≤ 64 then { l with commitments := joined }
  else { l with commitments := joined.take 64, flags := { l.flags with pulseDropped := true } }

/-! ### PULSE mode (R105 to R108) -/

/-- The start instant of a PULSE mode line that was reached at this tick, if there is one, as a number that may be
negative (before the return to 0). For a period of 1 s or more the second it serves must have a label whose
seconds-of-day is a whole multiple of the period; the inserted second has a start for the 1 s period alone (R105,
R106). -/
def State.pulseStartNow (s : State) (l : Line) : Option Int :=
  if l.settings.period < 1000 then
    let t := s.latestMultiple (l.settings.period * 1000000) l.settings.compensation
    if s.reachedNow t then some t else none
  else
    let t := s.latestMultiple Config.nsPerSec l.settings.compensation
    let sec := wrapInstant (t + l.settings.compensation) / Config.nsPerSec
    let label := s.ts.labelAhead sec
    let onPeriod :=
      if label.inserted then decide (l.settings.period = 1000)
      else decide (label.label.secOfDay % (l.settings.period / 1000) = 0)
    if s.reachedNow t && onPeriod then some t else none

/-- A start instant met by the line at this tick: the gate suppresses it and counts it, or the pulse starts, ending an
old pulse that still runs (R105, R107, R108). -/
def State.startTrainPulse (s : State) (i : LineId) (t : Int) (load : Load) : State :=
  let l := { s.line i with startAt := some s.ts.tickCount }
  if gatePasses l.settings.gate s.gradeTaken then
    (s.setLine i (l.cutEmission.startPulse .pulse (pulseEndOf t l.settings.width))).judgeLoad i load
  else s.setLine i { l with gated := sat16 l.gated }

/-- The start instant that a line RUNNING in PULSE mode has reached at this tick and has not acted on yet (R105, R106). -/
def State.trainStartDue (s : State) (l : Line) : Option Int :=
  if l.state = .running ∧ l.settings.mode = .pulse ∧ l.startAt ≠ some s.ts.tickCount then s.pulseStartNow l else none

/-- PULSE_START (R105): a line RUNNING in PULSE mode reaches a start instant, on which it has not acted yet. The load fault
is judged in this very event, and so is one whose start a step taken first has passed (R113, R114). -/
def pulseStartState (i : LineId) (load : Load) (s : State) : State :=
  s.unlessHeld fun s =>
    match s.trainStartDue (s.line i) with
    | none => s.judgeOvertaken i .pulse load
    | some t => s.startTrainPulse i t load

def execPulseStart (i : LineId) (load : Load) (s : State) : Host.Outcome State Fault Refusal :=
  .next (pulseStartState i load s)

/-! ### Held frames (R123, R128) -/

/-- A copy of a composed frame for a line with compensation `c`: the compensation is fixed, and with it the instant of
slot 0 (R120, R123). -/
def heldFrameOf (f : Frame) (c : Nat) : HeldFrame := ⟨f, c, wrapInstant ((f.target * Config.nsPerSec : Nat) - (c : Int))⟩

/-- A line that enters the condition RUNNING with mode CODED takes a copy of the composer's frame and keeps it when its
slot 0 lies after the timescale (R128). -/
def State.enterCoded (s : State) (l : Line) : Line :=
  if l.runningCoded then
    match s.composer.frame with
    | none => l
    | some f =>
      let held := heldFrameOf f l.settings.compensation
      if s.hasPassed held.slot0 then l else { l with held := some held }
  else l

/-! ### The change point (R102, R131) -/

/-- The mode or the polarity differs between two settings records. -/
def LineSettings.changesShape (old new : LineSettings) : Bool :=
  decide (old.mode ≠ new.mode) || decide (old.polarity ≠ new.polarity)

/-- The line begins a new train: it enters PULSE mode, or its period or its width changes. The train's first start is
then later than the second of the change point; with every other change the starts go on, and one that the new settings
put at that second is made (R102, R105, R108; log entry 18). -/
def LineSettings.beginsTrain (old new : LineSettings) : Bool :=
  decide (old.mode ≠ .pulse ∧ new.mode = .pulse) || decide (old.period ≠ new.period) || decide (old.width ≠ new.width)

/-- The state follows the new mode (R102, R115, R119). -/
def LineState.follow (st : LineState) (mode : LineMode) : LineState :=
  match st with
  | .faulted => .faulted
  | .off | .running => if mode = .off then .off else .running

/-- A line applies its pending record `p` (R102): emissions and a held frame are cut when mode or polarity changes,
commitments are discarded when the line leaves MARKS, and the settings and the state follow. -/
def Line.applyPending (l : Line) (p : LineSettings) (tick : Nat) : Line :=
  let cut := if l.settings.changesShape p then l.cutEmission.cutHeld else l
  let dropped :=
    if l.settings.mode = .marks ∧ p.mode ≠ .marks then cut.dropCommitments (fun _ => true) else cut
  { dropped with
    settings := p
    pending := none
    state := l.state.follow p.mode
    startAt := if l.settings.beginsTrain p then some tick else l.startAt
    changeAt := some tick }

/-- CHANGE_POINT (R102): a line that holds a pending record meets a whole second reached by advance. A line that enters
CODED mode takes a copy of the composer's frame if its slot 0 is still ahead (R128). -/
def changePointState (i : LineId) (s : State) : State :=
  s.unlessHeld fun s =>
    let l := s.line i
    match l.pending with
    | none => s
    | some p =>
      if s.reachedNow (s.latestMultiple Config.nsPerSec 0) ∧ l.changeAt ≠ some s.ts.tickCount then
        let l' := l.applyPending p s.ts.tickCount
        s.setLine i (if l.runningCoded then l' else s.enterCoded l')
      else s

def execChangePoint (i : LineId) (s : State) : Host.Outcome State Fault Refusal := .next (changePointState i s)

/-! ### Steps (R112, R113, R129) -/

/-- What a step does to a line: a pulse or frame in flight ends, a held frame is discarded, and a forward step removes
the commitments whose starts it passes (R112, R113, R129). `passed` names the starts passed. -/
def Line.onStep (l : Line) (passed : Instant → Bool) : Line :=
  l.cutEmission.cutHeld.dropCommitments fun c => passed c.start

/-! ### RESTART (R119, R133) -/

/-- A line at RESTART, before a CODED line takes its copy of the composer's frame (R119, R133). -/
def Line.restarted (l : Line) : Line :=
  { l with
    state := if l.settings.mode = .off then .off else .running
    emission := .none
    commitments := []
    held := none
    flags := .clear
    gated := 0
    faults := 0
    emissions := 0
    overtaken := none }

end Sys2Proof.Machine
end

