-- ==== Sys2Proof/Machine/Frames.lean ====
section
/-! DEFINITION. Chapter 6, the coded time frame: its symbols and slots, the composition, and the emission on a line;
the events COMPOSITION, FRAME_RELEASE, FRAME_BEGIN, SYMBOL_START, SYMBOL_END and FRAME_END. -/

namespace Sys2Proof.Machine

open Sys2Proof

/-! ### Symbols and slots (R120, R121) -/

/-- The width of a symbol's pulse in nanoseconds of the timescale (R120). -/
def Symbol.width : Symbol → Nat
  | .zero => 4000000
  | .one => 10000000
  | .mark => 16000000

/-- A slot is 20 ms (R120). -/
def slotNs : Nat := 20000000

/-- The `k` bits of a number as symbols, least significant bit first (R121). -/
def fieldSymbols (k n : Nat) : List Symbol :=
  (List.range k).map fun i => if n / 2 ^ i % 2 = 1 then .one else .zero

def countOnes (ss : List Symbol) : Nat := ss.countP (· == .one)

/-- Slots 1 to 46 of a frame by its field values (R121); local_offset is in two's complement of 7 bits. -/
def frameBody (secOfDay dayOfYear year grade leapField : Nat) (localOffset : Int) : List Symbol :=
  fieldSymbols 17 secOfDay ++ fieldSymbols 9 dayOfYear ++ fieldSymbols 7 year ++ [Symbol.mark]
    ++ fieldSymbols 3 grade ++ fieldSymbols 2 leapField ++ fieldSymbols 7 (localOffset % 128).toNat

/-- The 50 symbols of a frame: MARK, the fields, the check of slots 47 and 48, and the ZERO pad (R121). -/
def frameSymbols (secOfDay dayOfYear year grade leapField : Nat) (localOffset : Int) : List Symbol :=
  let body := frameBody secOfDay dayOfYear year grade leapField localOffset
  Symbol.mark :: body ++ fieldSymbols 2 (countOnes body % 4) ++ [Symbol.zero]

/-! ### Composition (R122 to R126) -/

/-- The leap field of a second by its label ahead (R125). -/
def TimescaleUnit.leapFieldOf (ts : TimescaleUnit) (x : SecondLabel) : Nat :=
  match ts.leap with
  | none => 0
  | some r =>
    if x.inserted then 3
    else if r.kind = .insert ∧ r.dayEnd - 86400 ≤ x.utcCount ∧ x.utcCount ≤ r.dayEnd - 1 then 1
    else if r.kind = .delete ∧ r.dayEnd - 86400 ≤ x.utcCount ∧ x.utcCount ≤ r.dayEnd - 2 then 2
    else 0

/-- The frame for second `sec`; none when the year of its label lies outside 2000 to 2127 (R122, R124 to R126). A change of
grade that arrives with the composition is in the frame if it is taken first (R126; log entry 40). -/
def State.composeFrame (s : State) (sec : Nat) : Option Frame :=
  let x := s.ts.labelAhead sec
  if 2000 ≤ x.label.year ∧ x.label.year ≤ 2127 then
    let year := (x.label.year - 2000).toNat
    let leap := s.ts.leapFieldOf x
    some
      { target := sec
        secOfDay := x.label.secOfDay
        dayOfYear := x.label.dayOfYear
        year := year
        grade := s.gradeTaken
        leapField := leap
        localOffset := s.ts.localOffset
        symbols := frameSymbols x.label.secOfDay x.label.dayOfYear year s.gradeTaken.val leap s.ts.localOffset }
  else none

/-- The second that the timescale will take at its next whole second by advance (R122). -/
def State.nextSecond (s : State) : Nat := (s.ts.time.sec + 1) % Config.secRange

/-- A line RUNNING in CODED mode takes a copy of the composed frame as its held frame (R123). -/
def Line.takeFrame (l : Line) (f : Frame) : Line :=
  if l.runningCoded then { l with held := some (heldFrameOf f l.settings.compensation) } else l

/-- The composition for the next second (R122). -/
def State.compose (s : State) : State :=
  let made := { s with composer := ⟨s.composeFrame s.nextSecond, some s.ts.tickCount⟩ }
  match made.composer.frame with
  | none => made
  | some f => { made with lines := made.lines.map (·.takeFrame f) }

/-- COMPOSITION (R122): the latch point, 900,000,000 ns into a second, is reached by advance. -/
def compositionState (s : State) : State :=
  s.unlessHeld fun s =>
    if s.reachedNow (s.latestMultiple Config.nsPerSec 100000000) ∧ s.composer.composedAt ≠ some s.ts.tickCount then
      s.compose
    else s

def execComposition (s : State) : Host.Outcome State Fault Refusal := .next (compositionState s)

/-- FRAME_RELEASE (R122): the timescale reaches the beginning of the composed frame's second. -/
def frameReleaseState (s : State) : State :=
  s.unlessHeld fun s =>
    match s.composer.frame with
    | none => s
    | some f =>
      if s.hasPassed (f.target * Config.nsPerSec) then { s with composer := { s.composer with frame := none } } else s

def execFrameRelease (s : State) : Host.Outcome State Fault Refusal := .next (frameReleaseState s)

/-! ### Emission (R127, R132) -/

/-- The instant at which slot `i` of a frame on a line begins (R120). -/
def HeldFrame.slotStart (h : HeldFrame) (i : Nat) : Instant := wrapInstant (h.slot0 + i * slotNs : Nat)

/-- Start the symbol of slot `i` of the frame in flight, and judge the load (R114, R120, R127). -/
def State.startSymbol (s : State) (i : LineId) (h : HeldFrame) (slot : Nat) (load : Load) : State :=
  let width := (h.frame.symbols.getD slot .zero).width
  (s.setLine i
    { s.line i with emission := .frame h (slot + 1) (some (wrapInstant (h.slotStart slot + width : Nat))) }).judgeLoad i load

/-- FRAME_BEGIN (R127): the held frame's slot 0 instant is reached; it becomes the frame in flight, an old frame still in
flight ends with no flag, the emissions counter rises, and slot 0's symbol starts. Where a step taken first has discarded
the frame, a load fault that arrives with the start enters FAULTED (R114). -/
def frameBeginState (i : LineId) (load : Load) (s : State) : State :=
  s.unlessHeld fun s =>
    let l := s.line i
    match l.held with
    | none => s.judgeOvertaken i .coded load
    | some h =>
      if l.runningCoded ∧ s.hasPassed h.slot0 then
        (s.setLine i { l with held := none, emissions := wrap32 l.emissions 1 }).startSymbol i h 0 load
      else s.judgeOvertaken i .coded load

def execFrameBegin (i : LineId) (load : Load) (s : State) : Host.Outcome State Fault Refusal :=
  .next (frameBeginState i load s)

/-- The start of the next slot of a frame in flight is reached (R120). -/
def State.slotDue (s : State) (h : HeldFrame) (slot : Nat) : Bool := decide (slot < 50) && s.hasPassed (h.slotStart slot)

/-- SYMBOL_START (R120): the next slot of the frame in flight begins; or a step taken first has cut the frame (R114). -/
def symbolStartState (i : LineId) (load : Load) (s : State) : State :=
  s.unlessHeld fun s =>
    match (s.line i).emission with
    | .frame h slot _ => if s.slotDue h slot then s.startSymbol i h slot load else s.judgeOvertaken i .coded load
    | _ => s.judgeOvertaken i .coded load

def execSymbolStart (i : LineId) (load : Load) (s : State) : Host.Outcome State Fault Refusal :=
  .next (symbolStartState i load s)

/-- SYMBOL_END (R120): the symbol in progress ends and the output returns to the inactive level. -/
def symbolEndState (i : LineId) (s : State) : State :=
  s.unlessHeld fun s =>
    match (s.line i).emission with
    | .frame h slot (some ends) =>
      if s.hasPassed ends then s.setLine i { s.line i with emission := .frame h slot none } else s
    | _ => s

def execSymbolEnd (i : LineId) (s : State) : Host.Outcome State Fault Refusal := .next (symbolEndState i s)

/-- FRAME_END (R127): the timescale reaches the end of slot 49; no flag is set. -/
def frameEndState (i : LineId) (s : State) : State :=
  s.unlessHeld fun s =>
    match (s.line i).emission with
    | .frame h _ _ => if s.hasPassed (h.slotStart 50) then s.setLine i { s.line i with emission := .none } else s
    | _ => s

def execFrameEnd (i : LineId) (s : State) : Host.Outcome State Fault Refusal := .next (frameEndState i s)

end Sys2Proof.Machine
end

