-- ==== Sys2Proof/Machine/Marks.lean ====
section
/-! DEFINITION. Chapter 4, the mark scheduler: the list and its order, taking instants, takings, forward steps and
outcomes; the event MARK_TAKING, and PULSE_END, which waits for a taking that is due. The commands of the scheduler
stand in MarkCommands.lean. -/

namespace Sys2Proof.Machine

open Sys2Proof

/-! ### The list (R77 to R79) -/

/-- List order: by taking instant and then id (R78). -/
def Mark.before (a b : Mark) : Bool := decide (a.taking < b.taking) || (decide (a.taking = b.taking) && decide (a.id < b.id))

/-- Put a mark at the place its taking instant and id give (R78). -/
def insertMark (m : Mark) (ms : List Mark) : List Mark := insertBy (fun y x => x.before y) m ms

/-- The number of marks that an owner has in the list (R78). -/
def State.markNumber (s : State) (mp : Mp) : Nat := s.marks.countP fun m => decide (m.owner = mp)

/-- The line is in the mark's set. -/
def inSet (lines : BitVec 16) (l : LineId) : Bool := lines.getLsbD l.val

/-- The largest compensation among the lines of a set, as the line settings stand (R79). -/
def State.largestCompensation (s : State) (lines : BitVec 16) : Nat :=
  allLines.foldl (fun c l => if inSet lines l then max c (s.line l).settings.compensation else c) 0

/-- Compute a mark's taking instant and taking compensation afresh (R79). The due instants this is used on lie at least
a period after an instant that was not before a taking, so the difference is not negative (R87). -/
def State.retime (s : State) (m : Mark) : Mark :=
  let c := s.largestCompensation m.lines
  { m with taking := m.due - c, takingComp := c }

/-! ### Outcomes (R93, R94) -/

def Mark.outcomeOf (m : Mark) (o : MarkOutcome) (lastDue : Instant) : Outcome :=
  ⟨m.id, m.tag, m.owner, o, lastDue, m.fired, m.withheld, m.skipped, m.partialTakes⟩

/-- Hand an outcome to its owner's queue: appended where there is room, with OUTCOMES_READY when the queue was empty;
discarded with OUTCOME_OVERRUN when it holds 16 (R94). -/
def State.handOutcome (s : State) (o : Outcome) : State :=
  let q := s.queue o.owner
  if q.length < 16 then
    let t := s.setQueue o.owner (q ++ [o])
    if q.isEmpty then t.postTo o.owner .outcomesReady else t
  else s.postTo o.owner .outcomeOverrun

/-! ### The taking (R83 to R87) -/

/-- A mark that has no due instant left after `due`, counts as they stand: its next due instant, or none when it leaves
the list (R87). -/
def Mark.nextDue (m : Mark) : Option Instant :=
  match m.period with
  | none => none
  | some p =>
    let due := m.due + p * 1000000
    if m.remaining = some 1 ∨ Config.nsRange ≤ due then none else some due

/-- Retire or re-arm a mark after a taking (R87). -/
def State.retireOrRearm (s : State) (m : Mark) : State :=
  match m.nextDue with
  | none => s.handOutcome (m.outcomeOf .completed m.due)
  | some due =>
    let m' := s.retime { m with due := due, remaining := m.remaining.map (· - 1) }
    { s with marks := insertMark m' s.marks }

/-- The line accepts a commitment with this start from a mark: RUNNING in MARKS mode, the gate passes the grade at the
taking, and the start is not before the mark's taking instant (R85). -/
def State.accepts (s : State) (m : Mark) (l : Line) : Bool :=
  decide (l.state = .running) && decide (l.settings.mode = .marks) && gatePasses l.settings.gate s.gradeTaken
    && decide (m.taking + l.settings.compensation ≤ m.due)

/-- The commitment offered to a line: a start at the due instant less the line's compensation, with the mark's width
(R85, R109). -/
def Mark.commitmentFor (m : Mark) (l : Line) : Commitment :=
  let start := m.due - l.settings.compensation
  ⟨start, pulseEndOf start m.width, m.id, m.owner⟩

/-- An accepted commitment joins the line's list, and is acted on at once when its start is already reached (R109,
R110). -/
def State.commit (s : State) (i : LineId) (c : Commitment) (load : Load) : State :=
  let joined := (s.line i).joinCommitment c
  let t := s.setLine i joined
  if s.hasReached c.start ∧ joined.commitments.contains c then
    (t.setLine i { joined with commitments := joined.commitments.erase c }).startCommitment i c load
  else t

/-- What the load monitor of a line would find, by bit n of `faulty` for OLn (R114). -/
def loadIn (faulty : BitVec 16) (i : LineId) : Load := if inSet faulty i then .overloaded else .good

/-- Offer a mark to the lines of its set in increasing number; the count of those that accepted and of those that
refused (R85). -/
def offerLines (m : Mark) (faulty : BitVec 16) : List LineId → State × Nat × Nat → State × Nat × Nat
  | [], acc => acc
  | i :: rest, (s, yes, no) =>
    if inSet m.lines i then
      if s.accepts m (s.line i) then
        offerLines m faulty rest (s.commit i (m.commitmentFor (s.line i)) (loadIn faulty i), yes + 1, no)
      else offerLines m faulty rest (s, yes, no + 1)
    else offerLines m faulty rest (s, yes, no)

/-- The grade at the taking withholds a mark that has a min grade when it is worse than it; a change of grade taken after
the taking is not seen by it (R84). -/
def State.withholds (s : State) (m : Mark) : Bool := !gatePasses m.minGrade s.gradeTaken

/-- Count a taking by how many lines accepted and refused (R86). -/
def Mark.counted (m : Mark) (yes no : Nat) : Mark :=
  if yes = 0 then { m with withheld := sat16 m.withheld }
  else { m with fired := sat16 m.fired, partialTakes := if no = 0 then m.partialTakes else sat16 m.partialTakes }

/-- The taking of a mark that has been removed from the list: the grade test, the offers, the count, then re-arming or
retiring (R83). -/
def State.takeMark (s : State) (m : Mark) (faulty : BitVec 16) : State :=
  if s.withholds m then s.retireOrRearm { m with withheld := sat16 m.withheld }
  else
    let r := offerLines m faulty allLines (s, 0, 0)
    r.1.retireOrRearm (m.counted r.2.1 r.2.2)

/-- A taking that arrives with a step taken first: the load faults that arrived with it enter FAULTED on the lines whose
starts the step took away (R114; log entry 37). -/
def State.judgeOvertakenAll (s : State) (faulty : BitVec 16) : State :=
  allLines.foldl (fun t i => t.judgeOvertaken i .marks (loadIn faulty i)) s

/-- MARK_TAKING (R83): the timescale has reached the taking instant of the head of the list; or a step taken first has
passed it (R88, R114). -/
def markTakingState (faulty : BitVec 16) (s : State) : State :=
  s.unlessHeld fun s =>
    match s.marks with
    | [] => s.judgeOvertakenAll faulty
    | m :: rest =>
      if s.hasReached m.taking then { s with marks := rest }.takeMark m faulty else s.judgeOvertakenAll faulty

def execMarkTaking (faulty : BitVec 16) (s : State) : Host.Outcome State Fault Refusal :=
  .next (markTakingState faulty s)

/-! ### The end of a pulse (R103, R110) -/

/-- A start that the timescale has reached and that lies at or before `ends`. -/
def State.startsBy (s : State) (ends : Instant) (c : Commitment) : Bool := s.hasReached c.start && notAfter c.start ends

/-- The first commitment of a line in MARKS mode is such a start. -/
def State.commitmentStartsBy (s : State) (l : Line) (ends : Instant) : Bool :=
  decide (l.state = .running ∧ l.settings.mode = .marks) && l.commitments.head?.any (s.startsBy ends)

/-- A mark whose taking instant is reached, and which is not yet taken, is to offer line `i` a start that is reached
too. -/
def State.markOffersNow (s : State) (i : LineId) (m : Mark) : Bool :=
  s.hasReached m.taking && !s.withholds m && inSet m.lines i && s.accepts m (s.line i)
    && s.hasReached (m.commitmentFor (s.line i)).start

/-- It is to offer line `i` such a start that lies at or before `ends`. -/
def State.markStartsBy (s : State) (i : LineId) (ends : Instant) (m : Mark) : Bool :=
  s.markOffersNow i m && notAfter (m.commitmentFor (s.line i)).start ends

/-- A start at or before the end of the pulse in flight on line `i` is still to be acted on, so that it is merged before
that pulse can end, in whichever order the events of a tick are sent (R110; log entry 33). -/
def State.mergeComesFirst (s : State) (i : LineId) (ends : Instant) : Bool :=
  s.commitmentStartsBy (s.line i) ends || s.marks.any (s.markStartsBy i ends)

/-- PULSE_END (R103): the timescale reaches the end of the pulse in flight, and no start is to be merged into it. -/
def pulseEndState (i : LineId) (s : State) : State :=
  s.unlessHeld fun s =>
    let l := s.line i
    match l.emission with
    | .pulse _ ends =>
      if s.hasPassed ends ∧ s.mergeComesFirst i ends = false then s.setLine i { l with emission := .none } else s
    | _ => s

def execPulseEnd (i : LineId) (s : State) : Host.Outcome State Fault Refusal := .next (pulseEndState i s)

/-! ### Starts that a step can overtake (R113, R114) -/

/-- A commitment whose start is reached, from the line's list or from a mark that is yet to be taken, is to begin a pulse:
one that would merge into a pulse in flight begins no active period (R110, R114). -/
def State.commitmentDue (s : State) (i : LineId) : Bool :=
  let l := s.line i
  match l.emission with
  | .pulse _ _ => false
  | _ =>
    decide (l.state = .running) && (l.commitments.head?.any (fun c => s.hasReached c.start) || s.marks.any (s.markOffersNow i))

/-- A frame that the line holds, or the next symbol of the one in flight, is to begin (R127). -/
def State.symbolDue (s : State) (i : LineId) : Bool :=
  let l := s.line i
  l.runningCoded &&
    (l.held.any (fun h => s.hasPassed h.slot0) ||
      match l.emission with
      | .frame h slot _ => s.slotDue h slot
      | _ => false)

/-- A regular start that the gate lets pass is to begin a pulse (R105, R107). -/
def State.trainPulseDue (s : State) (i : LineId) : Bool :=
  (s.trainStartDue (s.line i)).isSome && gatePasses (s.line i).settings.gate s.gradeTaken

/-- Line `i` has reached the start of an active period, at which its load is to be judged, and has not acted on it. -/
def State.startDue (s : State) (i : LineId) : Bool :=
  match (s.line i).settings.mode with
  | .off => false
  | .pulse => s.trainPulseDue i
  | .coded => s.symbolDue i
  | .marks => s.commitmentDue i

/-! ### Forward steps (R90, R91) -/

/-- How many due instants a forward step to `new` passes for a periodic mark with compensation `comp`: passing repeats
until the taking instant lies after `new`, the remaining count reaches 0, or the next due instant would leave the range.
The three numbers of passes at which these happen, the least of which is taken (R91; log entry 19). -/
def passesToClear (m : Mark) (p comp : Nat) (new : Instant) : Nat :=
  if m.due ≤ new + comp then (new + comp - m.due) / p + 1 else 1

def passesToRange (m : Mark) (p : Nat) : Nat := (Config.nsRange - 1 - m.due) / p + 1

def passCount (m : Mark) (p comp : Nat) (new : Instant) : Nat :=
  let k := min (max 1 (passesToClear m p comp new)) (max 1 (passesToRange m p))
  match m.remaining with
  | none => k
  | some r => min k (max 1 r)

/-- A mark passed by a forward step to `new`: what it becomes, with its new due instant, or none when it leaves the list,
its last due then being the last due instant skipped (R91). -/
def State.passMark (s : State) (new : Instant) (m : Mark) : Option Mark × Outcome :=
  match m.period with
  | none =>
    let m' := { m with skipped := sat16 m.skipped }
    (none, m'.outcomeOf .completed m.due)
  | some ms =>
    let p := ms * 1000000
    let k := passCount m p (s.largestCompensation m.lines) new
    let due := m.due + k * p
    let m' := { m with skipped := sat16By m.skipped k, remaining := m.remaining.map (· - k) }
    let out := m'.outcomeOf .completed (m.due + (k - 1) * p)
    if m'.remaining = some 0 ∨ Config.nsRange ≤ due then (none, out)
    else (some (s.retime { m' with due := due }), out)

/-- Pass the marks of a list one after another, in its order (R90, R91). -/
def passMarks (new : Instant) : List Mark → State → State
  | [], s => s
  | m :: rest, s =>
    match s.passMark new m with
    | (some m', _) => passMarks new rest { s with marks := insertMark m' s.marks }
    | (none, out) => passMarks new rest (s.handOutcome out)

/-- What a step does to the mark list: the marks whose taking instants `passed` names are taken out and passed in list
order; the others are not touched (R90). -/
def State.marksOnStep (s : State) (passed : Instant → Bool) (new : Instant) : State :=
  passMarks new (s.marks.filter fun m => passed m.taking)
    { s with marks := s.marks.filter fun m => !passed m.taking }

/-! ### Removal without outcome (R98, R99) -/

def State.clearMarks (s : State) : State := { s with marks := [], outcomes := Four.all [] }

def State.clearMarksOf (s : State) (mp : Mp) : State :=
  { s with marks := s.marks.filter fun m => decide (m.owner ≠ mp) }.setQueue mp []

end Sys2Proof.Machine
end

