-- ==== Sys2Proof/Machine/Network.lean ====
section
/-! DEFINITION. Chapter 7, the process network ports: states, beacons, the transmit arbiter, answers, flushes, and the
layouts of the frames that leave (10.6); the events LINK_UP, LINK_DOWN, BEACON_DUE, TRANSMIT_END and ASK_TIMING_POINT.
ASK_ARRIVAL reaches the client table and stands in Clients.lean. -/

namespace Sys2Proof.Machine

open Sys2Proof

/-! ### Port states (R137) -/

/-- The state of a port from its enable and its link indication (R137). -/
def portStateOf (enabled : Bool) (link : LinkState) : PortState :=
  if enabled then
    match link with
    | .up => .active
    | .down => .down
  else .disabled

def State.portState (s : State) (p : NetId) : PortState := portStateOf (s.net.settings.enable.get p) (s.netPort p).link

/-! ### The transmit arbiter and departures (R140, R141, R146) -/

/-- The kind of the selected reference (R140). -/
def State.selectedKind (s : State) : Option RefKind := s.engine.selection.map fun r => (s.ref r).settings.kind

/-- The timescale unit with a leap phase that the timescale has reached taken: what utc_offset and the leap record are
once the INSERTED_SECOND_START and the LEAP_INSTANT that are due have acted. -/
def State.leapReached (s : State) : TimescaleUnit := (leapInstantState (insertedSecondStartState s)).ts

/-- The beacon that departs from a port now: its content and its stamp are taken at the departure. In the inserted second
it carries the phase INSERTING and the old utc_offset, and in the next second the raised offset and no record, whichever
of the events of the tick is sent first (R140; log entry 34). -/
def State.departingBeacon (s : State) (port : NetPort) (interval : Nat) : BeaconFrame where
  sequence := port.beaconSeq
  source := s.net.settings.address
  departure := s.nowNs
  utcOffset := s.leapReached.utcOffset
  leap := s.leapReached.leap
  grade := s.grade
  uncertainty := s.uncertaintyNs
  engineState := s.engine.state
  refKind := s.selectedKind
  interval := interval

/-- The wire is free: a pending beacon departs first, else the oldest answer with t3 taken now, else the wire stays idle
(R141). The beacon sequence returns to 0 after 65,535 (R140). -/
def State.handWire (s : State) (port : NetPort) : NetPort :=
  match port.pendingBeacon with
  | some interval =>
    { port with
      wire := .beacon (s.departingBeacon port interval)
      pendingBeacon := none
      beaconSeq := (port.beaconSeq + 1) % 65536 }
  | none =>
    match port.queue with
    | [] => { port with wire := .idle }
    | a :: rest =>
      { port with wire := .answer { a with t3 := some s.nowNs } s.net.settings.address, queue := rest }

/-- A beacon or an answer has come to wait: with the wire idle it departs at once (R141). -/
def State.offerWire (s : State) (port : NetPort) : NetPort :=
  match port.wire with
  | .idle => s.handWire port
  | .beacon _ | .answer _ _ => port

/-- TRANSMIT_END (R149): the last byte has left the wire; the frame counts as sent and the wire is handed on. -/
def transmitEndState (p : NetId) (s : State) : State :=
  s.unlessHeld fun s =>
    let port := s.netPort p
    match port.wire with
    | .idle => s
    | .beacon _ =>
      s.setNetPort p (s.handWire
        { port with counters := { port.counters with beaconsSent := wrap32 port.counters.beaconsSent 1 } })
    | .answer _ _ =>
      s.setNetPort p (s.handWire
        { port with counters := { port.counters with answersSent := wrap32 port.counters.answersSent 1 } })

def execTransmitEnd (p : NetId) (s : State) : Host.Outcome State Fault Refusal := .next (transmitEndState p s)

/-! ### The beacon schedule (R139) -/

/-- The first due instant later than `t` for an interval in milliseconds, counted from 0 s 0 ns and brought into the
range of the timescale, which a whole number of intervals fills (R139). -/
def firstDueAfter (t : Instant) (interval : Nat) : Instant :=
  ((t / (interval * 1000000) + 1) * (interval * 1000000)) % Config.nsRange

/-- One port meets a due instant: the schedule moves on, and with the port ACTIVE, the engine out of FREERUN and no
beacon waiting, one beacon is made pending and departs at once when the wire is idle (R139, R141). -/
def State.beaconAt (s : State) (p : NetId) (port : NetPort) : NetPort :=
  if s.hasPassed port.nextDue then
    let moved := { port with nextDue := firstDueAfter port.nextDue s.net.settings.interval }
    if s.portState p = .active ∧ s.engine.state ≠ .freerun ∧ port.pendingBeacon = none then
      s.offerWire { moved with pendingBeacon := some s.net.settings.interval }
    else moved
  else port

/-- BEACON_DUE (R139): the beacon due event at each port. -/
def beaconDueState (s : State) : State :=
  s.unlessHeld fun s =>
    { s with net := { s.net with ports := ⟨s.beaconAt .na s.net.ports.na, s.beaconAt .nb s.net.ports.nb⟩ } }

def execBeaconDue (s : State) : Host.Outcome State Fault Refusal := .next (beaconDueState s)

/-! ### Leaving ACTIVE (R138) -/

/-- A port leaves ACTIVE: queued answers and a cut answer count LINK_FLUSH, a waiting beacon is discarded with its
sequence number unspent, a frame on the wire is cut off, a frame being received is abandoned (R138). -/
def NetPort.flushed (port : NetPort) : NetPort :=
  let cut := match port.wire with
    | .answer _ _ => 1
    | .idle | .beacon _ => 0
  { port with
    queue := []
    wire := .idle
    pendingBeacon := none
    reception := none
    counters := { port.counters with linkFlush := wrap32 port.counters.linkFlush (port.queue.length + cut) } }

/-- LINK_UP (R137). The indication follows the physical layer at all times, while the RESET input is held too. -/
def linkUpState (p : NetId) (s : State) : State := s.setNetPort p { s.netPort p with link := .up }

def execLinkUp (p : NetId) (s : State) : Host.Outcome State Fault Refusal := .next (linkUpState p s)

/-- LINK_DOWN (R137): a port in ACTIVE counts a link loss and flushes (R138, R148). -/
def linkDownState (p : NetId) (s : State) : State :=
  let port := s.netPort p
  let port' :=
    if s.portState p = .active then
      let f := port.flushed
      { f with counters := { f.counters with linkLosses := wrap32 f.counters.linkLosses 1 } }
    else port
  s.setNetPort p { port' with link := .down }

def execLinkDown (p : NetId) (s : State) : Host.Outcome State Fault Refusal := .next (linkDownState p s)

/-! ### Reception (R143, R195) -/

/-- ASK_TIMING_POINT (R143): in ACTIVE the arrival stamp t2 and the run counter are taken as the start of a frame
crosses the port. -/
def askTimingPointState (p : NetId) (s : State) : State :=
  s.unlessHeld fun s =>
    if s.portState p = .active then
      s.setNetPort p { s.netPort p with reception := some ⟨s.nowNs, s.run, false⟩ }
    else s

def execAskTimingPoint (p : NetId) (s : State) : Host.Outcome State Fault Refusal := .next (askTimingPointState p s)

/-! ### Steps (R147) -/

/-- What a step to `new` does to a port: queued answers are discarded with STEP_FLUSH, a frame in reception is marked,
a frame on the wire and a pending beacon are kept, and the schedule moves to the first due instant later than `new`
(R139, R147). -/
def NetPort.onStep (port : NetPort) (new : Instant) (interval : Nat) : NetPort :=
  { port with
    queue := []
    counters := { port.counters with stepFlush := wrap32 port.counters.stepFlush port.queue.length }
    reception := port.reception.map fun r => { r with marked := true }
    nextDue := firstDueAfter new interval }

/-! ### RESTART and NETWORK_CLEAR (R152) -/

/-- The answer queue is emptied without counting and every counter is cleared; settings, state, sequence, pending
beacon, schedule and the frame on the wire are kept (R152). -/
def NetPort.cleared (port : NetPort) : NetPort := { port with queue := [], counters := .zero }

/-! ### Layouts of the frames that leave (10.6) -/

/-- The common header: kind, version 1, body length (10.6). -/
def frameHeader (kind length : Nat) : List Byte := beBytes 1 kind ++ beBytes 1 1 ++ beBytes 2 length

def intervalCode (ms : Nat) : Nat :=
  match ms with
  | 125 => 0
  | 250 => 1
  | 500 => 2
  | 1000 => 3
  | _ => 4

/-- The 48 bits of a day end; one that does not fit them gives a free value (log entry 32). -/
def dayEndBits (d : Int) : Nat := if 0 ≤ d ∧ d < 2 ^ 48 then d.toNat else Config.freeDayEnd d % 2 ^ 48

/-- The body of a beacon (10.6). With no leap record the leap kind is 0, and the phase and the day end are sent as 0, which
is the model's choice, as is the free value of a day end that does not fit (log entry 32). -/
def BeaconFrame.body (b : BeaconFrame) : List Byte :=
  let leapKind := (b.leap.map fun r => r.kind.code).getD 0
  let leapPhase := (b.leap.map fun r => r.phase.code).getD 0
  let dayEnd := (b.leap.map fun r => dayEndBits r.dayEnd).getD 0
  beBytes 2 b.sequence ++ instantBytes b.departure ++ beBytes 1 b.utcOffset ++ beBytes 1 leapKind ++ beBytes 1 leapPhase
    ++ beBytes 6 dayEnd ++ beBytes 1 b.grade.val ++ beBytes 4 b.uncertainty ++ beBytes 1 b.engineState.code
    ++ beBytes 1 ((b.refKind.map RefKind.code).getD 0) ++ beBytes 1 (intervalCode b.interval)

/-- The bytes of a beacon after the frame type, padding apart (10.6). -/
def BeaconFrame.bytes (b : BeaconFrame) : List Byte := frameHeader 1 29 ++ b.body

/-- The body of an answer (10.6): the ask's sequence, tag and t1, the instants t2 and t3, the flags and the grade. 10.6
names bit 0 of the flags, UNTRACKED, and no other; the model sends bits 7:1 as 0 (log entry 41). -/
def Answer.body (a : Answer) : List Byte :=
  beBytes 2 a.sequence.toNat ++ beBytes 2 a.tag.toNat ++ a.t1 ++ instantBytes a.t2 ++ instantBytes (a.t3.getD 0)
    ++ beBytes 1 a.untracked.toNat ++ beBytes 1 a.grade.val

/-- The bytes of an answer after the frame type, padding apart (10.6). -/
def Answer.bytes (a : Answer) : List Byte := frameHeader 3 36 ++ a.body

/-- What a port's wire carries as a frame: destination, source, frame type, and the bytes after it; none when idle.
Beacons go to the group address, answers to the source of their ask, both from the station address (R136, 10.6). -/
def Wire.frame (w : Wire) : Option (NetAddress × NetAddress × BitVec 16 × List Byte) :=
  match w with
  | .idle => none
  | .beacon b => some (Config.groupAddress, b.source, Config.frameType, b.bytes)
  | .answer a source => some (a.destination, source, Config.frameType, a.bytes)

/-! ### The frame check sequence (10.6, R195; log entry 35) -/

/-- One bit of the division by Ethernet's CRC-32 polynomial, least significant bit first. -/
def crcBit (crc : BitVec 32) : BitVec 32 := if crc.getLsbD 0 then crc >>> 1 ^^^ 0xEDB88320#32 else crc >>> 1

def crcByte (crc : BitVec 32) (b : Byte) : BitVec 32 := Nat.repeat crcBit 8 (crc ^^^ b.setWidth 32)

/-- Ethernet's CRC-32 of a run of bytes: all ones to begin with, complemented at the end. -/
def crc32 (bs : List Byte) : BitVec 32 := ~~~(bs.foldl crcByte 0xFFFFFFFF#32)

/-- Zero bytes up to the shortest Ethernet frame, 60 bytes before the check sequence (10.6). -/
def padFrame (bs : List Byte) : List Byte := bs ++ List.replicate (60 - bs.length) 0#8

/-- The frame check sequence, which is sent least significant byte first. -/
def checkSequence (bs : List Byte) : List Byte := (beBytes 4 (crc32 bs).toNat).reverse

/-- A frame's octets as they leave: the addresses, the frame type, the stamped bytes and the padding, closed by the check
sequence over all of them as written (10.6, R195). -/
def frameOctets (destination source : NetAddress) (type : BitVec 16) (bytes : List Byte) : List Byte :=
  let written := padFrame (beBytes 6 destination.toNat ++ beBytes 6 source.toNat ++ beBytes 2 type.toNat ++ bytes)
  written ++ checkSequence written

/-- What a port's wire carries, octet by octet from the timing point on; none when idle. -/
def Wire.octets (w : Wire) : Option (List Byte) :=
  w.frame.map fun (destination, source, type, bytes) => frameOctets destination source type bytes

end Sys2Proof.Machine
end

