-- ==== Sys2Proof/Machine/Clients.lean ====
section
/-! DEFINITION. Chapter 8, the client table, and the arrival of asks (R144, R145): the events ASK_ARRIVAL and
IDLE_CHECK. -/

namespace Sys2Proof.Machine

open Sys2Proof

/-! ### Entries (R154, R155) -/

def Client.sub (c : Client) (p : NetId) : Option SubRecord :=
  match p with
  | .na => c.subA
  | .nb => c.subB

def Client.setSub (c : Client) (p : NetId) (x : Option SubRecord) : Client :=
  match p with
  | .na => { c with subA := x }
  | .nb => { c with subB := x }

def ClientTable.find (t : ClientTable) (a : NetAddress) : Option Client :=
  t.entries.find? fun c => decide (c.address = a)

/-- Replace the entry in a slot. -/
def ClientTable.put (t : ClientTable) (c : Client) : ClientTable :=
  { t with entries := t.entries.map fun d => if d.slot = c.slot then c else d }

/-- Add an entry in a free slot, at its place in slot order. -/
def ClientTable.add (t : ClientTable) (c : Client) : ClientTable :=
  { t with entries := insertBy (fun y x => decide (x.slot < y.slot)) c t.entries }

/-- The lowest free slot (R159). -/
def ClientTable.freeSlot (t : ClientTable) : Option Nat := lowestFree (t.entries.map (·.slot)) 96

/-! ### Asks (R144, R145, R194) -/

/-- A self-report as an ask carries it (10.6). -/
structure AskReport where
  offset    : Int
  pathDelay : Nat
  grade     : Grade
deriving DecidableEq, Repr

/-- The fields of a well-formed ASK (10.6). -/
structure Ask where
  sequence : BitVec 16
  tag      : BitVec 16
  t1       : List Byte
  report   : Option AskReport
deriving DecidableEq, Repr

/-- The bytes of a frame body from offset `k`, `n` of them; offsets count from the first byte after the frame type
(10.6). -/
def bytesAt (body : List Byte) (k n : Nat) : List Byte := (body.drop k).take n

def fieldAt (body : List Byte) (k n : Nat) : Nat := beNat (bytesAt body k n)

/-- The self-report of an ask body whose flag is set; its client grade must lie from 0 to 7 (R194). -/
def askReportOf (body : List Byte) : Option AskReport :=
  (gradeOf (fieldAt body 27 1)).map fun g => ⟨toSigned 32 (fieldAt body 19 4), fieldAt body 23 4, g⟩

/-- Read a candidate's bytes as a well-formed ASK: kind 2, version 1, self-report flag and body length in accord, and
at least the body received; bytes after the body are ignored (R194). -/
def askOf (body : List Byte) : Option Ask :=
  let length := fieldAt body 2 2
  let head : Ask :=
    ⟨BitVec.ofNat 16 (fieldAt body 4 2), BitVec.ofNat 16 (fieldAt body 6 2), bytesAt body 8 10, none⟩
  if fieldAt body 0 1 = 2 ∧ fieldAt body 1 1 = 1 ∧ 4 + length ≤ body.length then
    if fieldAt body 18 1 = 0 ∧ length = 15 then some head
    else if fieldAt body 18 1 = 1 ∧ length = 24 then (askReportOf body).map fun r => { head with report := some r }
    else none
  else none

/-- The table's answer to an ask (R157). -/
inductive Verdict where
  | repeated
  | spacing
  | pass
  | passUntracked
deriving DecidableEq, Repr

/-- What the table finds for an ask: the answer of R157. -/
def State.judgeAsk (s : State) (p : NetId) (source : NetAddress) (ask : Ask) (run : Nat) : Verdict :=
  match s.clients.find source with
  | some c =>
    match c.sub p with
    | some x =>
      if ask.sequence = x.sequence then .repeated
      else if run < x.answeredRun + s.net.settings.spacing then .spacing
      else .pass
    | none => .pass
  | none => if s.clients.freeSlot.isSome then .pass else .passUntracked

/-- Change the sub-record that the client at `source` has for the arriving port, where it has one. -/
def State.onSub (s : State) (p : NetId) (source : NetAddress) (f : SubRecord → SubRecord) : State :=
  match s.clients.find source with
  | none => s
  | some c =>
    match c.sub p with
    | none => s
    | some x => { s with clients := s.clients.put (c.setSub p (some (f x))) }

/-- A sub-record as an answered ask creates it (R155). -/
def newSub (ask : Ask) (r : Reception) : SubRecord := ⟨ask.sequence, r.run, r.t2, 1, 0, 0⟩

/-- The sub-record of a client that has been answered again on the port (R159). -/
def SubRecord.answeredBy (x : SubRecord) (ask : Ask) (r : Reception) : SubRecord :=
  { x with
    sequence := ask.sequence
    answeredRun := r.run
    lastArrival := r.t2
    answered := wrap32 x.answered 1 }

/-- Judge a self-report's offset against the straggler limit (R162). -/
def State.reportState (s : State) (offset : Int) : ClientState :=
  if offset.natAbs ≤ s.net.settings.stragglerLimit then .tracked else .straggler

/-- A queued ask's self-report replaces the entry's and sets its state; a move into STRAGGLER posts STRAGGLER (R162,
R163). -/
def State.takeReport (s : State) (c : Client) (p : NetId) (ask : Ask) (r : Reception) : State :=
  match ask.report with
  | none => s
  | some x =>
    let st := s.reportState x.offset
    let c' := { c with state := st, report := some ⟨x.offset, x.pathDelay, x.grade, r.t2, p⟩ }
    let t := { s with clients := s.clients.put c' }
    if st = .straggler ∧ c.state ≠ .straggler then t.post .straggler else t

/-- Record a queued ask answered PASS: the sub-record or the entry is updated or created, then its self-report is judged
(R159). -/
def State.recordAnswered (s : State) (p : NetId) (source : NetAddress) (ask : Ask) (r : Reception) : State :=
  match s.clients.find source with
  | some c =>
    let sub := match c.sub p with
      | some x => x.answeredBy ask r
      | none => newSub ask r
    let c' := { c.setSub p (some sub) with tag := ask.tag }
    { s with clients := s.clients.put c' }.takeReport c' p ask r
  | none =>
    match s.clients.freeSlot with
    | none => s
    | some k =>
      let c := (⟨k, source, ask.tag, .new, none, none, none⟩ : Client).setSub p (some (newSub ask r))
      { s with clients := s.clients.add c }.takeReport c p ask r

/-- Raise a counter of a port. -/
def State.count (s : State) (p : NetId) (f : PortCounters → PortCounters) : State :=
  s.setNetPort p { s.netPort p with counters := f (s.netPort p).counters }

/-- The answer to an ask, with the engine's grade as it stands (R142, R145). -/
def State.answerTo (s : State) (source : NetAddress) (ask : Ask) (r : Reception) (untracked : Bool) : Answer :=
  ⟨source, ask.tag, ask.sequence, ask.t1, r.t2, none, untracked, s.grade⟩

/-- An answer joins the queue at its newest end and departs at once when the wire is idle (R141, R142, R145). -/
def State.queueAnswer (s : State) (p : NetId) (a : Answer) : State :=
  let port := s.netPort p
  s.setNetPort p (s.offerWire { port with queue := port.queue ++ [a] })

/-- The port's queue has room for an answer (R142). -/
def State.queueHasRoom (s : State) (p : NetId) : Bool := decide ((s.netPort p).queue.length < 32)

/-- An ask that the port has passed to the table: judged, queued or dropped, and recorded (R145, R157 to R160). -/
def State.handleAsk (s : State) (p : NetId) (source : NetAddress) (ask : Ask) (r : Reception) : State :=
  match s.judgeAsk p source ask r.run with
  | .repeated =>
    (s.onSub p source fun x => { x with repeats := wrap32 x.repeats 1, lastArrival := r.t2 }).count p
      fun k => { k with repeats := wrap32 k.repeats 1 }
  | .spacing =>
    (s.onSub p source fun x => { x with refused := wrap32 x.refused 1, lastArrival := r.t2 }).count p
      fun k => { k with spacing := wrap32 k.spacing 1 }
  | .pass =>
    if s.queueHasRoom p then
      (s.recordAnswered p source ask r).queueAnswer p (s.answerTo source ask r false)
    else
      (s.onSub p source fun x => { x with lastArrival := r.t2 }).count p
        fun k => { k with queueFull := wrap32 k.queueFull 1 }
  | .passUntracked =>
    if s.queueHasRoom p then
      (s.count p fun k => { k with untracked := wrap32 k.untracked 1 }).queueAnswer p (s.answerTo source ask r true)
    else s.count p fun k => { k with queueFull := wrap32 k.queueFull 1 }

/-- The frame is addressed to the part: to the station address or to the group address, from an individual address
(R136, R144). -/
def State.addressedHere (s : State) (f : RxFrame) : Bool :=
  (decide (f.destination = s.net.settings.address) || decide (f.destination = Config.groupAddress)) && !isGroup f.source

/-- A candidate ask at its arrival, with its reception ended: a step during reception drops it with STEP_FLUSH (R143),
then come the checks of R144. The spec gives no order between the mark and those checks for a marked candidate that is
also malformed or meets FREERUN (R144, R153, R194); that it counts STEP_FLUSH alone is the model's choice (log entry
39). -/
def State.arriveCandidate (s : State) (p : NetId) (f : RxFrame) (r : Reception) : State :=
  if r.marked then s.count p fun k => { k with stepFlush := wrap32 k.stepFlush 1 }
  else
    match askOf f.body with
    | none => s.count p fun k => { k with unknown := wrap32 k.unknown 1 }
    | some ask =>
      if s.addressedHere f = false then s.count p fun k => { k with unknown := wrap32 k.unknown 1 }
      else if s.engine.state = .freerun then s.count p fun k => { k with notReady := wrap32 k.notReady 1 }
      else s.handleAsk p f.source ask r

/-- ASK_ARRIVAL (R143, R144): the end of the reception that the port has in progress. A frame that fails reception is
counted; one that is not of the TD460 frame type is not. -/
def askArrivalState (p : NetId) (f : RxFrame) (s : State) : State :=
  s.unlessHeld fun s =>
    match (s.netPort p).reception with
    | none => s
    | some r =>
      let t := s.setNetPort p { s.netPort p with reception := none }
      if f.receptionOk = false then t.count p fun k => { k with receiveErrors := wrap32 k.receiveErrors 1 }
      else if f.frameType = Config.frameType then t.arriveCandidate p f r
      else t

def execAskArrival (p : NetId) (f : RxFrame) (s : State) : Host.Outcome State Fault Refusal :=
  .next (askArrivalState p f s)

/-! ### Idle expiry (R164, R165) -/

/-- The sub-record unless its age exceeds the span at run time `run` (R164). -/
def keepYoung (span run : Nat) (x : Option SubRecord) : Option SubRecord :=
  x.filter fun y => !decide (y.answeredRun + span < run)

def Client.aged (c : Client) (span run : Nat) : Client :=
  { c with subA := keepYoung span run c.subA, subB := keepYoung span run c.subB }

/-- An entry with no sub-record left leaves the table (R165). -/
def Client.isLost (c : Client) : Bool := c.subA.isNone && c.subB.isNone

/-- The idle span in milliseconds: the idle limit times the beacon interval (R164). -/
def NetSettings.idleSpan (n : NetSettings) : Nat := n.idleLimit * n.interval

/-- IDLE_CHECK (R164): at a whole second of run time, sub-records beyond the span are removed, entries left without one
leave, and CLIENT_LOST is posted if any left. -/
def idleCheckState (s : State) : State :=
  s.unlessHeld fun s =>
    if s.ts.tickCount % Config.ticksPerSec = 0 ∧ 0 < s.ts.tickCount ∧ s.clients.checkedAt ≠ some s.ts.tickCount then
      let aged := s.clients.entries.map fun c => c.aged s.net.settings.idleSpan s.run
      let t := { s with clients := ⟨aged.filter fun c => !c.isLost, some s.ts.tickCount⟩ }
      if aged.any Client.isLost then t.post .clientLost else t
    else s

def execIdleCheck (s : State) : Host.Outcome State Fault Refusal := .next (idleCheckState s)

end Sys2Proof.Machine
end

