-- ==== Sys2Proof/Machine/Steps.lean ====
section
/-! DEFINITION. Section 1.5, the step: one event at the timescale unit, told to the engine, the mark scheduler, the
output lines, the frame composer and the network ports in that same event (R13, R14). -/

namespace Sys2Proof.Machine

open Sys2Proof

/-- The timescale after adding an amount in nanoseconds, when the result lies in its range (R13). -/
def State.stepTarget (s : State) (amount : Int) : Option Instant :=
  let t := (s.nowNs : Int) + amount
  if 0 ≤ t ∧ t < Config.nsRange then some t.toNat else none

/-- The instants that a step to `new` carries past what a mark or a commitment waits for: none for a step that is not
forward; for a forward step those in (old, new], and those reached at this very tick and not yet acted on, which a step
taken first passes too (R88, R90, R113; log entry 10). -/
def State.passedBy (s : State) (new : Instant) (t : Instant) : Bool :=
  decide (s.nowNs < new) && ((decide (s.nowNs < t) && decide (t ≤ new)) || s.hasReached t)

/-- The timescale unit's own part: the new value, the slew cancelled, the leap record brought into line, the last-step
record, STEP_TAKEN (R14). With `clearFrac` the fraction is cleared, and what the advance has gathered below it (R13). -/
def State.stepUnit (s : State) (source : Origin) (new : Instant) (clearFrac : Bool) : State :=
  let before := s.ts.time
  let after := TimeValue.ofNs new (if clearFrac then 0 else before.frac)
  let moved := s.setTs
    { s.ts with time := after, rem := if clearFrac then 0 else s.ts.rem, reachedFrom := none }
  let t := (moved.cancelSlew anyOrigin).alignLeap
  (t.setTs { t.ts with
    lastStep := some ⟨source, (new : Int) - (before.toNs : Int), before, after, s.run⟩ }).post .stepTaken

/-- The engine is handed a step: STEP_NEEDED is cleared (R61, R73). What SET_TIME sets besides is in its own rule. -/
def State.engineOnStep (s : State) : State := s.setEngine { s.engine with stepNeeded := false }

/-- Every line is handed the step (R112, R113, R129). -/
def State.linesOnStep (s : State) (passed : Instant → Bool) : State :=
  { s with lines := s.lines.map (·.onStep passed) }

/-- The composer discards its composed frame (R129). -/
def State.composerOnStep (s : State) : State := { s with composer := { s.composer with frame := none } }

/-- Both network ports are handed the step (R147). -/
def State.netOnStep (s : State) (new : Instant) : State :=
  { s with net := { s.net with ports := s.net.ports.map (·.onStep new s.net.settings.interval) } }

/-- What the blocks make of a step to `new`. -/
def State.blocksOnStep (s : State) (source : Origin) (new : Instant) (clearFrac : Bool) : State :=
  let passed := s.passedBy new
  ((((s.stepUnit source new clearFrac).engineOnStep.marksOnStep passed new).linesOnStep passed).composerOnStep).netOnStep new

/-- Note each line that had a start to act on in `before` and has none left: a load fault of that start may still arrive
(R114; log entry 37). -/
def State.noteOvertaken (s before : State) : State :=
  { s with
    lines := s.lines.mapIdx fun i l =>
      if before.startDue i ∧ s.startDue i = false then { l with overtaken := some s.ts.tickCount } else l }

/-- A step to `new`, in one event (R14). -/
def State.stepTo (s : State) (source : Origin) (new : Instant) (clearFrac : Bool) : State :=
  (s.blocksOnStep source new clearFrac).noteOvertaken s

end Sys2Proof.Machine
end

