-- ==== Sys2Proof/Machine/Engine.lean ====
section
/-! DEFINITION. Chapter 3, the discipline engine: its states and their entries, the selection, and the use of
measurements. Its commands stand in EngineCommands.lean. -/

namespace Sys2Proof.Machine

open Sys2Proof

/-! ### Entries into states (R51, R52, R56, R57) -/

/-- Enter a state at this run time; STATE_CHANGED is posted (R51, R52). -/
def State.enterState (s : State) (st : EngineState) : State :=
  (s.setEngine { s.engine with state := st, entryTime := s.run }).post .stateChanged

/-- The rate correction is written to the timescale unit (R3). -/
def State.writeRate (s : State) (rate : Int) : State := s.setTs { s.ts with rate := rate }

/-- The good-lock run at 0 and STEP_NEEDED clear (R56, R57). -/
def State.clearLockRun (s : State) : State := s.setEngine { s.engine with goodRun := 0, stepNeeded := false }

/-- U at an entry into ACQUIRING: from FREERUN the initial-step flag is set and U is 4,294,967,295 ns; from any other
state U is kept, growing from the value it has reached (R56). -/
def State.acquiringUncertainty (s : State) : State :=
  if s.engine.state = .freerun then
    (s.setEngine { s.engine with initialStep := true }).setUncertainty Config.uncertaintyCap
  else s.reanchor

/-- Entry into ACQUIRING (R56). -/
def State.enterAcquiring (s : State) : State :=
  ((s.acquiringUncertainty.clearLockRun).cancelSlew Origin.isMaster).enterState .acquiring

/-- Entry into HOLDOVER (R57). -/
def State.enterHoldover (s : State) : State :=
  (((s.reanchor.clearLockRun).writeRate s.engine.integral).cancelSlew Origin.isEngine).enterState .holdover

/-! ### Selection (R53, R54) -/

/-- A reference is a candidate when its record is USABLE; in FREERUN a PULSE_ONLY reference is not one (R53). -/
def State.isCandidate (s : State) (r : RefId) : Bool :=
  decide ((s.ref r).state = .usable)
    && !(decide (s.engine.state = .freerun) && decide ((s.ref r).settings.kind = .pulseOnly))

/-- The better of two candidates: the lower priority number, the lower index among equals (R53). -/
def State.better (s : State) (best : Option RefId) (r : RefId) : Option RefId :=
  if s.isCandidate r then
    match best with
    | none => some r
    | some b => if (s.ref r).settings.priority < (s.ref b).settings.priority then some r else some b
  else best

/-- The best candidate (R53). -/
def State.bestCandidate (s : State) : Option RefId := (List.finRange 4).foldl s.better none

/-- Change the selection; SELECTION_CHANGED is posted (R54). -/
def State.select (s : State) (sel : Option RefId) : State :=
  (s.setEngine { s.engine with selection := sel }).post .selectionChanged

/-- Re-evaluate the selection and act on the best candidate according to the state (R54). It is done on the causes that
R54 lists alone: the engine's leaving of FREERUN, by which a PULSE_ONLY reference of better priority becomes a candidate
(R53), is none of them, and the selection then stands until the next cause (log entry 31). -/
def State.reevaluate (s : State) : State :=
  match s.engine.state with
  | .pinned => s
  | .freerun | .holdover =>
    match s.bestCandidate with
    | none => s
    | some r => (s.select (some r)).enterAcquiring
  | .acquiring | .locked =>
    if s.bestCandidate = s.engine.selection then s
    else
      match s.bestCandidate with
      | some r => (s.select (some r)).enterAcquiring
      | none => (s.select none).enterHoldover

/-! ### Corrections (R59 to R65) -/

/-- The loop update of R62: the integral term falls by 250 x / tc^2 and the rate correction is it less 1,000 x / tc, each
quotient rounded toward zero and each result held to 200 ppm. -/
def loopIntegral (integral x : Int) (tc : Nat) : Int :=
  clampInt (-200000000) 200000000 (integral - (250 * x).tdiv ((tc : Int) * tc))

def loopRate (integral x : Int) (tc : Nat) : Int :=
  clampInt (-200000000) 200000000 (integral - (1000 * x).tdiv tc)

def State.loopUpdate (s : State) (x : Int) : State :=
  let i := loopIntegral s.engine.integral x s.engine.settings.timeConstant
  (s.setEngine { s.engine with integral := i }).writeRate (loopRate i x s.engine.settings.timeConstant)

/-- U after a measurement in LOCKED: a plus the magnitude of x, saturating (R63, R64). -/
def measuredPs (x : Int) (a : Nat) : Nat := (a + x.natAbs) * 1000

/-- The good-lock run after a loop update in ACQUIRING (R63). -/
def Engine.nextRun (e : Engine) (x : Int) : Nat :=
  if x.natAbs ≤ e.settings.lockWindow then min 64 (e.goodRun + 1) else 0

/-- The lock test after a loop update in ACQUIRING: a run at or above the lock count brings LOCKED, which sets U and
clears STEP_NEEDED (R61, R63). -/
def State.lockTest (s : State) (x : Int) (a : Nat) : State :=
  let run := s.engine.nextRun x
  let t := s.setEngine { s.engine with goodRun := run }
  if s.engine.settings.lockCount ≤ run ∧ x.natAbs ≤ s.engine.settings.lockWindow then
    ((t.setEngine { t.engine with stepNeeded := false }).setUncertainty (measuredPs x a)).enterState .locked
  else t

/-- An offset at either end of its saturated range, of signed 64 bits (R38, R65). -/
def offsetSaturated (x : Int) : Bool := decide (x = -(2 ^ 63)) || decide (x = 2 ^ 63 - 1)

/-- The initial step: a step of -x; when it is made, U is a + 1,000 ns, the initial-step flag is cleared and the run is 0
(R59, R65). -/
def State.initialStepOn (s : State) (x : Int) (a : Nat) : State :=
  match s.stepTarget (-x) with
  | none => s
  | some new =>
    let t := (s.stepTo .engine new false).setUncertainty ((a + 1000) * 1000)
    t.setEngine { t.engine with initialStep := false, goodRun := 0 }

/-- An auto-step: a step of -x, and the good-lock run at 0 (R60, R65). -/
def State.autoStepOn (s : State) (x : Int) : State :=
  match s.stepTarget (-x) with
  | none => s
  | some new =>
    let t := s.stepTo .engine new false
    t.setEngine { t.engine with goodRun := 0 }

/-- A slew of -x of origin ENGINE is requested; a request that meets a slew record is discarded (R8, R60). -/
def State.engineSlewOn (s : State) (x : Int) : State :=
  let t := s.setEngine { s.engine with goodRun := 0 }
  match t.ts.slew with
  | some _ => t
  | none => t.beginSlew .engine (-x)

/-- STEP_NEEDED is set, with its event when it was clear (R60, R61). -/
def State.needStep (s : State) : State :=
  let t := s.setEngine { s.engine with goodRun := 0, stepNeeded := true }
  if s.engine.stepNeeded then t else t.post .stepNeeded

/-- An engine slew is present (R59). -/
def State.engineSlewPresent (s : State) : Bool := s.ts.slew.any fun w => w.origin.isEngine

/-- The correction of a measurement in ACQUIRING (R59, R60). -/
def State.acquiringCorrection (s : State) (r : RefId) (x : Int) (a : Nat) : State × EngineAction :=
  let pulseOnly := decide ((s.ref r).settings.kind = .pulseOnly)
  if s.engineSlewPresent || (s.engine.initialStep && pulseOnly) then (s, .ignored)
  else if s.engine.initialStep then (s.initialStepOn x a, .initialStep)
  else if x.natAbs < s.engine.settings.threshold then ((s.loopUpdate x).lockTest x a, .loop)
  else if s.engine.settings.autoStep then (s.autoStepOn x, .autoStep)
  else if x.natAbs ≤ Config.nsPerSec then (s.engineSlewOn x, .slew)
  else (s.needStep, .stepNeeded)

/-- The correction of a used measurement, by the engine's state (R59, R60, R64, R65). -/
def State.correct (s : State) (r : RefId) (x : Int) (a : Nat) : State × EngineAction :=
  if offsetSaturated x then (s, .ignored)
  else if s.engine.state = .locked then ((s.loopUpdate x).setUncertainty (measuredPs x a), .loop)
  else s.acquiringCorrection r x a

/-- The engine uses a measurement when it is in ACQUIRING or LOCKED and its selection names the reference (R58). -/
def State.usesMeasurement (s : State) (r : RefId) : Bool :=
  (decide (s.engine.state = .acquiring) || decide (s.engine.state = .locked)) && decide (s.engine.selection = some r)

/-- The engine takes a measurement handed over: utc_offset and leap announcement first, then the correction, then the
last-measurement record (R58, R72). -/
def State.useMeasurement (s : State) (r : RefId) (x : Int) (a : Nat) (m : Option Message) : State :=
  if s.usesMeasurement r then
    let t := match m with
      | some m => s.leapUpdate r m
      | none => s
    let c := t.correct r x a
    c.1.setEngine { c.1.engine with lastMeasurement := some ⟨r, x, a, s.run, c.2⟩ }
  else s

/-! ### RESTART (R76) -/

/-- The engine at RESTART: in ACQUIRING or LOCKED the selection is cleared and HOLDOVER entered, with the rate
correction written to I and a new anchor for U; elsewhere the state stays. No event is posted (R76). -/
def State.engineRestarted (s : State) : State :=
  match s.engine.state with
  | .acquiring | .locked =>
    let t := (s.reanchor.clearLockRun).writeRate s.engine.integral
    t.setEngine { t.engine with state := .holdover, entryTime := t.run, selection := none }
  | .freerun | .holdover | .pinned => s.clearLockRun

end Sys2Proof.Machine
end

