-- ==== Sys2Proof/Machine/References.lean ====
section
/-! DEFINITION. Chapter 2, the reference inputs: states, edges, messages, measurements, qualification and
disqualification; the events REFERENCE_EDGE, MISSING_EDGE_EXPIRY, MESSAGE_CHARACTER, MESSAGE_ARRIVAL, SETTLE_EXPIRY and
HOLD_OFF_EXPIRY. -/

namespace Sys2Proof.Machine

open Sys2Proof

/-! ### Entries into states (R29) -/

/-- The dynamic state that entry into OFF, SEEKING or HELD_OFF clears: all of it but the counters and the latest
measurement record (R29, R44). -/
def Reference.cleared (x : Reference) : Reference :=
  { x with
    latch := none
    lastEdge := none
    goodRun := 0
    comparison := none
    missingRun := 0
    badRun := 0
    phaseRun := 0
    disagree := false
    holdOffExpiry := none
    settleExpiry := none
    gather := .hunting }

/-- The good-measurement run and the comparison offset after a bad or missed message, a missing edge or an unfit
measurement in QUALIFYING (R34, R35, R37, R39). -/
def Reference.runBroken (x : Reference) : Reference := { x with goodRun := 0, comparison := none }

/-- A state of the record and REF_CHANGED (R29). -/
def State.refEntered (s : State) (r : RefId) (x : Reference) : State := (s.setRef r x).post .refChanged

/-- A record that leaves USABLE, or any other state, for SEEKING or OFF; the engine is told when it was USABLE (R29,
R48). -/
def State.refLeavesFor (s : State) (r : RefId) (x : Reference) (st : RefState) : State :=
  let t := s.refEntered r { x.cleared with state := st }
  if x.state = .usable then t.reevaluate else t

/-- Disqualification of a USABLE reference: HELD_OFF with its hold-off expiry, counted, and the engine is told (R44). -/
def State.disqualify (s : State) (r : RefId) (x : Reference) : State :=
  (s.refEntered r
    { x.cleared with
      state := .heldOff
      holdOffExpiry := some (s.run + x.settings.holdOff * 1000)
      disqualified := sat16 x.disqualified }).reevaluate

/-- A record with a broken expectation, by its state: in QUALIFYING its run is broken, in USABLE a count at 3
disqualifies; elsewhere it is kept as given. -/
def State.refFailed (s : State) (r : RefId) (x : Reference) (count : Nat) : State :=
  match x.state with
  | .qualifying => s.setRef r x.runBroken
  | .usable => if count = 3 then s.disqualify r x else s.setRef r x
  | .off | .seeking | .heldOff => s.setRef r x

/-! ### Edges (R31 to R35) -/

/-- The spacing window of a record in ticks: it opens 62,500 ticks before the last accepted edge plus m+1 seconds and
closes 62,500 ticks after (R33). -/
def Reference.windowOpens (x : Reference) (e : Nat) : Nat := e + (x.missingRun + 1) * Config.ticksPerSec - 62500
def Reference.windowCloses (x : Reference) (e : Nat) : Nat := e + (x.missingRun + 1) * Config.ticksPerSec + 62500

/-- The closing tick of the window has passed with no accepted edge (R35). -/
def State.missingEdgeDue (s : State) (r : RefId) : Bool :=
  let x := s.ref r
  match x.state, x.lastEdge with
  | .qualifying, some e => decide (x.windowCloses e < s.ts.tickCount)
  | .usable, some e => decide (x.windowCloses e < s.ts.tickCount)
  | _, _ => false

/-- The missing-edge expiry (R35). -/
def State.missEdge (s : State) (r : RefId) : State :=
  let x := s.ref r
  let y := { x with missingEdges := sat16 x.missingEdges, missingRun := upTo3 x.missingRun }
  match x.state with
  | .qualifying =>
    if y.missingRun = 3 then s.refEntered r { y.cleared with state := .seeking } else s.setRef r y.runBroken
  | .usable => if y.missingRun = 3 then s.disqualify r y else s.setRef r y
  | .off | .seeking | .heldOff => s

/-- MISSING_EDGE_EXPIRY (R35). -/
def missingEdgeExpiryState (r : RefId) (s : State) : State :=
  s.unlessHeld fun s => if s.missingEdgeDue r then s.missEdge r else s

def execMissingEdgeExpiry (r : RefId) (s : State) : Host.Outcome State Fault Refusal :=
  .next (missingEdgeExpiryState r s)

/-- The capture of an edge now: the timescale less the compensation, 0 s 0 ns where that would be negative, and the tick
count (R31). -/
def State.captureNow (s : State) (x : Reference) : Capture :=
  ⟨s.nowNs - x.settings.compensation, s.ts.tickCount, false⟩

/-- The settle expiry of an accepted edge: 200 ms after it for a PULSE_ONLY reference (R32, R33). -/
def State.settleFor (s : State) (x : Reference) : Option Nat :=
  if x.settings.kind = .pulseOnly then some (s.ts.tickCount + 50000000) else none

/-- The record with an accepted edge's capture in its latch (R32, R33). -/
def State.latched (s : State) (x : Reference) : Reference :=
  { x with
    lastEdge := some s.ts.tickCount
    missingRun := 0
    latch := some (s.captureNow x)
    settleExpiry := s.settleFor x }

/-- The first edge in SEEKING: accepted with no window, and the record enters QUALIFYING (R29, R32). -/
def State.firstEdge (s : State) (r : RefId) (x : Reference) : State :=
  s.refEntered r { s.latched x with state := .qualifying, goodRun := 0, comparison := none, gather := .hunting }

/-- An edge accepted in its window: it takes the latch; an older capture that no bad message was judged against counts a
missed message (R33, R34). -/
def State.acceptEdge (s : State) (r : RefId) (x : Reference) : State :=
  let y := s.latched x
  match x.latch with
  | none => s.setRef r y
  | some old =>
    if old.badSeen then s.setRef r y
    else
      let z := { y with messageErrors := sat16 y.messageErrors, badRun := upTo3 y.badRun }
      s.refFailed r z z.badRun

/-- An edge in QUALIFYING or USABLE, not after the closing tick: accepted from the opening tick on, a glitch before it
(R33). -/
def State.windowEdge (s : State) (r : RefId) (x : Reference) : State :=
  match x.lastEdge with
  | none => s
  | some e =>
    if s.ts.tickCount < x.windowOpens e then s.setRef r { x with glitches := sat16 x.glitches }
    else if s.ts.tickCount ≤ x.windowCloses e then s.acceptEdge r x
    else s

/-- An edge that the record sees, by its state (R31). -/
def State.seeEdge (s : State) (r : RefId) : State :=
  let x := s.ref r
  match x.state with
  | .off | .heldOff => s
  | .seeking => s.firstEdge r x
  | .qualifying | .usable => s.windowEdge r x

/-- REFERENCE_EDGE (R31): a change in the direction of the record's edge polarity. The missing-edge expiry moves the
window on at the tick after the closing tick, before an edge of that tick is judged (R33, R35; log entry 11). -/
def referenceEdgeState (r : RefId) (e : Edge) (s : State) : State :=
  s.unlessHeld fun s =>
    if (s.ref r).settings.polarity = e then
      (if s.missingEdgeDue r then s.missEdge r else s).seeEdge r
    else s

def execReferenceEdge (r : RefId) (e : Edge) (s : State) : Host.Outcome State Fault Refusal :=
  .next (referenceEdgeState r e s)

/-! ### Measurements (R38 to R43, R46) -/

/-- A fit measurement in QUALIFYING: good or too far against the comparison offset, which it becomes; a run that reaches
the qualify count enters USABLE and the engine re-evaluates (R41, R42). -/
def State.qualify (s : State) (r : RefId) (x : Reference) (offset : Int) : State :=
  let good : Bool := match x.comparison with
    | none => true
    | some c => decide ((offset - c).natAbs ≤ x.settings.phaseLimit)
  let run := if good then x.goodRun + 1 else 0
  let y := { x with goodRun := run, comparison := some offset }
  if good ∧ x.settings.qualifyCount ≤ run then
    (s.refEntered r
      { y with state := .usable, missingRun := 0, badRun := 0, phaseRun := 0, disagree := false }).reevaluate
  else s.setRef r y

/-- The consecutive phase-exceed count after a measurement: checked when the engine is LOCKED on this reference, 0
otherwise (R43). -/
def State.nextPhaseRun (s : State) (r : RefId) (x : Reference) (offset : Int) : Nat :=
  if s.engine.state = .locked ∧ s.engine.selection = some r ∧ x.settings.phaseLimit < offset.natAbs then upTo3 x.phaseRun
  else 0

/-- DISAGREE after a measurement: the engine is LOCKED on another reference and the offset exceeds the phase limit
(R46). -/
def State.disagrees (s : State) (r : RefId) (x : Reference) (offset : Int) : Bool :=
  decide (s.engine.state = .locked) && decide (s.engine.selection ≠ some r)
    && decide (x.settings.phaseLimit < offset.natAbs)

/-- A fit measurement in USABLE: the phase check, the DISAGREE flag with REF_CHANGED when it changes, and the hand-over to
the engine unless the measurement has disqualified its reference (R43, R46). -/
def State.measureUsable (s : State) (r : RefId) (x : Reference) (offset : Int) (accuracy : Nat) (m : Option Message) :
    State :=
  let y := { x with phaseRun := s.nextPhaseRun r x offset }
  if y.phaseRun = 3 then s.disqualify r y
  else
    let flag := s.disagrees r x offset
    let t := s.setRef r { y with disagree := flag }
    (if flag = x.disagree then t else t.post .refChanged).useMeasurement r offset accuracy m

/-- A completed measurement, recorded and used by the record's state; an unfit one breaks the run in QUALIFYING and
disqualifies at once in USABLE (R38 to R43). -/
def State.measured (s : State) (r : RefId) (x : Reference) (c : Capture) (offset : Int) (accuracy : Nat)
    (m : Option Message) (fit : Bool) : State :=
  let y := { x with
    latch := none
    settleExpiry := none
    latest := some ⟨s.run, c.value, c.tick, offset, accuracy, m⟩ }
  match y.state with
  | .qualifying => if fit then s.qualify r y offset else s.setRef r y.runBroken
  | .usable => if fit then s.measureUsable r y offset accuracy m else s.disqualify r y
  | .off | .seeking | .heldOff => s.setRef r y

/-! ### Messages (R36 to R39, R193) -/

/-- The record judges messages: QUALIFYING or USABLE, RECEIVER or LINK (R36). -/
def Reference.judgesMessages (x : Reference) : Bool :=
  (decide (x.state = .qualifying) || decide (x.state = .usable))
    && (decide (x.settings.kind = .receiver) || decide (x.settings.kind = .link))

/-- The check bytes A and B over bytes 2 to 21 (10.5). -/
def checkSums (bs : List Byte) : Byte × Byte := bs.foldl (fun ab b => (ab.1 + b, ab.2 + (ab.1 + b))) (0, 0)

def announcementOf (kind dayEnd : Nat) : Option Announcement :=
  match kind with
  | 0 => some .none
  | 1 => some (.insert dayEnd)
  | 2 => some (.delete dayEnd)
  | _ => none

/-- The kind and the largest status of a message's source kind byte (10.5, R193). -/
def sourceKindOf (n : Nat) : Option (RefKind × Nat) :=
  match n with
  | 1 => some (.receiver, 1)
  | 2 => some (.link, 7)
  | _ => none

/-- The bytes of a message from offset `k`, `n` of them, as a number. -/
def charsAt (cs : List Byte) (k n : Nat) : Nat := beNat ((cs.drop k).take n)

/-- A complete message of 24 characters: read by 10.5, or rejected as R193 lists. -/
def messageOf (cs : List Byte) : Option Message :=
  let sums := checkSums ((cs.drop 2).take 20)
  if cs.getD 22 0 = sums.1 ∧ cs.getD 23 0 = sums.2 then do
    let (kind, top) ← sourceKindOf (charsAt cs 2 1)
    let ann ← announcementOf (charsAt cs 15 1) (charsAt cs 16 6)
    if charsAt cs 14 1 ≤ top then
      some ⟨kind, charsAt cs 3 6, charsAt cs 9 1, charsAt cs 10 4, charsAt cs 14 1, ann⟩
    else none
  else none

/-- What a character makes of the gathering (R193): it is discarded, it goes on gathering, or it decides the message,
which is then complete (some) or rejected (none). -/
inductive Gathered where
  | discarded
  | more (chars : List Byte)
  | decided (m : Option Message)
deriving DecidableEq, Repr

def Gather.receive (g : Gather) (c : Character) : Gathered :=
  match g with
  | .hunting => if c.framed ∧ c.data = 0xC5#8 then .more [c.data] else .discarded
  | .gathering cs =>
    if c.framed = false then .decided none
    else
      let cs' := cs ++ [c.data]
      if cs'.length = 2 ∧ c.data ≠ 0x3A#8 then .decided none
      else if cs'.length < 24 then .more cs'
      else .decided (messageOf cs')

/-- A bad message (R37). -/
def State.badMessage (s : State) (r : RefId) (x : Reference) : State :=
  let y := { x with
    messageErrors := sat16 x.messageErrors
    badRun := upTo3 x.badRun
    latch := x.latch.map fun c => { c with badSeen := true } }
  s.refFailed r y y.badRun

/-- A signed count of nanoseconds saturating at the ends of 64 bits (R38). -/
def saturate64 (x : Int) : Int := clampInt (-(2 ^ 63)) (2 ^ 63 - 1) x

/-- The offset of a capture from the instant a message names: positive when the timescale is ahead (R38). -/
def offsetOf (c : Capture) (m : Message) : Int :=
  saturate64 ((c.value : Int) - ((m.utcCount + m.utcOffset) * Config.nsPerSec : Nat))

/-- The source is fit to be used: TRACKING, or a grade of G0 to G6 (R39). -/
def Message.fit (m : Message) : Bool :=
  match m.kind with
  | .receiver => decide (m.status = 0)
  | .link => decide (m.status < 7)
  | .off | .pulseOnly => false

/-- The arrival is from 50 ms to 950 ms of run time after the captured edge (R37). -/
def State.messageInTime (s : State) (c : Capture) : Bool :=
  decide (c.tick + 12500000 ≤ s.ts.tickCount) && decide (s.ts.tickCount ≤ c.tick + 237500000)

/-- Judge a complete message: valid when its kind is the setting's, the latch is occupied and it is in time (R37). -/
def State.judgeMessage (s : State) (r : RefId) (x : Reference) (m : Message) : State :=
  match x.latch with
  | none => s.badMessage r x
  | some c =>
    if m.kind = x.settings.kind ∧ s.messageInTime c then
      s.measured r { x with badRun := 0 } c (offsetOf c m) (max m.accuracy x.settings.accuracy) (some m) m.fit
    else s.badMessage r x

/-- A message decided by its gathering arrives: the record returns to HUNTING and the message is judged (R37, R193). -/
def State.arriveMessage (s : State) (r : RefId) (m : Option Message) : State :=
  let x := { s.ref r with gather := .hunting }
  match m with
  | none => s.badMessage r x
  | some m => s.judgeMessage r x m

/-- A character on the message input (R36, R193). -/
def State.receiveCharacter (s : State) (r : RefId) (c : Character) : State :=
  let x := s.ref r
  if x.judgesMessages then
    match x.gather.receive c with
    | .discarded => s
    | .more cs => s.setRef r { x with gather := .gathering cs }
    | .decided m => s.arriveMessage r m
  else s

/-- MESSAGE_CHARACTER (R193): the character is discarded, starts a message, is appended, or decides the message being
gathered, which then arrives in the same event (log entry 12). -/
def messageCharacterState (r : RefId) (c : Character) (s : State) : State :=
  s.unlessHeld fun s => s.receiveCharacter r c

def execMessageCharacter (r : RefId) (c : Character) (s : State) : Host.Outcome State Fault Refusal :=
  .next (messageCharacterState r c s)

/-- MESSAGE_ARRIVAL (R37): the character `c` completes the message being gathered or has it rejected; a character that
decides no message is no arrival. -/
def messageArrivalState (r : RefId) (c : Character) (s : State) : State :=
  s.unlessHeld fun s =>
    let x := s.ref r
    if x.judgesMessages then
      match x.gather.receive c with
      | .discarded | .more _ => s
      | .decided m => s.arriveMessage r m
    else s

def execMessageArrival (r : RefId) (c : Character) (s : State) : Host.Outcome State Fault Refusal :=
  .next (messageArrivalState r c s)

/-! ### Expiries (R40, R45) -/

/-- The offset of a capture from the nearest whole second (R40). -/
def offsetFromSecond (c : Capture) : Int :=
  let n := c.value % Config.nsPerSec
  if n < 500000000 then n else (n : Int) - Config.nsPerSec

/-- SETTLE_EXPIRY (R40): 200 ms after the captured edge a PULSE_ONLY reference completes a measurement. -/
def settleExpiryState (r : RefId) (s : State) : State :=
  s.unlessHeld fun s =>
    let x := s.ref r
    match x.settleExpiry, x.latch with
    | some t, some c =>
      if t ≤ s.ts.tickCount then s.measured r x c (offsetFromSecond c) x.settings.accuracy none true else s
    | _, _ => s

def execSettleExpiry (r : RefId) (s : State) : Host.Outcome State Fault Refusal := .next (settleExpiryState r s)

/-- HOLD_OFF_EXPIRY (R45): the run counter reaches the hold-off expiry and the record enters SEEKING. -/
def holdOffExpiryState (r : RefId) (s : State) : State :=
  s.unlessHeld fun s =>
    let x := s.ref r
    match x.holdOffExpiry with
    | none => s
    | some t => if x.state = .heldOff ∧ t ≤ s.run then s.refEntered r { x.cleared with state := .seeking } else s

def execHoldOffExpiry (r : RefId) (s : State) : Host.Outcome State Fault Refusal := .next (holdOffExpiryState r s)

/-! ### RESTART (R30, R49) -/

/-- A record at RESTART: settings kept, the dynamic state cleared with the latest measurement and the counters; OFF when
its kind is OFF, SEEKING otherwise (R30, R49). -/
def Reference.restarted (x : Reference) : Reference :=
  { Reference.powerOn with
    settings := x.settings
    state := if x.settings.kind = .off then .off else .seeking }

end Sys2Proof.Machine
end

