-- ==== Sys2Proof/Machine/MasterPorts.lean ====
section
/-! DEFINITION. Chapter 9, the master ports: the taking of a posted command in the common check order, the transactions,
the control claim, and the commands UNKNOWN_COMMAND, CLAIM, RELEASE, SET_EVENT_MASK and IDENTIFY. -/

namespace Sys2Proof.Machine

open Sys2Proof

/-! ### The commands a master can post (9.8, 10.3) -/

/-- A command's number, the words its parameters fill, and whether it needs the control claim. -/
structure CommandRow where
  number : Byte
  words  : Nat
  claim  : Bool
deriving DecidableEq, Repr

def CommandRow.readTime : CommandRow := ⟨0x01, 0, false⟩
def CommandRow.setTime : CommandRow := ⟨0x02, 2, true⟩
def CommandRow.stepBy : CommandRow := ⟨0x03, 1, true⟩
def CommandRow.slewBy : CommandRow := ⟨0x04, 1, true⟩
def CommandRow.setLeap : CommandRow := ⟨0x05, 1, true⟩
def CommandRow.clearLeap : CommandRow := ⟨0x06, 0, true⟩
def CommandRow.setUtcOffset : CommandRow := ⟨0x07, 1, true⟩
def CommandRow.setLocalOffset : CommandRow := ⟨0x08, 1, true⟩
def CommandRow.setReference : CommandRow := ⟨0x10, 2, true⟩
def CommandRow.readReference : CommandRow := ⟨0x11, 1, false⟩
def CommandRow.setEngine : CommandRow := ⟨0x18, 2, true⟩
def CommandRow.readEngine : CommandRow := ⟨0x19, 0, false⟩
def CommandRow.pin : CommandRow := ⟨0x1A, 1, true⟩
def CommandRow.unpin : CommandRow := ⟨0x1B, 0, true⟩
def CommandRow.addMark : CommandRow := ⟨0x20, 3, false⟩
def CommandRow.cancelMark : CommandRow := ⟨0x21, 1, false⟩
def CommandRow.takeOutcomes : CommandRow := ⟨0x22, 0, false⟩
def CommandRow.setLine : CommandRow := ⟨0x28, 1, true⟩
def CommandRow.lineRestart : CommandRow := ⟨0x29, 1, true⟩
def CommandRow.senseLine : CommandRow := ⟨0x2A, 1, false⟩
def CommandRow.setNetwork : CommandRow := ⟨0x30, 2, true⟩
def CommandRow.readPort : CommandRow := ⟨0x31, 1, false⟩
def CommandRow.forgetClient : CommandRow := ⟨0x34, 1, true⟩
def CommandRow.claim' : CommandRow := ⟨0x38, 1, false⟩
def CommandRow.release : CommandRow := ⟨0x39, 0, false⟩
def CommandRow.setEventMask : CommandRow := ⟨0x3A, 1, false⟩
def CommandRow.readTable : CommandRow := ⟨0x3B, 1, false⟩
def CommandRow.readMore : CommandRow := ⟨0x3C, 0, false⟩
def CommandRow.identify : CommandRow := ⟨0x3D, 0, false⟩
def CommandRow.restart : CommandRow := ⟨0x3E, 0, true⟩
def CommandRow.networkClear : CommandRow := ⟨0x3F, 0, true⟩

/-- Every command of section 9.8, in its order. -/
def commandTable : List CommandRow :=
  [.readTime, .setTime, .stepBy, .slewBy, .setLeap, .clearLeap, .setUtcOffset, .setLocalOffset, .setReference,
    .readReference, .setEngine, .readEngine, .pin, .unpin, .addMark, .cancelMark, .takeOutcomes, .setLine, .lineRestart,
    .senseLine, .setNetwork, .readPort, .forgetClient, .claim', .release, .setEventMask, .readTable, .readMore, .identify,
    .restart, .networkClear]

/-! ### The taking of a posted command (R174, R177) -/

/-- What an owner makes of a command: a refusal with its code and result words, or the state it leaves with the words of
an OK result. -/
inductive Judged where
  | refused (code : ResultCode) (words : List Word)
  | taken (s : State) (words : List Word)

/-- The posting port holds the claim (R177). -/
def State.holdsClaim (s : State) (mp : Mp) : Bool := s.claim.any fun c => decide (c.holder = mp)

/-- The result is written into the mailbox, the slot is emptied and the handshake enters DONE (R174). -/
def State.finish (s : State) (mp : Mp) (code : ResultCode) (words : List Word) : State :=
  s.setPort mp
    { s.port mp with slot := none, result := some ⟨code, resultWords words⟩, handshake := .done }

/-- The common check order before the owner's own checks: PARAMS, then CLAIM_NEEDED (R177). -/
def State.judgeCommand (s : State) (mp : Mp) (row : CommandRow) (p : Posted) (act : List Word → State → Judged) :
    Judged :=
  if p.count ≠ row.words then .refused .params []
  else if row.claim ∧ s.holdsClaim mp = false then .refused .claimNeeded []
  else act p.words s

/-- Write back what the owner made of a command. -/
def State.answered (s : State) (mp : Mp) : Judged → State
  | .refused code words => s.finish mp code words
  | .taken t words => t.finish mp .ok words

/-- The owner takes the command of port `mp`, when the slot holds the one that `row` numbers; a refused command changes
nothing but the mailbox (R174, R177). -/
def State.takeCommand (s : State) (mp : Mp) (row : CommandRow) (act : List Word → State → Judged) : State :=
  s.unlessHeld fun s =>
    match (s.port mp).slot with
    | none => s
    | some p => if p.number = row.number then s.answered mp (s.judgeCommand mp row p act) else s

/-- Refuse RANGE where a parameter is out of range, and act on the parameters otherwise (R177, R192). -/
def withParams {α : Type} (params : Option α) (act : α → Judged) : Judged :=
  match params with
  | none => .refused .range []
  | some x => act x

/-- UNKNOWN_COMMAND (R177): the number in the slot names no command. -/
def unknownCommandState (mp : Mp) (s : State) : State :=
  s.unlessHeld fun s =>
    match (s.port mp).slot with
    | none => s
    | some p => if commandTable.any fun row => row.number = p.number then s else s.finish mp .unknown []

def execUnknownCommand (mp : Mp) (s : State) : Host.Outcome State Fault Refusal := .next (unknownCommandState mp s)

/-! ### Transactions (R172 to R176, R191) -/

/-- One byte, or 0xFF when absent (10.1). -/
def orFF (o : Option Nat) : Byte := BitVec.ofNat 8 (o.getD 0xFF)

/-- The nine bytes of READ_STATE (10.1). -/
def MasterPort.stateBytes (p : MasterPort) : List Byte :=
  [BitVec.ofNat 8 p.handshake.code, orFF (p.lastCommand.map (·.toNat)), orFF (p.slot.map (·.number.toNat)),
    orFF (p.slot.map (·.count)), orFF (p.cursor.map (·.table.code)), orFF (p.cursor.map (·.slot)),
    BitVec.ofNat 8 p.attention.toNat] ++ beBytes 2 p.mask.toNat

/-- What is fixed when select is asserted (R172). -/
def MasterPort.begun (p : MasterPort) (mp : Mp) : Transaction :=
  ⟨p.header mp, p.handshake, p.result, p.stateBytes, p.summary, p.errors⟩

/-- TRANSACTION_BEGIN (R172): the port returns its header and fixes the data of the transaction. A transaction begun
while the RESET input is held is not taken (R190). -/
def transactionBeginState (mp : Mp) (s : State) : State :=
  s.unlessHeld fun s =>
    let p := s.port mp
    s.setPort mp { p with transaction := some (p.begun mp), dataOut := [p.header mp] }

def execTransactionBegin (mp : Mp) (s : State) : Host.Outcome State Fault Refusal := .next (transactionBeginState mp s)

/-- Select is released: the transaction in progress ends, having shifted out its header and `data t` as far as `len`
bytes go, and is judged by its length (R172). -/
def State.endTransaction (s : State) (mp : Mp) (len : Nat) (data : Transaction → List Byte) (fits : Bool)
    (act : Transaction → State → State) : State :=
  s.unlessHeld fun s =>
    let p := s.port mp
    match p.transaction with
    | none => s
    | some t =>
      let q := { p with transaction := none, dataOut := (t.header :: data t).take len }
      if fits then act t (s.setPort mp q)
      else s.setPort mp { q with errors := { q.errors with length := true } }

def noData : Transaction → List Byte := fun _ => []

/-- The words written from a start word on (R173). -/
def overlay (params : List Word) (start : Nat) (ws : List Word) : List Word :=
  params.take start ++ ws ++ params.drop (start + ws.length)

/-- The start word and the words of a WRITE_PARAMS whose framing is correct: a count of 1 or more, a run inside the 16
words, and the length that the count fixes (R173, R191). -/
def writeParamsOf (rest : List Byte) : Option (Nat × List Word) :=
  match rest with
  | start :: n :: data =>
    if n.toNat = 0 ∨ 16 < start.toNat + n.toNat ∨ data.length ≠ 16 * n.toNat then none
    else some (start.toNat, bytesWords n.toNat data)
  | _ => none

/-- WRITE_PARAMS (R173). -/
def writeParamsState (mp : Mp) (rest : List Byte) (s : State) : State :=
  s.endTransaction mp (1 + rest.length) noData (writeParamsOf rest).isSome fun _ s =>
    match writeParamsOf rest with
    | none => s
    | some (start, ws) => s.setPort mp { s.port mp with params := overlay (s.port mp).params start ws }

def execWriteParams (mp : Mp) (rest : List Byte) (s : State) : Host.Outcome State Fault Refusal :=
  .next (writeParamsState mp rest s)

/-- The number and the count of a POST whose framing is correct (R174, R191). -/
def postOf (rest : List Byte) : Option (Byte × Nat) :=
  match rest with
  | [number, n] => if n.toNat ≤ 16 then some (number, n.toNat) else none
  | _ => none

/-- A command is placed in the slot with a copy of its parameters, and the handshake enters BUSY (R174). -/
def MasterPort.placed (p : MasterPort) (number : Byte) (count : Nat) : MasterPort :=
  { p with slot := some ⟨number, count, p.params.take count⟩, lastCommand := some number, handshake := .busy }

/-- The mailbox after a POST, by its handshake (R174). -/
def MasterPort.posted (p : MasterPort) (number : Byte) (count : Nat) : MasterPort :=
  match p.handshake with
  | .busy => p
  | .idle => p.placed number count
  | .done =>
    { p with result := none, errors := { p.errors with resultOverwritten := true } }.placed number count

/-- POST (R174). -/
def postState (mp : Mp) (rest : List Byte) (s : State) : State :=
  s.endTransaction mp (1 + rest.length) noData (postOf rest).isSome fun _ s =>
    match postOf rest with
    | none => s
    | some (number, count) => s.setPort mp ((s.port mp).posted number count)

def execPost (mp : Mp) (rest : List Byte) (s : State) : Host.Outcome State Fault Refusal := .next (postState mp rest s)

/-- The bytes of a result area: the code byte and words 0 to 15; 0xFF and words of 0 when it is empty (10.1). -/
def resultBytes (r : Option Result) : List Byte :=
  match r with
  | none => 0xFF#8 :: List.replicate 256 0#8
  | some x => BitVec.ofNat 8 x.code.code :: x.words.flatMap wordBytes

/-- READ_RESULT (R175): begun in DONE it returns the handshake to IDLE. -/
def readResultState (mp : Mp) (len : Nat) (s : State) : State :=
  s.endTransaction mp len (fun t => resultBytes t.result) (decide (len = 258)) fun t s =>
    let p := s.port mp
    if t.handshake = .done ∧ p.handshake = .done then s.setPort mp { p with handshake := .idle } else s

def execReadResult (mp : Mp) (len : Nat) (s : State) : Host.Outcome State Fault Refusal := .next (readResultState mp len s)

/-- READ_STATE (R175). -/
def readStateState (mp : Mp) (len : Nat) (s : State) : State :=
  s.endTransaction mp len (fun t => t.stateBytes) (decide (len = 10)) fun _ s => s

def execReadState (mp : Mp) (len : Nat) (s : State) : Host.Outcome State Fault Refusal := .next (readStateState mp len s)

/-- The clear option of a SENSE is bit 0 of the option byte (R191). -/
def senseClears (rest : List Byte) : Bool := (rest.getD 0 0).getLsbD 0

/-- SENSE (R183): with the clear option, the flags it returned as set are cleared. -/
def senseState (mp : Mp) (rest : List Byte) (s : State) : State :=
  s.endTransaction mp (1 + rest.length) (fun t => beBytes 2 t.summary.toNat) (decide (rest.length = 2)) fun t s =>
    if senseClears rest then s.setPort mp { s.port mp with summary := (s.port mp).summary &&& ~~~t.summary } else s

def execSense (mp : Mp) (rest : List Byte) (s : State) : Host.Outcome State Fault Refusal := .next (senseState mp rest s)

/-- READ_ERRORS (R176): the flags it returned as set are cleared. -/
def readErrorsState (mp : Mp) (len : Nat) (s : State) : State :=
  s.endTransaction mp len (fun t => [t.errors.toByte]) (decide (len = 2)) fun t s =>
    s.setPort mp { s.port mp with errors := (s.port mp).errors.without t.errors }

def execReadErrors (mp : Mp) (len : Nat) (s : State) : Host.Outcome State Fault Refusal := .next (readErrorsState mp len s)

/-- The claim record is removed and CLAIM_ENDED is posted (R179, R180, R188). -/
def State.endClaim (s : State) : State := { s with claim := none }.post .claimEnded

/-- A mailbox at PORT_CLEAR: all but the event mask, and every flag of the summary cleared (R188). -/
def MasterPort.portCleared (p : MasterPort) : MasterPort :=
  { MasterPort.powerOn with mask := p.mask, summary := 0, dataOut := p.dataOut }

/-- PORT_CLEAR (R188): the mailbox and the summary, then the port's marks and outcomes (R99), then the claim if the port
holds it. -/
def portClearState (mp : Mp) (len : Nat) (s : State) : State :=
  s.endTransaction mp len noData (decide (len = 1)) fun _ s =>
    let t := (s.setPort mp (s.port mp).portCleared).clearMarksOf mp
    if s.holdsClaim mp then t.endClaim else t

def execPortClear (mp : Mp) (len : Nat) (s : State) : Host.Outcome State Fault Refusal := .next (portClearState mp len s)

/-- The seven transaction codes (10.1). -/
def isTransactionCode (code : Byte) : Bool :=
  [0x21#8, 0x22#8, 0x31#8, 0x32#8, 0x33#8, 0x34#8, 0x4C#8].contains code

/-- UNKNOWN_TRANSACTION (R172): a first byte that names no transaction sets its flag and does nothing else. -/
def unknownTransactionState (mp : Mp) (code : Byte) (s : State) : State :=
  if isTransactionCode code then s
  else
    s.endTransaction mp 1 noData true fun _ s =>
      s.setPort mp { s.port mp with errors := { (s.port mp).errors with unknownTransaction := true } }

def execUnknownTransaction (mp : Mp) (code : Byte) (s : State) : Host.Outcome State Fault Refusal :=
  .next (unknownTransactionState mp code s)

/-! ### The control claim (R178 to R180) -/

/-- CLAIM's own judgement: granted when free, renewed by its holder, refused CLAIMED otherwise (R178). -/
def claimAct (mp : Mp) (ws : List Word) (s : State) : Judged :=
  withParams (claimParams ws) fun lease =>
    let expiry := s.run + lease * 1000
    let words (holder : Mp) (t : Nat) : List Word := pack [fCode holder.val, .bits 48 t]
    let granted := { s with claim := some ⟨mp, expiry⟩ }
    match s.claim with
    | none => .taken (granted.post .claimTaken) (words mp expiry)
    | some c =>
      if c.holder = mp then .taken granted (words mp expiry) else .refused .claimed (words c.holder (c.expiry - s.run))

/-- CLAIM (R178). -/
def claimState (mp : Mp) (s : State) : State := s.takeCommand mp .claim' (claimAct mp)

def execClaim (mp : Mp) (s : State) : Host.Outcome State Fault Refusal := .next (claimState mp s)

/-- RELEASE's own judgement (R179). -/
def releaseAct (mp : Mp) (_ws : List Word) (s : State) : Judged :=
  if s.holdsClaim mp then .taken s.endClaim [] else .refused .notHolder []

/-- RELEASE (R179). -/
def releaseState (mp : Mp) (s : State) : State := s.takeCommand mp .release (releaseAct mp)

def execRelease (mp : Mp) (s : State) : Host.Outcome State Fault Refusal := .next (releaseState mp s)

/-- LEASE_EXPIRY (R180): the run counter has reached the expiry of the claim record. -/
def leaseExpiryState (s : State) : State :=
  s.unlessHeld fun s =>
    match s.claim with
    | none => s
    | some c => if c.expiry ≤ s.run then s.endClaim else s

def execLeaseExpiry (s : State) : Host.Outcome State Fault Refusal := .next (leaseExpiryState s)

/-! ### SET_EVENT_MASK and IDENTIFY (R182, R186) -/

def setEventMaskAct (mp : Mp) (ws : List Word) (s : State) : Judged :=
  let mask := setEventMaskParams ws
  .taken (s.setPort mp { s.port mp with mask := mask }) (pack [.bits 16 mask.toNat])

/-- SET_EVENT_MASK (R182). -/
def setEventMaskState (mp : Mp) (s : State) : State := s.takeCommand mp .setEventMask (setEventMaskAct mp)

def execSetEventMask (mp : Mp) (s : State) : Host.Outcome State Fault Refusal := .next (setEventMaskState mp s)

def identifyAct (_ws : List Word) (s : State) : Judged :=
  .taken s (pack [.bits 16 Config.vendorCode, .bits 16 Config.partCode, .bits 8 Config.revision])

/-- IDENTIFY (R186). -/
def identifyState (mp : Mp) (s : State) : State := s.takeCommand mp .identify identifyAct

def execIdentify (mp : Mp) (s : State) : Host.Outcome State Fault Refusal := .next (identifyState mp s)

end Sys2Proof.Machine
end

