-- ==== Sys2Proof/Machine/TimeCommands.lean ====
section
/-! DEFINITION. Section 1.7, the commands of the timescale unit: READ_TIME, SET_TIME, STEP_BY, SLEW_BY, SET_LEAP,
CLEAR_LEAP, SET_UTC_OFFSET and SET_LOCAL_OFFSET. -/

namespace Sys2Proof.Machine

open Sys2Proof

/-! ### READ_TIME (R19; its 14 words, 10.4) -/

/-- Any values of the groups that can be absent: they give the widths of the fields (10.2). -/
def slewShape : Slew := ⟨.engine, 0, 0, ⟨0, 0, 0⟩⟩
def lastSlewShape : LastSlew := ⟨.engine, 0, ⟨0, 0, 0⟩, .done, 0, 0⟩
def lastStepShape : LastStep := ⟨.engine, 0, ⟨0, 0, 0⟩, ⟨0, 0, 0⟩, 0⟩
def leapShape : Leap := ⟨.insert, 0, .engine, .pending⟩

def Leap.fields (x : Leap) : List Field :=
  [fCode x.kind.code, fSigned 64 x.dayEnd, fCode x.source.code, fCode x.phase.code]

def Slew.fields (x : Slew) : List Field :=
  [fCode x.origin.code, fSigned 32 x.requested, fSigned 32 x.residualNs, fTime x.start]

def LastSlew.fields (x : LastSlew) : List Field :=
  [fCode x.origin.code, fSigned 32 x.requested, fTime x.start, fCode x.outcome.code, fSigned 32 x.residualLeft,
    .bits 48 x.endRun]

def LastStep.fields (x : LastStep) : List Field :=
  [fCode x.source.code, fAmount x.amount, fTime x.before, fTime x.after, .bits 48 x.run]

def Label.fields (x : Label) : List Field := [fSigned 32 x.year, .bits 16 x.dayOfYear, .bits 32 x.secOfDay]

/-- The engine's selection, or absent. -/
def selectionFields (sel : Option RefId) : List Field := fOption sel 0 fun r => [fCode r.val]

/-- U in picoseconds, or unset (R69, R71). -/
def uncertaintyFields (u : Option Nat) : List Field := fOption u 0 fun ps => [.bits 48 ps]

/-- The values that READ_TIME returns, in the order of R19. -/
def State.timeFields (s : State) : List Field :=
  let ts := s.ts
  [fTime ts.time, .bits 48 s.run, .bits 8 ts.utcOffset, fSigned 8 ts.localOffset, fSigned 64 ts.utcCount]
    ++ ts.labelNow.fields
    ++ fOption ts.leap leapShape Leap.fields
    ++ [fSigned 32 ts.rate]
    ++ fOption ts.slew slewShape Slew.fields
    ++ [.bits 16 ts.slewLimit]
    ++ fOption ts.lastSlew lastSlewShape LastSlew.fields
    ++ fOption ts.lastStep lastStepShape LastStep.fields
    ++ [fCode s.engine.state.code, fCode s.grade.val]
    ++ uncertaintyFields s.uncertainty
    ++ selectionFields s.engine.selection

def readTimeAct (_ws : List Word) (s : State) : Judged := .taken s (pack s.timeFields)

/-- READ_TIME (R19). -/
def readTimeState (mp : Mp) (s : State) : State := s.takeCommand mp .readTime readTimeAct

def execReadTime (mp : Mp) (s : State) : Host.Outcome State Fault Refusal := .next (readTimeState mp s)

/-! ### SET_TIME, STEP_BY and SLEW_BY (R20 to R23) -/

/-- The engine states in which a master may move the timescale: FREERUN, HOLDOVER and PINNED (R20, R22, R23). -/
def EngineState.leavesTimeToMasters (st : EngineState) : Bool :=
  match st with
  | .freerun | .holdover | .pinned => true
  | .acquiring | .locked => false

/-- The engine's part of a SET_TIME that is taken: U takes the declared value unless the engine is in FREERUN, and the
initial-step flag is cleared (R21, R73). -/
def State.vouch (s : State) (declared : Nat) : State :=
  let t := if s.engine.state = .freerun then s else s.setUncertainty (declared * 1000)
  t.setEngine { t.engine with initialStep := false }

def setTimeAct (mp : Mp) (ws : List Word) (s : State) : Judged :=
  if s.engine.state.leavesTimeToMasters then
    withParams (setTimeParams ws) fun (new, declared) =>
      .taken ((s.stepTo (.master mp) new true).vouch declared) (pack [fAmount ((new : Int) - s.nowNs)])
  else .refused .state []

/-- SET_TIME (R20). -/
def setTimeState (mp : Mp) (s : State) : State := s.takeCommand mp .setTime (setTimeAct mp)

def execSetTime (mp : Mp) (s : State) : Host.Outcome State Fault Refusal := .next (setTimeState mp s)

def stepByAct (mp : Mp) (ws : List Word) (s : State) : Judged :=
  if s.engine.state.leavesTimeToMasters then
    withParams (s.stepTarget (stepByParams ws)) fun new =>
      .taken (s.stepTo (.master mp) new false) (pack [fTime (TimeValue.ofNs new s.ts.time.frac)])
  else .refused .state []

/-- STEP_BY (R22). -/
def stepByState (mp : Mp) (s : State) : State := s.takeCommand mp .stepBy (stepByAct mp)

def execStepBy (mp : Mp) (s : State) : Host.Outcome State Fault Refusal := .next (stepByState mp s)

/-- A slew of `a` ns is begun, or refused SLEW_BUSY with the present slew's origin and residual (R23). -/
def State.slewOrBusy (s : State) (mp : Mp) (a : Int) : Judged :=
  match s.ts.slew with
  | some w => .refused .slewBusy (pack [fCode w.origin.code, fSigned 32 w.residualNs])
  | none => .taken (s.beginSlew (.master mp) a) (pack [.bits 48 (a.natAbs / s.ts.slewLimit)])

def slewByAct (mp : Mp) (ws : List Word) (s : State) : Judged :=
  if s.engine.state.leavesTimeToMasters then withParams (slewByParams ws) (s.slewOrBusy mp)
  else .refused .state []

/-- SLEW_BY (R23). -/
def slewByState (mp : Mp) (s : State) : State := s.takeCommand mp .slewBy (slewByAct mp)

def execSlewBy (mp : Mp) (s : State) : Host.Outcome State Fault Refusal := .next (slewByState mp s)

/-! ### Leap records and offsets (R24 to R26) -/

/-- The engine is in ACQUIRING or LOCKED with a reference of kind RECEIVER or LINK selected (R24). -/
def State.messagesRuleLeaps (s : State) : Bool :=
  (decide (s.engine.state = .acquiring) || decide (s.engine.state = .locked))
    && (decide (s.selectedKind = some .receiver) || decide (s.selectedKind = some .link))

/-- SET_LEAP, CLEAR_LEAP and SET_UTC_OFFSET are refused STATE (R24, R25). -/
def State.leapsLocked (s : State) : Bool := s.messagesRuleLeaps || s.ts.leap.any fun r => decide (r.phase = .inserting)

def setLeapAct (mp : Mp) (ws : List Word) (s : State) : Judged :=
  if s.leapsLocked then .refused .state []
  else
    withParams (setLeapParams ws) fun (kind, d) =>
      if s.ts.leapInRange kind d then .taken (s.setTs { s.ts with leap := some ⟨kind, d, .master mp, .pending⟩ }) []
      else .refused .range []

/-- SET_LEAP (R24). -/
def setLeapState (mp : Mp) (s : State) : State := s.takeCommand mp .setLeap (setLeapAct mp)

def execSetLeap (mp : Mp) (s : State) : Host.Outcome State Fault Refusal := .next (setLeapState mp s)

def clearLeapAct (_ws : List Word) (s : State) : Judged :=
  if s.leapsLocked then .refused .state []
  else if s.ts.leap = none then .refused .notFound []
  else .taken (s.setTs { s.ts with leap := none }) []

/-- CLEAR_LEAP (R24). -/
def clearLeapState (mp : Mp) (s : State) : State := s.takeCommand mp .clearLeap clearLeapAct

def execClearLeap (mp : Mp) (s : State) : Host.Outcome State Fault Refusal := .next (clearLeapState mp s)

/-- A utc_offset that a leap record present leaves no room for (R25). -/
def TimescaleUnit.offsetRefused (ts : TimescaleUnit) (u : Nat) : Bool :=
  ts.leap.any fun r => { ts with utcOffset := u }.leapHasNoRoom r

def setUtcOffsetAct (ws : List Word) (s : State) : Judged :=
  let u := setUtcOffsetParams ws
  if s.leapsLocked then .refused .state []
  else if s.ts.offsetRefused u then .refused .range []
  else .taken (s.setTs { s.ts with utcOffset := u }).alignLeap []

/-- SET_UTC_OFFSET (R25). -/
def setUtcOffsetState (mp : Mp) (s : State) : State := s.takeCommand mp .setUtcOffset setUtcOffsetAct

def execSetUtcOffset (mp : Mp) (s : State) : Host.Outcome State Fault Refusal := .next (setUtcOffsetState mp s)

def setLocalOffsetAct (ws : List Word) (s : State) : Judged :=
  withParams (setLocalOffsetParams ws) fun x => .taken (s.setTs { s.ts with localOffset := x }) []

/-- SET_LOCAL_OFFSET (R26). -/
def setLocalOffsetState (mp : Mp) (s : State) : State := s.takeCommand mp .setLocalOffset setLocalOffsetAct

def execSetLocalOffset (mp : Mp) (s : State) : Host.Outcome State Fault Refusal := .next (setLocalOffsetState mp s)

end Sys2Proof.Machine
end

