-- ==== Sys2Proof/Machine/ReferenceCommands.lean ====
section
/-! DEFINITION. Section 2.6, the commands of the reference inputs: SET_REFERENCE and READ_REFERENCE, and the record of a
table read of REFERENCES. -/

namespace Sys2Proof.Machine

open Sys2Proof

/-- The state of a record as it is shown: SELECTED in place of USABLE for the selected reference (R29). -/
def State.shownState (s : State) (r : RefId) : Nat :=
  (s.ref r).state.shownCode (decide (s.engine.selection = some r))

/-! ### SET_REFERENCE (R48) -/

/-- A setting whose change requalifies the reference: polarity, compensation, qualify count, phase limit or baud
(R48). -/
def RefSettings.requalifies (old new : RefSettings) : Bool :=
  decide (old.polarity ≠ new.polarity) || decide (old.compensation ≠ new.compensation)
    || decide (old.qualifyCount ≠ new.qualifyCount) || decide (old.phaseLimit ≠ new.phaseLimit)
    || decide (old.baud ≠ new.baud)

/-- The state that a change of settings makes the record enter, by the first row of R48 that changes the state. -/
def RefSettings.stateAfter (old new : RefSettings) : Option RefState :=
  if new.kind = .off then (if old.kind = .off then none else some .off)
  else if old.kind ≠ new.kind then some .seeking
  else if old.requalifies new then some .seeking
  else none

/-- The nine settings are written and the record acts on what has changed. A change of state out of USABLE and a change
of priority each make the engine re-evaluate, once (R48). -/
def State.changeReference (s : State) (r : RefId) (new : RefSettings) : State :=
  let x := s.ref r
  let y := { x with settings := new }
  match x.settings.stateAfter new with
  | some st =>
    let t := s.refLeavesFor r y st
    if x.settings.priority ≠ new.priority ∧ x.state ≠ .usable then t.reevaluate else t
  | none =>
    let t := s.setRef r y
    if x.settings.priority ≠ new.priority then t.reevaluate else t

def setReferenceAct (ws : List Word) (s : State) : Judged :=
  withParams (setReferenceParams ws) fun (r, new) =>
    let t := s.changeReference r new
    .taken t (pack [fCode (t.shownState r)])

/-- SET_REFERENCE (R48). A command that changes no setting writes the record as it stands. -/
def setReferenceState (mp : Mp) (s : State) : State := s.takeCommand mp .setReference setReferenceAct

def execSetReference (mp : Mp) (s : State) : Host.Outcome State Fault Refusal := .next (setReferenceState mp s)

/-! ### READ_REFERENCE and the record of a table read (R50) -/

def RefSettings.fields (x : RefSettings) : List Field :=
  [fCode x.kind.code, .bits 8 x.priority, .bits 16 x.compensation, fCode (Edge.code x.polarity), .bits 16 x.accuracy,
    .bits 8 x.qualifyCount, .bits 16 x.holdOff, .bits 32 x.phaseLimit, .bits 32 x.baud]

def captureShape : Capture := ⟨0, 0, false⟩

def Capture.fields (c : Capture) : List Field := [fInstant c.value, .bits 64 c.tick, fFlag c.badSeen]

def messageShape : Message := ⟨.off, 0, 0, 0, 0, .none⟩

/-- A message apart from its check, in the order of its bytes (10.5), at the widths of 10.2. With the announcement NONE the
place of the day end is kept and holds 0, with no presence field (log entry 14). -/
def Message.fields (m : Message) : List Field :=
  [fCode m.kind.code, fSigned 64 m.utcCount, .bits 8 m.utcOffset, .bits 32 m.accuracy, .bits 8 m.status,
    fCode m.announcement.code, fSigned 64 m.announcement.dayEnd]

def measurementShape : Measurement := ⟨0, 0, 0, 0, 0, none⟩

/-- The latest measurement record: its cause is MESSAGE 0 or SETTLE 1 (R38). -/
def Measurement.fields (m : Measurement) : List Field :=
  [.bits 48 m.run, fInstant m.value, .bits 64 m.tick, fSigned 64 m.offset, .bits 32 m.accuracy,
    fCode (if m.message.isSome then 0 else 1)] ++ fOption m.message messageShape Message.fields

def Reference.counterFields (x : Reference) : List Field :=
  [.bits 16 x.glitches, .bits 16 x.missingEdges, .bits 16 x.messageErrors, .bits 16 x.disqualified]

def Reference.runFields (x : Reference) : List Field :=
  [.bits 8 x.missingRun, .bits 8 x.badRun, .bits 8 x.phaseRun, fFlag x.disagree]

/-- The record as READ_REFERENCE returns it (R50; log entry 14). -/
def State.referenceFields (s : State) (r : RefId) : List Field :=
  let x := s.ref r
  x.settings.fields ++ [fCode (s.shownState r)]
    ++ fOption x.latch captureShape Capture.fields
    ++ fOption x.lastEdge 0 (fun t => [.bits 64 t])
    ++ [.bits 8 x.goodRun]
    ++ fOption x.comparison 0 (fun c => [fSigned 64 c])
    ++ x.runFields
    ++ fOption x.latest measurementShape Measurement.fields
    ++ fOption x.holdOffExpiry 0 (fun t => [.bits 48 t])
    ++ fOption x.holdOffExpiry 0 (fun t => [.bits 48 (t - s.run)])
    ++ x.counterFields

def readReferenceAct (ws : List Word) (s : State) : Judged :=
  withParams (readReferenceParams ws) fun r => .taken s (pack (s.referenceFields r))

/-- READ_REFERENCE (R50). -/
def readReferenceState (mp : Mp) (s : State) : State := s.takeCommand mp .readReference readReferenceAct

def execReadReference (mp : Mp) (s : State) : Host.Outcome State Fault Refusal := .next (readReferenceState mp s)

/-- The short record of a table read of REFERENCES (R50): 3 words. -/
def State.referenceRecord (s : State) (r : RefId) : List Field :=
  let x := s.ref r
  [fCode r.val, fCode x.settings.kind.code, fCode (s.shownState r), .bits 8 x.settings.priority, .bits 8 x.goodRun]
    ++ x.runFields
    ++ fOption x.latest measurementShape (fun m => [fSigned 64 m.offset, .bits 32 m.accuracy])
    ++ x.counterFields

end Sys2Proof.Machine
end

