-- ==== Sys2Proof/Machine/EngineCommands.lean ====
section
/-! DEFINITION. The commands of the discipline engine: SET_ENGINE, READ_ENGINE, PIN and UNPIN. -/

namespace Sys2Proof.Machine

open Sys2Proof

/-! ### SET_ENGINE and READ_ENGINE (R74, R75) -/

/-- The settings are written; a change of the growth first takes a new anchor at the value U has reached (R69, R74). -/
def State.changeEngine (s : State) (new : EngineSettings) (limit : Nat) : State :=
  let t := if s.engine.settings.growth = new.growth then s else s.reanchor
  (t.setEngine { t.engine with settings := new }).setTs { t.ts with slewLimit := limit }

def setEngineAct (ws : List Word) (s : State) : Judged :=
  withParams (setEngineParams ws) fun (new, limit) => .taken (s.changeEngine new limit) []

/-- SET_ENGINE (R74). -/
def setEngineState (mp : Mp) (s : State) : State := s.takeCommand mp .setEngine setEngineAct

def execSetEngine (mp : Mp) (s : State) : Host.Outcome State Fault Refusal := .next (setEngineState mp s)

def lastMeasurementShape : LastMeasurement := ⟨0, 0, 0, 0, .loop⟩

def LastMeasurement.fields (m : LastMeasurement) : List Field :=
  [fCode m.ref.val, fSigned 64 m.offset, .bits 32 m.accuracy, .bits 48 m.run, fCode m.action.code]

def EngineSettings.fields (x : EngineSettings) : List Field :=
  [.bits 16 x.timeConstant, .bits 32 x.lockWindow, .bits 8 x.lockCount, .bits 32 x.threshold, fFlag x.autoStep,
    .bits 32 x.growth]

/-- The values that READ_ENGINE returns, in the order of R75. -/
def State.engineFields (s : State) : List Field :=
  let e := s.engine
  [fCode e.state.code, .bits 48 e.entryTime, .bits 48 (s.run - e.entryTime)]
    ++ selectionFields e.selection
    ++ e.settings.fields ++ [.bits 16 s.ts.slewLimit]
    ++ [fSigned 32 e.integral, fSigned 32 s.ts.rate, .bits 8 e.goodRun, fFlag e.initialStep, fFlag e.stepNeeded]
    ++ uncertaintyFields s.uncertainty
    ++ [fCode s.grade.val]
    ++ fOption e.lastMeasurement lastMeasurementShape LastMeasurement.fields
    ++ fOption s.ts.slew slewShape (fun w => [fCode w.origin.code, fSigned 32 w.residualNs])

def readEngineAct (_ws : List Word) (s : State) : Judged := .taken s (pack s.engineFields)

/-- READ_ENGINE (R75). -/
def readEngineState (mp : Mp) (s : State) : State := s.takeCommand mp .readEngine readEngineAct

def execReadEngine (mp : Mp) (s : State) : Host.Outcome State Fault Refusal := .next (readEngineState mp s)

/-! ### PIN and UNPIN (R67, R68) -/

/-- A selection that is present is cleared (R67). -/
def State.deselect (s : State) : State := if s.engine.selection.isSome then s.select none else s

/-- The effects of PIN, in the order of R67; PINNED is entered unless it stands already. -/
def State.pinned (s : State) (declared : Nat) : State :=
  let t := ((((s.deselect).cancelSlew anyOrigin).writeRate s.engine.integral).setUncertainty (declared * 1000))
  let u := t.setEngine { t.engine with initialStep := false, stepNeeded := false, goodRun := 0 }
  if s.engine.state = .pinned then u else u.enterState .pinned

def pinAct (ws : List Word) (s : State) : Judged := .taken (s.pinned (pinParams ws)) []

/-- PIN (R67). -/
def pinState (mp : Mp) (s : State) : State := s.takeCommand mp .pin pinAct

def execPin (mp : Mp) (s : State) : Host.Outcome State Fault Refusal := .next (pinState mp s)

def unpinAct (_ws : List Word) (s : State) : Judged :=
  if s.engine.state = .pinned then
    let t := s.enterHoldover.reevaluate
    .taken t (pack [fCode t.engine.state.code])
  else .refused .state []

/-- UNPIN (R68). -/
def unpinState (mp : Mp) (s : State) : State := s.takeCommand mp .unpin unpinAct

def execUnpin (mp : Mp) (s : State) : Host.Outcome State Fault Refusal := .next (unpinState mp s)

end Sys2Proof.Machine
end

