-- ==== Sys2Proof/Machine/MarkCommands.lean ====
section
/-! DEFINITION. The commands of the mark scheduler: ADD_MARK, CANCEL_MARK and TAKE_OUTCOMES, and the record of a table
read of MARKS. -/

namespace Sys2Proof.Machine

open Sys2Proof

/-! ### ADD_MARK (R79 to R81) -/

/-- The taking instant that an ADD_MARK would give, which may lie before 0 s (R79, R80). -/
def State.takingOf (s : State) (p : MarkParams) : Int := (p.due : Int) - s.largestCompensation p.lines

/-- The taking instant is less than 1 ms after the timescale, whose fraction counts (R80). -/
def State.tooLate (s : State) (taking : Int) : Bool :=
  decide (taking < (s.nowNs : Int) + 1000000) || (decide (taking = (s.nowNs : Int) + 1000000) && decide (0 < s.ts.time.frac))

/-- The lowest id that no mark holds (R78). -/
def State.freeMarkId (s : State) : Option Nat := lowestFree (s.marks.map (·.id)) 64

/-- The mark that ADD_MARK creates (R81). -/
def State.newMark (s : State) (mp : Mp) (id : Nat) (p : MarkParams) : Mark where
  id := id
  owner := mp
  lines := p.lines
  due := p.due
  width := p.width
  period := p.period
  remaining := p.remaining
  minGrade := p.minGrade
  tag := p.tag
  taking := (s.takingOf p).toNat
  takingComp := s.largestCompensation p.lines
  fired := 0
  withheld := 0
  skipped := 0
  partialTakes := 0

/-- The third to fifth check of ADD_MARK, and the placing of the mark (R80, R81). A list of fewer than 64 marks leaves
an id free. -/
def State.placeMark (s : State) (mp : Mp) (p : MarkParams) : Judged :=
  if 24 ≤ s.markNumber mp then .refused .quota []
  else if 64 ≤ s.marks.length then .refused .full []
  else if s.tooLate (s.takingOf p) then .refused .tooLate []
  else
    match s.freeMarkId with
    | none => .refused .full []
    | some id =>
      let m := s.newMark mp id p
      .taken { s with marks := insertMark m s.marks } (pack [fCode id, fInstant m.taking])

def addMarkAct (mp : Mp) (ws : List Word) (s : State) : Judged :=
  if s.engine.state = .freerun then .refused .state []
  else withParams (addMarkParams ws) (s.placeMark mp)

/-- ADD_MARK (R80, R81). -/
def addMarkState (mp : Mp) (s : State) : State := s.takeCommand mp .addMark (addMarkAct mp)

def execAddMark (mp : Mp) (s : State) : Host.Outcome State Fault Refusal := .next (addMarkState mp s)

/-! ### CANCEL_MARK (R89) -/

/-- The mark that holds an id. -/
def State.markWithId (s : State) (id : Nat) : Option Mark := s.marks.find? fun m => decide (m.id = id)

def Mark.countFields (m : Mark) : List Field :=
  [.bits 16 m.fired, .bits 16 m.withheld, .bits 16 m.skipped, .bits 16 m.partialTakes]

/-- Remove the mark `m` with outcome CANCELLED (R89). -/
def State.cancelMark (s : State) (m : Mark) : State :=
  { s with marks := s.marks.filter fun x => decide (x.id ≠ m.id) }.handOutcome (m.outcomeOf .cancelled m.due)

def State.cancelById (s : State) (mp : Mp) (id : Nat) : Judged :=
  match s.markWithId id with
  | none => .refused .notFound []
  | some m =>
    if m.owner = mp then .taken (s.cancelMark m) (pack (.bits 16 m.tag :: m.countFields)) else .refused .notOwner []

def cancelMarkAct (mp : Mp) (ws : List Word) (s : State) : Judged := withParams (cancelMarkParams ws) (s.cancelById mp)

/-- CANCEL_MARK (R89). -/
def cancelMarkState (mp : Mp) (s : State) : State := s.takeCommand mp .cancelMark (cancelMarkAct mp)

def execCancelMark (mp : Mp) (s : State) : Host.Outcome State Fault Refusal := .next (cancelMarkState mp s)

/-! ### TAKE_OUTCOMES (R95) -/

/-- The three words of an outcome (10.4). -/
def Outcome.fields (o : Outcome) : List Field :=
  [.newWord, fCode o.id, .bits 16 o.tag, fCode o.owner.val, fCode o.outcome.code, fInstant o.lastDue, .bits 16 o.fired,
    .bits 16 o.withheld, .bits 16 o.skipped, .bits 16 o.partialTakes]

def takeOutcomesAct (mp : Mp) (_ws : List Word) (s : State) : Judged :=
  let q := s.queue mp
  let taken := q.take 4
  let left := q.drop 4
  .taken (s.setQueue mp left)
    (pack (fCode taken.length :: taken.flatMap Outcome.fields ++ [.newWord, fCode left.length]))

/-- TAKE_OUTCOMES (R95). -/
def takeOutcomesState (mp : Mp) (s : State) : State := s.takeCommand mp .takeOutcomes (takeOutcomesAct mp)

def execTakeOutcomes (mp : Mp) (s : State) : Host.Outcome State Fault Refusal := .next (takeOutcomesState mp s)

/-! ### The record of a table read (R96) -/

def Mark.record (m : Mark) : List Field :=
  [fCode m.id, fCode m.owner.val, .bits 16 m.lines.toNat, fInstant m.due, fInstant m.taking, .bits 16 m.takingComp,
    .bits 32 m.width]
    ++ fOption m.period 0 (fun p => [.bits 32 p])
    ++ fOption m.remaining 0 (fun n => [.bits 16 n])
    ++ fOption m.minGrade 0 (fun g => [fCode g.val])
    ++ [.bits 16 m.tag] ++ m.countFields

end Sys2Proof.Machine
end

