-- ==== Sys2Proof/Machine/LineCommands.lean ====
section
/-! DEFINITION. The commands of the output lines: SET_LINE, LINE_RESTART and SENSE_LINE, and the record of a table read
of LINES. -/

namespace Sys2Proof.Machine

open Sys2Proof

/-! ### SET_LINE (R101) -/

/-- The pending record after a SET_LINE: none when the settings are the effective ones (R101). -/
def Line.withPending (l : Line) (new : LineSettings) : Line :=
  { l with pending := if new = l.settings then none else some new }

def setLineAct (ws : List Word) (s : State) : Judged :=
  withParams (setLineParams ws) fun (i, new) =>
    let l := (s.line i).withPending new
    .taken (s.setLine i l) (pack [fFlag l.pending.isSome])

/-- SET_LINE (R101). -/
def setLineState (mp : Mp) (s : State) : State := s.takeCommand mp .setLine setLineAct

def execSetLine (mp : Mp) (s : State) : Host.Outcome State Fault Refusal := .next (setLineState mp s)

/-! ### LINE_RESTART (R115) -/

/-- A FAULTED line leaves FAULTED with FAULT cleared; a CODED line takes a copy of the composer's frame (R115, R128). -/
def State.restartLine (s : State) (l : Line) : Line :=
  s.enterCoded
    { l with
      state := if l.settings.mode = .off then .off else .running
      flags := { l.flags with fault := false } }

def lineRestartAct (ws : List Word) (s : State) : Judged :=
  withParams (lineRestartParams ws) fun i =>
    if (s.line i).state = .faulted then
      let l := s.restartLine (s.line i)
      .taken (s.setLine i l) (pack [fCode l.state.code])
    else .refused .state []

/-- LINE_RESTART (R115). -/
def lineRestartState (mp : Mp) (s : State) : State := s.takeCommand mp .lineRestart lineRestartAct

def execLineRestart (mp : Mp) (s : State) : Host.Outcome State Fault Refusal := .next (lineRestartState mp s)

/-! ### The status word, SENSE_LINE and the record of a table read (R116 to R118) -/

def LineFlags.fields (f : LineFlags) : List Field :=
  [fFlag f.fault, fFlag f.pulseCut, fFlag f.pulseDropped, fFlag f.markMerged, fFlag f.frameCut]

/-- The status word of a line, in the order of R116. The output is sent as a flag is, active 1 and inactive 0: 10.2 gives
both a flag's code and that of an enumeration by its place in the list, by which active would be 0, and does not say which
of them codes the output (the model's choice, log entry 38). GATED goes by the grade taken (R107; log entry 40). -/
def State.statusFields (s : State) (l : Line) : List Field :=
  [fCode l.state.code, fCode l.settings.mode.code, fFlag l.pending.isSome, fFlag l.active, fFlag (l.gatedNow s.gradeTaken)]
    ++ fOption (s.codedSlot l) 0 (fun k => [.bits 8 k])
    ++ [.bits 8 l.commitments.length] ++ l.flags.fields

def Line.countFields (l : Line) : List Field := [.bits 16 l.gated, .bits 16 l.faults, .bits 32 l.emissions]

/-- Clear the latched flags apart from FAULT (R117). -/
def LineFlags.cleared (f : LineFlags) : LineFlags := { LineFlags.clear with fault := f.fault }

def senseLineAct (ws : List Word) (s : State) : Judged :=
  withParams (senseLineParams ws) fun (i, clear) =>
    let l := s.line i
    let t := if clear then s.setLine i (l.setFlags l.flags.cleared) else s
    .taken t (pack (s.statusFields l ++ l.countFields))

/-- SENSE_LINE (R117). -/
def senseLineState (mp : Mp) (s : State) : State := s.takeCommand mp .senseLine senseLineAct

def execSenseLine (mp : Mp) (s : State) : Host.Outcome State Fault Refusal := .next (senseLineState mp s)

def LineSettings.fields (x : LineSettings) : List Field :=
  [fCode x.mode.code, fCode x.polarity.code, .bits 16 x.compensation, .bits 16 x.period, .bits 32 x.width]
    ++ fOption x.gate 0 (fun g => [fCode g.val])

def commitmentShape : Commitment := ⟨0, 0, 0, 0⟩

/-- The record of a table read of LINES (R118). -/
def State.lineRecord (s : State) (i : LineId) : List Field :=
  let l := s.line i
  fCode i.val :: l.settings.fields
    ++ fOption l.pending LineSettings.powerOn LineSettings.fields
    ++ s.statusFields l ++ l.countFields
    ++ fOption l.commitments.head? commitmentShape (fun c => [fInstant c.start, fInstant c.ends])

end Sys2Proof.Machine
end

