-- ==== Sys2Proof/Machine/NetworkCommands.lean ====
section
/-! DEFINITION. The commands of the network ports and of the client table: SET_NETWORK, READ_PORT, FORGET_CLIENT and
NETWORK_CLEAR, and the records of table reads of PORTS and CLIENTS. -/

namespace Sys2Proof.Machine

open Sys2Proof

/-! ### SET_NETWORK (R150) -/

/-- A port at a change of settings: it flushes when it leaves ACTIVE (R137, R138), and its schedule moves to the first
due instant later than the timescale when the interval changes, so that a due instant of the old interval reached at this
tick makes no beacon when the command is taken before its beacon due event (R139; log entry 36). -/
def State.portOnSettings (s : State) (p : NetId) (new : NetSettings) : NetPort :=
  let port := s.netPort p
  let kept := if s.portState p = .active ∧ new.enable.get p = false then port.flushed else port
  if s.net.settings.interval = new.interval then kept
  else { kept with nextDue := firstDueAfter s.nowNs new.interval }

/-- The seven settings are written together, and take effect in the same event (R150). -/
def State.changeNetwork (s : State) (new : NetSettings) : State :=
  { s with net := ⟨new, ⟨s.portOnSettings .na new, s.portOnSettings .nb new⟩⟩ }

def setNetworkAct (ws : List Word) (s : State) : Judged :=
  withParams (setNetworkParams ws) fun new =>
    let t := s.changeNetwork new
    .taken t (pack [fCode (t.portState .na).code, fCode (t.portState .nb).code])

/-- SET_NETWORK (R150). -/
def setNetworkState (mp : Mp) (s : State) : State := s.takeCommand mp .setNetwork setNetworkAct

def execSetNetwork (mp : Mp) (s : State) : Host.Outcome State Fault Refusal := .next (setNetworkState mp s)

/-! ### READ_PORT and the record of a table read of PORTS (R151) -/

def NetSettings.fields (x : NetSettings) : List Field :=
  [fFlag x.enable.na, fFlag x.enable.nb, .bits 48 x.address.toNat, .bits 16 x.interval, .bits 16 x.spacing,
    .bits 32 x.stragglerLimit, .bits 8 x.idleLimit]

/-- The twelve counters, in the order of R148. -/
def PortCounters.fields (k : PortCounters) : List Field :=
  [.bits 32 k.beaconsSent, .bits 32 k.answersSent, .bits 32 k.untracked, .bits 32 k.unknown, .bits 32 k.notReady,
    .bits 32 k.repeats, .bits 32 k.spacing, .bits 32 k.queueFull, .bits 32 k.stepFlush, .bits 32 k.linkFlush,
    .bits 32 k.receiveErrors, .bits 32 k.linkLosses]

/-- The port as READ_PORT returns it (R151; log entry 14). -/
def State.portFields (s : State) (p : NetId) : List Field :=
  let port := s.netPort p
  s.net.settings.fields
    ++ [fCode (s.portState p).code, fCode port.link.code, .bits 8 port.queue.length, fCode port.wire.code,
      fFlag port.pendingBeacon.isSome, fInstant port.nextDue, .bits 16 port.beaconSeq]
    ++ port.counters.fields

def readPortAct (ws : List Word) (s : State) : Judged :=
  withParams (readPortParams ws) fun p => .taken s (pack (s.portFields p))

/-- READ_PORT (R151). -/
def readPortState (mp : Mp) (s : State) : State := s.takeCommand mp .readPort readPortAct

def execReadPort (mp : Mp) (s : State) : Host.Outcome State Fault Refusal := .next (readPortState mp s)

/-- The short record of a table read of PORTS (R151). -/
def State.portRecord (s : State) (p : NetId) : List Field :=
  let port := s.netPort p
  [fCode (NetId.code p), fCode (s.portState p).code, fCode port.link.code, .bits 8 port.queue.length]
    ++ port.counters.fields

/-! ### FORGET_CLIENT and the record of a table read of CLIENTS (R167, R168) -/

def subShape : SubRecord := ⟨0, 0, 0, 0, 0, 0⟩

def SubRecord.fields (x : SubRecord) : List Field :=
  [.bits 16 x.sequence.toNat, .bits 48 x.answeredRun, fInstant x.lastArrival, .bits 32 x.answered, .bits 32 x.refused,
    .bits 32 x.repeats]

def reportShape : SelfReport := ⟨0, 0, 0, 0, .na⟩

def SelfReport.fields (x : SelfReport) : List Field :=
  [fSigned 32 x.offset, .bits 32 x.pathDelay, fCode x.grade.val, fInstant x.arrival, fCode (NetId.code x.port)]

/-- The record of a table read of CLIENTS (R168): 10 words. -/
def Client.record (c : Client) : List Field :=
  [fCode c.slot, .bits 48 c.address.toNat, .bits 16 c.tag.toNat, fCode c.state.code]
    ++ fOption c.subA subShape SubRecord.fields
    ++ fOption c.subB subShape SubRecord.fields
    ++ fOption c.report reportShape SelfReport.fields

/-- Remove the entry of an address (R167). -/
def ClientTable.remove (t : ClientTable) (a : NetAddress) : ClientTable :=
  { t with entries := t.entries.filter fun c => decide (c.address ≠ a) }

def State.forgetClient (s : State) (a : NetAddress) : Judged :=
  match s.clients.find a with
  | none => .refused .notFound []
  | some c => .taken { s with clients := s.clients.remove a } (pack c.record)

def forgetClientAct (ws : List Word) (s : State) : Judged := withParams (forgetClientParams ws) s.forgetClient

/-- FORGET_CLIENT (R167). -/
def forgetClientState (mp : Mp) (s : State) : State := s.takeCommand mp .forgetClient forgetClientAct

def execForgetClient (mp : Mp) (s : State) : Host.Outcome State Fault Refusal := .next (forgetClientState mp s)

/-! ### NETWORK_CLEAR (R152, R170, R189) -/

/-- Both ports at RESTART or NETWORK_CLEAR (R152). -/
def State.clearNetPorts (s : State) : State := { s with net := { s.net with ports := s.net.ports.map NetPort.cleared } }

/-- Every entry leaves the client table (R170). -/
def State.clearClients (s : State) : State := { s with clients := { s.clients with entries := [] } }

def networkClearAct (_ws : List Word) (s : State) : Judged := .taken s.clearNetPorts.clearClients []

/-- NETWORK_CLEAR (R189). -/
def networkClearState (mp : Mp) (s : State) : State := s.takeCommand mp .networkClear networkClearAct

def execNetworkClear (mp : Mp) (s : State) : Host.Outcome State Fault Refusal := .next (networkClearState mp s)

end Sys2Proof.Machine
end

