-- ==== Sys2Proof/Machine/Tables.lean ====
section
/-! DEFINITION. Section 9.6, table reads: READ_TABLE and READ_MORE. -/

namespace Sys2Proof.Machine

open Sys2Proof

/-- How many records one result returns (R184). -/
def Table.perResult : Table → Nat
  | .references => 2
  | .lines | .marks | .clients | .ports => 1

/-- The records of the occupied slots of a table, each with its slot, in increasing slot (R184, R96). -/
def State.records (s : State) (t : Table) : List (Nat × List Field) :=
  match t with
  | .references => (List.finRange 4).map fun r => (r.val, s.referenceRecord r)
  | .lines => allLines.map fun i => (i.val, s.lineRecord i)
  | .marks => (List.range 64).filterMap fun id => (s.markWithId id).map fun m => (id, m.record)
  | .clients => s.clients.entries.map fun c => (c.slot, c.record)
  | .ports => [NetId.na, NetId.nb].map fun p => (NetId.code p, s.portRecord p)

/-- The records that a read from `start` finds. -/
def State.recordsFrom (s : State) (c : Cursor) : List (Nat × List Field) :=
  (s.records c.table).filter fun x => decide (c.slot ≤ x.1)

/-- The slot after the last one returned (R184). -/
def slotAfter (returned : List (Nat × List Field)) : Nat := (returned.getLast?.map (·.1 + 1)).getD 0

/-- The result of a read that returns `returned` with `more` to follow: header, records each from a word of its own, and
the end word (10.4). -/
def tableResult (t : Table) (returned : List (Nat × List Field)) (more : Bool) : List Word :=
  pack ([fCode t.code, fCode returned.length] ++ (returned.flatMap fun x => .newWord :: x.2) ++ [.newWord, fFlag more])

/-- Read a table from a slot on; the port's cursor follows (R184). -/
def State.readTable (s : State) (mp : Mp) (c : Cursor) : Judged :=
  let found := s.recordsFrom c
  let returned := found.take c.table.perResult
  let more := decide (c.table.perResult < found.length)
  let cursor := if more then some ⟨c.table, slotAfter returned⟩ else none
  .taken (s.setPort mp { s.port mp with cursor := cursor }) (tableResult c.table returned more)

def readTableAct (mp : Mp) (ws : List Word) (s : State) : Judged := withParams (readTableParams ws) (s.readTable mp)

/-- READ_TABLE (R184). -/
def readTableState (mp : Mp) (s : State) : State := s.takeCommand mp .readTable (readTableAct mp)

def execReadTable (mp : Mp) (s : State) : Host.Outcome State Fault Refusal := .next (readTableState mp s)

def readMoreAct (mp : Mp) (_ws : List Word) (s : State) : Judged :=
  match (s.port mp).cursor with
  | none => .refused .state []
  | some c => s.readTable mp c

/-- READ_MORE (R185). -/
def readMoreState (mp : Mp) (s : State) : State := s.takeCommand mp .readMore (readMoreAct mp)

def execReadMore (mp : Mp) (s : State) : Host.Outcome State Fault Refusal := .next (readMoreState mp s)

end Sys2Proof.Machine
end

