-- ==== Sys2Proof/Machine/Resets.lean ====
section
/-! DEFINITION. The resets of the whole part: RESTART, POWER_ON and RESET_RELEASE. -/

namespace Sys2Proof.Machine

open Sys2Proof

/-! ### RESTART (R187) -/

/-- A mailbox at RESTART: power-on values with RESTARTED alone in the summary, the event mask kept (R187). A transaction
in progress on the link goes on (log entry 30). -/
def MasterPort.restarted (p : MasterPort) : MasterPort :=
  { MasterPort.powerOn with mask := p.mask, transaction := p.transaction, dataOut := p.dataOut }

/-- Every line at RESTART, a CODED one then taking its copy of the composer's frame (R119, R133). -/
def State.restartLines (s : State) : State := { s with lines := s.lines.map fun l => s.enterCoded l.restarted }

/-- The blocks, each by its own rule: R27, R76, R49, R98, R119 with R133, R152 and R170. -/
def State.restartBlocks (s : State) : State :=
  let t := (s.cancelSlew anyOrigin).engineRestarted
  ({ t with refs := t.refs.map Reference.restarted }.clearMarks.restartLines).clearNetPorts.clearClients

/-- RESTART taken: the blocks, the claim, the mailboxes, and then the SLEW_ENDED of a slew that it cancelled, beside
RESTARTED (R27, R187). -/
def State.restart (s : State) : State :=
  let t := s.restartBlocks
  let u := { t with claim := none, ports := t.ports.map MasterPort.restarted }
  if s.ts.slew.isSome then u.post .slewEnded else u

/-- The common checks of RESTART, and the restart, which has no result (R177, R187). -/
def State.judgeRestart (s : State) (mp : Mp) (p : Posted) : State :=
  if p.count ≠ CommandRow.restart.words then s.finish mp .params []
  else if s.holdsClaim mp = false then s.finish mp .claimNeeded []
  else s.restart

/-- RESTART (R187). -/
def restartState (mp : Mp) (s : State) : State :=
  s.unlessHeld fun s =>
    match (s.port mp).slot with
    | none => s
    | some p => if p.number = CommandRow.restart.number then s.judgeRestart mp p else s

def execRestart (mp : Mp) (s : State) : Host.Outcome State Fault Refusal := .next (restartState mp s)

/-! ### Power-on and the RESET input (R4, R190) -/

/-- POWER_ON: every block takes its power-on state; the commands that wait outside and the link indications are not the
part's to reset (R137, R190). -/
def powerOnState (held : Bool) (s : State) : State :=
  State.powerOn s.pending held s.net.ports.na.link s.net.ports.nb.link

def execPowerOn (held : Bool) (s : State) : Host.Outcome State Fault Refusal := .next (powerOnState held s)

/-- RESET_RELEASE: the RESET input is released, and events act from then on (R4, R190). -/
def resetReleaseState (s : State) : State := { s with resetHeld := false }

def execResetRelease (s : State) : Host.Outcome State Fault Refusal := .next (resetReleaseState s)

end Sys2Proof.Machine
end

