-- ==== Sys2Proof/Machine/Dispatch.lean ====
section
/-! DEFINITION. One arm per command, each one direct call of the command's meaning. -/

namespace Sys2Proof.Machine

open Sys2Proof

/-- The effect of a command on everything but the queue. -/
def exec (i : Instr) (s : State) : Host.Outcome State Fault Refusal :=
  match i with
  | .powerOn held => Sys2Proof.Machine.execPowerOn held s
  | .resetRelease => Sys2Proof.Machine.execResetRelease s
  | .slewCompletion => Sys2Proof.Machine.execSlewCompletion s
  | .insertedSecondStart => Sys2Proof.Machine.execInsertedSecondStart s
  | .leapInstant => Sys2Proof.Machine.execLeapInstant s
  | .readTime mp => Sys2Proof.Machine.execReadTime mp s
  | .setTime mp => Sys2Proof.Machine.execSetTime mp s
  | .stepBy mp => Sys2Proof.Machine.execStepBy mp s
  | .slewBy mp => Sys2Proof.Machine.execSlewBy mp s
  | .setLeap mp => Sys2Proof.Machine.execSetLeap mp s
  | .clearLeap mp => Sys2Proof.Machine.execClearLeap mp s
  | .setUtcOffset mp => Sys2Proof.Machine.execSetUtcOffset mp s
  | .setLocalOffset mp => Sys2Proof.Machine.execSetLocalOffset mp s
  | .referenceEdge r e => Sys2Proof.Machine.execReferenceEdge r e s
  | .missingEdgeExpiry r => Sys2Proof.Machine.execMissingEdgeExpiry r s
  | .messageArrival r c => Sys2Proof.Machine.execMessageArrival r c s
  | .settleExpiry r => Sys2Proof.Machine.execSettleExpiry r s
  | .holdOffExpiry r => Sys2Proof.Machine.execHoldOffExpiry r s
  | .setReference mp => Sys2Proof.Machine.execSetReference mp s
  | .readReference mp => Sys2Proof.Machine.execReadReference mp s
  | .gradeGrowthCrossing => Sys2Proof.Machine.execGradeGrowthCrossing s
  | .setEngine mp => Sys2Proof.Machine.execSetEngine mp s
  | .readEngine mp => Sys2Proof.Machine.execReadEngine mp s
  | .pin mp => Sys2Proof.Machine.execPin mp s
  | .unpin mp => Sys2Proof.Machine.execUnpin mp s
  | .addMark mp => Sys2Proof.Machine.execAddMark mp s
  | .cancelMark mp => Sys2Proof.Machine.execCancelMark mp s
  | .takeOutcomes mp => Sys2Proof.Machine.execTakeOutcomes mp s
  | .markTaking faulty => Sys2Proof.Machine.execMarkTaking faulty s
  | .setLine mp => Sys2Proof.Machine.execSetLine mp s
  | .changePoint l => Sys2Proof.Machine.execChangePoint l s
  | .pulseStart l load => Sys2Proof.Machine.execPulseStart l load s
  | .pulseEnd l => Sys2Proof.Machine.execPulseEnd l s
  | .commitmentStart l load => Sys2Proof.Machine.execCommitmentStart l load s
  | .lineRestart mp => Sys2Proof.Machine.execLineRestart mp s
  | .senseLine mp => Sys2Proof.Machine.execSenseLine mp s
  | .composition => Sys2Proof.Machine.execComposition s
  | .frameRelease => Sys2Proof.Machine.execFrameRelease s
  | .frameBegin l load => Sys2Proof.Machine.execFrameBegin l load s
  | .symbolStart l load => Sys2Proof.Machine.execSymbolStart l load s
  | .symbolEnd l => Sys2Proof.Machine.execSymbolEnd l s
  | .frameEnd l => Sys2Proof.Machine.execFrameEnd l s
  | .linkUp p => Sys2Proof.Machine.execLinkUp p s
  | .linkDown p => Sys2Proof.Machine.execLinkDown p s
  | .beaconDue => Sys2Proof.Machine.execBeaconDue s
  | .transmitEnd p => Sys2Proof.Machine.execTransmitEnd p s
  | .askTimingPoint p => Sys2Proof.Machine.execAskTimingPoint p s
  | .askArrival p f => Sys2Proof.Machine.execAskArrival p f s
  | .setNetwork mp => Sys2Proof.Machine.execSetNetwork mp s
  | .readPort mp => Sys2Proof.Machine.execReadPort mp s
  | .idleCheck => Sys2Proof.Machine.execIdleCheck s
  | .forgetClient mp => Sys2Proof.Machine.execForgetClient mp s
  | .writeParams mp rest => Sys2Proof.Machine.execWriteParams mp rest s
  | .post mp rest => Sys2Proof.Machine.execPost mp rest s
  | .readResult mp len => Sys2Proof.Machine.execReadResult mp len s
  | .readState mp len => Sys2Proof.Machine.execReadState mp len s
  | .sense mp rest => Sys2Proof.Machine.execSense mp rest s
  | .readErrors mp len => Sys2Proof.Machine.execReadErrors mp len s
  | .portClear mp len => Sys2Proof.Machine.execPortClear mp len s
  | .unknownTransaction mp code => Sys2Proof.Machine.execUnknownTransaction mp code s
  | .unknownCommand mp => Sys2Proof.Machine.execUnknownCommand mp s
  | .claim mp => Sys2Proof.Machine.execClaim mp s
  | .release mp => Sys2Proof.Machine.execRelease mp s
  | .leaseExpiry => Sys2Proof.Machine.execLeaseExpiry s
  | .setEventMask mp => Sys2Proof.Machine.execSetEventMask mp s
  | .readTable mp => Sys2Proof.Machine.execReadTable mp s
  | .readMore mp => Sys2Proof.Machine.execReadMore mp s
  | .identify mp => Sys2Proof.Machine.execIdentify mp s
  | .restart mp => Sys2Proof.Machine.execRestart mp s
  | .networkClear mp => Sys2Proof.Machine.execNetworkClear mp s
  | .tick => Sys2Proof.Machine.execTick s
  | .messageCharacter r c => Sys2Proof.Machine.execMessageCharacter r c s
  | .transactionBegin mp => Sys2Proof.Machine.execTransactionBegin mp s

end Sys2Proof.Machine
end

