-- ==== Sys2Proof/Safety.lean ====
section
/-! DEFINITION. What is meant by a legal state: for each block the ranges and the agreements among its parts that the
spec gives them at every moment. Each part stands on its own, so that its keeping can be stated and proved apart. The
timed events, and a state in which none of them is due, stand at the end. -/

namespace Sys2Proof.Machine

open Sys2Proof

/-! ### The timescale unit (R1, R3, R4, R6 to R10, R15) -/

/-- A timescale value with its fields in range (R1). -/
abbrev TimeValue.wf (t : TimeValue) : Prop :=
  t.sec < Config.secRange ∧ t.ns < Config.nsPerSec ∧ t.frac < Config.fracRange

/-- A slew record: an amount of 1 ns to 1 s, and a residual of the amount's sign that does not exceed it (R8). -/
abbrev Slew.wf (w : Slew) : Prop :=
  1 ≤ w.requested.natAbs ∧ w.requested.natAbs ≤ Config.nsPerSec ∧
    (0 < w.requested → 0 ≤ w.residual ∧ w.residual ≤ w.requested * finePerNs) ∧
    (w.requested < 0 → w.requested * finePerNs ≤ w.residual ∧ w.residual ≤ 0)

/-- A leap record: a day end that is a multiple of 86,400, room for its change of utc_offset, and a DELETE that is
PENDING (R6, R15). -/
abbrev Leap.wf (r : Leap) (utcOffset : Nat) : Prop :=
  r.dayEnd % 86400 = 0 ∧ (r.kind = .insert → utcOffset ≤ 254) ∧ (r.kind = .delete → 1 ≤ utcOffset ∧ r.phase = .pending)

abbrev TimescaleUnit.wf (ts : TimescaleUnit) : Prop :=
  ts.time.wf ∧ ts.rem < Config.pptOne ∧ (-200000000 ≤ ts.rate ∧ ts.rate ≤ 200000000) ∧
    ts.tickCount < Config.tickRange ∧ ts.utcOffset ≤ 255 ∧ (-48 ≤ ts.localOffset ∧ ts.localOffset ≤ 56) ∧
    (1 ≤ ts.slewLimit ∧ ts.slewLimit ≤ 500) ∧ (∀ w ∈ ts.slew, w.wf) ∧ (∀ r ∈ ts.leap, r.wf ts.utcOffset)

/-- The timescale unit is legal, and so is what the engine may hand it: an integral term within 200 ppm (R62) and a
threshold that keeps an engine slew from being 0 (R60, R74). -/
abbrev State.timeWf (s : State) : Prop :=
  s.ts.wf ∧ (-200000000 ≤ s.engine.integral ∧ s.engine.integral ≤ 200000000) ∧ 1000 ≤ s.engine.settings.threshold

/-! ### The reference inputs (R28 to R30, R193) -/

abbrev RefSettings.wf (x : RefSettings) : Prop :=
  x.priority ≤ 15 ∧ x.compensation ≤ 65535 ∧ x.accuracy ≤ 65535 ∧ (3 ≤ x.qualifyCount ∧ x.qualifyCount ≤ 60) ∧
    (10 ≤ x.holdOff ∧ x.holdOff ≤ 3600) ∧ (100 ≤ x.phaseLimit ∧ x.phaseLimit ≤ 1000000) ∧
    x.baud ∈ [9600, 19200, 38400, 115200]

/-- The record judges edges in their windows: QUALIFYING or USABLE (R29). -/
abbrev RefState.windowed (st : RefState) : Prop := st = .qualifying ∨ st = .usable

abbrev Gather.chars : Gather → List Byte
  | .hunting => []
  | .gathering cs => cs

/-- A reference record is legal. Its good-measurement run belongs to QUALIFYING and USABLE, since entry into any other state
clears it (R29), and is below the qualify count in QUALIFYING, since a run that reaches it enters USABLE (R42). A count of
3 has disqualified a USABLE reference (R43, R44). -/
abbrev Reference.wf (x : Reference) : Prop :=
  x.settings.wf ∧ (x.state = .off ↔ x.settings.kind = .off) ∧ (x.holdOffExpiry.isSome ↔ x.state = .heldOff) ∧
    (x.lastEdge.isSome ↔ x.state.windowed) ∧ (x.latch.isSome → x.state.windowed) ∧
    (x.settleExpiry.isSome ↔ x.latch.isSome ∧ x.settings.kind = .pulseOnly) ∧
    (x.gather ≠ .hunting → x.judgesMessages ∧ 1 ≤ x.gather.chars.length ∧ x.gather.chars.length ≤ 23) ∧
    x.goodRun ≤ x.settings.qualifyCount ∧ (x.goodRun ≠ 0 → x.state.windowed) ∧
    (x.state = .qualifying → x.goodRun < x.settings.qualifyCount) ∧ (x.missingRun ≤ 3 ∧ x.badRun ≤ 3 ∧ x.phaseRun ≤ 3) ∧
    (x.state = .usable → x.missingRun ≤ 2 ∧ x.badRun ≤ 2 ∧ x.phaseRun ≤ 2) ∧ (x.disagree → x.state = .usable) ∧
    (x.glitches ≤ 65535 ∧ x.missingEdges ≤ 65535 ∧ x.messageErrors ≤ 65535 ∧ x.disqualified ≤ 65535)

abbrev State.refsWf (s : State) : Prop := ∀ r : RefId, (s.ref r).wf

/-! ### The discipline engine (R51, R53, R61, R63, R69, R74) -/

abbrev EngineSettings.wf (x : EngineSettings) : Prop :=
  (16 ≤ x.timeConstant ∧ x.timeConstant ≤ 1024) ∧ (10 ≤ x.lockWindow ∧ x.lockWindow ≤ 100000) ∧
    (4 ≤ x.lockCount ∧ x.lockCount ≤ 64) ∧ (1000 ≤ x.threshold ∧ x.threshold ≤ 1000000000) ∧ x.growth ≤ 1000000

/-- The engine follows a reference: ACQUIRING or LOCKED. -/
abbrev EngineState.follows (st : EngineState) : Prop := st = .acquiring ∨ st = .locked

/-- The engine is legal: it has a selection exactly when it follows a reference, and then a USABLE one; U is unset
exactly in FREERUN; the lock run and STEP_NEEDED are the following states' own. -/
abbrev State.engineWf (s : State) : Prop :=
  let e := s.engine
  e.settings.wf ∧ (e.selection.isSome ↔ e.state.follows) ∧ (∀ r ∈ e.selection, (s.ref r).state = .usable) ∧
    (e.anchor.isNone ↔ e.state = .freerun) ∧ (∀ a ∈ e.anchor, a.ps ≤ Config.uncertaintyCap) ∧
    (-200000000 ≤ e.integral ∧ e.integral ≤ 200000000) ∧ e.goodRun ≤ 64 ∧ (e.goodRun ≠ 0 → e.state.follows) ∧
    (e.stepNeeded → e.state = .acquiring) ∧ (e.initialStep → e.state = .acquiring ∨ e.state = .holdover)

/-! ### The mark scheduler (R77, R78, R94) -/

abbrev Mark.wf (m : Mark) : Prop :=
  m.id < 64 ∧ m.lines ≠ 0 ∧ m.due < Config.nsRange ∧ (1 ≤ m.width ∧ m.width ≤ 500000) ∧
    (∀ p ∈ m.period, 1 ≤ p ∧ p ≤ 86400000 ∧ m.width < p * 1000) ∧ (∀ n ∈ m.remaining, 1 ≤ n ∧ n ≤ 65535) ∧
    (m.remaining.isSome → m.period.isSome) ∧ m.tag ≤ 65535 ∧
    (m.fired ≤ 65535 ∧ m.withheld ≤ 65535 ∧ m.skipped ≤ 65535 ∧ m.partialTakes ≤ 65535)

/-- At most 64 marks in the order of R78, no two with one id, at most 24 of one owner; at most 16 outcomes in each queue,
all of its owner's (R78, R94). -/
abbrev State.marksWf (s : State) : Prop :=
  s.marks.length ≤ 64 ∧ s.marks.Pairwise (fun a b => a.before b) ∧ (s.marks.map (·.id)).Nodup ∧
    (∀ mp : Mp, s.markNumber mp ≤ 24) ∧ (∀ m ∈ s.marks, m.wf) ∧
    ∀ mp : Mp, (s.queue mp).length ≤ 16 ∧ ∀ o ∈ s.queue mp, o.owner = mp

/-! ### The output lines (R100, R103, R109, R123) -/

abbrev LineSettings.wf (x : LineSettings) : Prop :=
  x.compensation ≤ 65535 ∧ x.period ∈ [1, 10, 100, 1000, 2000, 10000, 60000] ∧ (1 ≤ x.width ∧ x.width ≤ 500000) ∧
    x.width < x.period * 1000 ∧ ∀ g ∈ x.gate, g.val ≤ 6

/-- The kind of emission in flight belongs to the mode: pulses to PULSE and MARKS, frames to CODED, none in OFF. -/
def Emission.suits (e : Emission) (mode : LineMode) : Bool :=
  match e with
  | .none => true
  | .pulse _ _ => decide (mode = .pulse ∨ mode = .marks)
  | .frame _ slot _ => decide (mode = .coded ∧ 1 ≤ slot ∧ slot ≤ 50)

/-- A line is legal: OFF exactly in mode OFF unless FAULTED; only a RUNNING line has an emission of its mode's kind;
commitments wait on a RUNNING line in MARKS mode alone, at most 64 in order of start; a held frame waits on a RUNNING
line in CODED mode alone. -/
abbrev Line.wf (l : Line) : Prop :=
  l.settings.wf ∧ (∀ p ∈ l.pending, p.wf ∧ p ≠ l.settings) ∧ (l.state = .off → l.settings.mode = .off) ∧
    (l.state = .running → l.settings.mode ≠ .off) ∧ (l.flags.fault ↔ l.state = .faulted) ∧
    (l.emission ≠ .none → l.state = .running) ∧ l.emission.suits l.settings.mode ∧
    (l.commitments ≠ [] → l.state = .running ∧ l.settings.mode = .marks) ∧ l.commitments.length ≤ 64 ∧
    l.commitments.Pairwise (fun a b => a.start ≤ b.start) ∧ (l.held.isSome → l.runningCoded) ∧
    (l.gated ≤ 65535 ∧ l.faults ≤ 65535 ∧ l.emissions < 2 ^ 32)

abbrev State.linesWf (s : State) : Prop := ∀ i : LineId, (s.line i).wf

/-! ### The process network ports (R135 to R142, R148) -/

abbrev NetSettings.wf (x : NetSettings) : Prop :=
  isGroup x.address = false ∧ (x.enable.na ∨ x.enable.nb → x.address ≠ 0) ∧ x.interval ∈ [125, 250, 500, 1000, 2000] ∧
    (10 ≤ x.spacing ∧ x.spacing ≤ 10000) ∧ (10 ≤ x.stragglerLimit ∧ x.stragglerLimit ≤ 1000000) ∧
    (8 ≤ x.idleLimit ∧ x.idleLimit ≤ 255)

/-- A port is legal in its state: at most 32 answers; one that is not ACTIVE has nothing queued, pending, on the wire or
in reception; an idle wire means that nothing waits for it. -/
abbrev NetPort.wf (port : NetPort) (st : PortState) : Prop :=
  port.queue.length ≤ 32 ∧
    (st ≠ .active → port.queue = [] ∧ port.wire = .idle ∧ port.pendingBeacon = none ∧ port.reception = none) ∧
    (port.wire = .idle → port.queue = [] ∧ port.pendingBeacon = none) ∧ port.beaconSeq ≤ 65535 ∧
    port.nextDue < Config.nsRange

abbrev State.netWf (s : State) : Prop := s.net.settings.wf ∧ ∀ p ∈ [NetId.na, NetId.nb], (s.netPort p).wf (s.portState p)

/-! ### The client table (R154 to R156) -/

/-- An entry is legal: a slot of the 96, an individual address, a sub-record at least, and NEW exactly while it has no
self-report. -/
abbrev Client.wf (c : Client) : Prop :=
  c.slot < 96 ∧ isGroup c.address = false ∧ (c.subA.isSome ∨ c.subB.isSome) ∧ (c.state = .new ↔ c.report = none)

abbrev State.clientsWf (s : State) : Prop :=
  (∀ c ∈ s.clients.entries, c.wf) ∧ s.clients.entries.Pairwise (fun a b => a.slot < b.slot) ∧
    (s.clients.entries.map (·.address)).Nodup

/-! ### The master ports and the control claim (R171, R174) -/

abbrev Posted.wf (p : Posted) : Prop := p.count ≤ 16 ∧ p.words.length = p.count

/-- A mailbox is legal: BUSY exactly while a command waits in its slot, a result present in DONE, 16 words in each
area. -/
abbrev MasterPort.wf (p : MasterPort) : Prop :=
  p.params.length = 16 ∧ (p.handshake = .busy ↔ p.slot.isSome) ∧ (p.handshake = .done → p.result.isSome) ∧
    (∀ x ∈ p.slot, x.wf) ∧ (∀ x ∈ p.result, x.words.length = 16)

abbrev State.portsWf (s : State) : Prop := ∀ mp : Mp, (s.port mp).wf

/-! ### The whole part -/

/-- A legal state of the part. -/
abbrev State.wf (s : State) : Prop :=
  s.timeWf ∧ s.refsWf ∧ s.engineWf ∧ s.marksWf ∧ s.linesWf ∧ s.netWf ∧ s.clientsWf ∧ s.portsWf

/-! ### A posted command that is ready to be taken (R174, R177) -/

/-- The command of `row` waits in the slot of `mp` with the parameter words `ws`: the RESET input is released, the count
is the row's, and the port holds the claim where the command needs it. -/
abbrev State.waits (s : State) (mp : Mp) (row : CommandRow) (ws : List Word) : Prop :=
  s.resetHeld = false ∧ (s.port mp).slot = some ⟨row.number, row.words, ws⟩ ∧
    (row.claim = true → s.holdsClaim mp = true)

/-! ### Timed events (R2; log entry 3) -/

/-- The events that the part makes by itself as ticks are counted. -/
def timedEvents : List Instr :=
  [.slewCompletion, .insertedSecondStart, .leapInstant, .gradeGrowthCrossing, .markTaking 0, .composition, .frameRelease,
    .beaconDue, .idleCheck, .leaseExpiry]
    ++ (List.finRange 4).flatMap (fun r => [.missingEdgeExpiry r, .settleExpiry r, .holdOffExpiry r])
    ++ allLines.flatMap (fun i => [.changePoint i, .pulseStart i .good, .pulseEnd i, .commitmentStart i .good,
      .frameBegin i .good, .symbolStart i .good, .symbolEnd i, .frameEnd i])

/-- No timed event is due: each would leave the state as it is. Between two ticks a prompt environment sends the events
that are due until the state is quiet. -/
def State.quiet (s : State) : Prop := ∀ c ∈ timedEvents, exec c s = .next s

end Sys2Proof.Machine
end

