-- ==== Sys2Proof/Certificates/Slice0/Obligations.lean ====
section
/-! DEFINITION. The statements for the provers. Every statement about a command gives the whole next state, or names what
of it is given; the words of a result are those that `pack` makes of the fields listed. -/

namespace Sys2Proof.Machine

/-- The timescale with its remainder, as one number of units of 2^-32 ns divided by 10^12. -/
abbrev TimescaleUnit.fine (ts : TimescaleUnit) : Nat :=
  (ts.time.toNs * Config.fracRange + ts.time.frac) * Config.pptOne + ts.rem

/-- The number at which the timescale returns to 0 (R1). -/
abbrev fineRange : Nat := Config.nsRange * Config.fracRange * Config.pptOne

/-- The engine states in which a master may move the timescale. -/
abbrev EngineState.free (st : EngineState) : Prop := st = .freerun ∨ st = .holdover ∨ st = .pinned

/-- SET_LEAP, CLEAR_LEAP and SET_UTC_OFFSET are refused STATE here (R24, R25). -/
abbrev State.leapRefused (s : State) : Prop :=
  (s.engine.state.follows ∧ ∃ r ∈ s.engine.selection, (s.ref r).settings.kind = .receiver ∨ (s.ref r).settings.kind = .link) ∨
    ∃ r ∈ s.ts.leap, r.phase = .inserting

/-- A command waits that `row` numbers with its count right, the claim apart. -/
abbrev State.slotHas (s : State) (mp : Mp) (row : CommandRow) (ws : List Word) : Prop :=
  s.resetHeld = false ∧ (s.port mp).slot = some ⟨row.number, row.words, ws⟩

/-! ### Words of the statements -/

/-- A record that enters OFF, SEEKING or HELD_OFF: all its dynamic state but the counters and the latest measurement is
cleared (R29). -/
abbrev Reference.entering (x : Reference) (st : RefState) : Reference :=
  { x with
    state := st
    latch := none
    lastEdge := none
    goodRun := 0
    comparison := none
    missingRun := 0
    badRun := 0
    phaseRun := 0
    disagree := false
    holdOffExpiry := none
    settleExpiry := none
    gather := .hunting }

/-- The disqualification of reference `r` whose record is `x`: HELD_OFF with its expiry, counted, REF_CHANGED, and the
engine re-evaluates (R44, R54). -/
abbrev State.putsAside (s : State) (r : RefId) (x : Reference) : State :=
  ((s.setRef r
    { x.entering .heldOff with
      holdOffExpiry := some (s.run + x.settings.holdOff * 1000)
      disqualified := sat16 x.disqualified }).post .refChanged).reevaluate

/-- A record with a completed measurement: the latch emptied and the latest measurement record written (R38, R40). -/
abbrev Reference.completed (x : Reference) (run : Nat) (c : Capture) (offset : Int) (accuracy : Nat)
    (m : Option Message) : Reference :=
  { x with
    latch := none
    settleExpiry := none
    latest := some ⟨run, c.value, c.tick, offset, accuracy, m⟩ }

/-- `o` is what a fit measurement of `offset` makes in QUALIFYING, the record `y` holding it already: good when the
comparison offset is absent or within the phase limit, and USABLE at the qualify count (R41, R42). -/
abbrev State.qualifiesWith (s : State) (r : RefId) (y : Reference) (offset : Int)
    (o : Host.Outcome State Fault Refusal) : Prop :=
  let good := ∀ c ∈ y.comparison, (offset - c).natAbs ≤ y.settings.phaseLimit
  let z := { y with goodRun := y.goodRun + 1, comparison := some offset }
  (¬ good → o = .next (s.setRef r { y with goodRun := 0, comparison := some offset })) ∧
  (good → y.goodRun + 1 < y.settings.qualifyCount → o = .next (s.setRef r z)) ∧
  (good → y.settings.qualifyCount ≤ y.goodRun + 1 →
    o = .next ((s.setRef r
      { z with
        state := .usable
        missingRun := 0
        badRun := 0
        phaseRun := 0
        disagree := false }).post .refChanged).reevaluate)

/-- `o` is what a fit measurement makes in USABLE, the record `y` holding it already: the phase-exceed check, DISAGREE
with REF_CHANGED at its change, and the hand-over to the engine (R43, R46). -/
abbrev State.usesWith (s : State) (r : RefId) (y : Reference) (offset : Int) (accuracy : Nat) (m : Option Message)
    (o : Host.Outcome State Fault Refusal) : Prop :=
  let locked := s.engine.state = .locked
  let exceeds := y.settings.phaseLimit < offset.natAbs
  let run := if locked ∧ s.engine.selection = some r ∧ exceeds then upTo3 y.phaseRun else 0
  let flag := decide (locked ∧ s.engine.selection ≠ some r ∧ exceeds)
  let t := s.setRef r { y with phaseRun := run, disagree := flag }
  (run = 3 → o = .next (s.putsAside r { y with phaseRun := 3 })) ∧
  (run ≠ 3 →
    o = .next ((if flag = y.disagree then t else t.post .refChanged).useMeasurement r offset accuracy m))

/-- The engine with its last-measurement record written (R58). -/
abbrev State.recordMeasurement (s : State) (x : LastMeasurement) : State :=
  { s with engine := { s.engine with lastMeasurement := some x } }

/-- The master port and the row of a posted command; none for every other command. -/
abbrev postedRow (c : Instr) : Option (Mp × CommandRow) :=
  match c with
  | .readTime mp => some (mp, .readTime)
  | .setTime mp => some (mp, .setTime)
  | .stepBy mp => some (mp, .stepBy)
  | .slewBy mp => some (mp, .slewBy)
  | .setLeap mp => some (mp, .setLeap)
  | .clearLeap mp => some (mp, .clearLeap)
  | .setUtcOffset mp => some (mp, .setUtcOffset)
  | .setLocalOffset mp => some (mp, .setLocalOffset)
  | .setReference mp => some (mp, .setReference)
  | .readReference mp => some (mp, .readReference)
  | .setEngine mp => some (mp, .setEngine)
  | .readEngine mp => some (mp, .readEngine)
  | .pin mp => some (mp, .pin)
  | .unpin mp => some (mp, .unpin)
  | .addMark mp => some (mp, .addMark)
  | .cancelMark mp => some (mp, .cancelMark)
  | .takeOutcomes mp => some (mp, .takeOutcomes)
  | .setLine mp => some (mp, .setLine)
  | .lineRestart mp => some (mp, .lineRestart)
  | .senseLine mp => some (mp, .senseLine)
  | .setNetwork mp => some (mp, .setNetwork)
  | .readPort mp => some (mp, .readPort)
  | .forgetClient mp => some (mp, .forgetClient)
  | .claim mp => some (mp, .claim')
  | .release mp => some (mp, .release)
  | .setEventMask mp => some (mp, .setEventMask)
  | .readTable mp => some (mp, .readTable)
  | .readMore mp => some (mp, .readMore)
  | .identify mp => some (mp, .identify)
  | .restart mp => some (mp, .restart)
  | .networkClear mp => some (mp, .networkClear)
  | _ => none

/-- The timescale has reached the beginning of second `sec`; second 2^48 begins where the seconds return to 0. -/
abbrev State.secondMet (s : State) (sec : Int) : Prop := sec ≤ s.ts.time.sec ∨ (sec = 2 ^ 48 ∧ s.reachedNow 0 = true)

/-- utc_offset and the leap record that a beacon departing now carries: in the inserted second the phase INSERTING and the
old offset, after it the raised offset and no record, and after a DELETE's instant the lowered offset and no record
(R140). -/
abbrev State.leapShown (s : State) : Nat × Option Leap :=
  match s.ts.leap with
  | none => (s.ts.utcOffset, none)
  | some r =>
    let inserted : Int := r.dayEnd + s.ts.utcOffset
    match r.kind with
    | .insert =>
      if r.phase = .pending ∧ ¬ s.secondMet inserted then (s.ts.utcOffset, some r)
      else if s.secondMet (inserted + 1) then (s.ts.utcOffset + 1, none)
      else (s.ts.utcOffset, some { r with phase := .inserting })
    | .delete => if s.secondMet (inserted - 1) then (s.ts.utcOffset - 1, none) else (s.ts.utcOffset, some r)

/-- The number that `n` bytes from offset `k` make, most significant byte first. -/
abbrev numberAt (bs : List Byte) (k n : Nat) : Nat := ((bs.drop k).take n).foldl (fun x b => x * 256 + b.toNat) 0

/-- The word whose fields have these widths and values, from bit 0 upward; the bits above them are 0 (10.2). -/
abbrev wordOf (fields : List (Nat × Nat)) : Word :=
  BitVec.ofNat 128 (fields.foldr (fun x above => x.2 % 2 ^ x.1 + 2 ^ x.1 * above) 0)

/-- The word of an instant: seconds from bit 64, nanoseconds from bit 32, the fraction from bit 0 (10.2). -/
abbrev instantWord (t : TimeValue) : Word := BitVec.ofNat 128 (t.sec * 2 ^ 64 + t.ns * 2 ^ 32 + t.frac)

/-- The value of an instant's field, its fraction 0. -/
abbrev instantValue (t : Instant) : Nat := t / 10 ^ 9 * 2 ^ 64 + t % 10 ^ 9 * 2 ^ 32

/-- A signed quantity as the bits of a field. -/
abbrev signedBits (w : Nat) (x : Int) : Nat := (x % 2 ^ w).toNat

/-- Set 1, clear 0. -/
abbrev flagBit (b : Bool) : Nat := if b then 1 else 0

/-- A field of an optional group, 0 when the group is absent. -/
abbrev orZero {α : Type} (o : Option α) (f : α → Nat) : Nat := (o.map f).getD 0

/-- `n` bits of parameter word `k` from bit `lo` up. -/
abbrev bitsAt (ws : List Word) (k lo n : Nat) : Nat := wordAt ws k / 2 ^ lo % 2 ^ n

/-- An optional parameter: its presence field says whether it is given, and then its field holds it. -/
abbrev optionAt (presence value : Nat) (o : Option Nat) : Prop :=
  (presence = 0 ∧ o = none) ∨ (presence = 1 ∧ o = some value)

/-- The fourteen words of READ_TIME (10.4), the last-step amount as given. -/
abbrev State.timeWords (s : State) (amount : Nat) : List Word :=
  let ts := s.ts
  let year := ts.labelNow.year
  let start (o : Option TimeValue) : Word := (o.map instantWord).getD 0
  [instantWord ts.time,
    wordOf [(48, s.run), (8, ts.utcOffset), (8, signedBits 8 ts.localOffset),
      (64, signedBits 64 (ts.time.sec - ts.utcOffset))],
    wordOf [(32, signedBits 32 year), (16, ts.labelNow.dayOfYear), (32, ts.labelNow.secOfDay),
      (8, flagBit ts.leap.isSome), (8, orZero ts.leap fun r => r.kind.code)],
    wordOf [(64, orZero ts.leap fun r => signedBits 64 r.dayEnd), (8, orZero ts.leap fun r => r.source.code),
      (8, orZero ts.leap fun r => r.phase.code), (32, signedBits 32 ts.rate), (8, flagBit ts.slew.isSome),
      (8, orZero ts.slew fun w => w.origin.code)],
    wordOf [(32, orZero ts.slew fun w => signedBits 32 w.requested),
      (32, orZero ts.slew fun w => signedBits 32 (w.residual.tdiv (2 ^ 32 * 10 ^ 12)))],
    start (ts.slew.map (·.start)),
    wordOf [(16, ts.slewLimit), (8, flagBit ts.lastSlew.isSome), (8, orZero ts.lastSlew fun w => w.origin.code),
      (32, orZero ts.lastSlew fun w => signedBits 32 w.requested)],
    start (ts.lastSlew.map (·.start)),
    wordOf [(8, orZero ts.lastSlew fun w => w.outcome.code),
      (32, orZero ts.lastSlew fun w => signedBits 32 w.residualLeft), (48, orZero ts.lastSlew fun w => w.endRun),
      (8, flagBit ts.lastStep.isSome), (8, orZero ts.lastStep fun x => x.source.code)],
    wordOf [(64, amount)],
    start (ts.lastStep.map (·.before)),
    start (ts.lastStep.map (·.after)),
    wordOf [(48, orZero ts.lastStep fun x => x.run), (8, s.engine.state.code), (8, s.grade.val),
      (8, flagBit s.uncertainty.isSome), (48, s.uncertainty.getD 0), (8, flagBit s.engine.selection.isSome)],
    wordOf [(8, orZero s.engine.selection fun r => r.val)]]

/-- What READ_ENGINE returns, in R75's order. -/
abbrev State.engineValues (s : State) : List Field :=
  let e := s.engine
  let x := e.settings
  let m := e.lastMeasurement
  [.bits 8 e.state.code, .bits 48 e.entryTime, .bits 48 (s.run - e.entryTime), .bits 8 (flagBit e.selection.isSome),
    .bits 8 (orZero e.selection fun r => r.val), .bits 16 x.timeConstant, .bits 32 x.lockWindow, .bits 8 x.lockCount,
    .bits 32 x.threshold, .bits 8 (flagBit x.autoStep), .bits 32 x.growth, .bits 16 s.ts.slewLimit,
    .bits 32 (signedBits 32 e.integral), .bits 32 (signedBits 32 s.ts.rate), .bits 8 e.goodRun,
    .bits 8 (flagBit e.initialStep), .bits 8 (flagBit e.stepNeeded), .bits 8 (flagBit s.uncertainty.isSome),
    .bits 48 (s.uncertainty.getD 0), .bits 8 s.grade.val, .bits 8 (flagBit m.isSome),
    .bits 8 (orZero m fun y => y.ref.val), .bits 64 (orZero m fun y => signedBits 64 y.offset),
    .bits 32 (orZero m fun y => y.accuracy), .bits 48 (orZero m fun y => y.run), .bits 8 (orZero m fun y => y.action.code),
    .bits 8 (flagBit s.ts.slew.isSome), .bits 8 (orZero s.ts.slew fun w => w.origin.code),
    .bits 32 (orZero s.ts.slew fun w => signedBits 32 (w.residual.tdiv (2 ^ 32 * 10 ^ 12)))]

/-- The code of the state shown of a reference: SELECTED in place of USABLE for the selected one (R29, 10.2). -/
abbrev State.stateShown (s : State) (r : RefId) : Nat :=
  match (s.ref r).state with
  | .off => 0
  | .seeking => 1
  | .qualifying => 2
  | .usable => if s.engine.selection = some r then 5 else 3
  | .heldOff => 4

/-- What READ_REFERENCE returns, in R50's order. -/
abbrev State.referenceValues (s : State) (r : RefId) : List Field :=
  let x := s.ref r
  let y := x.settings
  let m := x.latest.bind (·.message)
  let latest (f : Measurement → Nat) : Nat := orZero x.latest f
  [.bits 8 y.kind.code, .bits 8 y.priority, .bits 16 y.compensation, .bits 8 (Edge.code y.polarity), .bits 16 y.accuracy,
    .bits 8 y.qualifyCount, .bits 16 y.holdOff, .bits 32 y.phaseLimit, .bits 32 y.baud, .bits 8 (s.stateShown r),
    .bits 8 (flagBit x.latch.isSome), .instant (orZero x.latch fun c => instantValue c.value),
    .bits 64 (orZero x.latch fun c => c.tick), .bits 8 (orZero x.latch fun c => flagBit c.badSeen),
    .bits 8 (flagBit x.lastEdge.isSome), .bits 64 (x.lastEdge.getD 0), .bits 8 x.goodRun,
    .bits 8 (flagBit x.comparison.isSome), .bits 64 (orZero x.comparison fun c => signedBits 64 c), .bits 8 x.missingRun,
    .bits 8 x.badRun, .bits 8 x.phaseRun, .bits 8 (flagBit x.disagree), .bits 8 (flagBit x.latest.isSome),
    .bits 48 (latest fun z => z.run), .instant (latest fun z => instantValue z.value), .bits 64 (latest fun z => z.tick),
    .bits 64 (latest fun z => signedBits 64 z.offset), .bits 32 (latest fun z => z.accuracy),
    .bits 8 (latest fun z => flagBit z.message.isNone), .bits 8 (flagBit m.isSome), .bits 8 (orZero m fun z => z.kind.code),
    .bits 64 (orZero m fun z => signedBits 64 z.utcCount), .bits 8 (orZero m fun z => z.utcOffset),
    .bits 32 (orZero m fun z => z.accuracy), .bits 8 (orZero m fun z => z.status),
    .bits 8 (orZero m fun z => z.announcement.code), .bits 64 (orZero m fun z => signedBits 64 z.announcement.dayEnd),
    .bits 8 (flagBit x.holdOffExpiry.isSome), .bits 48 (x.holdOffExpiry.getD 0), .bits 8 (flagBit x.holdOffExpiry.isSome),
    .bits 48 (orZero x.holdOffExpiry fun t => t - s.run), .bits 16 x.glitches, .bits 16 x.missingEdges,
    .bits 16 x.messageErrors, .bits 16 x.disqualified]

/-- The twelve counters of a port, in R148's order. -/
abbrev PortCounters.values (k : PortCounters) : List Field :=
  [k.beaconsSent, k.answersSent, k.untracked, k.unknown, k.notReady, k.repeats, k.spacing, k.queueFull, k.stepFlush,
    k.linkFlush, k.receiveErrors, k.linkLosses].map fun n => .bits 32 n

/-- What READ_PORT returns, in R151's order. -/
abbrev State.portValues (s : State) (p : NetId) : List Field :=
  let x := s.net.settings
  let port := s.netPort p
  let wire : Nat := match port.wire with
    | .idle => 0
    | .beacon _ => 1
    | .answer _ _ => 2
  [.bits 8 (flagBit (x.enable.get .na)), .bits 8 (flagBit (x.enable.get .nb)), .bits 48 x.address.toNat,
    .bits 16 x.interval, .bits 16 x.spacing, .bits 32 x.stragglerLimit, .bits 8 x.idleLimit,
    .bits 8 (s.portState p).code, .bits 8 port.link.code, .bits 8 port.queue.length, .bits 8 wire,
    .bits 8 (flagBit port.pendingBeacon.isSome), .instant (instantValue port.nextDue), .bits 16 port.beaconSeq]
    ++ port.counters.values

/-- What SENSE_LINE returns: the status word in R116's order, an active output as 1 (log entry 38), GATED by the grade
that the changes of grade taken so far have left (log entry 40), and the three counts. -/
abbrev State.senseValues (s : State) (l : Line) : List Field :=
  let active : Nat := match l.emission with
    | .pulse _ _ | .frame _ _ (some _) => 1
    | .none | .frame _ _ none => 0
  let slot : Option Nat := match l.emission with
    | .frame h _ _ => some (min 49 ((((s.nowNs : Int) - h.slot0) % Config.nsRange).toNat / 20000000))
    | .none | .pulse _ _ => none
  let gated := l.state = .running ∧ (l.settings.mode = .pulse ∨ l.settings.mode = .marks) ∧
    gatePasses l.settings.gate s.engine.announced = false
  [.bits 8 l.state.code, .bits 8 l.settings.mode.code, .bits 8 (flagBit l.pending.isSome), .bits 8 active,
    .bits 8 (if gated then 1 else 0), .bits 8 (flagBit slot.isSome), .bits 8 (slot.getD 0),
    .bits 8 l.commitments.length, .bits 8 (flagBit l.flags.fault), .bits 8 (flagBit l.flags.pulseCut),
    .bits 8 (flagBit l.flags.pulseDropped), .bits 8 (flagBit l.flags.markMerged), .bits 8 (flagBit l.flags.frameCut),
    .bits 16 l.gated, .bits 16 l.faults, .bits 32 l.emissions]

/-! The records of a table read: an absent item has its presence field 0 and its bits 0 (10.2). -/

/-- The record of a reference, in R50's order. -/
abbrev State.referenceShort (s : State) (r : RefId) : List Field :=
  let x := s.ref r
  [.bits 8 r.val, .bits 8 x.settings.kind.code, .bits 8 (s.stateShown r), .bits 8 x.settings.priority, .bits 8 x.goodRun,
    .bits 8 x.missingRun, .bits 8 x.badRun, .bits 8 x.phaseRun, .bits 8 (flagBit x.disagree),
    .bits 8 (flagBit x.latest.isSome), .bits 64 (orZero x.latest fun z => signedBits 64 z.offset),
    .bits 32 (orZero x.latest fun z => z.accuracy), .bits 16 x.glitches, .bits 16 x.missingEdges, .bits 16 x.messageErrors,
    .bits 16 x.disqualified]

/-- The six settings of a line, in R100's order. -/
abbrev LineSettings.values (y : LineSettings) : List Field :=
  [.bits 8 y.mode.code, .bits 8 y.polarity.code, .bits 16 y.compensation, .bits 16 y.period, .bits 32 y.width,
    .bits 8 (flagBit y.gate.isSome), .bits 8 (orZero y.gate fun g => g.val)]

/-- The record of a line, in R118's order: the index and the effective settings, the pending record, the status word with
the counts, and the first commitment. -/
abbrev State.lineValues (s : State) (i : LineId) : List Field :=
  let l := s.line i
  let waiting (f : LineSettings → Nat) : Nat := orZero l.pending f
  [.bits 8 i.val] ++ l.settings.values
    ++ [.bits 8 (flagBit l.pending.isSome), .bits 8 (waiting fun y => y.mode.code), .bits 8 (waiting fun y => y.polarity.code),
      .bits 16 (waiting fun y => y.compensation), .bits 16 (waiting fun y => y.period), .bits 32 (waiting fun y => y.width),
      .bits 8 (waiting fun y => flagBit y.gate.isSome), .bits 8 (waiting fun y => orZero y.gate fun g => g.val)]
    ++ s.senseValues l
    ++ match l.commitments with
      | [] => [.bits 8 0, .instant 0, .instant 0]
      | c :: _ => [.bits 8 1, .instant (instantValue c.start), .instant (instantValue c.ends)]

/-- The record of a mark, in R96's order. -/
abbrev Mark.values (m : Mark) : List Field :=
  [.bits 8 m.id, .bits 8 m.owner.val, .bits 16 m.lines.toNat, .instant (instantValue m.due),
    .instant (instantValue m.taking), .bits 16 m.takingComp, .bits 32 m.width, .bits 8 (flagBit m.period.isSome),
    .bits 32 (m.period.getD 0), .bits 8 (flagBit m.remaining.isSome), .bits 16 (m.remaining.getD 0),
    .bits 8 (flagBit m.minGrade.isSome), .bits 8 (orZero m.minGrade fun g => g.val), .bits 16 m.tag, .bits 16 m.fired,
    .bits 16 m.withheld, .bits 16 m.skipped, .bits 16 m.partialTakes]

/-- A sub-record of a client, in R155's order. -/
abbrev subValues (o : Option SubRecord) : List Field :=
  match o with
  | none => [.bits 8 0, .bits 16 0, .bits 48 0, .instant 0, .bits 32 0, .bits 32 0, .bits 32 0]
  | some x =>
    [.bits 8 1, .bits 16 x.sequence.toNat, .bits 48 x.answeredRun, .instant (instantValue x.lastArrival),
      .bits 32 x.answered, .bits 32 x.refused, .bits 32 x.repeats]

/-- The record of a client, in R168's order: slot, address, tag and state, the sub-records, the self-report. -/
abbrev Client.values (c : Client) : List Field :=
  [.bits 8 c.slot, .bits 48 c.address.toNat, .bits 16 c.tag.toNat, .bits 8 c.state.code] ++ subValues c.subA
    ++ subValues c.subB
    ++ match c.report with
      | none => [.bits 8 0, .bits 32 0, .bits 32 0, .bits 8 0, .instant 0, .bits 8 0]
      | some x =>
        [.bits 8 1, .bits 32 (signedBits 32 x.offset), .bits 32 x.pathDelay, .bits 8 x.grade.val,
          .instant (instantValue x.arrival), .bits 8 (NetId.code x.port)]

/-- The record of a port, in R151's order. -/
abbrev State.portShort (s : State) (p : NetId) : List Field :=
  let port := s.netPort p
  [.bits 8 (NetId.code p), .bits 8 (s.portState p).code, .bits 8 port.link.code, .bits 8 port.queue.length]
    ++ port.counters.values

/-- The three words of an outcome (10.4). -/
abbrev Outcome.words (o : Outcome) : List Word :=
  [wordOf [(8, o.id), (16, o.tag), (8, o.owner.val), (8, o.outcome.code)],
    BitVec.ofNat 128 (instantValue o.lastDue),
    wordOf [(16, o.fired), (16, o.withheld), (16, o.skipped), (16, o.partialTakes)]]

/-- A step of `a` ns is made when what it leaves lies within 0 s and 2^48-1 s 999,999,999 ns (R13). -/
abbrev State.stepsWithinRange (s : State) : Prop :=
  ∀ a : Int,
    (∀ new : Instant, s.stepTarget a = some new ↔ (new : Int) = s.nowNs + a ∧ new < 2 ^ 48 * 10 ^ 9) ∧
    (s.stepTarget a = none ↔ (s.nowNs : Int) + a < 0 ∨ 2 ^ 48 * 10 ^ 9 ≤ (s.nowNs : Int) + a)

/-- Every port's mailbox as it was, with these flags of its summary set besides. -/
abbrev State.flagsSet (s t : State) (flags : BitVec 16) : Prop :=
  ∀ m, t.port m = { s.port m with summary := (s.port m).summary ||| flags }

/-- The leap record that an announcement of reference `r` leaves, against utc_offset `u` just written: NONE removes a
record of that source alone; INSERT and DELETE replace the record if SET_LEAP's range checks pass (R18, R24). -/
abbrev State.announced (s : State) (r : RefId) (u : Nat) (a : Announcement) : Option Leap :=
  let count : Int := (s.ts.time.sec : Int) - u
  match a with
  | .none => if s.ts.leap.map (·.source) = some (.ref r) then none else s.ts.leap
  | .insert d =>
    if (d : Int) % 86400 = 0 ∧ count < d ∧ u ≠ 255 then some ⟨.insert, d, .ref r, .pending⟩ else s.ts.leap
  | .delete d =>
    if (d : Int) % 86400 = 0 ∧ count < (d : Int) - 1 ∧ u ≠ 0 then some ⟨.delete, d, .ref r, .pending⟩ else s.ts.leap

/-- What a table read calls its tables, and the last slot of each (R184, 10.2). -/
abbrev tableCode : Table → Nat
  | .references => 0
  | .lines => 1
  | .marks => 2
  | .clients => 3
  | .ports => 4

abbrev tableEnd : Table → Nat
  | .references => 3
  | .lines => 15
  | .marks => 63
  | .clients => 95
  | .ports => 1

/-- The commands that a master posts, with their numbers, the words of their parameters and whether they need the claim
(9.8, 10.3). -/
abbrev commandRows : List ((Mp → Instr) × CommandRow) :=
  [(.readTime, ⟨0x01, 0, false⟩), (.setTime, ⟨0x02, 2, true⟩), (.stepBy, ⟨0x03, 1, true⟩), (.slewBy, ⟨0x04, 1, true⟩),
    (.setLeap, ⟨0x05, 1, true⟩), (.clearLeap, ⟨0x06, 0, true⟩), (.setUtcOffset, ⟨0x07, 1, true⟩),
    (.setLocalOffset, ⟨0x08, 1, true⟩), (.setReference, ⟨0x10, 2, true⟩), (.readReference, ⟨0x11, 1, false⟩),
    (.setEngine, ⟨0x18, 2, true⟩), (.readEngine, ⟨0x19, 0, false⟩), (.pin, ⟨0x1A, 1, true⟩), (.unpin, ⟨0x1B, 0, true⟩),
    (.addMark, ⟨0x20, 3, false⟩), (.cancelMark, ⟨0x21, 1, false⟩), (.takeOutcomes, ⟨0x22, 0, false⟩),
    (.setLine, ⟨0x28, 1, true⟩), (.lineRestart, ⟨0x29, 1, true⟩), (.senseLine, ⟨0x2A, 1, false⟩),
    (.setNetwork, ⟨0x30, 2, true⟩), (.readPort, ⟨0x31, 1, false⟩), (.forgetClient, ⟨0x34, 1, true⟩),
    (.claim, ⟨0x38, 1, false⟩), (.release, ⟨0x39, 0, false⟩), (.setEventMask, ⟨0x3A, 1, false⟩),
    (.readTable, ⟨0x3B, 1, false⟩), (.readMore, ⟨0x3C, 0, false⟩), (.identify, ⟨0x3D, 0, false⟩),
    (.restart, ⟨0x3E, 0, true⟩), (.networkClear, ⟨0x3F, 0, true⟩)]

/-- A load fault on line `i`, its record `x` with the emission that was starting (R114, R132). -/
abbrev State.loadFault (s : State) (i : LineId) (x : Line) : State :=
  (s.setLine i
    { x with
      state := .faulted
      emission := .none
      commitments := []
      held := none
      flags := { x.flags with
        fault := true
        frameCut := match x.emission with
          | .frame _ _ _ => true
          | .none | .pulse _ _ => x.flags.frameCut
        pulseDropped := x.flags.pulseDropped || !x.commitments.isEmpty }
      faults := sat16 x.faults
      overtaken := none }).post .lineFault

/-- A step has at this tick taken away a start of line `i`, still RUNNING in this mode. -/
abbrev State.overtakenIn (s : State) (i : LineId) (mode : LineMode) : Prop :=
  (s.line i).state = .running ∧ (s.line i).settings.mode = mode ∧ (s.line i).overtaken = some s.ts.tickCount

/-- `o` is what a start row with this load does where the line has nothing to start: nothing, but that a load fault enters
FAULTED where a step taken first took the start away (R114). -/
abbrev State.findsNoStart (s : State) (i : LineId) (mode : LineMode) (load : Load)
    (o : Host.Outcome State Fault Refusal) : Prop :=
  (load = .good ∨ ¬ s.overtakenIn i mode → o = .next s) ∧
    (load ≠ .good → s.overtakenIn i mode → o = .next (s.loadFault i (s.line i)))

/-- A frame addressed to the part: to its station address or to the group address, from an individual address (R136,
R144). -/
abbrev State.takesFrame (s : State) (f : RxFrame) : Prop :=
  (f.destination = s.net.settings.address ∨ f.destination = 0x03A054460001#48) ∧ isGroup f.source = false

/-- The frame `f`, whose reception `r` at port `p` now ends, is an ask that the port passes to the client table (R143,
R144). -/
abbrev State.askPassed (s : State) (p : NetId) (f : RxFrame) (r : Reception) (ask : Ask) : Prop :=
  s.resetHeld = false ∧ (s.netPort p).reception = some r ∧ f.receptionOk = true ∧ f.frameType = 0x89C2#16 ∧
    r.marked = false ∧ askOf f.body = some ask ∧ s.takesFrame f ∧ s.engine.state ≠ .freerun

end Sys2Proof.Machine

open Sys2Proof Sys2Proof.Machine

/-! ### The queue, the resets -/

/-- A step runs the command at the front of the queue with the queue's rest, and with nothing waiting the part idles (the
idling is the model's choice, log entry 1). -/
def Obligations.StepRunsFrontCommand : Prop :=
  (∀ (c : Instr) (rest : List Instr) (s : State), s.pending = c :: rest → step s = exec c { s with pending := rest }) ∧
    ∀ s : State, s.pending = [] → step s = .next s

/-- Every command leaves the part going on, and leaves the queue of waiting commands as it was; while the RESET input is
held none acts but those of the RESET input and of the links' physical layers.
(Clauses of the model's own choosing or reading: log entries 1, 2 and 23.) -/
def Obligations.EveryCommandGoesOnUnlessHeld : Prop :=
  ∀ (c : Instr) (s : State),
    (∃ t, exec c s = .next t ∧ t.pending = s.pending) ∧
    (s.resetHeld = true → (∀ h, c ≠ .powerOn h) → c ≠ .resetRelease → (∀ p, c ≠ .linkUp p ∧ c ≠ .linkDown p) →
      exec c s = .next s)

/-- POWER_ON puts every block into its power-on values; RESET_RELEASE releases the input, and ticks are counted from then
on. The gathering condition, the transaction in progress and the bytes shifted out are the model's choice (log entry
5).
(Clauses of the model's own choosing or reading: log entries 4 and 5.) -/
def Obligations.PowerOnThenReleaseStartsThePart : Prop :=
  ∀ (s : State) (held : Bool),
    exec (.powerOn held) s = .next
      { pending := s.pending
        resetHeld := held
        ts := ⟨⟨0, 0, 0⟩, 0, 0, 0, 0, 0, none, 100, none, none, none, none⟩
        refs := Four.all
          { settings := ⟨.off, 15, 0, .rising, 1000, 10, 60, 2000, 9600⟩, state := .off, latch := none, lastEdge := none
            goodRun := 0, comparison := none, missingRun := 0, badRun := 0, phaseRun := 0, disagree := false
            latest := none, holdOffExpiry := none, settleExpiry := none, glitches := 0, missingEdges := 0
            messageErrors := 0, disqualified := 0, gather := .hunting }
        engine :=
          { state := .freerun, entryTime := 0, selection := none, settings := ⟨64, 200, 16, 500000, true, 100⟩
            integral := 0, goodRun := 0, initialStep := false, stepNeeded := false, anchor := none
            lastMeasurement := none, announced := 7 }
        marks := []
        outcomes := Four.all []
        lines := Sixteen.all
          { settings := ⟨.off, .activeHigh, 0, 1000, 10000, none⟩, pending := none, state := .off, emission := .none
            commitments := [], held := none, flags := ⟨false, false, false, false, false⟩, gated := 0, faults := 0
            emissions := 0, startAt := none, changeAt := none, overtaken := none }
        composer := ⟨none, none⟩
        net := ⟨⟨⟨false, false⟩, 0, 1000, 100, 1000, 32⟩,
          ⟨⟨s.net.ports.na.link, [], .idle, none, 1000000000, 0, none, ⟨0, 0, 0, 0, 0, 0, 0, 0, 0, 0, 0, 0⟩⟩,
            ⟨s.net.ports.nb.link, [], .idle, none, 1000000000, 0, none, ⟨0, 0, 0, 0, 0, 0, 0, 0, 0, 0, 0, 0⟩⟩⟩⟩
        clients := ⟨[], none⟩
        ports := Four.all
          { params := List.replicate 16 0, slot := none, result := none, handshake := .idle, lastCommand := none
            errors := ⟨false, false, false⟩, cursor := none, summary := 1, mask := 0, transaction := none
            dataOut := [] }
        claim := none } ∧
    exec .resetRelease s = .next { s with resetHeld := false } ∧
    (s.ts.tickCount + 1 < 2 ^ 64 →
      ∃ t, exec .tick { s with resetHeld := false } = .next t ∧ t.ts.tickCount = s.ts.tickCount + 1)

/-- The state right after reset is a legal state.
(Clauses of the model's own choosing or reading: log entries 4 and 5.) -/
def Obligations.ResetStateIsLegal : Prop := State.reset.wf

/-- RESTART, taken from a port that holds the claim, resets every block as its chapter gives. U
keeps its anchor where the engine stays in its state, and takes a new one at the value it has reached where it moves.
(Clauses of the model's own choosing or reading: log entry 30.) -/
def Obligations.RestartResetsEveryBlock : Prop :=
  ∀ (s : State) (mp : Mp) (ws : List Word), s.waits mp .restart ws →
    ∃ t, exec (.restart mp) s = .next t ∧ t.resetHeld = false ∧ t.claim = none ∧
      (∀ m, t.port m =
        { MasterPort.powerOn with
          mask := (s.port m).mask
          transaction := (s.port m).transaction
          dataOut := (s.port m).dataOut
          summary := if s.ts.slew.isSome then 0x0041#16 else 0x0001#16 }) ∧
      t.ts =
        { s.ts with
          slew := none
          rate := if s.engine.state.follows then s.engine.integral else s.ts.rate
          lastSlew := match s.ts.slew with
            | none => s.ts.lastSlew
            | some w => some ⟨w.origin, w.requested, w.start, .cancelled, w.residualNs, s.run⟩ } ∧
      (∀ r, t.ref r =
        { Reference.powerOn with
          settings := (s.ref r).settings
          state := if (s.ref r).settings.kind = .off then .off else .seeking }) ∧
      t.engine =
        { s.engine with
          state := if s.engine.state.follows then .holdover else s.engine.state
          entryTime := if s.engine.state.follows then s.run else s.engine.entryTime
          selection := if s.engine.state.follows then none else s.engine.selection
          goodRun := 0
          stepNeeded := false
          anchor := if s.engine.state.follows then s.uncertainty.map fun ps => ⟨ps, s.run⟩ else s.engine.anchor } ∧
      t.uncertainty = s.uncertainty ∧ t.marks = [] ∧ (∀ m, t.queue m = []) ∧
      (∀ i, ∃ held, t.line i =
        { s.line i with
          state := if (s.line i).settings.mode = .off then .off else .running
          emission := .none
          commitments := []
          held := held
          flags := ⟨false, false, false, false, false⟩
          gated := 0
          faults := 0
          emissions := 0
          overtaken := none } ∧
        ((s.line i).settings.mode ≠ .coded ∨ s.composer.frame = none → held = none) ∧
        ∀ f, (s.line i).settings.mode = .coded → s.composer.frame = some f →
          held = if s.hasPassed (heldFrameOf f (s.line i).settings.compensation).slot0 then none
            else some (heldFrameOf f (s.line i).settings.compensation)) ∧
      t.composer = s.composer ∧ t.net.settings = s.net.settings ∧
      (∀ p, t.netPort p = { s.netPort p with queue := [], counters := ⟨0, 0, 0, 0, 0, 0, 0, 0, 0, 0, 0, 0⟩ }) ∧
      t.clients.entries = [] ∧ t.clients.checkedAt = s.clients.checkedAt

/-- PORT_CLEAR, one byte long, clears its own port and the port's marks, outcomes and claim, and nothing else.
(Clauses of the model's own choosing or reading: log entry 15.) -/
def Obligations.PortClearClearsItsPortAlone : Prop :=
  ∀ (s : State) (mp : Mp) (x : Transaction), s.resetHeld = false → (s.port mp).transaction = some x →
    ∃ t, exec (.portClear mp 1) s = .next t ∧
      t.port mp =
        { MasterPort.powerOn with
          mask := (s.port mp).mask
          summary := if s.holdsClaim mp then Event.claimEnded.flag else 0
          dataOut := [x.header] } ∧
      (∀ m, m ≠ mp → t.port m = if s.holdsClaim mp then (s.port m).withFlag .claimEnded else s.port m) ∧
      t.claim = (if s.holdsClaim mp then none else s.claim) ∧
      t.marks = s.marks.filter (fun m => decide (m.owner ≠ mp)) ∧ t.queue mp = [] ∧
      (∀ m, m ≠ mp → t.queue m = s.queue m) ∧ t.markNumber mp = 0 ∧
      t = { s with ports := t.ports, claim := t.claim, marks := t.marks, outcomes := t.outcomes }

/-- NETWORK_CLEAR empties both answer queues without counting, clears their counters and empties the client table; it
needs the claim and changes nothing else but the result in its own mailbox. -/
def Obligations.NetworkClearEmptiesPortsAndTable : Prop :=
  ∀ (s : State) (mp : Mp) (ws : List Word), s.slotHas mp .networkClear ws →
    (s.holdsClaim mp = true →
      exec (.networkClear mp) s = .next
        ({ s with
          net := ⟨s.net.settings,
            ⟨{ s.net.ports.na with queue := [], counters := ⟨0, 0, 0, 0, 0, 0, 0, 0, 0, 0, 0, 0⟩ },
              { s.net.ports.nb with queue := [], counters := ⟨0, 0, 0, 0, 0, 0, 0, 0, 0, 0, 0, 0⟩ }⟩⟩
          clients := { s.clients with entries := [] } }.finish mp .ok [])) ∧
    (s.holdsClaim mp = false → exec (.networkClear mp) s = .next (s.finish mp .claimNeeded []))

/-! ### The timescale unit -/

/-- One TICK: the timescale advances by 4 ns times the effective rate, exactly; the tick count rises by one; the residual
of a slew falls by exactly the slew part; nothing else moves but the model's note of what the tick reached. The
instants reached by a tick are those after the old timescale and up to the new one, round its return to 0; the latest
multiple of a span less a lead is the one not after the timescale that no other follows up to it.
(Clauses of the model's own choosing or reading: log entries 3, 6 and 7.) -/
def Obligations.TickAdvancesByTheEffectiveRate : Prop :=
  ∀ s : State, s.resetHeld = false → s.ts.wf →
    ∃ t : TimescaleUnit, exec .tick s = .next { s with ts := t } ∧
      (t.fine : Int) =
        (s.ts.fine + 4 * 2 ^ 32 * (10 ^ 12 + s.ts.rate) + s.ts.slewPart) % (fineRange : Int) ∧
      t.time.wf ∧ t.rem < 10 ^ 12 ∧ (s.ts.tickCount + 1 < 2 ^ 64 → t.tickCount = s.ts.tickCount + 1) ∧
      (s.ts.slew = none → s.ts.slewPart = 0 ∧ t.slew = none) ∧
      (∀ w, s.ts.slew = some w → t.slew = some { w with residual := w.residual - s.ts.slewPart } ∧
        s.ts.slewPart =
          if w.residual < 0 then max w.residual (-(4 * 2 ^ 32 * (s.ts.slewLimit * 10 ^ 6)))
          else min w.residual (4 * 2 ^ 32 * (s.ts.slewLimit * 10 ^ 6))) ∧
      t = { s.ts with
        time := t.time
        rem := t.rem
        tickCount := t.tickCount
        slew := t.slew
        reachedFrom := some s.ts.time.toNs } ∧
      (∀ x : Int, ({ s with ts := t } : State).reachedNow x = true ↔
        (if s.nowNs ≤ t.time.toNs then (s.nowNs : Int) else (s.nowNs : Int) - 2 ^ 48 * 10 ^ 9) < x ∧ x ≤ t.time.toNs) ∧
      (∀ x : Instant, s.hasReached x = true ↔ x ≤ s.nowNs ∨ s.reachedNow ((x : Int) - 2 ^ 48 * 10 ^ 9) = true) ∧
      ∀ (span early : Nat) (x : Int), 0 < span →
        (x = s.latestMultiple span early ↔
          (x + early) % (span : Int) = 0 ∧ x ≤ s.nowNs ∧ (s.nowNs : Int) < x + span)

/-- Over any run of ticks with no slew the timescale advances by the exact product of the number of ticks, 4 ns and the
effective rate: rounding does not build up.
(Clauses of the model's own choosing or reading: log entry 6.) -/
def Obligations.TicksAccumulateWithoutLoss : Prop :=
  ∀ (n : Nat) (s : State), s.resetHeld = false → s.ts.wf → s.ts.slew = none → s.ts.tickCount + n < 2 ^ 64 →
    ∃ ts : TimescaleUnit,
      Sys2Proof.core.run n ({ s with pending := List.replicate n .tick } : State) =
        .next ({ s with pending := [], ts := ts } : State) ∧
      (ts.fine : Int) = (s.ts.fine + n * (4 * 2 ^ 32 * (10 ^ 12 + s.ts.rate))) % (fineRange : Int) ∧
      ts.tickCount = s.ts.tickCount + n ∧ ts.rate = s.ts.rate ∧ ts.wf

/-- The timed events of the timescale unit: a slew completes when its residual has reached zero, and not before; a pending
INSERT enters INSERTING when the timescale reaches the start of the inserted second, and its leap takes effect when it
reaches the end of that second; a DELETE takes effect at the start of the second whose UTC count is D-1; before its
instant, or with no such record, each event changes nothing. Second 2^48 begins where the seconds return to 0.
(Clauses of the model's own choosing or reading: log entries 2, 3, 7 and 28.) -/
def Obligations.TimescaleEventsActAtTheirInstants : Prop :=
  ∀ s : State, s.resetHeld = false →
    let leaps (offset : Nat) : State := { s with ts := { s.ts with utcOffset := offset, leap := none } }.post .leapTaken
    (∀ w, s.ts.slew = some w →
      (w.residual = 0 →
        exec .slewCompletion s = .next
          ({ s with
            ts := { s.ts with
              slew := none
              lastSlew := some ⟨w.origin, w.requested, w.start, .done, 0, s.run⟩ } }.post .slewEnded)) ∧
      (w.residual ≠ 0 → exec .slewCompletion s = .next s)) ∧
    (s.ts.slew = none → exec .slewCompletion s = .next s) ∧
    (s.ts.leap = none → exec .insertedSecondStart s = .next s ∧ exec .leapInstant s = .next s) ∧
    ∀ r, s.ts.leap = some r →
      let inserted : Int := r.dayEnd + s.ts.utcOffset
      (r.kind = .insert → r.phase = .pending →
        exec .leapInstant s = .next s ∧
        (s.secondMet inserted →
          exec .insertedSecondStart s = .next { s with ts := { s.ts with leap := some { r with phase := .inserting } } }) ∧
        (¬ s.secondMet inserted → exec .insertedSecondStart s = .next s)) ∧
      (r.kind = .insert → r.phase = .inserting →
        exec .insertedSecondStart s = .next s ∧
        (s.secondMet (inserted + 1) → exec .leapInstant s = .next (leaps (s.ts.utcOffset + 1))) ∧
        (¬ s.secondMet (inserted + 1) → exec .leapInstant s = .next s)) ∧
      (r.kind = .delete →
        exec .insertedSecondStart s = .next s ∧
        (s.secondMet (inserted - 1) → exec .leapInstant s = .next (leaps (s.ts.utcOffset - 1))) ∧
        (¬ s.secondMet (inserted - 1) → exec .leapInstant s = .next s))

/-- STEP_BY and SET_TIME step the timescale and SLEW_BY begins a slew, in FREERUN, HOLDOVER and PINNED, and are refused
STATE elsewhere; SET_TIME also clears the initial-step flag and, out of FREERUN, sets U; a second slew is SLEW_BUSY. A
step is made when its result lies within the timescale's range.
(Clauses of the model's own choosing or reading: log entries 6, 9, 14, 17 and 21.) -/
def Obligations.MastersStepSetAndSlewTheTimescale : Prop :=
  ∀ (s : State) (mp : Mp) (ws : List Word),
    s.stepsWithinRange ∧
    (s.waits mp .stepBy ws → s.engine.state.free →
      (∀ new, s.stepTarget (toSigned 64 (wordAt ws 0 % 2 ^ 64)) = some new →
        exec (.stepBy mp) s = .next ((s.stepTo (.master mp) new false).finish mp .ok
          (pack [fTime ⟨new / 10 ^ 9, new % 10 ^ 9, s.ts.time.frac⟩]))) ∧
      (s.stepTarget (toSigned 64 (wordAt ws 0 % 2 ^ 64)) = none →
        exec (.stepBy mp) s = .next (s.finish mp .range []))) ∧
    (s.waits mp .setTime ws → s.engine.state.free →
      (∀ new declared, setTimeParams ws = some (new, declared) →
        let stepped := s.stepTo (.master mp) new true
        let ps := min 4294967295000 (declared * 1000)
        let regrades := s.engine.state ≠ .freerun ∧ gradeOfPs (some ps) ≠ s.engine.announced
        ∃ u : State, exec (.setTime mp) s = .next (u.finish mp .ok (pack [fAmount ((new : Int) - s.nowNs)])) ∧
          u = { stepped with engine := u.engine, ports := u.ports } ∧
          u.engine =
            { s.engine with
              initialStep := false
              stepNeeded := false
              anchor := if s.engine.state = .freerun then s.engine.anchor else some ⟨ps, s.run⟩
              announced := u.engine.announced } ∧
          (s.engine.state ≠ .freerun → declared < 2 ^ 32 → u.uncertainty = some (declared * 1000)) ∧
          (regrades → u.engine.announced = gradeOfPs (some ps) ∧
            ∀ m, u.port m = (stepped.port m).withFlag .gradeChanged) ∧
          (¬ regrades → u.engine.announced = s.engine.announced ∧ ∀ m, u.port m = stepped.port m) ∧
          (∀ m, (u.port m).has .stepTaken = true)) ∧
      (setTimeParams ws = none → exec (.setTime mp) s = .next (s.finish mp .range []))) ∧
    (s.engine.state.follows →
      (s.waits mp .stepBy ws → exec (.stepBy mp) s = .next (s.finish mp .state [])) ∧
      (s.waits mp .setTime ws → exec (.setTime mp) s = .next (s.finish mp .state []))) ∧
    (s.waits mp .slewBy ws →
      let a := toSigned 32 (wordAt ws 0 % 2 ^ 32)
      (s.engine.state.follows → exec (.slewBy mp) s = .next (s.finish mp .state [])) ∧
      (s.engine.state.free → (a.natAbs = 0 ∨ 10 ^ 9 < a.natAbs) → exec (.slewBy mp) s = .next (s.finish mp .range [])) ∧
      (s.engine.state.free → 1 ≤ a.natAbs → a.natAbs ≤ 10 ^ 9 →
        (∀ w, s.ts.slew = some w →
          exec (.slewBy mp) s = .next
            (s.finish mp .slewBusy (pack [.bits 8 w.origin.code, fSigned 32 w.residualNs]))) ∧
        (s.ts.slew = none →
          exec (.slewBy mp) s = .next
            ({ s with
              ts := { s.ts with slew := some ⟨.master mp, a, a * (2 ^ 32 * 10 ^ 12), s.ts.time⟩ } }.finish mp .ok
                (pack [.bits 48 (a.natAbs / s.ts.slewLimit)])))))

/-- What one step does to every block but the leap record and the mark list. It passes the instants from the old timescale,
left out, to the new one, and those reached at this tick and not yet acted on; no instant is reached by it, the one it
lands on included; the mailboxes only gain flags. A line that had a start to act on and has none after the step keeps note
of it: a load fault that arrives with that start then enters FAULTED.
(Clauses of the model's own choosing or reading: log entries 3, 6, 10, 28, 37 and 40.) -/
def Obligations.StepTellsEveryBlock : Prop :=
  ∀ (s : State) (src : Origin) (new : Instant) (clearFrac : Bool),
    let t := s.stepTo src new clearFrac
    t.ts.time = ⟨new / 10 ^ 9, new % 10 ^ 9, if clearFrac then 0 else s.ts.time.frac⟩ ∧ t.ts.slew = none ∧
      t.ts.lastStep = some ⟨src, (new : Int) - s.nowNs, s.ts.time, t.ts.time, s.run⟩ ∧
      (∀ w, s.ts.slew = some w →
        t.ts.lastSlew = some ⟨w.origin, w.requested, w.start, .cancelled, w.residualNs, s.run⟩ ∧
          ∀ m, (t.port m).has .slewEnded = true) ∧
      (s.ts.slew = none → t.ts.lastSlew = s.ts.lastSlew) ∧ (∀ m, (t.port m).has .stepTaken = true) ∧
      t.ts.rate = s.ts.rate ∧ t.ts.tickCount = s.ts.tickCount ∧ t.ts.slewLimit = s.ts.slewLimit ∧
      t.ts.localOffset = s.ts.localOffset ∧ (s.ts.leap = none → t.ts.leap = none ∧ t.ts.utcOffset = s.ts.utcOffset) ∧
      t.engine = { s.engine with stepNeeded := false } ∧
      (∀ i, t.line i =
        { s.line i with
          emission := .none
          held := none
          commitments := (s.line i).commitments.filter fun c => !s.passedBy new c.start
          flags := { (s.line i).flags with
            pulseCut := (t.line i).flags.pulseCut
            frameCut := (t.line i).flags.frameCut
            pulseDropped := (t.line i).flags.pulseDropped }
          overtaken :=
            if s.startDue i = true ∧ t.startDue i = false then some s.ts.tickCount else (s.line i).overtaken } ∧
        ((t.line i).flags.pulseCut = true ↔
          (s.line i).flags.pulseCut = true ∨ ∃ k ends, (s.line i).emission = .pulse k ends) ∧
        ((t.line i).flags.frameCut = true ↔
          (s.line i).flags.frameCut = true ∨ (s.line i).held.isSome = true ∨
            ∃ h n e, (s.line i).emission = .frame h n e) ∧
        ((t.line i).flags.pulseDropped = true ↔
          (s.line i).flags.pulseDropped = true ∨ ∃ c ∈ (s.line i).commitments, s.passedBy new c.start = true)) ∧
      (∀ c, new ≤ s.nowNs → s.passedBy new c = false) ∧
      (∀ c, s.nowNs < new → (s.passedBy new c = true ↔
        (s.nowNs < c ∧ c ≤ new) ∨ c ≤ s.nowNs ∨ s.reachedNow ((c : Int) - Config.nsRange) = true)) ∧
      t.ts.reachedFrom = none ∧ (∀ x, t.reachedNow x = false) ∧ t.ts.rem = (if clearFrac then 0 else s.ts.rem) ∧
      (∀ m, t.port m = { s.port m with summary := (t.port m).summary } ∧
        ∀ e, (s.port m).has e = true → (t.port m).has e = true) ∧
      t.composer = { s.composer with frame := none } ∧ t.net.settings = s.net.settings ∧
      (∀ p, t.netPort p =
        { s.netPort p with
          queue := []
          counters := { (s.netPort p).counters with
            stepFlush := ((s.netPort p).counters.stepFlush + (s.netPort p).queue.length) % 2 ^ 32 }
          reception := (s.netPort p).reception.map fun r => { r with marked := true }
          nextDue := firstDueAfter new s.net.settings.interval }) ∧
      t.clients = s.clients ∧ t.refs = s.refs ∧ t.claim = s.claim ∧ t.resetHeld = s.resetHeld ∧
      ∀ i load, s.resetHeld = false → s.startDue i = true → t.startDue i = false → load ≠ .good →
        let mode := (s.line i).settings.mode
        let enters (c : Instr) : Prop := exec c t = .next (t.loadFault i (t.line i))
        (mode = .pulse → enters (.pulseStart i load)) ∧ (mode = .marks → enters (.commitmentStart i load)) ∧
          (mode = .coded → enters (.frameBegin i load) ∧ enters (.symbolStart i load))

/-- A step brings the leap record into line, and passes without firing the marks whose taking instants it carries the
timescale over: a one-shot mark leaves; a periodic one is re-armed by the least number of periods that puts its taking
instant after the step, and leaves when its count is spent or its next due instant would leave the range; a mark that
leaves hands its owner outcome COMPLETED with the last due instant skipped and the skipped count.
(Clauses of the model's own choosing or reading: log entries 10, 19 and 28.) -/
def Obligations.StepAlignsLeapAndPassesMarks : Prop :=
  ∀ (s : State) (src : Origin) (new : Instant) (clearFrac : Bool), s.marksWf →
    let t := s.stepTo src new clearFrac
    let sec : Int := ((new / 10 ^ 9 : Nat) : Int)
    let carried (m : Mark) : Bool := s.passedBy new m.taking
    (∀ r, s.ts.leap = some r → r.kind = .insert →
      (sec < r.dayEnd + s.ts.utcOffset → t.ts.leap = some { r with phase := .pending } ∧ t.ts.utcOffset = s.ts.utcOffset) ∧
      (sec = r.dayEnd + s.ts.utcOffset →
        t.ts.leap = some { r with phase := .inserting } ∧ t.ts.utcOffset = s.ts.utcOffset) ∧
      (sec > r.dayEnd + s.ts.utcOffset →
        t.ts.leap = none ∧ t.ts.utcOffset = s.ts.utcOffset + 1 ∧ ∀ m, (t.port m).has .leapTaken = true)) ∧
    (∀ r, s.ts.leap = some r → r.kind = .delete →
      (sec < r.dayEnd - 1 + s.ts.utcOffset →
        t.ts.leap = some { r with phase := .pending } ∧ t.ts.utcOffset = s.ts.utcOffset) ∧
      (sec ≥ r.dayEnd - 1 + s.ts.utcOffset →
        t.ts.leap = none ∧ t.ts.utcOffset = s.ts.utcOffset - 1 ∧ ∀ m, (t.port m).has .leapTaken = true)) ∧
    (new ≤ s.nowNs → t.marks = s.marks ∧ t.outcomes = s.outcomes) ∧
    (∀ x, s.passedBy new x = true ↔
      s.nowNs < new ∧
        ((s.nowNs < x ∧ x ≤ new) ∨ x ≤ s.nowNs ∨ s.reachedNow ((x : Int) - Config.nsRange) = true)) ∧
    t.marks.Perm
      ((s.marks.filter fun m => !carried m) ++ (s.marks.filter carried).filterMap fun m => (s.passMark new m).1) ∧
    t.marks.Pairwise (fun a b => a.taking < b.taking ∨ (a.taking = b.taking ∧ a.id < b.id)) ∧
    (∀ mp,
      let gone := (s.marks.filter fun m => carried m && decide (m.owner = mp) && (s.passMark new m).1.isNone).map
        fun m => (s.passMark new m).2
      t.queue mp = (s.queue mp ++ gone).take 16 ∧
        (s.queue mp = [] → gone ≠ [] → (t.port mp).has .outcomesReady = true) ∧
        (16 < (s.queue mp ++ gone).length → (t.port mp).has .outcomeOverrun = true)) ∧
    ∀ m ∈ s.marks,
      let outcome (due : Instant) (skipped : Nat) : Outcome :=
        ⟨m.id, m.tag, m.owner, .completed, due, m.fired, m.withheld, skipped, m.partialTakes⟩
      (m.period = none → s.passMark new m = (none, outcome m.due (min (m.skipped + 1) 65535))) ∧
      ∀ ms, m.period = some ms →
        ∃ comp k : Nat,
          (∀ l : LineId, m.lines.getLsbD l.val = true → (s.line l).settings.compensation ≤ comp) ∧
          (∃ l : LineId, m.lines.getLsbD l.val = true ∧ (s.line l).settings.compensation = comp) ∧
          let due (j : Nat) : Nat := m.due + j * (ms * 10 ^ 6)
          let spent (j : Nat) : Prop := m.remaining = some j ∨ Config.nsRange ≤ due j
          let skipped := min (m.skipped + k) 65535
          1 ≤ k ∧ (spent k ∨ new + comp < due k) ∧ (∀ j, 1 ≤ j → j < k → ¬ spent j ∧ due j ≤ new + comp) ∧
            (s.passMark new m).2 = outcome (due (k - 1)) skipped ∧
            (spent k → (s.passMark new m).1 = none) ∧
            (¬ spent k →
              (s.passMark new m).1 = some
                { m with
                  due := due k
                  remaining := m.remaining.map (· - k)
                  skipped := skipped
                  taking := due k - comp
                  takingComp := comp })

/-- A calendar label: seconds-of-day is the remainder of the UTC count by 86,400, and the day count is the days of the
years from 2000 up to its year, with the leap years of the calendar, and its day of year less one.
(Clauses of the model's own choosing or reading: log entry 20.) -/
def Obligations.LabelsFollowTheCalendar : Prop :=
  ∀ u : Int,
    let x := labelOf u
    let leapYear := (x.year % 4 = 0 ∧ x.year % 100 ≠ 0) ∨ x.year % 400 = 0
    let leapsBefore := (x.year - 1) / 4 - (x.year - 1) / 100 + (x.year - 1) / 400 - 484
    (x.secOfDay : Int) = u % 86400 ∧ 1 ≤ x.dayOfYear ∧ (x.dayOfYear ≤ 366) ∧ (¬ leapYear → x.dayOfYear ≤ 365) ∧
      u / 86400 = 365 * (x.year - 2000) + leapsBefore + x.dayOfYear - 1

/-- SET_LEAP, CLEAR_LEAP and SET_UTC_OFFSET: what each is refused for, and what each leaves. SET_UTC_OFFSET's value is read
as 8 bits, so that R25's refusal of a value above 255 does not arise: the model's reading of 10.2.
(Clauses of the model's own choosing or reading: log entry 14.) -/
def Obligations.LeapCommandsRuleTheLeapRecord : Prop :=
  ∀ (s : State) (mp : Mp) (ws : List Word),
    (s.leapRefused →
      (s.waits mp .setLeap ws → exec (.setLeap mp) s = .next (s.finish mp .state [])) ∧
      (s.waits mp .clearLeap ws → exec (.clearLeap mp) s = .next (s.finish mp .state [])) ∧
      (s.waits mp .setUtcOffset ws → exec (.setUtcOffset mp) s = .next (s.finish mp .state []))) ∧
    (¬ s.leapRefused →
      (s.waits mp .setLeap ws → wordAt ws 0 % 2 ^ 8 ≠ 1 → wordAt ws 0 % 2 ^ 8 ≠ 2 →
        exec (.setLeap mp) s = .next (s.finish mp .range [])) ∧
      (s.waits mp .setLeap ws → ∀ kind : LeapKind, wordAt ws 0 % 2 ^ 8 = kind.code →
        let d : Int := toSigned 64 (wordAt ws 0 / 2 ^ 8 % 2 ^ 64)
        let fits := d % 86400 = 0 ∧ s.ts.utcCount < d ∧ (kind = .delete → s.ts.utcCount < d - 1 ∧ s.ts.utcOffset ≠ 0) ∧
          (kind = .insert → s.ts.utcOffset ≠ 255)
        (fits → exec (.setLeap mp) s = .next
          ({ s with ts := { s.ts with leap := some ⟨kind, d, .master mp, .pending⟩ } }.finish mp .ok [])) ∧
        (¬ fits → exec (.setLeap mp) s = .next (s.finish mp .range []))) ∧
      (s.waits mp .clearLeap ws →
        (s.ts.leap = none → exec (.clearLeap mp) s = .next (s.finish mp .notFound [])) ∧
        (s.ts.leap ≠ none →
          exec (.clearLeap mp) s = .next ({ s with ts := { s.ts with leap := none } }.finish mp .ok []))) ∧
      (s.waits mp .setUtcOffset ws →
        let u : Nat := wordAt ws 0 % 2 ^ 8
        (s.ts.leap = none →
          exec (.setUtcOffset mp) s = .next ({ s with ts := { s.ts with utcOffset := u } }.finish mp .ok [])) ∧
        (∀ r, s.ts.leap = some r → r.kind = .insert →
          (u = 255 → exec (.setUtcOffset mp) s = .next (s.finish mp .range [])) ∧
          (u ≠ 255 → s.ts.time.sec < r.dayEnd + u →
            exec (.setUtcOffset mp) s = .next
              ({ s with ts := { s.ts with utcOffset := u, leap := some { r with phase := .pending } } }.finish mp .ok [])) ∧
          (u ≠ 255 → s.ts.time.sec = r.dayEnd + u →
            exec (.setUtcOffset mp) s = .next
              ({ s with
                ts := { s.ts with utcOffset := u, leap := some { r with phase := .inserting } } }.finish mp .ok [])) ∧
          (u ≠ 255 → s.ts.time.sec > r.dayEnd + u →
            exec (.setUtcOffset mp) s = .next
              (({ s with ts := { s.ts with utcOffset := u + 1, leap := none } }.post .leapTaken).finish mp .ok []))) ∧
        (∀ r, s.ts.leap = some r → r.kind = .delete →
          (u = 0 → exec (.setUtcOffset mp) s = .next (s.finish mp .range [])) ∧
          (u ≠ 0 → s.ts.time.sec < r.dayEnd - 1 + u →
            exec (.setUtcOffset mp) s = .next
              ({ s with ts := { s.ts with utcOffset := u, leap := some { r with phase := .pending } } }.finish mp .ok [])) ∧
          (u ≠ 0 → s.ts.time.sec ≥ r.dayEnd - 1 + u →
            exec (.setUtcOffset mp) s = .next
              (({ s with ts := { s.ts with utcOffset := u - 1, leap := none } }.post .leapTaken).finish mp .ok [])))))

/-- SET_LOCAL_OFFSET takes a value of -48 to +56 quarter-hours in every engine state, uses it from the next frame
composition, and changes nothing else; it needs the claim. -/
def Obligations.SetLocalOffsetTakesTheValue : Prop :=
  ∀ (s : State) (mp : Mp) (ws : List Word), s.slotHas mp .setLocalOffset ws →
    let x := toSigned 8 (wordAt ws 0 % 2 ^ 8)
    (s.holdsClaim mp = false → exec (.setLocalOffset mp) s = .next (s.finish mp .claimNeeded [])) ∧
    (s.holdsClaim mp = true → (x < -48 ∨ 56 < x) → exec (.setLocalOffset mp) s = .next (s.finish mp .range [])) ∧
    (s.holdsClaim mp = true → -48 ≤ x → x ≤ 56 →
      ∃ t, exec (.setLocalOffset mp) s = .next (t.finish mp .ok []) ∧ t = { s with ts := { s.ts with localOffset := x } } ∧
        ∀ sec f, t.composeFrame sec = some f → f.localOffset = x)

/-- READ_TIME, READ_ENGINE, READ_REFERENCE and READ_PORT need no claim and change nothing but the result in their own
mailbox. READ_TIME's fills the 14 words of 10.4, with the label of the inserted second while the record is INSERTING; the
others' hold the values of R75, R50 and R151 in that order, at the widths of 10.2. A last-step amount beyond 64 bits is left
open.
(Clauses of the model's own choosing or reading: log entries 9 and 14.) -/
def Obligations.ReadsChangeOnlyTheMailbox : Prop :=
  ∀ (s : State) (mp : Mp) (ws : List Word),
    (s.slotHas mp .readTime ws →
      ∃ amount : Nat,
        exec (.readTime mp) s = .next (s.finish mp .ok (s.timeWords amount)) ∧ (s.ts.lastStep = none → amount = 0) ∧
        ∀ x, s.ts.lastStep = some x → -2 ^ 63 ≤ x.amount → x.amount < 2 ^ 63 → amount = signedBits 64 x.amount) ∧
    (∀ r, s.ts.leap = some r → r.phase = .inserting →
      s.ts.labelNow = { labelOf (r.dayEnd - 1) with secOfDay := 86400 }) ∧
    ((∀ r, s.ts.leap = some r → r.phase ≠ .inserting) → s.ts.labelNow = labelOf (s.ts.time.sec - s.ts.utcOffset)) ∧
    (s.slotHas mp .readEngine ws → exec (.readEngine mp) s = .next (s.finish mp .ok (pack s.engineValues))) ∧
    (s.slotHas mp .readReference ws →
      (∀ r : RefId, wordAt ws 0 % 2 ^ 8 = r.val →
        exec (.readReference mp) s = .next (s.finish mp .ok (pack (s.referenceValues r)))) ∧
      (4 ≤ wordAt ws 0 % 2 ^ 8 → exec (.readReference mp) s = .next (s.finish mp .range []))) ∧
    (s.slotHas mp .readPort ws →
      (∀ p : NetId, wordAt ws 0 % 2 ^ 8 = NetId.code p →
        exec (.readPort mp) s = .next (s.finish mp .ok (pack (s.portValues p)))) ∧
      (2 ≤ wordAt ws 0 % 2 ^ 8 → exec (.readPort mp) s = .next (s.finish mp .range [])))

/-- IDENTIFY gives vendor code 0x0A71, part code 0x0460 and revision 0x01 on every port, in every state, without the
claim. -/
def Obligations.IdentifyGivesTheFixedCodes : Prop :=
  ∀ (s : State) (mp : Mp) (ws : List Word), s.slotHas mp .identify ws →
    exec (.identify mp) s = .next (s.finish mp .ok [0x0104600A71#128])

/-! ### The reference inputs -/

/-- In SEEKING the first edge, a change in the direction of the polarity, is accepted with no window and takes the record
to QUALIFYING; a second edge is then judged by the window of R33. The opposite change is no edge. -/
def Obligations.FirstEdgeEntersQualifying : Prop :=
  ∀ (s : State) (r : RefId) (e : Edge), s.resetHeld = false → (s.ref r).state = .seeking →
    ((s.ref r).settings.polarity ≠ e → exec (.referenceEdge r e) s = .next s) ∧
    ((s.ref r).settings.polarity = e →
      let x := { s.ref r with
        state := .qualifying
        lastEdge := some s.ts.tickCount
        missingRun := 0
        latch := some ⟨s.nowNs - (s.ref r).settings.compensation, s.ts.tickCount, false⟩
        settleExpiry := if (s.ref r).settings.kind = .pulseOnly then some (s.ts.tickCount + 50000000) else none
        goodRun := 0
        comparison := none
        gather := .hunting }
      exec (.referenceEdge r e) s = .next ((s.setRef r x).post .refChanged) ∧
      ∀ t : State, t.resetHeld = false → t.ref r = x →
        (t.ts.tickCount < s.ts.tickCount + 250000000 - 62500 →
          exec (.referenceEdge r e) t = .next (t.setRef r { x with glitches := sat16 x.glitches })) ∧
        (s.ts.tickCount + 250000000 - 62500 ≤ t.ts.tickCount → t.ts.tickCount ≤ s.ts.tickCount + 250000000 + 62500 →
          ∃ u, exec (.referenceEdge r e) t = .next u ∧ (u.ref r).lastEdge = some t.ts.tickCount))

/-- An edge in OFF or HELD_OFF, and a change opposite to the polarity in QUALIFYING or USABLE, is ignored. An edge in
QUALIFYING or USABLE is judged by the spacing window: a glitch before it, accepted within it. An accepted edge that
replaces a capture no message was judged against counts a missed message; a third in a row disqualifies. An edge after
the closing tick finds the missing-edge expiry acted on, and is judged by what follows from it.
(Clauses of the model's own choosing or reading: log entry 11.) -/
def Obligations.WindowJudgesEdges : Prop :=
  ∀ (s : State) (r : RefId), s.resetHeld = false →
    let x := s.ref r
    let edge := exec (.referenceEdge r x.settings.polarity) s
    (x.state = .off ∨ x.state = .heldOff → ∀ e, exec (.referenceEdge r e) s = .next s) ∧
    (x.state.windowed → ∀ e, e ≠ x.settings.polarity → exec (.referenceEdge r e) s = .next s) ∧
    ∀ e : Nat, x.state.windowed → x.lastEdge = some e →
      let point := e + (x.missingRun + 1) * 250000000
      let y := { x with
        lastEdge := some s.ts.tickCount
        missingRun := 0
        latch := some ⟨s.nowNs - x.settings.compensation, s.ts.tickCount, false⟩
        settleExpiry := if x.settings.kind = .pulseOnly then some (s.ts.tickCount + 50000000) else none }
      let z := { y with messageErrors := sat16 x.messageErrors, badRun := upTo3 x.badRun }
      (s.ts.tickCount < point - 62500 → edge = .next (s.setRef r { x with glitches := sat16 x.glitches })) ∧
      (point - 62500 ≤ s.ts.tickCount → s.ts.tickCount ≤ point + 62500 →
        (x.latch = none → edge = .next (s.setRef r y)) ∧
        (∀ c, x.latch = some c →
          (c.badSeen = true → edge = .next (s.setRef r y)) ∧
          (c.badSeen = false →
            (x.state = .qualifying → edge = .next (s.setRef r { z with goodRun := 0, comparison := none })) ∧
            (x.state = .usable → x.badRun < 2 → edge = .next (s.setRef r z)) ∧
            (x.state = .usable → x.badRun = 2 → edge = .next (s.putsAside r z))))) ∧
      (point + 62500 < s.ts.tickCount →
        ∃ t, exec (.missingEdgeExpiry r) s = .next t ∧
          (2 ≤ x.missingRun ∨ s.ts.tickCount ≤ point + 250000000 + 62500 →
            edge = exec (.referenceEdge r x.settings.polarity) t) ∧
          (x.missingRun < 2 → point + 250000000 + 62500 < s.ts.tickCount → edge = .next t))

/-- The expiries of a record: a window that closed with no edge counts a missing edge, and a third in a row sends the
record away; the hold-off expiry sends it back to SEEKING; the settle expiry completes a PULSE_ONLY measurement.
(Clauses of the model's own choosing or reading: log entries 2 and 3.) -/
def Obligations.ReferenceExpiriesActWhenDue : Prop :=
  ∀ (s : State) (r : RefId), s.resetHeld = false →
    let x := s.ref r
    let y := { x with missingEdges := sat16 x.missingEdges, missingRun := x.missingRun + 1 }
    (∀ e, x.state.windowed → x.lastEdge = some e →
      (s.ts.tickCount ≤ e + (x.missingRun + 1) * 250000000 + 62500 → exec (.missingEdgeExpiry r) s = .next s) ∧
      (e + (x.missingRun + 1) * 250000000 + 62500 < s.ts.tickCount →
        (x.missingRun < 2 → x.state = .qualifying →
          exec (.missingEdgeExpiry r) s = .next (s.setRef r { y with goodRun := 0, comparison := none })) ∧
        (x.missingRun < 2 → x.state = .usable → exec (.missingEdgeExpiry r) s = .next (s.setRef r y)) ∧
        (x.missingRun = 2 → x.state = .qualifying →
          exec (.missingEdgeExpiry r) s = .next ((s.setRef r (y.entering .seeking)).post .refChanged)) ∧
        (x.missingRun = 2 → x.state = .usable → exec (.missingEdgeExpiry r) s = .next (s.putsAside r y)))) ∧
    (∀ t, x.state = .heldOff → x.holdOffExpiry = some t →
      (t ≤ s.run → exec (.holdOffExpiry r) s = .next ((s.setRef r (x.entering .seeking)).post .refChanged)) ∧
      (s.run < t → exec (.holdOffExpiry r) s = .next s)) ∧
    (∀ t c, x.settleExpiry = some t → x.latch = some c →
      let n : Nat := c.value % 10 ^ 9
      let off : Int := if n < 500000000 then (n : Int) else (n : Int) - 10 ^ 9
      (s.ts.tickCount < t → exec (.settleExpiry r) s = .next s) ∧
      (t ≤ s.ts.tickCount → x.state = .qualifying →
        s.qualifiesWith r (x.completed s.run c off x.settings.accuracy none) off (exec (.settleExpiry r) s)) ∧
      (t ≤ s.ts.tickCount → x.state = .usable →
        s.usesWith r (x.completed s.run c off x.settings.accuracy none) off x.settings.accuracy none
          (exec (.settleExpiry r) s)))

/-- Characters are gathered into a message of 24, which starts with 0xC5 0x3A; a framing error or another second
character rejects it. A complete message is read by 10.5 when its check bytes are the sums A and B over bytes 2 to 21 and
its source kind, status and announcement are assigned, and is rejected otherwise. A rejected message and one that is not
valid are bad; a valid one completes a measurement, which an unfit source keeps from being used.
(Clauses of the model's own choosing or reading: log entries 2 and 12.) -/
def Obligations.MessagesAreGatheredAndJudged : Prop :=
  (∀ cs : List Byte, cs.length = 24 →
    let a (k : Nat) : Byte := ((cs.drop 2).take k).foldl (· + ·) 0
    let b : Byte := ((List.range 20).map fun k => a (k + 1)).foldl (· + ·) 0
    let kind := numberAt cs 2 1
    let announced := numberAt cs 15 1
    let good := cs[22]? = some (a 20) ∧ cs[23]? = some b ∧ announced ≤ 2 ∧
      ((kind = 1 ∧ numberAt cs 14 1 ≤ 1) ∨ (kind = 2 ∧ numberAt cs 14 1 ≤ 7))
    (¬ good → messageOf cs = none) ∧
    (good → messageOf cs = some
      { kind := if kind = 1 then .receiver else .link
        utcCount := numberAt cs 3 6
        utcOffset := numberAt cs 9 1
        accuracy := numberAt cs 10 4
        status := numberAt cs 14 1
        announcement :=
          if announced = 0 then .none
          else if announced = 1 then .insert (numberAt cs 16 6) else .delete (numberAt cs 16 6) })) ∧
  ∀ (s : State) (r : RefId) (ch : Character), s.resetHeld = false →
    let x := { s.ref r with gather := .hunting }
    let bad := { x with
      messageErrors := sat16 x.messageErrors
      badRun := upTo3 x.badRun
      latch := x.latch.map fun c => { c with badSeen := true } }
    let arrival := exec (.messageArrival r ch) s
    let isBad : Prop :=
      (x.state = .qualifying → arrival = .next (s.setRef r { bad with goodRun := 0, comparison := none })) ∧
      (x.state = .usable → x.badRun < 2 → arrival = .next (s.setRef r bad)) ∧
      (x.state = .usable → x.badRun = 2 → arrival = .next (s.putsAside r bad))
    (¬ (x.state.windowed ∧ (x.settings.kind = .receiver ∨ x.settings.kind = .link)) →
      exec (.messageCharacter r ch) s = .next s ∧ arrival = .next s) ∧
    (x.state.windowed → (x.settings.kind = .receiver ∨ x.settings.kind = .link) →
      ((s.ref r).gather = .hunting →
        arrival = .next s ∧
        (ch = ⟨0xC5#8, true⟩ → exec (.messageCharacter r ch) s = .next (s.setRef r { x with gather := .gathering [0xC5#8] })) ∧
        (ch ≠ ⟨0xC5#8, true⟩ → exec (.messageCharacter r ch) s = .next s)) ∧
      ∀ cs, (s.ref r).gather = .gathering cs → 1 ≤ cs.length → cs.length ≤ 23 →
        let stops := ch.framed = false ∨ (cs.length = 1 ∧ ch.data ≠ 0x3A#8)
        (stops → isBad ∧ exec (.messageCharacter r ch) s = arrival) ∧
        (¬ stops → cs.length ≤ 22 →
          arrival = .next s ∧
          exec (.messageCharacter r ch) s = .next (s.setRef r { x with gather := .gathering (cs ++ [ch.data]) })) ∧
        (¬ stops → cs.length = 23 →
          exec (.messageCharacter r ch) s = arrival ∧
          (messageOf (cs ++ [ch.data]) = none → isBad) ∧
          ∀ m, messageOf (cs ++ [ch.data]) = some m →
            (x.latch = none → isBad) ∧
            ∀ c, x.latch = some c →
              let valid := m.kind = x.settings.kind ∧ c.tick + 12500000 ≤ s.ts.tickCount ∧
                s.ts.tickCount ≤ c.tick + 237500000
              let raw : Int := (c.value : Int) - (m.utcCount + m.utcOffset) * 10 ^ 9
              let off := max (-2 ^ 63) (min (2 ^ 63 - 1) raw)
              let acc := max m.accuracy x.settings.accuracy
              let y := ({ x with badRun := 0 }).completed s.run c off acc (some m)
              let fit := (m.kind = .receiver ∧ m.status = 0) ∨ (m.kind = .link ∧ m.status < 7)
              (¬ valid → isBad) ∧
              (valid → fit → x.state = .qualifying → s.qualifiesWith r y off arrival) ∧
              (valid → fit → x.state = .usable → s.usesWith r y off acc (some m) arrival) ∧
              (valid → ¬ fit → x.state = .qualifying →
                arrival = .next (s.setRef r { y with goodRun := 0, comparison := none })) ∧
              (valid → ¬ fit → x.state = .usable → arrival = .next (s.putsAside r y))))

/-- SET_REFERENCE writes the nine settings and acts by the table of R48: it enters OFF or SEEKING, or keeps the state; the
engine re-evaluates when USABLE is left and when the priority changes.
(Clauses of the model's own choosing or reading: log entry 14.) -/
def Obligations.SetReferenceActsOnWhatChanged : Prop :=
  ∀ (s : State) (mp : Mp) (ws : List Word), s.waits mp .setReference ws →
    (setReferenceParams ws = none → exec (.setReference mp) s = .next (s.finish mp .range [])) ∧
    ∀ r new, setReferenceParams ws = some (r, new) →
      let x := s.ref r
      let y := { x with settings := new }
      let requalifies := x.settings.polarity ≠ new.polarity ∨ x.settings.compensation ≠ new.compensation ∨
        x.settings.qualifyCount ≠ new.qualifyCount ∨ x.settings.phaseLimit ≠ new.phaseLimit ∨
        x.settings.baud ≠ new.baud
      let leavesWith (t : State) : Prop :=
        exec (.setReference mp) s = .next (t.finish mp .ok (pack [.bits 8 (t.shownState r)]))
      let settled (st : RefState) : Prop :=
        let t := (s.setRef r (y.entering st)).post .refChanged
        leavesWith (if x.state = .usable ∨ x.settings.priority ≠ new.priority then t.reevaluate else t)
      (new = x.settings → leavesWith s) ∧
      (new.kind = .off → x.settings.kind ≠ .off → settled .off) ∧
      (new.kind ≠ .off → (x.settings.kind ≠ new.kind ∨ requalifies) → settled .seeking) ∧
      ((new.kind = .off ∧ x.settings.kind = .off) ∨ (new.kind ≠ .off ∧ x.settings.kind = new.kind ∧ ¬ requalifies) →
        leavesWith
          (if x.settings.priority ≠ new.priority then (s.setRef r y).reevaluate else s.setRef r y))

/-! ### The discipline engine and time quality -/

/-- In LOCKED every used measurement gets the loop update, and U becomes a plus the magnitude of x; in ACQUIRING one below
the threshold gets it too and then the lock test. utc_offset and the leap announcement of the message come first: the update
is ignored in both parts while a record is INSERTING; else it writes the offset, takes the announcement, drops a record
that the offset leaves no room for, and brings the record that remains into line. -/
def Obligations.MeasurementsUpdateTheLoop : Prop :=
  (∀ (s : State) (r : RefId) (m : Message),
    let u := m.utcOffset
    let sec : Int := s.ts.time.sec
    let noRoom (k : LeapKind) : Prop := (k = .insert ∧ u = 255) ∨ (k = .delete ∧ u = 0)
    let kept (leap : Option Leap) : State := { s with ts := { s.ts with utcOffset := u, leap := leap } }
    let leaps (offset : Nat) : State := { s with ts := { s.ts with utcOffset := offset, leap := none } }.post .leapTaken
    ((∃ old, s.ts.leap = some old ∧ old.phase = .inserting) → s.leapUpdate r m = s) ∧
    ((∀ old, s.ts.leap = some old → old.phase ≠ .inserting) →
      (s.announced r u m.announcement = none → s.leapUpdate r m = kept none) ∧
      ∀ x, s.announced r u m.announcement = some x →
        (noRoom x.kind → s.leapUpdate r m = kept none) ∧
        (¬ noRoom x.kind → x.kind = .insert →
          (sec < x.dayEnd + u → s.leapUpdate r m = kept (some { x with phase := .pending })) ∧
          (sec = x.dayEnd + u → s.leapUpdate r m = kept (some { x with phase := .inserting })) ∧
          (sec > x.dayEnd + u → s.leapUpdate r m = leaps (u + 1))) ∧
        (¬ noRoom x.kind → x.kind = .delete →
          (sec < x.dayEnd - 1 + u → s.leapUpdate r m = kept (some { x with phase := .pending })) ∧
          (sec ≥ x.dayEnd - 1 + u → s.leapUpdate r m = leaps (u - 1))))) ∧
  ∀ (s : State) (r : RefId) (x : Int) (a : Nat) (m : Option Message),
    let t := match m with
      | some m => s.leapUpdate r m
      | none => s
    let tc : Int := s.engine.settings.timeConstant
    let i : Int := max (-200000000) (min 200000000 (s.engine.integral - (250 * x).tdiv (tc * tc)))
    let rate : Int := max (-200000000) (min 200000000 (i - (1000 * x).tdiv tc))
    let looped := { t with ts := { t.ts with rate := rate }, engine := { t.engine with integral := i } }
    let run := if x.natAbs ≤ s.engine.settings.lockWindow then min 64 (s.engine.goodRun + 1) else 0
    (¬ (s.engine.state.follows ∧ s.engine.selection = some r) → s.useMeasurement r x a m = s) ∧
    (s.engine.selection = some r → -2 ^ 63 < x → x < 2 ^ 63 - 1 →
      (s.engine.state = .locked →
        s.useMeasurement r x a m =
          (looped.setUncertainty ((a + x.natAbs) * 1000)).recordMeasurement ⟨r, x, a, s.run, .loop⟩) ∧
      (s.engine.state = .acquiring → s.engine.initialStep = false → (∀ w ∈ s.ts.slew, w.origin ≠ .engine) →
        x.natAbs < s.engine.settings.threshold →
        (s.engine.settings.lockCount ≤ run → x.natAbs ≤ s.engine.settings.lockWindow →
          s.useMeasurement r x a m =
            (({ looped with
              engine := { looped.engine with goodRun := run, stepNeeded := false } }.setUncertainty
                ((a + x.natAbs) * 1000)).enterState .locked).recordMeasurement ⟨r, x, a, s.run, .loop⟩) ∧
        (run < s.engine.settings.lockCount ∨ s.engine.settings.lockWindow < x.natAbs →
          s.useMeasurement r x a m =
            ({ looped with
              engine := { looped.engine with goodRun := run } }).recordMeasurement ⟨r, x, a, s.run, .loop⟩)))

/-- The other uses of a measurement: ignored while an engine slew runs, before the first step on a PULSE_ONLY reference,
and at the ends of its range; the initial step; an auto-step, a slew or STEP_NEEDED at or above the threshold.
A step whose result would leave the timescale's range is not made.
(Clauses of the model's own choosing or reading: log entries 7 and 22.) -/
def Obligations.MeasurementsStepOrSlewInAcquiring : Prop :=
  ∀ (s : State) (r : RefId) (x : Int) (a : Nat) (m : Option Message),
    let t := match m with
      | some m => s.leapUpdate r m
      | none => s
    let rec0 (act : EngineAction) : LastMeasurement := ⟨r, x, a, s.run, act⟩
    let pulseOnly := (s.ref r).settings.kind = .pulseOnly
    let restarted := { t with engine := { t.engine with goodRun := 0 } }
    s.stepsWithinRange ∧
    (s.engine.selection = some r →
    ((s.engine.state.follows ∧ (x = -2 ^ 63 ∨ x = 2 ^ 63 - 1)) ∨
      (s.engine.state = .acquiring ∧
        ((∃ w ∈ s.ts.slew, w.origin = .engine) ∨ (s.engine.initialStep = true ∧ pulseOnly))) →
      s.useMeasurement r x a m = t.recordMeasurement (rec0 .ignored)) ∧
    (s.engine.state = .acquiring → -2 ^ 63 < x → x < 2 ^ 63 - 1 → (∀ w ∈ s.ts.slew, w.origin ≠ .engine) →
      (s.engine.initialStep = true → ¬ pulseOnly →
        (s.stepTarget (-x) = none → s.useMeasurement r x a m = t.recordMeasurement (rec0 .initialStep)) ∧
        ∀ new, s.stepTarget (-x) = some new →
          ∃ u, u = (t.stepTo .engine new false).setUncertainty ((a + 1000) * 1000) ∧
            s.useMeasurement r x a m =
              { u with
                engine := { u.engine with initialStep := false, goodRun := 0 } }.recordMeasurement (rec0 .initialStep)) ∧
      (s.engine.initialStep = false → s.engine.settings.threshold ≤ x.natAbs →
        (s.engine.settings.autoStep = true →
          (s.stepTarget (-x) = none → s.useMeasurement r x a m = t.recordMeasurement (rec0 .autoStep)) ∧
          ∀ new, s.stepTarget (-x) = some new →
            ∃ u, u = t.stepTo .engine new false ∧
              s.useMeasurement r x a m =
                { u with engine := { u.engine with goodRun := 0 } }.recordMeasurement (rec0 .autoStep)) ∧
        (s.engine.settings.autoStep = false → x.natAbs ≤ 10 ^ 9 →
          (s.ts.slew = none →
            s.useMeasurement r x a m =
              { restarted with
                ts := { t.ts with
                  slew := some ⟨.engine, -x, -x * (2 ^ 32 * 10 ^ 12), s.ts.time⟩ } }.recordMeasurement (rec0 .slew)) ∧
          (s.ts.slew ≠ none → s.useMeasurement r x a m = restarted.recordMeasurement (rec0 .slew))) ∧
        (s.engine.settings.autoStep = false → 10 ^ 9 < x.natAbs →
          let u := { restarted with engine := { restarted.engine with stepNeeded := true } }
          s.useMeasurement r x a m =
            (if s.engine.stepNeeded then u else u.post .stepNeeded).recordMeasurement (rec0 .stepNeeded)))))

/-- U grows from its anchor in ACQUIRING, HOLDOVER and PINNED and stands in LOCKED; the grade follows from U by seven
bounds, each within the better grade; every change of grade posts GRADE_CHANGED, one made by growth at its crossing, and
is noted as the grade taken, by which takings and gates go.
(Clauses of the model's own choosing or reading: log entries 2, 17, 21 and 40.) -/
def Obligations.GradeFollowsUncertainty : Prop :=
  (gradeOfPs none = 7 ∧
    ∀ ps, (gradeOfPs (some ps) ≤ 0 ↔ ps ≤ 100000) ∧ (gradeOfPs (some ps) ≤ 1 ↔ ps ≤ 250000) ∧
      (gradeOfPs (some ps) ≤ 2 ↔ ps ≤ 1000000) ∧ (gradeOfPs (some ps) ≤ 3 ↔ ps ≤ 4000000) ∧
      (gradeOfPs (some ps) ≤ 4 ↔ ps ≤ 25000000) ∧ (gradeOfPs (some ps) ≤ 5 ↔ ps ≤ 100000000) ∧
      (gradeOfPs (some ps) ≤ 6 ↔ ps ≤ 1000000000)) ∧
  ∀ s : State,
    (s.engine.anchor = none → s.uncertainty = none) ∧
    (∀ a, s.engine.anchor = some a →
      (s.engine.state = .acquiring ∨ s.engine.state = .holdover ∨ s.engine.state = .pinned →
        s.uncertainty =
          some (min 4294967295000 (a.ps + s.engine.settings.growth * (s.run - a.run) / 1000))) ∧
      (s.engine.state = .locked → s.uncertainty = some (min 4294967295000 a.ps))) ∧
    s.grade = gradeOfPs s.uncertainty ∧
    (∀ ps, ∃ t, t = s.setUncertainty ps ∧ t.uncertainty = some (min 4294967295000 ps) ∧
      t.engine.announced = t.grade ∧ (t.grade = s.engine.announced → t.ports = s.ports) ∧
      (t.grade ≠ s.engine.announced → ∀ mp, t.port mp = (s.port mp).withFlag .gradeChanged)) ∧
    (s.resetHeld = false →
      (s.grade ≠ s.engine.announced →
        exec .gradeGrowthCrossing s = .next
          ({ s with engine := { s.engine with announced := s.grade } }.post .gradeChanged)) ∧
      (s.grade = s.engine.announced → exec .gradeGrowthCrossing s = .next s))

/-- SET_ENGINE writes the seven settings, a new growth with a new anchor for U; PIN deselects, cancels any slew,
freezes the rate at I and sets U, with the flags of what it changed; UNPIN enters HOLDOVER and re-evaluates, and is
refused STATE outside PINNED.
(Clauses of the model's own choosing or reading: log entries 14, 17 and 21.) -/
def Obligations.EngineCommandsSetPinAndUnpin : Prop :=
  ∀ (s : State) (mp : Mp) (ws : List Word),
    (s.waits mp .setEngine ws →
      (setEngineParams ws = none → exec (.setEngine mp) s = .next (s.finish mp .range [])) ∧
      ∀ new limit, setEngineParams ws = some (new, limit) →
        ∃ t : State, exec (.setEngine mp) s = .next (t.finish mp .ok []) ∧ t.uncertainty = s.uncertainty ∧
          t = { s with
            ts := { s.ts with slewLimit := limit }
            engine := { s.engine with
              settings := new
              anchor := if new.growth = s.engine.settings.growth then s.engine.anchor
                else s.uncertainty.map fun ps => ⟨ps, s.run⟩ } }) ∧
    (s.waits mp .pin ws →
      let ps := min 4294967295000 (wordAt ws 0 % 2 ^ 32 * 1000)
      let regrades := gradeOfPs (some ps) ≠ s.engine.announced
      ∃ t : State, exec (.pin mp) s = .next (t.finish mp .ok []) ∧
        t = { s with ts := t.ts, engine := t.engine, ports := t.ports } ∧
        t.ts =
          { s.ts with
            rate := s.engine.integral
            slew := none
            lastSlew := match s.ts.slew with
              | none => s.ts.lastSlew
              | some w => some ⟨w.origin, w.requested, w.start, .cancelled, w.residualNs, s.run⟩ } ∧
        t.engine =
          { s.engine with
            state := .pinned
            entryTime := if s.engine.state = .pinned then s.engine.entryTime else s.run
            selection := none
            initialStep := false
            stepNeeded := false
            goodRun := 0
            anchor := some ⟨ps, s.run⟩
            announced := if regrades then gradeOfPs (some ps) else s.engine.announced } ∧
        s.flagsSet t
          ((if s.engine.selection = none then 0 else 0x0008#16) ||| (if s.ts.slew = none then 0 else 0x0040#16) |||
            (if regrades then 0x0004#16 else 0) ||| (if s.engine.state = .pinned then 0 else 0x0002#16))) ∧
    (s.waits mp .unpin ws →
      (s.engine.state ≠ .pinned → exec (.unpin mp) s = .next (s.finish mp .state [])) ∧
      (s.engine.state = .pinned →
        let held := { s with
          ts := { s.ts with rate := s.engine.integral }
          engine := { s.engine with
            goodRun := 0
            stepNeeded := false
            anchor := s.uncertainty.map fun ps => ⟨ps, s.run⟩ } }
        let quiet : State := match s.ts.slew with
          | none => held
          | some w =>
            if w.origin = .engine then
              { held with
                ts := { held.ts with
                  slew := none
                  lastSlew := some ⟨w.origin, w.requested, w.start, .cancelled, w.residualNs, s.run⟩ } }.post .slewEnded
            else held
        let t := (({ quiet with
          engine := { quiet.engine with state := .holdover, entryTime := s.run } }).post .stateChanged).reevaluate
        exec (.unpin mp) s = .next (t.finish mp .ok (pack [.bits 8 t.engine.state.code]))))

/-- The best candidate is the USABLE reference of lowest priority number and then lowest index, PULSE_ONLY ones apart in
FREERUN; a re-evaluation acts on it by the engine's state, and sets in every summary the flags of what it changed and
no others.
(Clauses of the model's own choosing or reading: log entries 17 and 31.) -/
def Obligations.ReevaluationFollowsTheBestCandidate : Prop :=
  ∀ s : State,
    let candidate (r : RefId) : Prop :=
      (s.ref r).state = .usable ∧ ¬ (s.engine.state = .freerun ∧ (s.ref r).settings.kind = .pulseOnly)
    let prio (r : RefId) := (s.ref r).settings.priority
    let t := s.reevaluate
    let regrades := s.engine.state = .freerun ∧ s.engine.announced ≠ 7
    (∀ r, s.bestCandidate = some r ↔
      candidate r ∧ ∀ q, candidate q → prio r < prio q ∨ (prio r = prio q ∧ r ≤ q)) ∧
    (s.bestCandidate = none ↔ ∀ r, ¬ candidate r) ∧
    (s.engine.state = .pinned → t = s) ∧
    (s.bestCandidate = none → (s.engine.state = .freerun ∨ s.engine.state = .holdover) → t = s) ∧
    (s.engine.state.follows → s.bestCandidate = s.engine.selection → t = s) ∧
    (∀ r, s.bestCandidate = some r → s.engine.state ≠ .pinned →
      (s.engine.state.follows → s.engine.selection ≠ some r) →
      t = { s with ts := t.ts, engine := t.engine, ports := t.ports } ∧
      t.engine =
        { s.engine with
          state := .acquiring
          entryTime := s.run
          selection := some r
          goodRun := 0
          stepNeeded := false
          initialStep := decide (s.engine.state = .freerun) || s.engine.initialStep
          anchor := if s.engine.state = .freerun then some ⟨4294967295000, s.run⟩
            else s.uncertainty.map fun ps => ⟨ps, s.run⟩
          announced := if regrades then 7 else s.engine.announced } ∧
      (∀ w, s.ts.slew = some w → w.origin.isMaster = true →
        t.ts = { s.ts with
          slew := none
          lastSlew := some ⟨w.origin, w.requested, w.start, .cancelled, w.residualNs, s.run⟩ }) ∧
      ((∀ w ∈ s.ts.slew, w.origin.isMaster = false) → t.ts = s.ts) ∧
      s.flagsSet t
        (0x000A#16 ||| (if s.ts.slew.any (·.origin.isMaster) then 0x0040#16 else 0) |||
          (if regrades then 0x0004#16 else 0))) ∧
    (s.engine.state.follows → s.bestCandidate = none → s.engine.selection ≠ none →
      t = { s with ts := t.ts, engine := t.engine, ports := t.ports } ∧
      t.engine =
        { s.engine with
          state := .holdover
          entryTime := s.run
          selection := none
          goodRun := 0
          stepNeeded := false
          anchor := s.uncertainty.map fun ps => ⟨ps, s.run⟩ } ∧
      (∀ w, s.ts.slew = some w → w.origin = .engine →
        t.ts = { s.ts with
          rate := s.engine.integral
          slew := none
          lastSlew := some ⟨w.origin, w.requested, w.start, .cancelled, w.residualNs, s.run⟩ }) ∧
      ((∀ w ∈ s.ts.slew, w.origin ≠ .engine) → t.ts = { s.ts with rate := s.engine.integral }) ∧
      s.flagsSet t (0x000A#16 ||| (if s.ts.slew.map (·.origin) = some .engine then 0x0040#16 else 0)))

/-! ### The mark scheduler -/

/-- ADD_MARK creates the mark in the event in which it is taken, with the lowest free id, the taking instant of R79 and
counts of 0, at its place in the list; its refusals come in the order STATE, RANGE, QUOTA, FULL, TOO_LATE. -/
def Obligations.AddMarkPlacesTheMark : Prop :=
  ∀ (s : State) (mp : Mp) (ws : List Word), s.waits mp .addMark ws → s.marksWf →
    let refused (code : ResultCode) : Prop := exec (.addMark mp) s = .next (s.finish mp code [])
    (s.engine.state = .freerun → refused .state) ∧
    (s.engine.state ≠ .freerun →
      (addMarkParams ws = none → refused .range) ∧
      ∀ p, addMarkParams ws = some p →
        ∃ comp : Nat, (∀ l : LineId, p.lines.getLsbD l.val = true → (s.line l).settings.compensation ≤ comp) ∧
          (∃ l : LineId, p.lines.getLsbD l.val = true ∧ (s.line l).settings.compensation = comp) ∧
          let late := (p.due : Int) - comp < s.nowNs + 10 ^ 6 ∨
            ((p.due : Int) - comp = s.nowNs + 10 ^ 6 ∧ 0 < s.ts.time.frac)
          (24 ≤ s.markNumber mp → refused .quota) ∧
          (s.markNumber mp < 24 → s.marks.length = 64 → refused .full) ∧
          (s.markNumber mp < 24 → s.marks.length < 64 → late → refused .tooLate) ∧
          (s.markNumber mp < 24 → s.marks.length < 64 → ¬ late →
            ∃ (id : Nat) (m : Mark) (ms : List Mark),
              exec (.addMark mp) s = .next
                ({ s with marks := ms }.finish mp .ok (pack [.bits 8 id, fInstant (p.due - comp)])) ∧
              id < 64 ∧ (∀ x ∈ s.marks, x.id ≠ id) ∧ (∀ k < id, ∃ x ∈ s.marks, x.id = k) ∧
              m = { id := id, owner := mp, lines := p.lines, due := p.due, width := p.width, period := p.period
                    remaining := p.remaining, minGrade := p.minGrade, tag := p.tag, taking := p.due - comp
                    takingComp := comp, fired := 0, withheld := 0, skipped := 0, partialTakes := 0 } ∧
              ms.Perm (m :: s.marks) ∧
              ms.Pairwise (fun a b => a.taking < b.taking ∨ (a.taking = b.taking ∧ a.id < b.id)) ∧
              ms.countP (fun x => decide (x.owner = mp)) = s.markNumber mp + 1))

/-- CANCEL_MARK removes the poster's mark with outcome CANCELLED, and TAKE_OUTCOMES up to four of the oldest outcomes of
its queue; an outcome joins its owner's queue, or is discarded with OUTCOME_OVERRUN where that holds 16. The result of
TAKE_OUTCOMES has the layout that 10.4 writes out: the number removed, three words for each outcome, the number left. That
of CANCEL_MARK, which 10.4 does not write out, is the model's reading of 10.2 (log entry 14).
(Clauses of the model's own choosing or reading: log entry 14, for CANCEL_MARK's result alone.) -/
def Obligations.MarksAreCancelledAndOutcomesTaken : Prop :=
  (∀ (s : State) (o : Outcome),
    let q := s.queue o.owner
    (q = [] → s.handOutcome o = (s.setQueue o.owner [o]).postTo o.owner .outcomesReady) ∧
    (q ≠ [] → q.length < 16 → s.handOutcome o = s.setQueue o.owner (q ++ [o])) ∧
    (16 ≤ q.length → s.handOutcome o = s.postTo o.owner .outcomeOverrun)) ∧
  (∀ (s : State) (mp : Mp) (ws : List Word), s.waits mp .cancelMark ws → s.marksWf →
    let id := wordAt ws 0 % 2 ^ 8
    (64 ≤ id → exec (.cancelMark mp) s = .next (s.finish mp .range [])) ∧
    (id < 64 → (∀ m ∈ s.marks, m.id ≠ id) → exec (.cancelMark mp) s = .next (s.finish mp .notFound [])) ∧
    ∀ m ∈ s.marks, m.id = id →
      (m.owner ≠ mp → exec (.cancelMark mp) s = .next (s.finish mp .notOwner [])) ∧
      (m.owner = mp →
        exec (.cancelMark mp) s = .next
          (({ s with marks := s.marks.filter fun x => decide (x.id ≠ id) }.handOutcome
              ⟨m.id, m.tag, mp, .cancelled, m.due, m.fired, m.withheld, m.skipped, m.partialTakes⟩).finish mp .ok
            (pack [.bits 16 m.tag, .bits 16 m.fired, .bits 16 m.withheld, .bits 16 m.skipped,
              .bits 16 m.partialTakes])))) ∧
  ∀ (s : State) (mp : Mp) (ws : List Word), s.waits mp .takeOutcomes ws →
    exec (.takeOutcomes mp) s = .next
      ((s.setQueue mp ((s.queue mp).drop 4)).finish mp .ok
        (wordOf [(8, min 4 (s.queue mp).length)] :: ((s.queue mp).take 4).flatMap Outcome.words
          ++ [wordOf [(8, (s.queue mp).length - 4)]]))

/-- The taking of the head of the list: withheld when the grade is worse than its min grade or no line accepts; else each
accepting line of the set gets its commitment at its place, one beyond 64 being dropped, and acts on it at once where its
start is reached, by a pulse, a merge or a load fault; then the mark completes or is re-armed. The grade is the one that
the changes of grade taken so far have left: a change taken after the taking is not seen by it. Where no mark is due the row
does nothing, but that load faults enter FAULTED on the lines whose starts a step taken first took away.
(Clauses of the model's own choosing or reading: log entries 2, 3, 16, 27, 28, 37 and 40.) -/
def Obligations.MarkTakingFiresAndRearms : Prop :=
  (∀ (s : State) (faulty : BitVec 16), s.resetHeld = false → (∀ m ∈ s.marks.head?, s.hasReached m.taking = false) →
    let faults (i : LineId) : Prop := faulty.getLsbD i.val = true ∧ s.overtakenIn i .marks
    ∃ t : State, exec (.markTaking faulty) s = .next t ∧ t = { s with lines := t.lines, ports := t.ports } ∧
      (∀ i, (faults i → t.line i = (s.loadFault i (s.line i)).line i) ∧ (¬ faults i → t.line i = s.line i)) ∧
      ((∀ i, ¬ faults i) → t.ports = s.ports) ∧
      ((∃ i, faults i) → ∀ mp, t.port mp = (s.port mp).withFlag .lineFault)) ∧
  ∀ (s : State) (m : Mark) (rest : List Mark) (faulty : BitVec 16), s.resetHeld = false → s.marks = m :: rest →
    let s0 := { s with marks := rest }
    let comp (i : LineId) := (s.line i).settings.compensation
    let accepts (i : LineId) : Prop :=
      (s.line i).state = .running ∧ (s.line i).settings.mode = .marks ∧
        gatePasses (s.line i).settings.gate s.engine.announced = true ∧ m.taking + comp i ≤ m.due
    let ended (t : State) (x : Mark) : State :=
      match x.nextDue with
      | none =>
        t.handOutcome ⟨x.id, x.tag, x.owner, .completed, x.due, x.fired, x.withheld, x.skipped, x.partialTakes⟩
      | some due =>
        { t with
          marks := insertMark
            { x with
              due := due
              remaining := x.remaining.map (· - 1)
              taking := due - t.largestCompensation x.lines
              takingComp := t.largestCompensation x.lines } t.marks }
    let none' := gatePasses m.minGrade s.engine.announced = false ∨ ∀ i, m.lines.getLsbD i.val = true → ¬ accepts i
    (∀ x : Mark, x.nextDue = match x.period with
      | none => none
      | some p => if x.remaining = some 1 ∨ Config.nsRange ≤ x.due + p * 10 ^ 6 then none else some (x.due + p * 10 ^ 6)) ∧
    (s.hasReached m.taking = true → none' →
      exec (.markTaking faulty) s = .next (ended s0 { m with withheld := sat16 m.withheld })) ∧
    (s.hasReached m.taking = true → ¬ none' →
      let fires (i : LineId) : Prop := m.lines.getLsbD i.val = true ∧ accepts i
      let start (i : LineId) : Instant := m.due - comp i
      let offered (i : LineId) : Commitment :=
        ⟨start i, wrapInstant ((start i : Int) + m.width * 1000), m.id, m.owner⟩
      let joined (i : LineId) : List Commitment :=
        (s.line i).commitments.takeWhile (fun c => decide (c.start ≤ start i)) ++
          offered i :: (s.line i).commitments.dropWhile (fun c => decide (c.start ≤ start i))
      let waiting (i : LineId) : Line :=
        { s.line i with
          commitments := (joined i).take 64
          flags := { (s.line i).flags with
            pulseDropped := (s.line i).flags.pulseDropped || decide (64 < (joined i).length) } }
      let atOnce (i : LineId) : Prop := s.hasReached (start i) = true ∧ offered i ∈ (joined i).take 64
      let left (i : LineId) : Line := { waiting i with commitments := ((joined i).take 64).erase (offered i) }
      let begun (i : LineId) : Line :=
        { left i with
          emission := .pulse .mark (offered i).ends
          emissions := wrap32 (s.line i).emissions 1 }
      let inFlight (i : LineId) : Prop := ∃ kind ends, (s.line i).emission = .pulse kind ends
      let faults (i : LineId) : Prop := fires i ∧ atOnce i ∧ ¬ inFlight i ∧ faulty.getLsbD i.val = true
      ∃ (t : State) (fired : Mark), exec (.markTaking faulty) s = .next (ended t fired) ∧
        fired = { m with fired := sat16 m.fired, partialTakes := fired.partialTakes } ∧
        ((∃ i, m.lines.getLsbD i.val = true ∧ ¬ accepts i) → fired.partialTakes = sat16 m.partialTakes) ∧
        ((∀ i, m.lines.getLsbD i.val = true → accepts i) → fired.partialTakes = m.partialTakes) ∧
        t = { s0 with lines := t.lines, ports := t.ports } ∧
        ((∀ i, ¬ faults i) → t.ports = s.ports) ∧
        ((∃ i, faults i) → ∀ mp, t.port mp = (s.port mp).withFlag .lineFault) ∧
        ∀ i, (¬ fires i → t.line i = s.line i) ∧
          (fires i → ¬ atOnce i → t.line i = waiting i) ∧
          (fires i → atOnce i →
            (∀ kind ends, (s.line i).emission = .pulse kind ends →
              t.line i =
                { left i with
                  emission := .pulse kind (laterOf ends (offered i).ends)
                  flags := { (left i).flags with markMerged := true } }) ∧
            (¬ inFlight i → faulty.getLsbD i.val = false → t.line i = begun i) ∧
            (¬ inFlight i → faulty.getLsbD i.val = true → t.line i = (s.loadFault i (begun i)).line i)))

/-! ### The output lines -/

/-- SET_LINE writes or withdraws the pending record; LINE_RESTART takes a line out of FAULTED; SENSE_LINE returns the
status word and the counts and, with the clear option, clears the latched flags but FAULT. GATED goes by the grade that the
changes of grade taken so far have left, the model's reading of R107 (log entry 40).
(Clauses of the model's own choosing or reading: log entries 14, 38 and 40.) -/
def Obligations.LineCommandsWriteRestartAndSense : Prop :=
  ∀ (s : State) (mp : Mp) (ws : List Word),
    (s.waits mp .setLine ws →
      (setLineParams ws = none → exec (.setLine mp) s = .next (s.finish mp .range [])) ∧
      ∀ i new, setLineParams ws = some (i, new) →
        (new = (s.line i).settings →
          exec (.setLine mp) s = .next
            ((s.setLine i { s.line i with pending := none }).finish mp .ok (pack [.bits 8 0]))) ∧
        (new ≠ (s.line i).settings →
          exec (.setLine mp) s = .next
            ((s.setLine i { s.line i with pending := some new }).finish mp .ok (pack [.bits 8 1])))) ∧
    (s.waits mp .lineRestart ws →
      (16 ≤ wordAt ws 0 % 2 ^ 8 → exec (.lineRestart mp) s = .next (s.finish mp .range [])) ∧
      ∀ i : LineId, wordAt ws 0 % 2 ^ 8 = i.val →
        let l := s.line i
        let st : LineState := if l.settings.mode = .off then .off else .running
        let up := { l with state := st, flags := { l.flags with fault := false } }
        (l.state ≠ .faulted → exec (.lineRestart mp) s = .next (s.finish mp .state [])) ∧
        (l.state = .faulted →
          ∃ held, exec (.lineRestart mp) s = .next
              ((s.setLine i { up with held := held }).finish mp .ok (pack [.bits 8 st.code])) ∧
            (l.settings.mode ≠ .coded ∨ s.composer.frame = none → held = l.held) ∧
            ∀ f, l.settings.mode = .coded → s.composer.frame = some f →
              held = if s.hasPassed (heldFrameOf f l.settings.compensation).slot0 then l.held
                else some (heldFrameOf f l.settings.compensation))) ∧
    (s.waits mp .senseLine ws →
      (senseLineParams ws = none → exec (.senseLine mp) s = .next (s.finish mp .range [])) ∧
      ∀ i clear, senseLineParams ws = some (i, clear) →
        exec (.senseLine mp) s = .next
          ((if clear then
              s.setLine i { s.line i with flags := ⟨(s.line i).flags.fault, false, false, false, false⟩ }
            else s).finish mp .ok
            (pack (s.senseValues (s.line i)))))

/-- The change point applies the pending record at a whole second reached by advance: it cuts the emission and the held
frame when mode or polarity changes, discards the commitments of a line that leaves MARKS, and the state follows. A line
that begins a new train, by entering PULSE mode or by a new period or width, takes the start of this second as acted on,
and with any other change it does not.
(Clauses of the model's own choosing or reading: log entries 2, 3, 18 and 29.) -/
def Obligations.ChangePointAppliesThePendingRecord : Prop :=
  ∀ (s : State) (i : LineId), s.resetHeld = false → (s.line i).wf →
    let l := s.line i
    (l.pending = none → exec (.changePoint i) s = .next s) ∧
    ∀ p, l.pending = some p →
      (s.reachedNow (s.latestMultiple (10 ^ 9) 0) = false ∨ l.changeAt = some s.ts.tickCount →
        exec (.changePoint i) s = .next s) ∧
      (s.reachedNow (s.latestMultiple (10 ^ 9) 0) = true → l.changeAt ≠ some s.ts.tickCount →
        let shape := p.mode ≠ l.settings.mode ∨ p.polarity ≠ l.settings.polarity
        let leaves := l.settings.mode = .marks ∧ p.mode ≠ .marks
        ∃ l' : Line, exec (.changePoint i) s = .next (s.setLine i l') ∧
          l' = { l with
            settings := p
            pending := none
            state := l'.state
            emission := l'.emission
            commitments := l'.commitments
            held := l'.held
            flags := { l.flags with
              pulseCut := l'.flags.pulseCut
              pulseDropped := l'.flags.pulseDropped
              frameCut := l'.flags.frameCut }
            startAt :=
              if (l.settings.mode ≠ .pulse ∧ p.mode = .pulse) ∨ l.settings.period ≠ p.period ∨
                l.settings.width ≠ p.width then some s.ts.tickCount else l.startAt
            changeAt := some s.ts.tickCount } ∧
          (l.state = .faulted → l'.state = .faulted) ∧
          (l.state ≠ .faulted → l'.state = if p.mode = .off then .off else .running) ∧
          (shape → l'.emission = .none) ∧ (¬ shape → l'.emission = l.emission) ∧
          (l'.flags.pulseCut ↔ l.flags.pulseCut ∨ (shape ∧ ∃ k e, l.emission = .pulse k e)) ∧
          (l'.flags.frameCut ↔
            l.flags.frameCut ∨ (shape ∧ (l.held.isSome ∨ ∃ h n e, l.emission = .frame h n e))) ∧
          (leaves → l'.commitments = []) ∧ (¬ leaves → l'.commitments = l.commitments) ∧
          (l'.flags.pulseDropped ↔ l.flags.pulseDropped ∨ (leaves ∧ l.commitments ≠ [])) ∧
          (¬ shape → l'.held = l.held) ∧
          (shape → (l.settings.mode = .coded ∨ p.mode ≠ .coded ∨ l.state = .faulted ∨ s.composer.frame = none) →
            l'.held = none) ∧
          ∀ f, l.settings.mode ≠ .coded → p.mode = .coded → l.state ≠ .faulted → s.composer.frame = some f →
            l'.held = if s.hasPassed (heldFrameOf f p.compensation).slot0 then none
              else some (heldFrameOf f p.compensation))

/-- The output is at the active level of its polarity during a pulse and at the inactive one without an emission, low
while RESET is held; GATED shows what a start made now would meet. The starts of PULSE mode are the multiples of the
period less the compensation, and for 1 s and more the seconds whose labels the period divides, the inserted second
for 1 s alone. A start reached in PULSE mode starts a pulse, or counts as gated, once; a commitment reached starts a
pulse, or is merged into the one in flight; a load at fault at a start takes the line to FAULTED, and so does one that
arrives with a start that a step taken first has cut or passed; a pulse ends at its end instant, once no start at or before
it is still to be merged. Gates go by the grade that the changes of grade taken so far have left.
(Clauses of the model's own choosing or reading: log entries 2, 3, 16, 27, 28, 33, 37 and 40.) -/
def Obligations.PulsesStartMergeFaultAndEnd : Prop :=
  (∀ (s : State) (i : LineId), s.resetHeld = true → s.outputLevel i = false) ∧
  (∀ (gate : Option Grade) (grade : Grade), gatePasses gate grade = true ↔ ∀ g, gate = some g → grade ≤ g) ∧
  ∀ (s : State) (i : LineId), s.resetHeld = false →
    let l := s.line i
    let inactive := decide (l.settings.polarity = .activeLow)
    ((∀ kind ends, l.emission = .pulse kind ends → s.outputLevel i = !inactive) ∧
      (l.emission = .none → s.outputLevel i = inactive) ∧
      (l.wf → l.state ≠ .running → s.outputLevel i = inactive)) ∧
    (l.gatedNow s.engine.announced = true ↔
      l.state = .running ∧ (l.settings.mode = .pulse ∨ l.settings.mode = .marks) ∧
        ∃ g, l.settings.gate = some g ∧ g < s.engine.announced) ∧
    let faulted (x : Line) : State := s.loadFault i x
    let early : Int := l.settings.compensation
    let reached (t span : Int) : Prop :=
      s.reachedNow t = true ∧ (t + early) % span = 0 ∧ (s.nowNs : Int) < t + span
    let serves (t : Int) : Prop :=
      let x := s.ts.labelAhead (wrapInstant (t + early) / 10 ^ 9)
      if x.inserted then l.settings.period = 1000 else x.label.secOfDay % (l.settings.period / 1000) = 0
    let startWaits (such : Instant → Prop) : Prop :=
      l.state = .running ∧ l.settings.mode = .marks ∧
        ((∃ c rest, l.commitments = c :: rest ∧ s.hasReached c.start = true ∧ such c.start) ∨
          ∃ m ∈ s.marks, s.hasReached m.taking = true ∧ gatePasses m.minGrade s.engine.announced = true ∧
            m.lines.getLsbD i.val = true ∧ gatePasses l.settings.gate s.engine.announced = true ∧
            m.taking + l.settings.compensation ≤ m.due ∧ s.hasReached (m.due - l.settings.compensation) = true ∧
            such (m.due - l.settings.compensation))
    let mergeWaits (ends : Instant) : Prop := startWaits fun start => notAfter start ends = true
    (l.settings.mode = .off → s.startDue i = false) ∧
    (l.settings.mode = .pulse → (s.startDue i = true ↔
      l.state = .running ∧ l.startAt ≠ some s.ts.tickCount ∧ (∃ t, s.pulseStartNow l = some t) ∧
        gatePasses l.settings.gate s.engine.announced = true)) ∧
    (l.settings.mode = .marks → (s.startDue i = true ↔
      (∀ kind ends, l.emission ≠ .pulse kind ends) ∧ startWaits fun _ => True)) ∧
    (∀ a b : Instant, a < Config.nsRange → b < Config.nsRange →
      (a ≤ b → b - a < Config.nsRange / 2 → notAfter a b = true ∧ laterOf a b = b ∧ laterOf b a = b) ∧
      (a < b → b - a ≤ Config.nsRange / 2 → notAfter b a = false)) ∧
    (∀ t, s.hasPassed t = notAfter t s.nowNs) ∧
    (1 ≤ l.settings.period → l.settings.period < 1000 →
      ∀ t, s.pulseStartNow l = some t ↔ reached t (l.settings.period * 10 ^ 6)) ∧
    (1000 ≤ l.settings.period → ∀ t, s.pulseStartNow l = some t ↔ reached t (10 ^ 9) ∧ serves t) ∧
    (∀ t load, l.state = .running → l.settings.mode = .pulse → l.startAt ≠ some s.ts.tickCount →
      s.pulseStartNow l = some t → (∀ h n e, l.emission ≠ .frame h n e) →
      let tried := { l with startAt := some s.ts.tickCount }
      let started :=
        { tried with
          emission := .pulse .pulse (wrapInstant (t + l.settings.width * 1000))
          emissions := wrap32 l.emissions 1
          flags := { l.flags with pulseCut := l.flags.pulseCut || decide (l.emission ≠ .none) } }
      (gatePasses l.settings.gate s.engine.announced = false →
        exec (.pulseStart i load) s = .next (s.setLine i { tried with gated := sat16 l.gated })) ∧
      (gatePasses l.settings.gate s.engine.announced = true →
        exec (.pulseStart i .good) s = .next (s.setLine i started) ∧
        (load ≠ .good → exec (.pulseStart i load) s = .next (faulted started)))) ∧
    (∀ load,
      (l.state ≠ .running ∨ l.settings.mode ≠ .pulse ∨ l.startAt = some s.ts.tickCount ∨ s.pulseStartNow l = none) →
      s.findsNoStart i .pulse load (exec (.pulseStart i load) s)) ∧
    (∀ kind ends, l.emission = .pulse kind ends →
      (s.hasPassed ends = true → ¬ mergeWaits ends →
        exec (.pulseEnd i) s = .next (s.setLine i { l with emission := .none })) ∧
      (s.hasPassed ends = false ∨ mergeWaits ends → exec (.pulseEnd i) s = .next s)) ∧
    ((∀ kind ends, l.emission ≠ .pulse kind ends) → exec (.pulseEnd i) s = .next s) ∧
    (∀ load, l.commitments = [] → s.findsNoStart i .marks load (exec (.commitmentStart i load) s)) ∧
    (∀ c rest load, l.commitments = c :: rest →
      (¬ (l.state = .running ∧ l.settings.mode = .marks ∧ s.hasReached c.start = true) →
        s.findsNoStart i .marks load (exec (.commitmentStart i load) s)) ∧
      (l.state = .running → l.settings.mode = .marks → s.hasReached c.start = true →
        (∀ kind ends, l.emission = .pulse kind ends →
          exec (.commitmentStart i load) s = .next
            (s.setLine i
              { l with
                commitments := rest
                emission := .pulse kind (laterOf ends c.ends)
                flags := { l.flags with markMerged := true } })) ∧
        (l.emission = .none →
          let started :=
            { l with
              commitments := rest
              emission := .pulse .mark c.ends
              emissions := wrap32 l.emissions 1 }
          exec (.commitmentStart i .good) s = .next (s.setLine i started) ∧
          (load ≠ .good → exec (.commitmentStart i load) s = .next (faulted started)))))

/-! ### The coded time frame -/

/-- The composition at a latch point reached by advance: one frame, labelled for the next second, held by the composer
and copied to every line RUNNING in CODED mode; the composer releases it at the beginning of its second. Its grade is the
one that the changes of grade taken so far have left.
(Clauses of the model's own choosing or reading: log entries 2, 3, 28 and 40.) -/
def Obligations.CompositionBuildsAndReleasesTheFrame : Prop :=
  ∀ s : State, s.resetHeld = false →
    let sec := (s.ts.time.sec + 1) % 2 ^ 48
    let copied (f : Option Frame) (l : Line) : Line :=
      match f with
      | none => l
      | some f =>
        if l.state = .running ∧ l.settings.mode = .coded then
          { l with
            held := some ⟨f, l.settings.compensation,
              wrapInstant ((f.target * 10 ^ 9 : Nat) - (l.settings.compensation : Int))⟩ }
        else l
    let latch := s.latestMultiple (10 ^ 9) 100000000
    let u : Int := s.ts.utcOffset
    let x := s.ts.labelAhead sec
    (s.reachedNow latch = false ∨ s.composer.composedAt = some s.ts.tickCount → exec .composition s = .next s) ∧
    (s.reachedNow latch = true → s.composer.composedAt ≠ some s.ts.tickCount →
      exec .composition s = .next
        { s with
          composer := ⟨s.composeFrame sec, some s.ts.tickCount⟩
          lines := s.lines.map (copied (s.composeFrame sec)) }) ∧
    (s.composeFrame sec = none ↔ x.label.year < 2000 ∨ 2127 < x.label.year) ∧
    (∀ f, s.composeFrame sec = some f →
      f.target = sec ∧ f.secOfDay = x.label.secOfDay ∧ f.dayOfYear = x.label.dayOfYear ∧
        (f.year : Int) = x.label.year - 2000 ∧ f.grade = s.engine.announced ∧ f.localOffset = s.ts.localOffset ∧
        f.symbols = frameSymbols f.secOfDay f.dayOfYear f.year f.grade.val f.leapField f.localOffset ∧
        (s.ts.leap = none → f.leapField = 0) ∧
        ∀ r, s.ts.leap = some r →
          f.leapField =
            if x.inserted then 3
            else if r.kind = .insert ∧ r.dayEnd - 86400 ≤ x.utcCount ∧ x.utcCount ≤ r.dayEnd - 1 then 1
            else if r.kind = .delete ∧ r.dayEnd - 86400 ≤ x.utcCount ∧ x.utcCount ≤ r.dayEnd - 2 then 2
            else 0) ∧
    (s.ts.leap = none → x = ⟨labelOf (sec - u), sec - u, false⟩) ∧
    (∀ r, s.ts.leap = some r → r.kind = .insert →
      ((sec : Int) = r.dayEnd + u → x = ⟨{ labelOf (r.dayEnd - 1) with secOfDay := 86400 }, sec - u, true⟩) ∧
      ((sec : Int) > r.dayEnd + u → x = ⟨labelOf (sec - (u + 1)), sec - (u + 1), false⟩) ∧
      ((sec : Int) < r.dayEnd + u → x = ⟨labelOf (sec - u), sec - u, false⟩)) ∧
    (∀ r, s.ts.leap = some r → r.kind = .delete →
      ((sec : Int) ≥ r.dayEnd - 1 + u → x = ⟨labelOf (sec - (u - 1)), sec - (u - 1), false⟩) ∧
      ((sec : Int) < r.dayEnd - 1 + u → x = ⟨labelOf (sec - u), sec - u, false⟩)) ∧
    ∀ f, s.composer.frame = some f →
      (s.hasPassed (f.target * 10 ^ 9) = true →
        exec .frameRelease s = .next { s with composer := { s.composer with frame := none } }) ∧
      (s.hasPassed (f.target * 10 ^ 9) = false → exec .frameRelease s = .next s)

/-- The output is active during each symbol of a frame, and the current slot is the one whose span contains the timescale.
A held frame begins at its slot 0 instant; each slot's symbol starts at the slot and ends after its width; the frame
ends with slot 49; a load at fault at a symbol's start ends it with FRAME_CUT and takes the line to FAULTED, and so does one
that arrives with a start that a step taken first has cut.
(Clauses of the model's own choosing or reading: log entries 2, 3, 16, 27, 28 and 37.) -/
def Obligations.FramesAreEmittedSlotBySlot : Prop :=
  ∀ (s : State) (i : LineId), s.resetHeld = false →
    let l := s.line i
    let width (x : Symbol) : Nat := match x with
      | .zero => 4000000
      | .one => 10000000
      | .mark => 16000000
    let slotAt (h : HeldFrame) (k : Nat) : Instant := (h.slot0 + k * 20000000) % Config.nsRange
    let inSlot (h : HeldFrame) (k : Nat) : Emission :=
      .frame h (k + 1) (some ((slotAt h k + width (h.frame.symbols.getD k .zero)) % Config.nsRange))
    let faulted (x : Line) : State := s.loadFault i x
    (l.settings.mode = .coded → (s.startDue i = true ↔ l.state = .running ∧
      ((∃ h, l.held = some h ∧ s.hasPassed h.slot0 = true) ∨
        ∃ h k ends, l.emission = .frame h k ends ∧ k < 50 ∧ s.hasPassed (slotAt h k) = true))) ∧
    (∀ load, l.held = none → s.findsNoStart i .coded load (exec (.frameBegin i load) s)) ∧
    (∀ load, (∀ h k ends, l.emission ≠ .frame h k ends) → s.findsNoStart i .coded load (exec (.symbolStart i load) s)) ∧
    (∀ h load, l.held = some h →
      (¬ (l.state = .running ∧ l.settings.mode = .coded ∧ s.hasPassed h.slot0 = true) →
        s.findsNoStart i .coded load (exec (.frameBegin i load) s)) ∧
      (l.state = .running → l.settings.mode = .coded → s.hasPassed h.slot0 = true →
        let begun := { l with held := none, emission := inSlot h 0, emissions := wrap32 l.emissions 1 }
        exec (.frameBegin i .good) s = .next (s.setLine i begun) ∧
        (load ≠ .good → exec (.frameBegin i load) s = .next (faulted begun)))) ∧
    ((∀ h k ends, l.emission ≠ .frame h k ends) → s.codedSlot l = none) ∧
    ∀ h k ends, l.emission = .frame h k ends →
      s.outputLevel i = (ends.isSome == decide (l.settings.polarity = .activeHigh)) ∧
      (∀ n < 50, (n * 20000000 : Nat) ≤ ((s.nowNs : Int) - h.slot0) % Config.nsRange →
        ((s.nowNs : Int) - h.slot0) % Config.nsRange < ((n + 1) * 20000000 : Nat) → s.codedSlot l = some n) ∧
      (∀ load, k < 50 → s.hasPassed (slotAt h k) = true →
        exec (.symbolStart i .good) s = .next (s.setLine i { l with emission := inSlot h k }) ∧
        (load ≠ .good → exec (.symbolStart i load) s = .next (faulted { l with emission := inSlot h k }))) ∧
      (∀ load, (50 ≤ k ∨ s.hasPassed (slotAt h k) = false) →
        s.findsNoStart i .coded load (exec (.symbolStart i load) s)) ∧
      (∀ e, ends = some e →
        (s.hasPassed e = true →
          exec (.symbolEnd i) s = .next (s.setLine i { l with emission := .frame h k none })) ∧
        (s.hasPassed e = false → exec (.symbolEnd i) s = .next s)) ∧
      (ends = none → exec (.symbolEnd i) s = .next s) ∧
      (s.hasPassed (slotAt h 50) = true →
        exec (.frameEnd i) s = .next (s.setLine i { l with emission := .none })) ∧
      (s.hasPassed (slotAt h 50) = false → exec (.frameEnd i) s = .next s)

/-- The fifty symbols of a frame by the slot plan: MARK in slots 0 and 34 alone, ZERO in slot 49, each field least
significant bit first, and the check of slots 47 and 48. -/
def Obligations.FrameSymbolsFollowTheSlotPlan : Prop :=
  ∀ (sod day year grade leap : Nat) (off : Int), -64 ≤ off → off < 64 →
    let ss := frameSymbols sod day year grade leap off
    let bit (n k : Nat) : Symbol := if n.testBit k then .one else .zero
    ss.length = 50 ∧ ss[0]? = some .mark ∧ ss[34]? = some .mark ∧ ss[49]? = some .zero ∧
      (∀ k, ss[k]? = some .mark → k = 0 ∨ k = 34) ∧
      (∀ k < 17, ss[1 + k]? = some (bit sod k)) ∧ (∀ k < 9, ss[18 + k]? = some (bit day k)) ∧
      (∀ k < 7, ss[27 + k]? = some (bit year k)) ∧ (∀ k < 3, ss[35 + k]? = some (bit grade k)) ∧
      (∀ k < 2, ss[38 + k]? = some (bit leap k)) ∧
      (∀ k < 7, ss[40 + k]? = some (bit (if off < 0 then (off + 128).toNat else off.toNat) k)) ∧
      ∀ k < 2, ss[47 + k]? = some (bit (((ss.drop 1).take 46).countP (· == .one) % 4) k)

/-! ### The process network ports -/

/-- A port's state follows its enable and its link; a link-down in ACTIVE counts a link loss and flushes the port, and
elsewhere only the indication changes; a link-up changes the indication alone. -/
def Obligations.LinkReportsMoveThePort : Prop :=
  ∀ (s : State) (p : NetId),
    let port := s.netPort p
    let cut := match port.wire with
      | .answer _ _ => 1
      | .idle | .beacon _ => 0
    (∀ t : State, t.portState p =
      if t.net.settings.enable.get p then (if (t.netPort p).link = .up then .active else .down) else .disabled) ∧
    exec (.linkUp p) s = .next (s.setNetPort p { port with link := .up }) ∧
    (s.portState p ≠ .active → exec (.linkDown p) s = .next (s.setNetPort p { port with link := .down })) ∧
    (s.portState p = .active →
      exec (.linkDown p) s = .next
        (s.setNetPort p
          { port with
            link := .down
            queue := []
            wire := .idle
            pendingBeacon := none
            reception := none
            counters := { port.counters with
              linkFlush := (port.counters.linkFlush + port.queue.length + cut) % 2 ^ 32
              linkLosses := (port.counters.linkLosses + 1) % 2 ^ 32 } }))

/-- At a due instant each port's schedule moves on, and an ACTIVE port out of FREERUN makes one beacon pending, which
departs at once over an idle wire; at the end of a transmission the frame counts as sent, and the wire goes to a pending
beacon, else to the oldest answer, else it is idle. A beacon carries the leap state of the second in which it departs.
Beacons and answers leave in the layouts of 10.6, padded with zeros and closed by the frame check sequence over the bytes
as written, which is the model's reading of Ethernet; bits 7:1 of an answer's flags, which 10.6 does not name, are sent as 0,
which is the model's choice.
(Clauses of the model's own choosing or reading: log entries 2, 3, 28, 32, 34, 35 and 41.) -/
def Obligations.BeaconsAndAnswersShareTheWire : Prop :=
  (∀ b : BeaconFrame,
    let at' := numberAt b.bytes
    b.bytes.length = 33 ∧ at' 0 1 = 1 ∧ at' 1 1 = 1 ∧ at' 2 2 = 29 ∧ at' 4 2 = b.sequence % 2 ^ 16 ∧
      at' 6 6 = b.departure / 10 ^ 9 % 2 ^ 48 ∧ at' 12 4 = b.departure % 10 ^ 9 ∧ at' 16 1 = b.utcOffset % 2 ^ 8 ∧
      (b.leap = none → at' 17 1 = 0 ∧ at' 18 1 = 0 ∧ at' 19 6 = 0) ∧
      (∀ r, b.leap = some r →
        at' 17 1 = (match r.kind with
          | .insert => 1
          | .delete => 2) ∧
        at' 18 1 = (match r.phase with
          | .pending => 0
          | .inserting => 1) ∧
        (0 ≤ r.dayEnd → r.dayEnd < 2 ^ 48 → (at' 19 6 : Int) = r.dayEnd)) ∧
      at' 25 1 = b.grade.val ∧ at' 26 4 = b.uncertainty % 2 ^ 32 ∧
      at' 30 1 = (match b.engineState with
        | .freerun => 0
        | .acquiring => 1
        | .locked => 2
        | .holdover => 3
        | .pinned => 4) ∧
      at' 31 1 = (match b.refKind with
        | none | some .off => 0
        | some .receiver => 1
        | some .link => 2
        | some .pulseOnly => 3) ∧
      ∀ code < 5, b.interval = 125 * 2 ^ code → at' 32 1 = code) ∧
  (∀ a : Answer, a.t1.length = 10 →
    let at' := numberAt a.bytes
    a.bytes.length = 40 ∧ at' 0 1 = 3 ∧ at' 1 1 = 1 ∧ at' 2 2 = 36 ∧ at' 4 2 = a.sequence.toNat ∧
      at' 6 2 = a.tag.toNat ∧ (a.bytes.drop 8).take 10 = a.t1 ∧ at' 18 6 = a.t2 / 10 ^ 9 % 2 ^ 48 ∧
      at' 24 4 = a.t2 % 10 ^ 9 ∧
      (∀ t3, a.t3 = some t3 → at' 28 6 = t3 / 10 ^ 9 % 2 ^ 48 ∧ at' 34 4 = t3 % 10 ^ 9) ∧
      at' 38 1 = (if a.untracked then 1 else 0) ∧ at' 39 1 = a.grade.val) ∧
  (Wire.idle.octets = none ∧
    (∀ b, (Wire.beacon b).frame = some (0x03A054460001#48, b.source, 0x89C2#16, b.bytes)) ∧
    (∀ a source, (Wire.answer a source).frame = some (a.destination, source, 0x89C2#16, a.bytes)) ∧
    ∀ (w : Wire) (destination source : NetAddress) (type : BitVec 16) (bytes : List Byte),
      w.frame = some (destination, source, type, bytes) →
      ∃ written check : List Byte, w.octets = some (written ++ check) ∧ written.length = max 60 (14 + bytes.length) ∧
        numberAt written 0 6 = destination.toNat ∧ numberAt written 6 6 = source.toNat ∧
        numberAt written 12 2 = type.toNat ∧ (written.drop 14).take bytes.length = bytes ∧
        (∀ x ∈ written.drop (14 + bytes.length), x = 0) ∧ check.length = 4 ∧
        numberAt check.reverse 0 4 = (crc32 written).toNat) ∧
  (∀ (bs : List Byte) (b : Byte),
    let bit (c : BitVec 32) : BitVec 32 := if c.getLsbD 0 then c >>> 1 ^^^ 0xEDB88320#32 else c >>> 1
    crc32 [] = 0 ∧ crc32 (bs ++ [b]) = ~~~(Nat.repeat bit 8 (~~~(crc32 bs) ^^^ b.setWidth 32))) ∧
  ∀ s : State, s.resetHeld = false →
    let beacon (port : NetPort) (interval : Nat) : BeaconFrame :=
      { sequence := port.beaconSeq, source := s.net.settings.address, departure := s.nowNs
        utcOffset := s.leapShown.1, leap := s.leapShown.2, grade := s.grade, uncertainty := s.uncertainty.getD 4294967295000 / 1000
        engineState := s.engine.state, refKind := s.engine.selection.map fun r => (s.ref r).settings.kind
        interval := interval }
    let sentBeacon (port : NetPort) (interval : Nat) : NetPort :=
      { port with
        wire := .beacon (beacon port interval)
        pendingBeacon := none
        beaconSeq := (port.beaconSeq + 1) % 65536 }
    let next (port : NetPort) : Instant :=
      ((port.nextDue / (s.net.settings.interval * 10 ^ 6) + 1) * (s.net.settings.interval * 10 ^ 6)) % Config.nsRange
    (∃ a b : NetPort, exec .beaconDue s = .next { s with net := { s.net with ports := ⟨a, b⟩ } } ∧
      ∀ p, let port := s.netPort p
        let new := match p with
          | .na => a
          | .nb => b
        let moved := { port with nextDue := next port }
        let makes := s.portState p = .active ∧ s.engine.state ≠ .freerun ∧ port.pendingBeacon = none
        (s.hasPassed port.nextDue = false → new = port) ∧
        (s.hasPassed port.nextDue = true → ¬ makes → new = moved) ∧
        (s.hasPassed port.nextDue = true → makes → port.wire = .idle →
          new = sentBeacon moved s.net.settings.interval) ∧
        (s.hasPassed port.nextDue = true → makes → port.wire ≠ .idle →
          new = { moved with pendingBeacon := some s.net.settings.interval })) ∧
    ∀ p, let port := s.netPort p
      (port.wire = .idle → exec (.transmitEnd p) s = .next s) ∧
      (port.wire ≠ .idle →
        let counted := { port with
          counters := { port.counters with
            beaconsSent := match port.wire with
              | .beacon _ => (port.counters.beaconsSent + 1) % 2 ^ 32
              | .idle | .answer _ _ => port.counters.beaconsSent
            answersSent := match port.wire with
              | .answer _ _ => (port.counters.answersSent + 1) % 2 ^ 32
              | .idle | .beacon _ => port.counters.answersSent } }
        (∀ k, port.pendingBeacon = some k →
          exec (.transmitEnd p) s = .next (s.setNetPort p (sentBeacon counted k))) ∧
        (∀ x rest, port.pendingBeacon = none → port.queue = x :: rest →
          exec (.transmitEnd p) s = .next
            (s.setNetPort p
              { counted with
                wire := .answer { x with t3 := some s.nowNs } s.net.settings.address
                queue := rest })) ∧
        (port.pendingBeacon = none → port.queue = [] →
          exec (.transmitEnd p) s = .next (s.setNetPort p { counted with wire := .idle })))

/-- An ask is stamped at its timing point in ACTIVE; at its arrival the port drops a frame that failed reception, one of
another frame type, one that a step has marked, one that is no well-formed ask to it, and any ask in FREERUN. A body is a
well-formed ask by its kind, its version, its self-report flag with the body length, and a client grade of 0 to 7. That a
candidate which a step has marked counts STEP_FLUSH alone, be it malformed or met by FREERUN too, is the model's choice (log
entry 39).
(Clauses of the model's own choosing or reading: log entries 2, 13 and 39.) -/
def Obligations.AsksAreStampedAndJudgedByThePort : Prop :=
  (∀ body : List Byte,
    let at' := numberAt body
    let plain := at' 18 1 = 0 ∧ at' 2 2 = 15
    let reporting := at' 18 1 = 1 ∧ at' 2 2 = 24 ∧ at' 27 1 ≤ 7
    let good := at' 0 1 = 2 ∧ at' 1 1 = 1 ∧ 4 + at' 2 2 ≤ body.length ∧ (plain ∨ reporting)
    (¬ good → askOf body = none) ∧
    (good →
      ∃ x, askOf body = some x ∧ x.sequence.toNat = at' 4 2 ∧ x.tag.toNat = at' 6 2 ∧ x.t1 = (body.drop 8).take 10 ∧
        (plain → x.report = none) ∧
        (reporting →
          ∃ g : Grade, g.val = at' 27 1 ∧ x.report = some ⟨toSigned 32 (at' 19 4), at' 23 4, g⟩))) ∧
  ∀ (s : State) (p : NetId), s.resetHeld = false →
    let port := s.netPort p
    (s.portState p = .active →
      exec (.askTimingPoint p) s = .next (s.setNetPort p { port with reception := some ⟨s.nowNs, s.run, false⟩ })) ∧
    (s.portState p ≠ .active → exec (.askTimingPoint p) s = .next s) ∧
    ∀ f : RxFrame,
      (port.reception = none → exec (.askArrival p f) s = .next s) ∧
      ∀ r, port.reception = some r →
        let counts (k : PortCounters) : Prop :=
          exec (.askArrival p f) s = .next (s.setNetPort p { port with reception := none, counters := k })
        let k := port.counters
        (f.receptionOk = false → counts { k with receiveErrors := (k.receiveErrors + 1) % 2 ^ 32 }) ∧
        (f.receptionOk = true → f.frameType ≠ 0x89C2#16 → counts k) ∧
        (f.receptionOk = true → f.frameType = 0x89C2#16 → r.marked = true →
          counts { k with stepFlush := (k.stepFlush + 1) % 2 ^ 32 }) ∧
        (f.receptionOk = true → f.frameType = 0x89C2#16 → r.marked = false →
          (askOf f.body = none ∨ ¬ s.takesFrame f → counts { k with unknown := (k.unknown + 1) % 2 ^ 32 }) ∧
          ∀ ask, askOf f.body = some ask → s.takesFrame f → s.engine.state = .freerun →
            counts { k with notReady := (k.notReady + 1) % 2 ^ 32 })

/-- An ask that the port passes is judged by the client table: a repeat and one too early are dropped and counted, one
that finds the queue full is dropped; any other is answered, with its record where the table has an entry or a slot, the
lowest free one of its 96, and its self-report judged against the straggler limit.
(Clauses of the model's own choosing or reading: log entry 13.) -/
def Obligations.ClientTableAnswersAsks : Prop :=
  (∀ (t : ClientTable) (c : Client),
    let free (k : Nat) : Prop := ∀ x ∈ t.entries, x.slot ≠ k
    (∀ k, t.freeSlot = some k ↔ k < 96 ∧ free k ∧ ∀ j < k, ¬ free j) ∧ (t.freeSlot = none ↔ ∀ k < 96, ¬ free k) ∧
    (∀ a, t.find a = none ↔ ∀ x ∈ t.entries, x.address ≠ a) ∧
    (∀ a x, t.find a = some x → x ∈ t.entries ∧ x.address = a) ∧
    t.put c = { t with entries := t.entries.map fun x => if x.slot = c.slot then c else x } ∧
    t.add c = { t with
      entries := t.entries.takeWhile (fun x => decide (x.slot ≤ c.slot)) ++
        c :: t.entries.dropWhile fun x => decide (x.slot ≤ c.slot) }) ∧
  ∀ (s : State) (p : NetId) (f : RxFrame) (r : Reception) (ask : Ask), s.askPassed p f r ask →
    let port := s.netPort p
    let ended := { port with reception := none }
    let k := port.counters
    let arrival := exec (.askArrival p f) s
    let answer (untracked : Bool) : Answer :=
      ⟨f.source, ask.tag, ask.sequence, ask.t1, r.t2, none, untracked, s.grade⟩
    let queued (x : NetPort) (untracked : Bool) : NetPort :=
      if port.wire = .idle then
        { x with wire := .answer { answer untracked with t3 := some s.nowNs } s.net.settings.address }
      else { x with queue := port.queue ++ [answer untracked] }
    let late := ∃ x ∈ ask.report, s.net.settings.stragglerLimit < x.offset.natAbs
    let reported (c : Client) : Client := match ask.report with
      | none => c
      | some x =>
        { c with
          state := if s.net.settings.stragglerLimit < x.offset.natAbs then .straggler else .tracked
          report := some ⟨x.offset, x.pathDelay, x.grade, r.t2, p⟩ }
    let withClients (t : ClientTable) : State := { s with clients := t }
    let told (b : Bool) (t : State) : State := if b then t.post .straggler else t
    let fullQueue := arrival = .next
      (s.setNetPort p { ended with counters := { k with queueFull := (k.queueFull + 1) % 2 ^ 32 } })
    let room := port.queue.length < 32 ∧ (port.wire = .idle → port.queue = [] ∧ port.pendingBeacon = none)
    (∀ c, s.clients.find f.source = some c →
      (∀ x, c.sub p = some x →
        let onSub (y : SubRecord) : State := withClients (s.clients.put (c.setSub p (some y)))
        (ask.sequence = x.sequence →
          arrival = .next ((onSub { x with repeats := (x.repeats + 1) % 2 ^ 32, lastArrival := r.t2 }).setNetPort p
            { ended with counters := { k with repeats := (k.repeats + 1) % 2 ^ 32 } })) ∧
        (ask.sequence ≠ x.sequence → r.run < x.answeredRun + s.net.settings.spacing →
          arrival = .next ((onSub { x with refused := (x.refused + 1) % 2 ^ 32, lastArrival := r.t2 }).setNetPort p
            { ended with counters := { k with spacing := (k.spacing + 1) % 2 ^ 32 } })) ∧
        (ask.sequence ≠ x.sequence → x.answeredRun + s.net.settings.spacing ≤ r.run → 32 ≤ port.queue.length →
          arrival = .next ((onSub { x with lastArrival := r.t2 }).setNetPort p
            { ended with counters := { k with queueFull := (k.queueFull + 1) % 2 ^ 32 } }))) ∧
      (c.sub p = none → 32 ≤ port.queue.length → fullQueue) ∧
      (∀ y, (c.sub p = none → y = ⟨ask.sequence, r.run, r.t2, 1, 0, 0⟩) →
        (∀ x, c.sub p = some x → ask.sequence ≠ x.sequence ∧ x.answeredRun + s.net.settings.spacing ≤ r.run ∧
          y = ⟨ask.sequence, r.run, r.t2, (x.answered + 1) % 2 ^ 32, x.refused, x.repeats⟩) →
        room →
        arrival = .next
          ((told (decide (late ∧ c.state ≠ .straggler))
            (withClients (s.clients.put (reported { c.setSub p (some y) with tag := ask.tag })))).setNetPort p
              (queued ended false)))) ∧
    (s.clients.find f.source = none →
      (32 ≤ port.queue.length → fullQueue) ∧
      (room → s.clients.freeSlot = none →
        arrival = .next (s.setNetPort p
          (queued { ended with counters := { k with untracked := (k.untracked + 1) % 2 ^ 32 } } true))) ∧
      ∀ slot, room → s.clients.freeSlot = some slot →
        arrival = .next
          ((told (decide late)
            (withClients (s.clients.add (reported
              ((⟨slot, f.source, ask.tag, .new, none, none, none⟩ : Client).setSub p
                (some ⟨ask.sequence, r.run, r.t2, 1, 0, 0⟩)))))).setNetPort p (queued ended false)))

/-- SET_NETWORK writes the seven settings in one event: a port disabled in ACTIVE flushes, and a changed interval moves
both schedules to the first due instant of the new interval later than the timescale.
(Clauses of the model's own choosing or reading: log entries 14 and 36.) -/
def Obligations.SetNetworkActsInOneEvent : Prop :=
  ∀ (s : State) (mp : Mp) (ws : List Word), s.waits mp .setNetwork ws →
    (setNetworkParams ws = none → exec (.setNetwork mp) s = .next (s.finish mp .range [])) ∧
    ∀ new, setNetworkParams ws = some new →
      ∃ t : State, exec (.setNetwork mp) s = .next
          (t.finish mp .ok (pack [.bits 8 (t.portState .na).code, .bits 8 (t.portState .nb).code])) ∧
        t = { s with net := t.net } ∧ t.net.settings = new ∧
        ∀ p, let port := s.netPort p
          let due := if s.net.settings.interval = new.interval then port.nextDue
            else ((s.nowNs / (new.interval * 10 ^ 6) + 1) * (new.interval * 10 ^ 6)) % Config.nsRange
          let cut := match port.wire with
            | .answer _ _ => 1
            | .idle | .beacon _ => 0
          (s.portState p = .active ∧ new.enable.get p = false →
            t.netPort p =
              { port with
                queue := []
                wire := .idle
                pendingBeacon := none
                reception := none
                nextDue := due
                counters := { port.counters with
                  linkFlush := (port.counters.linkFlush + port.queue.length + cut) % 2 ^ 32 } }) ∧
          (¬ (s.portState p = .active ∧ new.enable.get p = false) → t.netPort p = { port with nextDue := due }) ∧
          t.portState p = if new.enable.get p then (if port.link = .up then .active else .down) else .disabled

/-! ### The client table -/

/-- At a whole second of run time the idle check removes the sub-records older than the idle span and the entries left
without one, posting CLIENT_LOST for those; FORGET_CLIENT removes one entry and posts nothing.
(Clauses of the model's own choosing or reading: log entries 2, 3 and 14.) -/
def Obligations.ClientsExpireOrAreForgotten : Prop :=
  ∀ s : State,
    let span := s.net.settings.idleLimit * s.net.settings.interval
    let young (x : Option SubRecord) : Option SubRecord := x.filter fun y => decide (s.run ≤ y.answeredRun + span)
    let aged (c : Client) : Client := { c with subA := young c.subA, subB := young c.subB }
    let stays (c : Client) : Bool := (young c.subA).isSome || (young c.subB).isSome
    (s.resetHeld = false →
      (s.ts.tickCount % 250000000 ≠ 0 ∨ s.ts.tickCount = 0 ∨ s.clients.checkedAt = some s.ts.tickCount →
        exec .idleCheck s = .next s) ∧
      (s.ts.tickCount % 250000000 = 0 → 0 < s.ts.tickCount → s.clients.checkedAt ≠ some s.ts.tickCount →
        let t := { s with clients := ⟨(s.clients.entries.filter stays).map aged, some s.ts.tickCount⟩ }
        (s.clients.entries.all stays = true → exec .idleCheck s = .next t) ∧
        (s.clients.entries.all stays = false → exec .idleCheck s = .next (t.post .clientLost)))) ∧
    ∀ (mp : Mp) (ws : List Word), s.waits mp .forgetClient ws →
      let a := BitVec.ofNat 48 (wordAt ws 0)
      (isGroup a = true ∨ a = 0 → exec (.forgetClient mp) s = .next (s.finish mp .range [])) ∧
      (isGroup a = false → a ≠ 0 →
        (s.clients.find a = none → exec (.forgetClient mp) s = .next (s.finish mp .notFound [])) ∧
        ∀ c, s.clients.find a = some c →
          exec (.forgetClient mp) s = .next
            ({ s with
              clients := { s.clients with
                entries := s.clients.entries.filter fun c => decide (c.address ≠ a) } }.finish mp .ok (pack c.values)))

/-! ### The master ports and the control claim -/

/-- A transaction takes its header and data when it begins; a well-framed WRITE_PARAMS writes its words from the start
word on, and a POST places its command in IDLE and in DONE and is discarded in BUSY.
(Clauses of the model's own choosing or reading: log entry 15.) -/
def Obligations.TransactionsWriteAndPost : Prop :=
  ∀ (s : State) (mp : Mp), s.resetHeld = false →
    let p := s.port mp
    let header : Byte := BitVec.ofNat 8
      ((match p.handshake with | .idle => 0 | .busy => 1 | .done => 2) + (if p.summary &&& ~~~p.mask ≠ 0 then 4 else 0) +
        (if p.errors = ⟨false, false, false⟩ then 0 else 8) + 16 * mp.val + 128)
    (exec (.transactionBegin mp) s = .next
      (s.setPort mp
        { p with
          transaction := some ⟨header, p.handshake, p.result, p.stateBytes, p.summary, p.errors⟩
          dataOut := [header] })) ∧
    ∀ x, p.transaction = some x →
      let q := { p with transaction := none, dataOut := [x.header] }
      (∀ (start n : Byte) (data : List Byte), 1 ≤ n.toNat → start.toNat + n.toNat ≤ 16 → data.length = 16 * n.toNat →
        p.params.length = 16 →
        ∃ ws : List Word, exec (.writeParams mp (start :: n :: data)) s = .next (s.setPort mp { q with params := ws }) ∧
          ws.length = 16 ∧
          ∀ k < 16, ws[k]? =
            if start.toNat ≤ k ∧ k < start.toNat + n.toNat then
              some (bytesWord ((data.drop (16 * (k - start.toNat))).take 16))
            else p.params[k]?) ∧
      (∀ number n : Byte, n.toNat ≤ 16 →
        let placed (o : MasterPort) : MasterPort :=
          { o with
            slot := some ⟨number, n.toNat, p.params.take n.toNat⟩
            lastCommand := some number
            handshake := .busy }
        (p.handshake = .idle → exec (.post mp [number, n]) s = .next (s.setPort mp (placed q))) ∧
        (p.handshake = .done →
          exec (.post mp [number, n]) s = .next
            (s.setPort mp
              (placed { q with result := none, errors := { p.errors with resultOverwritten := true } }))) ∧
        (p.handshake = .busy → exec (.post mp [number, n]) s = .next (s.setPort mp q)))

/-- The reads of a port shift out what was fixed when they began: READ_RESULT the result area, returning DONE to IDLE;
READ_STATE the nine bytes of 10.1, changing nothing; READ_ERRORS the flags, clearing those it returned as set. A word
is sent and taken with the byte of its bits 127:120 first.
(Clauses of the model's own choosing or reading: log entry 15.) -/
def Obligations.ReadsReturnWhatWasFixed : Prop :=
  (∀ bs : List Byte, bs.length = 16 → (bytesWord bs).toNat = numberAt bs 0 16) ∧
  (∀ w : Word, (wordBytes w).length = 16 ∧ ∀ k < 16, (wordBytes w)[k]? = some (w.extractLsb' (8 * (15 - k)) 8)) ∧
  ∀ (s : State) (mp : Mp) (x : Transaction), s.resetHeld = false → (s.port mp).transaction = some x →
    let p := s.port mp
    let shifted (bs : List Byte) : MasterPort := { p with transaction := none, dataOut := x.header :: bs }
    (∀ res, x.result = some res → res.words.length = 16 →
      let bs := BitVec.ofNat 8 res.code.code :: res.words.flatMap wordBytes
      (x.handshake = .done → p.handshake = .done →
        exec (.readResult mp 258) s = .next (s.setPort mp { shifted bs with handshake := .idle })) ∧
      (x.handshake ≠ .done → exec (.readResult mp 258) s = .next (s.setPort mp (shifted bs)))) ∧
    (x.result = none → x.handshake ≠ .done →
      exec (.readResult mp 258) s = .next (s.setPort mp (shifted (0xFF#8 :: List.replicate 256 0#8)))) ∧
    (x.stateBytes.length = 9 → exec (.readState mp 10) s = .next (s.setPort mp (shifted x.stateBytes))) ∧
    p.stateBytes =
      [(match p.handshake with
        | .idle => 0x00#8
        | .busy => 0x01#8
        | .done => 0x02#8),
        p.lastCommand.getD 0xFF#8, (p.slot.map (·.number)).getD 0xFF#8,
        BitVec.ofNat 8 ((p.slot.map (·.count)).getD 0xFF), BitVec.ofNat 8 ((p.cursor.map fun c => tableCode c.table).getD 0xFF),
        BitVec.ofNat 8 ((p.cursor.map (·.slot)).getD 0xFF), (if p.summary &&& ~~~p.mask ≠ 0 then 0x01#8 else 0x00#8),
        p.mask.extractLsb' 8 8, p.mask.extractLsb' 0 8] ∧
    exec (.readErrors mp 2) s = .next
      (s.setPort mp
        { shifted [BitVec.ofNat 8 ((if x.errors.unknownTransaction then 1 else 0) + (if x.errors.length then 2 else 0) +
            (if x.errors.resultOverwritten then 4 else 0))] with
          errors := ⟨p.errors.unknownTransaction && !x.errors.unknownTransaction, p.errors.length && !x.errors.length,
            p.errors.resultOverwritten && !x.errors.resultOverwritten⟩ })

/-- A transaction of the wrong length, or a WRITE_PARAMS or POST with a count out of place, sets LENGTH and does nothing
else but end; a first byte that names no transaction sets UNKNOWN_TRANSACTION alone.
(Clauses of the model's own choosing or reading: log entry 15.) -/
def Obligations.BadFramingSetsItsFlagAlone : Prop :=
  ∀ (s : State) (mp : Mp) (x : Transaction), s.resetHeld = false → (s.port mp).transaction = some x →
    let p := s.port mp
    let setsLength (c : Instr) : Prop :=
      ∃ out, exec c s = .next
        (s.setPort mp { p with transaction := none, dataOut := out, errors := { p.errors with length := true } })
    (∀ len, len ≠ 258 → setsLength (.readResult mp len)) ∧ (∀ len, len ≠ 10 → setsLength (.readState mp len)) ∧
    (∀ len, len ≠ 2 → setsLength (.readErrors mp len)) ∧ (∀ len, len ≠ 1 → setsLength (.portClear mp len)) ∧
    (∀ rest, rest.length ≠ 2 → setsLength (.sense mp rest)) ∧
    (∀ rest, rest.length ≠ 2 → setsLength (.post mp rest)) ∧
    (∀ number n : Byte, 16 < n.toNat → setsLength (.post mp [number, n])) ∧
    (∀ rest, rest.length < 2 → setsLength (.writeParams mp rest)) ∧
    (∀ (start n : Byte) (data : List Byte),
      n.toNat = 0 ∨ 16 < start.toNat + n.toNat ∨ data.length ≠ 16 * n.toNat →
        setsLength (.writeParams mp (start :: n :: data))) ∧
    ∀ code : Byte, code ∉ [0x21#8, 0x22#8, 0x31#8, 0x32#8, 0x33#8, 0x34#8, 0x4C#8] →
      exec (.unknownTransaction mp code) s = .next
        (s.setPort mp
          { p with
            transaction := none
            dataOut := [x.header]
            errors := { p.errors with unknownTransaction := true } })

/-- The common checks come first, in order: a number that names no command is UNKNOWN, then a wrong count is PARAMS, then
a claim that is needed and not held is CLAIM_NEEDED; each refusal changes the poster's mailbox alone. A result of at most
16 words stands in the poster's result area word for word, the words above them 0, the slot empty and the handshake DONE.
The numbers, the word counts and the claim column are those of the tables of 10.3 and 9.8.
(Clauses of the model's own choosing or reading: log entries 2 and 26.) -/
def Obligations.CommonChecksComeFirst : Prop :=
  (∀ mp : Mp, commandRows.map (fun x => postedRow (x.1 mp)) = commandRows.map fun x => some (mp, x.2)) ∧
  commandTable = commandRows.map (·.2) ∧ commandRows.length = 31 ∧
  [ResultCode.ok, .unknown, .params, .claimNeeded, .state, .range, .claimed, .notHolder, .slewBusy, .full, .quota, .tooLate,
      .notFound, .notOwner].map ResultCode.code =
    [0x00, 0x01, 0x02, 0x03, 0x04, 0x05, 0x10, 0x11, 0x12, 0x13, 0x14, 0x15, 0x16, 0x17] ∧
  ∀ (s : State) (mp : Mp) (x : Posted), s.resetHeld = false → (s.port mp).slot = some x →
    (∀ c row, postedRow c = some (mp, row) →
      (x.number ≠ row.number → exec c s = .next s) ∧
      (x.number = row.number → x.count ≠ row.words → exec c s = .next (s.finish mp .params [])) ∧
      (x.number = row.number → x.count = row.words → row.claim = true → s.holdsClaim mp = false →
        exec c s = .next (s.finish mp .claimNeeded []))) ∧
    ((∀ row ∈ commandTable, row.number ≠ x.number) →
      exec (.unknownCommand mp) s = .next (s.finish mp .unknown [])) ∧
    ((∃ row ∈ commandTable, row.number = x.number) → exec (.unknownCommand mp) s = .next s) ∧
    ∀ (code : ResultCode) (ws : List Word), ws.length ≤ 16 →
      let t := s.finish mp code ws
      t.port mp =
        { s.port mp with
          slot := none
          handshake := .done
          result := some ⟨code, ws ++ List.replicate (16 - ws.length) 0⟩ } ∧
      (∀ m, m ≠ mp → t.port m = s.port m) ∧ t = { s with ports := t.ports }

/-- CLAIM is granted when the claim is free and renewed for its holder, 1 to 120 s ahead, and refused CLAIMED to others
with the holder and the time left; the record is removed when the run counter reaches its expiry.
(Clauses of the model's own choosing or reading: log entries 2 and 3.) -/
def Obligations.ClaimIsGrantedRenewedAndExpires : Prop :=
  (∀ (s : State) (mp : Mp) (ws : List Word), s.waits mp .claim' ws →
    let lease := wordAt ws 0 % 2 ^ 8
    let held := { s with claim := some ⟨mp, s.run + lease * 1000⟩ }
    let words := pack [.bits 8 mp.val, .bits 48 (s.run + lease * 1000)]
    (lease = 0 ∨ 120 < lease → exec (.claim mp) s = .next (s.finish mp .range [])) ∧
    (1 ≤ lease → lease ≤ 120 →
      (s.claim = none → exec (.claim mp) s = .next ((held.post .claimTaken).finish mp .ok words)) ∧
      ∀ c, s.claim = some c →
        (c.holder = mp → exec (.claim mp) s = .next (held.finish mp .ok words)) ∧
        (c.holder ≠ mp → exec (.claim mp) s = .next
          (s.finish mp .claimed (pack [.bits 8 c.holder.val, .bits 48 (c.expiry - s.run)]))))) ∧
  ∀ s : State, s.resetHeld = false →
    (∀ c, s.claim = some c →
      (c.expiry ≤ s.run → exec .leaseExpiry s = .next ({ s with claim := none }.post .claimEnded)) ∧
      (s.run < c.expiry → exec .leaseExpiry s = .next s)) ∧
    (s.claim = none → exec .leaseExpiry s = .next s)

/-- RELEASE takes no parameters and needs no claim: from the holder it removes the claim record and posts CLAIM_ENDED in
every master's summary, and from any other master, or while the claim is free, it is refused NOT_HOLDER. -/
def Obligations.ReleaseEndsTheHoldersClaim : Prop :=
  ∀ (s : State) (mp : Mp) (ws : List Word), s.slotHas mp .release ws →
    ((∃ c, s.claim = some c ∧ c.holder = mp) →
      ∃ t : State, exec (.release mp) s = .next (t.finish mp .ok []) ∧ t = { s with claim := none, ports := t.ports } ∧
        ∀ m, t.port m = { s.port m with summary := (s.port m).summary ||| 0x0400#16 }) ∧
    ((∀ c ∈ s.claim, c.holder ≠ mp) → exec (.release mp) s = .next (s.finish mp .notHolder []))

/-- SENSE returns the summary as it stood at its beginning and, with the clear option, clears the flags it returned;
SET_EVENT_MASK replaces the port's own mask; the attention line is asserted while a flag is set and unmasked. The sixteen
events stand at bits 0 to 15 in the order of 10.1.
(Clauses of the model's own choosing or reading: log entries 15 and 23.) -/
def Obligations.SummariesAreSensedAndMasked : Prop :=
  ∀ (s : State) (mp : Mp), s.resetHeld = false →
    let p := s.port mp
    (∀ x option skipped, p.transaction = some x →
      let q := { p with transaction := none, dataOut := [x.header] ++ beBytes 2 x.summary.toNat }
      (option.getLsbD 0 = true →
        exec (.sense mp [option, skipped]) s = .next
          (s.setPort mp { q with summary := p.summary &&& ~~~x.summary })) ∧
      (option.getLsbD 0 = false → exec (.sense mp [option, skipped]) s = .next (s.setPort mp q))) ∧
    (∀ ws, s.slotHas mp .setEventMask ws →
      let mask := BitVec.ofNat 16 (wordAt ws 0)
      exec (.setEventMask mp) s = .next
        ((s.setPort mp { p with mask := mask }).finish mp .ok [BitVec.ofNat 128 (wordAt ws 0 % 2 ^ 16)])) ∧
    (s.attentionOutput mp = true ↔ ∃ k < 16, p.summary.getLsbD k = true ∧ p.mask.getLsbD k = false) ∧
    (∀ e : Event, p.has e = p.summary.getLsbD e.bit ∧
      (p.withFlag e).summary = p.summary ||| BitVec.ofNat 16 (2 ^ e.bit)) ∧
    [Event.restarted, .stateChanged, .gradeChanged, .selectionChanged, .refChanged, .stepTaken, .slewEnded, .leapTaken,
        .stepNeeded, .claimTaken, .claimEnded, .lineFault, .straggler, .clientLost, .outcomesReady,
        .outcomeOverrun].map Event.bit =
      [0, 1, 2, 3, 4, 5, 6, 7, 8, 9, 10, 11, 12, 13, 14, 15]

/-- READ_TABLE and READ_MORE need no claim and always complete. A table read returns the records of the occupied slots
from its start slot on, in increasing slot, as many as one result holds, and MORE with a cursor or END without one;
READ_MORE goes on from the cursor and is refused STATE where there is none. READ_TABLE's table and start slot stand in
bits 7:0 and 15:8, and an unassigned table or a slot past the table's last is refused RANGE. Each record holds its table's
items: a reference's those of R50, a line's of R118, a mark's of R96, a client's of R168, a port's of R151. The slots of the
mark records are in strictly increasing order, each that of a mark in the list, and those of the client records are too,
in a legal client table.
(Clauses of the model's own choosing or reading: log entries 14, 38 and 40.) -/
def Obligations.TableReadsReturnOccupiedSlots : Prop :=
  (∀ (ws : List Word) (c : Cursor), readTableParams ws = some c ↔
    bitsAt ws 0 0 8 = tableCode c.table ∧ bitsAt ws 0 8 8 = c.slot ∧ c.slot ≤ tableEnd c.table) ∧
  ∀ (s : State) (mp : Mp),
    let found (c : Cursor) := (s.records c.table).filter fun x => decide (c.slot ≤ x.1)
    let room (c : Cursor) : Nat := if c.table = .references then 2 else 1
    let got (c : Cursor) := (found c).take (room c)
    let more (c : Cursor) : Bool := decide (room c < (found c).length)
    let moved (c : Cursor) : State :=
      s.setPort mp
        { s.port mp with
          cursor := if more c then some ⟨c.table, ((got c).getLast?.map (·.1 + 1)).getD 0⟩ else none }
    let words (c : Cursor) : List Word :=
      pack ([.bits 8 (tableCode c.table), .bits 8 (got c).length] ++ ((got c).flatMap fun x => .newWord :: x.2)
        ++ [.newWord, .bits 8 (flagBit (more c))])
    (∀ ws, s.slotHas mp .readTable ws →
      (∀ c, readTableParams ws = some c → exec (.readTable mp) s = .next ((moved c).finish mp .ok (words c))) ∧
      (readTableParams ws = none → exec (.readTable mp) s = .next (s.finish mp .range []))) ∧
    (∀ ws, s.slotHas mp .readMore ws →
      (∀ c, (s.port mp).cursor = some c → exec (.readMore mp) s = .next ((moved c).finish mp .ok (words c))) ∧
      ((s.port mp).cursor = none → exec (.readMore mp) s = .next (s.finish mp .state []))) ∧
    s.records .references = (List.finRange 4).map (fun r => (r.val, s.referenceShort r)) ∧
    s.records .lines = (List.finRange 16).map (fun i => (i.val, s.lineValues i)) ∧
    s.records .ports = [(0, s.portShort .na), (1, s.portShort .nb)] ∧
    ((s.records .marks).map (·.1)).Pairwise (· < ·) ∧
    (∀ id, id ∈ (s.records .marks).map (·.1) ↔ id < 64 ∧ ∃ m ∈ s.marks, m.id = id) ∧
    (∀ x ∈ s.records .marks, ∃ m ∈ s.marks, m.id = x.1 ∧ x.2 = m.values) ∧
    s.records .clients = s.clients.entries.map (fun c => (c.slot, c.values)) ∧
    (s.clientsWf → ((s.records .clients).map (·.1)).Pairwise (· < ·))

/-- Parameters packed by 10.2 are read back as they were packed: an instant, and the settings of a line, of the engine,
of a reference and of the network, each at every value of its range. Each decoder answers exactly the values that stand in
its words' fields, where a code is assigned, a presence field is 0 or 1 and a quantity lies in its rule's range, and none
otherwise, which the owner refuses RANGE; the codes are those of 10.2. Results are packed so: each field in the next free
bits of the current word from bit 0 up, one that does not fit at bit 0 of the next, an instant in a word of its own.
(Clauses of the model's own choosing or reading: log entry 14.) -/
def Obligations.PackedParametersReadBack : Prop :=
  (∀ t : TimeValue, t.sec < 2 ^ 48 → t.ns < 10 ^ 9 → t.frac < 2 ^ 32 →
    instantOf (t.sec * 2 ^ 64 + t.ns * 2 ^ 32 + t.frac) = some (t.sec * 10 ^ 9 + t.ns)) ∧
  (∀ (i : LineId) (x : LineSettings), x.wf → setLineParams (pack (.bits 8 i.val :: x.fields)) = some (i, x)) ∧
  (∀ (x : EngineSettings) (limit : Nat), x.wf → 1 ≤ limit → limit ≤ 500 →
    setEngineParams (pack (x.fields ++ [.bits 16 limit])) = some (x, limit)) ∧
  (∀ (r : RefId) (x : RefSettings), x.wf → setReferenceParams (pack (.bits 8 r.val :: x.fields)) = some (r, x)) ∧
  (∀ x : NetSettings, x.wf → setNetworkParams (pack x.fields) = some x) ∧
  [RefKind.off, .receiver, .link, .pulseOnly].map RefKind.code = [0, 1, 2, 3] ∧
  [Edge.rising, .falling].map Edge.code = [0, 1] ∧
  [LineMode.off, .pulse, .coded, .marks].map LineMode.code = [0, 1, 2, 3] ∧
  [LinePolarity.activeHigh, .activeLow].map LinePolarity.code = [0, 1] ∧
  [EngineState.freerun, .acquiring, .locked, .holdover, .pinned].map EngineState.code = [0, 1, 2, 3, 4] ∧
  (∀ r : RefId, (Origin.ref r).code = r.val) ∧ (∀ mp : Mp, (Origin.master mp).code = 16 + mp.val) ∧
  Origin.engine.code = 32 ∧ [LeapKind.insert, .delete].map LeapKind.code = [1, 2] ∧
  [LeapPhase.pending, .inserting].map LeapPhase.code = [0, 1] ∧
  (∀ d, [Announcement.none, .insert d, .delete d].map Announcement.code = [0, 1, 2]) ∧
  [SlewOutcome.done, .cancelled].map SlewOutcome.code = [0, 1] ∧
  [MarkOutcome.completed, .cancelled].map MarkOutcome.code = [0, 1] ∧
  [LineState.off, .running, .faulted].map LineState.code = [0, 1, 2] ∧
  [PortState.disabled, .down, .active].map PortState.code = [0, 1, 2] ∧
  [LinkState.down, .up].map LinkState.code = [0, 1] ∧
  [ClientState.new, .tracked, .straggler].map ClientState.code = [0, 1, 2] ∧ [NetId.na, .nb].map NetId.code = [0, 1] ∧
  [EngineAction.initialStep, .autoStep, .slew, .stepNeeded, .loop, .ignored].map EngineAction.code = [0, 1, 2, 3, 4, 5] ∧
  pack [] = [] ∧
  (∀ before after : List Field, ∀ v,
    pack (before ++ .newWord :: after) = pack before ++ pack after ∧
      pack (before ++ .instant v :: after) = pack before ++ BitVec.ofNat 128 v :: pack after) ∧
  (∀ fields : List (Nat × Nat), 0 < (fields.map (·.1)).sum → (fields.map (·.1)).sum ≤ 128 →
    pack (fields.map fun x => .bits x.1 x.2) = [wordOf fields] ∧
      ∀ w v after, 128 < (fields.map (·.1)).sum + w →
        pack ((fields.map fun x => .bits x.1 x.2) ++ .bits w v :: after) =
          wordOf fields :: pack (.bits w v :: after)) ∧
  ∀ ws : List Word,
    let at' := bitsAt ws
    (∀ t u, setTimeParams ws = some (t, u) ↔
      at' 0 64 64 < 2 ^ 48 ∧ at' 0 32 32 < 10 ^ 9 ∧ t = at' 0 64 64 * 10 ^ 9 + at' 0 32 32 ∧ u = at' 1 0 32) ∧
    (∀ i clear, senseLineParams ws = some (i, clear) ↔ at' 0 0 8 = i.val ∧ at' 0 8 8 = flagBit clear) ∧
    (∀ i x, setLineParams ws = some (i, x) ↔
      x.wf ∧ at' 0 0 8 = i.val ∧ at' 0 8 8 = x.mode.code ∧ at' 0 16 8 = x.polarity.code ∧ at' 0 24 16 = x.compensation ∧
        at' 0 40 16 = x.period ∧ at' 0 56 32 = x.width ∧ optionAt (at' 0 88 8) (at' 0 96 8) (x.gate.map (·.val))) ∧
    (∀ x limit, setEngineParams ws = some (x, limit) ↔
      x.wf ∧ (1 ≤ limit ∧ limit ≤ 500) ∧ at' 0 0 16 = x.timeConstant ∧ at' 0 16 32 = x.lockWindow ∧
        at' 0 48 8 = x.lockCount ∧ at' 0 56 32 = x.threshold ∧ at' 0 88 8 = flagBit x.autoStep ∧ at' 0 96 32 = x.growth ∧
        at' 1 0 16 = limit) ∧
    (∀ r x, setReferenceParams ws = some (r, x) ↔
      x.wf ∧ at' 0 0 8 = r.val ∧ at' 0 8 8 = x.kind.code ∧ at' 0 16 8 = x.priority ∧ at' 0 24 16 = x.compensation ∧
        at' 0 40 8 = Edge.code x.polarity ∧ at' 0 48 16 = x.accuracy ∧ at' 0 64 8 = x.qualifyCount ∧
        at' 0 72 16 = x.holdOff ∧ at' 0 88 32 = x.phaseLimit ∧ at' 1 0 32 = x.baud) ∧
    (∀ x, setNetworkParams ws = some x ↔
      x.wf ∧ at' 0 0 8 = flagBit (x.enable.get .na) ∧ at' 0 8 8 = flagBit (x.enable.get .nb) ∧
        at' 0 16 48 = x.address.toNat ∧ at' 0 64 16 = x.interval ∧ at' 0 80 16 = x.spacing ∧
        at' 0 96 32 = x.stragglerLimit ∧ at' 1 0 8 = x.idleLimit) ∧
    ∀ p, addMarkParams ws = some p ↔
      p.lines ≠ 0 ∧ (1 ≤ p.width ∧ p.width ≤ 500000) ∧
        (∀ k, p.period = some k → 1 ≤ k ∧ k ≤ 86400000 ∧ p.width < k * 1000) ∧
        (∀ n, p.remaining = some n → 1 ≤ n ∧ n ≤ 65535 ∧ p.period ≠ none) ∧ (∀ g, p.minGrade = some g → g.val ≤ 6) ∧
        at' 0 0 16 = p.lines.toNat ∧ at' 1 64 64 < 2 ^ 48 ∧ at' 1 32 32 < 10 ^ 9 ∧
        p.due = at' 1 64 64 * 10 ^ 9 + at' 1 32 32 ∧ at' 2 0 32 = p.width ∧ optionAt (at' 2 32 8) (at' 2 40 32) p.period ∧
        optionAt (at' 2 72 8) (at' 2 80 16) p.remaining ∧ optionAt (at' 2 96 8) (at' 2 104 8) (p.minGrade.map (·.val)) ∧
        at' 2 112 16 = p.tag

/-! ### What every step keeps -/

/-- Every step keeps the timescale unit legal: its fields in range, the rates and offsets within their limits, a slew
within its amount, a leap record with room for its change.
(Clauses of the model's own choosing or reading: log entries 1 and 8.) -/
def Obligations.StepKeepsTheTimescaleUnit : Prop := ∀ s t : State, s.timeWf → step s = .next t → t.timeWf

/-- Every step keeps each reference record legal: its settings in range, each part of its dynamic state only in the states
that have it, its good-measurement run below the qualify count in QUALIFYING and 0 outside QUALIFYING and USABLE, no
consecutive count above 2 in USABLE.
(Clauses of the model's own choosing or reading: log entry 1.) -/
def Obligations.StepKeepsTheReferences : Prop := ∀ s t : State, s.refsWf → step s = .next t → t.refsWf

/-- Every step keeps the engine legal: a selection exactly in ACQUIRING and LOCKED, and then a USABLE one; U unset exactly
in FREERUN.
(Clauses of the model's own choosing or reading: log entry 1.) -/
def Obligations.StepKeepsTheEngine : Prop := ∀ s t : State, s.engineWf → step s = .next t → t.engineWf

/-- Every step keeps the mark list in order and within its limits, and the outcome queues too.
(Clauses of the model's own choosing or reading: log entry 1.) -/
def Obligations.StepKeepsTheMarks : Prop := ∀ s t : State, s.marksWf → step s = .next t → t.marksWf

/-- Every step keeps each line legal: an emission of its mode's kind on a RUNNING line alone, commitments in order and
at most 64.
(Clauses of the model's own choosing or reading: log entry 1.) -/
def Obligations.StepKeepsTheLines : Prop := ∀ s t : State, s.linesWf → step s = .next t → t.linesWf

/-- Every step keeps the network ports legal: nothing queued, pending or on the wire out of ACTIVE, and nothing waiting
for an idle wire.
(Clauses of the model's own choosing or reading: log entry 1.) -/
def Obligations.StepKeepsTheNetwork : Prop := ∀ s t : State, s.netWf → step s = .next t → t.netWf

/-- Every step keeps the client table legal: entries in slot order, no two with one address, each with a sub-record.
(Clauses of the model's own choosing or reading: log entry 1.) -/
def Obligations.StepKeepsTheClients : Prop := ∀ s t : State, s.clientsWf → step s = .next t → t.clientsWf

/-- Every step keeps each mailbox legal: BUSY exactly while a command waits, a result in DONE, 16 words in each area.
(Clauses of the model's own choosing or reading: log entry 1.) -/
def Obligations.StepKeepsThePorts : Prop := ∀ s t : State, s.portsWf → step s = .next t → t.portsWf
end

