-- ==== Sys2Proof/Laws/State.lean ====
section
/-! SUPPORT. What each update of the state does to each field, true by computation, and the laws of the containers of
like things. -/

namespace Sys2Proof.Machine

open Sys2Proof

/-! ### Containers -/

@[simp] theorem Four.get_all {α : Type} (x : α) (i : Fin 4) : (Four.all x).get i = x := by
  fin_cases i <;> rfl

@[simp] theorem Four.get_set_same {α : Type} (q : Four α) (i : Fin 4) (x : α) : (q.set i x).get i = x := by
  fin_cases i <;> rfl

theorem Four.get_set_other {α : Type} (q : Four α) {i j : Fin 4} (h : j ≠ i) (x : α) :
    (q.set i x).get j = q.get j := by
  fin_cases i <;> fin_cases j <;> first | rfl | exact absurd rfl h

@[simp] theorem Four.get_map {α β : Type} (f : α → β) (q : Four α) (i : Fin 4) : (q.map f).get i = f (q.get i) := by
  fin_cases i <;> rfl

@[simp] theorem Four.set_get {α : Type} (q : Four α) (i : Fin 4) : q.set i (q.get i) = q := by
  fin_cases i <;> rfl

theorem lineRow_column_injective {i j : LineId} (hr : lineRow i = lineRow j) (hc : lineColumn i = lineColumn j) :
    i = j := by
  have h1 : i.val / 4 = j.val / 4 := congrArg Fin.val hr
  have h2 : i.val % 4 = j.val % 4 := congrArg Fin.val hc
  exact Fin.ext (by omega)

@[simp] theorem Sixteen.get_all {α : Type} (x : α) (i : LineId) : (Sixteen.all x).get i = x := by
  simp [Sixteen.get, Sixteen.all]

@[simp] theorem Sixteen.get_set_same {α : Type} (q : Sixteen α) (i : LineId) (x : α) : (q.set i x).get i = x := by
  simp [Sixteen.get, Sixteen.set]

theorem Sixteen.get_set_other {α : Type} (q : Sixteen α) {i j : LineId} (h : j ≠ i) (x : α) :
    (q.set i x).get j = q.get j := by
  unfold Sixteen.get Sixteen.set
  by_cases hr : lineRow j = lineRow i
  · have hc : lineColumn j ≠ lineColumn i := fun hc => h (lineRow_column_injective hr hc)
    simp [hr, Four.get_set_other _ hc]
  · simp [Four.get_set_other _ hr]

@[simp] theorem Sixteen.get_map {α β : Type} (f : α → β) (q : Sixteen α) (i : LineId) :
    (q.map f).get i = f (q.get i) := by
  simp [Sixteen.get, Sixteen.map]

@[simp] theorem Four.get_mapIdx {α β : Type} (f : Fin 4 → α → β) (q : Four α) (i : Fin 4) :
    (q.mapIdx f).get i = f i (q.get i) := by
  fin_cases i <;> rfl

theorem lineAt_row_column (i : LineId) : lineAt (lineRow i) (lineColumn i) = i :=
  Fin.ext (by simp only [lineAt, lineRow, lineColumn]; omega)

@[simp] theorem Sixteen.get_mapIdx {α β : Type} (f : LineId → α → β) (q : Sixteen α) (i : LineId) :
    (q.mapIdx f).get i = f i (q.get i) := by
  simp [Sixteen.get, Sixteen.mapIdx, lineAt_row_column]

@[simp] theorem Two.get_all {α : Type} (x : α) (p : NetId) : (Two.all x).get p = x := by cases p <;> rfl

@[simp] theorem Two.get_set_same {α : Type} (q : Two α) (p : NetId) (x : α) : (q.set p x).get p = x := by
  cases p <;> rfl

theorem Two.get_set_other {α : Type} (q : Two α) {p p' : NetId} (h : p' ≠ p) (x : α) :
    (q.set p x).get p' = q.get p' := by
  cases p <;> cases p' <;> first | rfl | exact absurd rfl h

@[simp] theorem Two.get_map {α β : Type} (f : α → β) (q : Two α) (p : NetId) : (q.map f).get p = f (q.get p) := by
  cases p <;> rfl

/-! ### Like things of the state -/

@[simp] theorem State.ref_setRef (s : State) (r : RefId) (x : Reference) : (s.setRef r x).ref r = x := by
  simp [State.ref, State.setRef]

theorem State.ref_setRef_other (s : State) {r r' : RefId} (h : r' ≠ r) (x : Reference) :
    (s.setRef r x).ref r' = s.ref r' := by
  simp [State.ref, State.setRef, Four.get_set_other _ h]

@[simp] theorem State.line_setLine (s : State) (i : LineId) (x : Line) : (s.setLine i x).line i = x := by
  simp [State.line, State.setLine]

theorem State.line_setLine_other (s : State) {i j : LineId} (h : j ≠ i) (x : Line) :
    (s.setLine i x).line j = s.line j := by
  simp [State.line, State.setLine, Sixteen.get_set_other _ h]

@[simp] theorem State.port_setPort (s : State) (mp : Mp) (x : MasterPort) : (s.setPort mp x).port mp = x := by
  simp [State.port, State.setPort]

theorem State.port_setPort_other (s : State) {mp m : Mp} (h : m ≠ mp) (x : MasterPort) :
    (s.setPort mp x).port m = s.port m := by
  simp [State.port, State.setPort, Four.get_set_other _ h]

@[simp] theorem State.netPort_setNetPort (s : State) (p : NetId) (x : NetPort) : (s.setNetPort p x).netPort p = x := by
  simp [State.netPort, State.setNetPort]

theorem State.netPort_setNetPort_other (s : State) {p p' : NetId} (h : p' ≠ p) (x : NetPort) :
    (s.setNetPort p x).netPort p' = s.netPort p' := by
  simp [State.netPort, State.setNetPort, Two.get_set_other _ h]

@[simp] theorem State.queue_setQueue (s : State) (mp : Mp) (q : List Outcome) : (s.setQueue mp q).queue mp = q := by
  simp [State.queue, State.setQueue]

theorem State.queue_setQueue_other (s : State) {mp m : Mp} (h : m ≠ mp) (q : List Outcome) :
    (s.setQueue mp q).queue m = s.queue m := by
  simp [State.queue, State.setQueue, Four.get_set_other _ h]

@[simp] theorem State.port_post (s : State) (e : Event) (mp : Mp) : (s.post e).port mp = (s.port mp).withFlag e := by
  simp [State.port, State.post]

/-! ### setTs -/

@[simp] theorem State.pending_setTs (s : State) (x : TimescaleUnit) : (s.setTs x).pending = s.pending := rfl
@[simp] theorem State.resetHeld_setTs (s : State) (x : TimescaleUnit) : (s.setTs x).resetHeld = s.resetHeld := rfl
@[simp] theorem State.ts_setTs (s : State) (x : TimescaleUnit) : (s.setTs x).ts = x := rfl
@[simp] theorem State.refs_setTs (s : State) (x : TimescaleUnit) : (s.setTs x).refs = s.refs := rfl
@[simp] theorem State.engine_setTs (s : State) (x : TimescaleUnit) : (s.setTs x).engine = s.engine := rfl
@[simp] theorem State.marks_setTs (s : State) (x : TimescaleUnit) : (s.setTs x).marks = s.marks := rfl
@[simp] theorem State.outcomes_setTs (s : State) (x : TimescaleUnit) : (s.setTs x).outcomes = s.outcomes := rfl
@[simp] theorem State.lines_setTs (s : State) (x : TimescaleUnit) : (s.setTs x).lines = s.lines := rfl
@[simp] theorem State.composer_setTs (s : State) (x : TimescaleUnit) : (s.setTs x).composer = s.composer := rfl
@[simp] theorem State.net_setTs (s : State) (x : TimescaleUnit) : (s.setTs x).net = s.net := rfl
@[simp] theorem State.clients_setTs (s : State) (x : TimescaleUnit) : (s.setTs x).clients = s.clients := rfl
@[simp] theorem State.ports_setTs (s : State) (x : TimescaleUnit) : (s.setTs x).ports = s.ports := rfl
@[simp] theorem State.claim_setTs (s : State) (x : TimescaleUnit) : (s.setTs x).claim = s.claim := rfl

/-! ### setEngine -/

@[simp] theorem State.pending_setEngine (s : State) (x : Engine) : (s.setEngine x).pending = s.pending := rfl
@[simp] theorem State.resetHeld_setEngine (s : State) (x : Engine) : (s.setEngine x).resetHeld = s.resetHeld := rfl
@[simp] theorem State.ts_setEngine (s : State) (x : Engine) : (s.setEngine x).ts = s.ts := rfl
@[simp] theorem State.refs_setEngine (s : State) (x : Engine) : (s.setEngine x).refs = s.refs := rfl
@[simp] theorem State.engine_setEngine (s : State) (x : Engine) : (s.setEngine x).engine = x := rfl
@[simp] theorem State.marks_setEngine (s : State) (x : Engine) : (s.setEngine x).marks = s.marks := rfl
@[simp] theorem State.outcomes_setEngine (s : State) (x : Engine) : (s.setEngine x).outcomes = s.outcomes := rfl
@[simp] theorem State.lines_setEngine (s : State) (x : Engine) : (s.setEngine x).lines = s.lines := rfl
@[simp] theorem State.composer_setEngine (s : State) (x : Engine) : (s.setEngine x).composer = s.composer := rfl
@[simp] theorem State.net_setEngine (s : State) (x : Engine) : (s.setEngine x).net = s.net := rfl
@[simp] theorem State.clients_setEngine (s : State) (x : Engine) : (s.setEngine x).clients = s.clients := rfl
@[simp] theorem State.ports_setEngine (s : State) (x : Engine) : (s.setEngine x).ports = s.ports := rfl
@[simp] theorem State.claim_setEngine (s : State) (x : Engine) : (s.setEngine x).claim = s.claim := rfl

/-! ### setRef -/

@[simp] theorem State.pending_setRef (s : State) (r : RefId) (x : Reference) : (s.setRef r x).pending = s.pending := rfl
@[simp] theorem State.resetHeld_setRef (s : State) (r : RefId) (x : Reference) :
    (s.setRef r x).resetHeld = s.resetHeld := rfl
@[simp] theorem State.ts_setRef (s : State) (r : RefId) (x : Reference) : (s.setRef r x).ts = s.ts := rfl
@[simp] theorem State.refs_setRef (s : State) (r : RefId) (x : Reference) : (s.setRef r x).refs = s.refs.set r x := rfl
@[simp] theorem State.engine_setRef (s : State) (r : RefId) (x : Reference) : (s.setRef r x).engine = s.engine := rfl
@[simp] theorem State.marks_setRef (s : State) (r : RefId) (x : Reference) : (s.setRef r x).marks = s.marks := rfl
@[simp] theorem State.outcomes_setRef (s : State) (r : RefId) (x : Reference) :
    (s.setRef r x).outcomes = s.outcomes := rfl
@[simp] theorem State.lines_setRef (s : State) (r : RefId) (x : Reference) : (s.setRef r x).lines = s.lines := rfl
@[simp] theorem State.composer_setRef (s : State) (r : RefId) (x : Reference) :
    (s.setRef r x).composer = s.composer := rfl
@[simp] theorem State.net_setRef (s : State) (r : RefId) (x : Reference) : (s.setRef r x).net = s.net := rfl
@[simp] theorem State.clients_setRef (s : State) (r : RefId) (x : Reference) : (s.setRef r x).clients = s.clients := rfl
@[simp] theorem State.ports_setRef (s : State) (r : RefId) (x : Reference) : (s.setRef r x).ports = s.ports := rfl
@[simp] theorem State.claim_setRef (s : State) (r : RefId) (x : Reference) : (s.setRef r x).claim = s.claim := rfl

/-! ### setLine -/

@[simp] theorem State.pending_setLine (s : State) (i : LineId) (x : Line) : (s.setLine i x).pending = s.pending := rfl
@[simp] theorem State.resetHeld_setLine (s : State) (i : LineId) (x : Line) :
    (s.setLine i x).resetHeld = s.resetHeld := rfl
@[simp] theorem State.ts_setLine (s : State) (i : LineId) (x : Line) : (s.setLine i x).ts = s.ts := rfl
@[simp] theorem State.refs_setLine (s : State) (i : LineId) (x : Line) : (s.setLine i x).refs = s.refs := rfl
@[simp] theorem State.engine_setLine (s : State) (i : LineId) (x : Line) : (s.setLine i x).engine = s.engine := rfl
@[simp] theorem State.marks_setLine (s : State) (i : LineId) (x : Line) : (s.setLine i x).marks = s.marks := rfl
@[simp] theorem State.outcomes_setLine (s : State) (i : LineId) (x : Line) :
    (s.setLine i x).outcomes = s.outcomes := rfl
@[simp] theorem State.lines_setLine (s : State) (i : LineId) (x : Line) : (s.setLine i x).lines = s.lines.set i x := rfl
@[simp] theorem State.composer_setLine (s : State) (i : LineId) (x : Line) :
    (s.setLine i x).composer = s.composer := rfl
@[simp] theorem State.net_setLine (s : State) (i : LineId) (x : Line) : (s.setLine i x).net = s.net := rfl
@[simp] theorem State.clients_setLine (s : State) (i : LineId) (x : Line) : (s.setLine i x).clients = s.clients := rfl
@[simp] theorem State.ports_setLine (s : State) (i : LineId) (x : Line) : (s.setLine i x).ports = s.ports := rfl
@[simp] theorem State.claim_setLine (s : State) (i : LineId) (x : Line) : (s.setLine i x).claim = s.claim := rfl

/-! ### setPort -/

@[simp] theorem State.pending_setPort (s : State) (mp : Mp) (x : MasterPort) :
    (s.setPort mp x).pending = s.pending := rfl
@[simp] theorem State.resetHeld_setPort (s : State) (mp : Mp) (x : MasterPort) :
    (s.setPort mp x).resetHeld = s.resetHeld := rfl
@[simp] theorem State.ts_setPort (s : State) (mp : Mp) (x : MasterPort) : (s.setPort mp x).ts = s.ts := rfl
@[simp] theorem State.refs_setPort (s : State) (mp : Mp) (x : MasterPort) : (s.setPort mp x).refs = s.refs := rfl
@[simp] theorem State.engine_setPort (s : State) (mp : Mp) (x : MasterPort) : (s.setPort mp x).engine = s.engine := rfl
@[simp] theorem State.marks_setPort (s : State) (mp : Mp) (x : MasterPort) : (s.setPort mp x).marks = s.marks := rfl
@[simp] theorem State.outcomes_setPort (s : State) (mp : Mp) (x : MasterPort) :
    (s.setPort mp x).outcomes = s.outcomes := rfl
@[simp] theorem State.lines_setPort (s : State) (mp : Mp) (x : MasterPort) : (s.setPort mp x).lines = s.lines := rfl
@[simp] theorem State.composer_setPort (s : State) (mp : Mp) (x : MasterPort) :
    (s.setPort mp x).composer = s.composer := rfl
@[simp] theorem State.net_setPort (s : State) (mp : Mp) (x : MasterPort) : (s.setPort mp x).net = s.net := rfl
@[simp] theorem State.clients_setPort (s : State) (mp : Mp) (x : MasterPort) :
    (s.setPort mp x).clients = s.clients := rfl
@[simp] theorem State.ports_setPort (s : State) (mp : Mp) (x : MasterPort) :
    (s.setPort mp x).ports = s.ports.set mp x := rfl
@[simp] theorem State.claim_setPort (s : State) (mp : Mp) (x : MasterPort) : (s.setPort mp x).claim = s.claim := rfl

/-! ### setNetPort -/

@[simp] theorem State.pending_setNetPort (s : State) (p : NetId) (x : NetPort) :
    (s.setNetPort p x).pending = s.pending := rfl
@[simp] theorem State.resetHeld_setNetPort (s : State) (p : NetId) (x : NetPort) :
    (s.setNetPort p x).resetHeld = s.resetHeld := rfl
@[simp] theorem State.ts_setNetPort (s : State) (p : NetId) (x : NetPort) : (s.setNetPort p x).ts = s.ts := rfl
@[simp] theorem State.refs_setNetPort (s : State) (p : NetId) (x : NetPort) : (s.setNetPort p x).refs = s.refs := rfl
@[simp] theorem State.engine_setNetPort (s : State) (p : NetId) (x : NetPort) :
    (s.setNetPort p x).engine = s.engine := rfl
@[simp] theorem State.marks_setNetPort (s : State) (p : NetId) (x : NetPort) : (s.setNetPort p x).marks = s.marks := rfl
@[simp] theorem State.outcomes_setNetPort (s : State) (p : NetId) (x : NetPort) :
    (s.setNetPort p x).outcomes = s.outcomes := rfl
@[simp] theorem State.lines_setNetPort (s : State) (p : NetId) (x : NetPort) : (s.setNetPort p x).lines = s.lines := rfl
@[simp] theorem State.composer_setNetPort (s : State) (p : NetId) (x : NetPort) :
    (s.setNetPort p x).composer = s.composer := rfl
@[simp] theorem State.net_setNetPort (s : State) (p : NetId) (x : NetPort) :
    (s.setNetPort p x).net = { s.net with ports := s.net.ports.set p x } := rfl
@[simp] theorem State.clients_setNetPort (s : State) (p : NetId) (x : NetPort) :
    (s.setNetPort p x).clients = s.clients := rfl
@[simp] theorem State.ports_setNetPort (s : State) (p : NetId) (x : NetPort) : (s.setNetPort p x).ports = s.ports := rfl
@[simp] theorem State.claim_setNetPort (s : State) (p : NetId) (x : NetPort) : (s.setNetPort p x).claim = s.claim := rfl

/-! ### setQueue -/

@[simp] theorem State.pending_setQueue (s : State) (mp : Mp) (q : List Outcome) :
    (s.setQueue mp q).pending = s.pending := rfl
@[simp] theorem State.resetHeld_setQueue (s : State) (mp : Mp) (q : List Outcome) :
    (s.setQueue mp q).resetHeld = s.resetHeld := rfl
@[simp] theorem State.ts_setQueue (s : State) (mp : Mp) (q : List Outcome) : (s.setQueue mp q).ts = s.ts := rfl
@[simp] theorem State.refs_setQueue (s : State) (mp : Mp) (q : List Outcome) : (s.setQueue mp q).refs = s.refs := rfl
@[simp] theorem State.engine_setQueue (s : State) (mp : Mp) (q : List Outcome) :
    (s.setQueue mp q).engine = s.engine := rfl
@[simp] theorem State.marks_setQueue (s : State) (mp : Mp) (q : List Outcome) : (s.setQueue mp q).marks = s.marks := rfl
@[simp] theorem State.outcomes_setQueue (s : State) (mp : Mp) (q : List Outcome) :
    (s.setQueue mp q).outcomes = s.outcomes.set mp q := rfl
@[simp] theorem State.lines_setQueue (s : State) (mp : Mp) (q : List Outcome) : (s.setQueue mp q).lines = s.lines := rfl
@[simp] theorem State.composer_setQueue (s : State) (mp : Mp) (q : List Outcome) :
    (s.setQueue mp q).composer = s.composer := rfl
@[simp] theorem State.net_setQueue (s : State) (mp : Mp) (q : List Outcome) : (s.setQueue mp q).net = s.net := rfl
@[simp] theorem State.clients_setQueue (s : State) (mp : Mp) (q : List Outcome) :
    (s.setQueue mp q).clients = s.clients := rfl
@[simp] theorem State.ports_setQueue (s : State) (mp : Mp) (q : List Outcome) : (s.setQueue mp q).ports = s.ports := rfl
@[simp] theorem State.claim_setQueue (s : State) (mp : Mp) (q : List Outcome) : (s.setQueue mp q).claim = s.claim := rfl

/-! ### post -/

@[simp] theorem State.pending_post (s : State) (e : Event) : (s.post e).pending = s.pending := rfl
@[simp] theorem State.resetHeld_post (s : State) (e : Event) : (s.post e).resetHeld = s.resetHeld := rfl
@[simp] theorem State.ts_post (s : State) (e : Event) : (s.post e).ts = s.ts := rfl
@[simp] theorem State.refs_post (s : State) (e : Event) : (s.post e).refs = s.refs := rfl
@[simp] theorem State.engine_post (s : State) (e : Event) : (s.post e).engine = s.engine := rfl
@[simp] theorem State.marks_post (s : State) (e : Event) : (s.post e).marks = s.marks := rfl
@[simp] theorem State.outcomes_post (s : State) (e : Event) : (s.post e).outcomes = s.outcomes := rfl
@[simp] theorem State.lines_post (s : State) (e : Event) : (s.post e).lines = s.lines := rfl
@[simp] theorem State.composer_post (s : State) (e : Event) : (s.post e).composer = s.composer := rfl
@[simp] theorem State.net_post (s : State) (e : Event) : (s.post e).net = s.net := rfl
@[simp] theorem State.clients_post (s : State) (e : Event) : (s.post e).clients = s.clients := rfl
@[simp] theorem State.ports_post (s : State) (e : Event) : (s.post e).ports = s.ports.map (·.withFlag e) := rfl
@[simp] theorem State.claim_post (s : State) (e : Event) : (s.post e).claim = s.claim := rfl

/-! ### finish -/

@[simp] theorem State.pending_finish (s : State) (mp : Mp) (c : ResultCode) (ws : List Word) :
    (s.finish mp c ws).pending = s.pending := rfl
@[simp] theorem State.resetHeld_finish (s : State) (mp : Mp) (c : ResultCode) (ws : List Word) :
    (s.finish mp c ws).resetHeld = s.resetHeld := rfl
@[simp] theorem State.ts_finish (s : State) (mp : Mp) (c : ResultCode) (ws : List Word) :
    (s.finish mp c ws).ts = s.ts := rfl
@[simp] theorem State.refs_finish (s : State) (mp : Mp) (c : ResultCode) (ws : List Word) :
    (s.finish mp c ws).refs = s.refs := rfl
@[simp] theorem State.engine_finish (s : State) (mp : Mp) (c : ResultCode) (ws : List Word) :
    (s.finish mp c ws).engine = s.engine := rfl
@[simp] theorem State.marks_finish (s : State) (mp : Mp) (c : ResultCode) (ws : List Word) :
    (s.finish mp c ws).marks = s.marks := rfl
@[simp] theorem State.outcomes_finish (s : State) (mp : Mp) (c : ResultCode) (ws : List Word) :
    (s.finish mp c ws).outcomes = s.outcomes := rfl
@[simp] theorem State.lines_finish (s : State) (mp : Mp) (c : ResultCode) (ws : List Word) :
    (s.finish mp c ws).lines = s.lines := rfl
@[simp] theorem State.composer_finish (s : State) (mp : Mp) (c : ResultCode) (ws : List Word) :
    (s.finish mp c ws).composer = s.composer := rfl
@[simp] theorem State.net_finish (s : State) (mp : Mp) (c : ResultCode) (ws : List Word) :
    (s.finish mp c ws).net = s.net := rfl
@[simp] theorem State.clients_finish (s : State) (mp : Mp) (c : ResultCode) (ws : List Word) :
    (s.finish mp c ws).clients = s.clients := rfl
@[simp] theorem State.ports_finish (s : State) (mp : Mp) (c : ResultCode) (ws : List Word) :
    (s.finish mp c ws).ports =
      s.ports.set mp { s.port mp with slot := none, result := some ⟨c, resultWords ws⟩, handshake := .done } := rfl
@[simp] theorem State.claim_finish (s : State) (mp : Mp) (c : ResultCode) (ws : List Word) :
    (s.finish mp c ws).claim = s.claim := rfl

end Sys2Proof.Machine
end

