-- ==== Sys2Proof/Laws/Timescale.lean ====
section
/-! SUPPORT. Everything that the operations of the timescale unit can do: the advance of a tick, the cancelling of a slew,
the aligning of a leap record, and the flags of posted events. -/

namespace Sys2Proof.Machine

open Sys2Proof

/-! ### Trains of instants -/

/-- The latest multiple of `span` less `early` is the one not after the timescale that no later one follows up to it. -/
theorem State.latestMultiple_iff (s : State) {span : Nat} (early : Nat) (hs : 0 < span) (t : Int) :
    t = s.latestMultiple span early ↔ (t + early) % (span : Int) = 0 ∧ t ≤ s.nowNs ∧ (s.nowNs : Int) < t + span := by
  have hsplit := Nat.div_add_mod' (s.nowNs + early) span
  have hlt := Nat.mod_lt (s.nowNs + early) hs
  unfold State.latestMultiple
  constructor
  · rintro rfl
    refine ⟨?_, ?_, ?_⟩
    · rw [Int.sub_add_cancel]
      exact_mod_cast Nat.mul_mod_left _ _
    all_goals
      generalize (s.nowNs + early) / span * span = a at *
      generalize (s.nowNs + early) % span = b at *
      omega
  · rintro ⟨hd, hle, hgt⟩
    obtain ⟨q, hq⟩ := Int.dvd_of_emod_eq_zero hd
    have hq0 : 0 ≤ q := by
      by_contra hneg
      have : (span : Int) * q ≤ span * (-1) := Int.mul_le_mul_of_nonneg_left (by omega) (by omega)
      omega
    obtain ⟨n, rfl⟩ := Int.eq_ofNat_of_zero_le hq0
    have hn : (s.nowNs + early) / span = n := by
      refine Nat.div_eq_of_lt_le ?_ ?_
      · have : ((n * span : Nat) : Int) = span * n := by push_cast; ring
        omega
      · have : (((n + 1) * span : Nat) : Int) = span * n + span := by push_cast; ring
        omega
    rw [hn]
    have : ((n * span : Nat) : Int) = span * n := by push_cast; ring
    omega

/-! ### Flags -/

theorem Event.bit_lt (e : Event) : e.bit < 16 := by cases e <;> decide

theorem Event.flag_eq (e : Event) : e.flag = BitVec.twoPow 16 e.bit := by cases e <;> rfl

/-- A flag is set when its bit is set. -/
theorem MasterPort.has_eq_getLsbD (p : MasterPort) (e : Event) : p.has e = p.summary.getLsbD e.bit := by
  rw [MasterPort.has, Event.flag_eq, BitVec.and_twoPow]
  cases h : p.summary.getLsbD e.bit with
  | false => simp
  | true => cases e <;> rfl

/-- Two events share a bit only when they are one. -/
theorem Event.bit_injective {a b : Event} (h : a.bit = b.bit) : a = b := by
  cases a <;> cases b <;> first | rfl | cases h

/-- Posting an event sets its flag and leaves every other flag as it was. -/
theorem MasterPort.has_withFlag (p : MasterPort) (e f : Event) : (p.withFlag e).has f = (decide (e = f) || p.has f) := by
  rw [MasterPort.has_eq_getLsbD, MasterPort.has_eq_getLsbD]
  have h : e.flag.getLsbD f.bit = decide (e = f) := by cases e <;> cases f <;> decide
  simp only [MasterPort.withFlag, BitVec.getLsbD_or, h, Bool.or_comm]

@[simp] theorem MasterPort.has_withFlag_same (p : MasterPort) (e : Event) : (p.withFlag e).has e = true := by
  simp [MasterPort.has_withFlag]

/-- A flag that is set stays set when another event is posted (R181). -/
theorem MasterPort.has_withFlag_of_has {p : MasterPort} {f : Event} (h : p.has f = true) (e : Event) :
    (p.withFlag e).has f = true := by
  simp [MasterPort.has_withFlag, h]

/-! ### The advance -/

/-- The slew part of a tick is at most 500 ppm of it (R9, R10). -/
theorem TimescaleUnit.slewPart_ge {ts : TimescaleUnit} (h : ts.slewLimit ≤ 500) :
    -(slewPartAt 500) ≤ ts.slewPart := by
  unfold TimescaleUnit.slewPart
  split
  · decide
  · simp only [slewAdvance, slewPartAt, Config.fracRange]
    split <;> omega

/-- The advance of a tick is positive: the slew part is at most 500 ppm and the rate at most 200 ppm (R2). -/
theorem TimescaleUnit.advance_eq {ts : TimescaleUnit} (h : ts.wf) :
    (ts.advance : Int) = 4 * Config.fracRange * (Config.pptOne + ts.rate) + ts.slewPart := by
  obtain ⟨_, _, ⟨hr, _⟩, _, _, _, ⟨_, hl⟩, _, _⟩ := h
  have hs := TimescaleUnit.slewPart_ge hl
  refine Int.toNat_of_nonneg ?_
  simp only [rateAdvance, slewPartAt, Config.fracRange, Config.pptOne] at *
  omega

/-- Carrying a surplus upward through three bounded fields changes the number they make by a multiple of its range. -/
theorem carry_upward {S N F P : Nat} (sec ns frac y : Nat) (hS : 0 < S) (hN : 0 < N) (hF : 0 < F) (hP : 0 < P) :
    (((sec + (ns + (frac + y / P) / F) / N) % S * N + (ns + (frac + y / P) / F) % N) * F + (frac + y / P) % F) * P
        + y % P =
      (((sec * N + ns) * F + frac) * P + y) % (S * N * F * P) := by
  have h1 := Nat.div_add_mod y P
  have h2 := Nat.div_add_mod (frac + y / P) F
  have h3 := Nat.div_add_mod (ns + (frac + y / P) / F) N
  have h4 := Nat.div_add_mod (sec + (ns + (frac + y / P) / F) / N) S
  have l1 := Nat.mod_lt y hP
  have l2 := Nat.mod_lt (frac + y / P) hF
  have l3 := Nat.mod_lt (ns + (frac + y / P) / F) hN
  have l4 := Nat.mod_lt (sec + (ns + (frac + y / P) / F) / N) hS
  generalize y / P = q1 at *
  generalize y % P = r1 at *
  generalize (frac + q1) / F = q2 at *
  generalize (frac + q1) % F = r2 at *
  generalize (ns + q2) / N = q3 at *
  generalize (ns + q2) % N = r3 at *
  generalize (sec + q3) / S = q4 at *
  generalize (sec + q3) % S = r4 at *
  have e : ((sec * N + ns) * F + frac) * P + y = ((r4 * N + r3) * F + r2) * P + r1 + q4 * (S * N * F * P) := by
    zify at *
    linear_combination (-1 : Int) * h1 - P * h2 - P * F * h3 - P * F * N * h4
  rw [e, Nat.add_mul_mod_self_right, Nat.mod_eq_of_lt]
  have b1 : r4 * N + r3 < S * N := by nlinarith
  have b2 : (r4 * N + r3) * F + r2 < S * N * F := by nlinarith
  nlinarith

/-- The timescale with its remainder, as one number of fine units, advances by exactly the amount, round its range
(R1, R2). -/
theorem TimescaleUnit.advanceBy_fine (ts : TimescaleUnit) (x : Nat) :
    (((ts.advanceBy x).1.toNs * Config.fracRange + (ts.advanceBy x).1.frac) * Config.pptOne + (ts.advanceBy x).2) =
      ((ts.time.toNs * Config.fracRange + ts.time.frac) * Config.pptOne + (ts.rem + x)) %
        (Config.nsRange * Config.fracRange * Config.pptOne) :=
  carry_upward ts.time.sec ts.time.ns ts.time.frac (ts.rem + x) (by decide) (by decide) (by decide) (by decide)

/-- The fields of the timescale after an advance are in range (R1). -/
theorem TimescaleUnit.advanceBy_wf (ts : TimescaleUnit) (x : Nat) :
    (ts.advanceBy x).1.wf ∧ (ts.advanceBy x).2 < Config.pptOne := by
  refine ⟨⟨?_, ?_, ?_⟩, ?_⟩ <;>
    simp only [TimescaleUnit.advanceBy, Config.fracRange, Config.pptOne, Config.secRange, Config.nsPerSec] <;>
    omega

/-! ### Slews -/

/-- The slew part of a tick has the sign of the residual and does not exceed it (R9, R11). -/
theorem slewAdvance_within (limit : Nat) (residual : Int) :
    (0 ≤ residual → 0 ≤ slewAdvance limit residual ∧ slewAdvance limit residual ≤ residual) ∧
      (residual ≤ 0 → residual ≤ slewAdvance limit residual ∧ slewAdvance limit residual ≤ 0) := by
  simp only [slewAdvance, slewPartAt, Config.fracRange]
  constructor <;> intro h <;> split <;> omega

/-- Everything that a cancel request can do: nothing, or the end of the slew it names (R12). -/
theorem State.cancelSlew_cases (s : State) (named : Origin → Bool) :
    (s.cancelSlew named = s ∧ ∀ w ∈ s.ts.slew, named w.origin = false) ∨
      ∃ w, s.ts.slew = some w ∧ named w.origin = true ∧ s.cancelSlew named = s.endSlew w .cancelled := by
  unfold State.cancelSlew
  cases h : s.ts.slew with
  | none => exact .inl ⟨rfl, by simp⟩
  | some w =>
    cases hn : named w.origin with
    | false => exact .inl ⟨by simp [hn], by simp [hn]⟩
    | true => exact .inr ⟨w, rfl, hn, by simp [hn]⟩

/-- A cancel request reaches the slew record, the last-slew record and the summaries, and nothing else. -/
theorem State.cancelSlew_frame (s : State) (named : Origin → Bool) :
    s.cancelSlew named =
      { s with
        ts := { s.ts with
          slew := (s.cancelSlew named).ts.slew
          lastSlew := (s.cancelSlew named).ts.lastSlew }
        ports := (s.cancelSlew named).ports } := by
  unfold State.cancelSlew
  split
  · rfl
  · split <;> rfl

/-! ### Leap records -/

/-- Everything that the aligning of a leap record can do: nothing, a phase, or the leap (R17). -/
theorem State.alignLeap_cases (s : State) :
    (s.ts.leap = none ∧ s.alignLeap = s) ∨
      ∃ r, s.ts.leap = some r ∧
        ((∃ phase, s.alignLeap = s.setLeapPhase r phase ∧ (r.kind = .delete → phase = .pending)) ∨
          s.alignLeap = s.applyLeap r.kind) := by
  unfold State.alignLeap
  cases h : s.ts.leap with
  | none => exact .inl ⟨rfl, rfl⟩
  | some r =>
    refine .inr ⟨r, rfl, ?_⟩
    cases hk : r.kind with
    | insert =>
      simp only [hk]
      by_cases h1 : (s.ts.time.sec : Int) < s.ts.insertedSecond r
      · exact .inl ⟨.pending, by simp [h1]⟩
      · by_cases h2 : (s.ts.time.sec : Int) = s.ts.insertedSecond r
        · exact .inl ⟨.inserting, by simp [h2]⟩
        · exact .inr (by simp [h1, h2])
    | delete =>
      simp only [hk]
      by_cases h1 : s.ts.insertedSecond r - 1 ≤ (s.ts.time.sec : Int)
      · exact .inr (by simp [h1])
      · exact .inl ⟨.pending, by simp [h1]⟩

/-- The aligning of a leap record reaches the record, utc_offset and the summaries, and nothing else (R17). -/
theorem State.alignLeap_frame (s : State) :
    s.alignLeap =
      { s with
        ts := { s.ts with leap := s.alignLeap.ts.leap, utcOffset := s.alignLeap.ts.utcOffset }
        ports := s.alignLeap.ports } := by
  rcases s.alignLeap_cases with ⟨_, h⟩ | ⟨r, _, ⟨phase, h, _⟩ | h⟩ <;> rw [h] <;> rfl

/-- With no record there is nothing to align. -/
theorem State.alignLeap_none {s : State} (h : s.ts.leap = none) : s.alignLeap = s := by
  unfold State.alignLeap
  rw [h]

/-- Aligning posts LEAP_TAKEN or nothing. -/
theorem State.alignLeap_ports (s : State) :
    s.alignLeap.ports = s.ports ∨ s.alignLeap.ports = s.ports.map (·.withFlag .leapTaken) := by
  rcases s.alignLeap_cases with ⟨_, h⟩ | ⟨r, _, ⟨phase, h, _⟩ | h⟩
  · exact .inl (by rw [h])
  · exact .inl (by rw [h]; rfl)
  · exact .inr (by rw [h]; rfl)

end Sys2Proof.Machine
end

