-- ==== Sys2Proof/Laws/Steps.lean ====
section
/-! SUPPORT. Everything that a step can do to each block, the handing of an outcome among it. -/

namespace Sys2Proof.Machine

open Sys2Proof

/-! ### Summaries that only gain flags -/

/-- Every mailbox of `t` is that of `s` but for its summary, and every flag set in `s` is set in `t`. -/
def State.onlyPosts (s t : State) : Prop :=
  ∀ m : Mp, t.port m = { s.port m with summary := (t.port m).summary } ∧
    ∀ e : Event, (s.port m).has e = true → (t.port m).has e = true

theorem State.onlyPosts_refl (s : State) : s.onlyPosts s := fun _ => ⟨rfl, fun _ h => h⟩

theorem State.onlyPosts.trans {s t u : State} (h : s.onlyPosts t) (k : t.onlyPosts u) : s.onlyPosts u := by
  intro m
  refine ⟨?_, fun e he => (k m).2 e ((h m).2 e he)⟩
  rw [(k m).1, (h m).1]

theorem State.onlyPosts_post (s : State) (e : Event) : s.onlyPosts (s.post e) := by
  intro m
  rw [State.port_post]
  exact ⟨rfl, fun f hf => MasterPort.has_withFlag_of_has hf e⟩

theorem State.onlyPosts_postTo (s : State) (mp : Mp) (e : Event) : s.onlyPosts (s.postTo mp e) := by
  intro m
  by_cases h : m = mp
  · subst h
    rw [State.postTo, State.port_setPort]
    exact ⟨rfl, fun f hf => MasterPort.has_withFlag_of_has hf e⟩
  · rw [State.postTo, State.port_setPort_other s h]
    exact ⟨rfl, fun _ hf => hf⟩

/-- Mailboxes that are the same only post. -/
theorem State.onlyPosts_of_ports {s t : State} (h : t.ports = s.ports) : s.onlyPosts t := by
  intro m
  have : t.port m = s.port m := by rw [State.port, State.port, h]
  rw [this]
  exact ⟨rfl, fun _ hf => hf⟩

/-! ### Outcomes (R94) -/

/-- Everything that the handing of an outcome can do. -/
theorem State.handOutcome_cases (s : State) (o : Outcome) :
    (s.queue o.owner = [] ∧ s.handOutcome o = (s.setQueue o.owner [o]).postTo o.owner .outcomesReady) ∨
      (s.queue o.owner ≠ [] ∧ (s.queue o.owner).length < 16 ∧
        s.handOutcome o = s.setQueue o.owner (s.queue o.owner ++ [o])) ∨
      (16 ≤ (s.queue o.owner).length ∧ s.handOutcome o = s.postTo o.owner .outcomeOverrun) := by
  unfold State.handOutcome
  by_cases h : (s.queue o.owner).length < 16
  · cases hq : s.queue o.owner with
    | nil => exact .inl ⟨rfl, by simp⟩
    | cons x xs => exact .inr (.inl ⟨by simp, by rw [← hq]; exact h, by rw [hq] at h; rw [if_pos h]; simp⟩)
  · exact .inr (.inr ⟨by omega, by simp [h]⟩)

/-- The handing of an outcome reaches its owner's queue and summary, and nothing else. -/
theorem State.handOutcome_frame (s : State) (o : Outcome) :
    s.handOutcome o = { s with outcomes := (s.handOutcome o).outcomes, ports := (s.handOutcome o).ports } := by
  rcases s.handOutcome_cases o with ⟨_, h⟩ | ⟨_, _, h⟩ | ⟨_, h⟩ <;> rw [h] <;> rfl

theorem State.handOutcome_onlyPosts (s : State) (o : Outcome) : s.onlyPosts (s.handOutcome o) := by
  rcases s.handOutcome_cases o with ⟨_, h⟩ | ⟨_, _, h⟩ | ⟨_, h⟩ <;> rw [h]
  · exact (State.onlyPosts_of_ports rfl).trans (State.onlyPosts_postTo _ _ _)
  · exact State.onlyPosts_of_ports rfl
  · exact State.onlyPosts_postTo _ _ _

/-! ### Marks passed by a step (R90, R91) -/

/-- The passing of marks reaches the list, the outcome queues and the summaries, and nothing else. -/
theorem passMarks_frame (new : Instant) (ms : List Mark) (s : State) :
    passMarks new ms s =
      { s with
        marks := (passMarks new ms s).marks
        outcomes := (passMarks new ms s).outcomes
        ports := (passMarks new ms s).ports } := by
  induction ms generalizing s with
  | nil => rfl
  | cons m rest ih =>
    unfold passMarks
    split
    · rw [ih]
    · rename_i out _
      rw [ih, State.handOutcome_frame s out]

theorem passMarks_onlyPosts (new : Instant) (ms : List Mark) (s : State) : s.onlyPosts (passMarks new ms s) := by
  induction ms generalizing s with
  | nil => exact s.onlyPosts_refl
  | cons m rest ih =>
    unfold passMarks
    split
    · exact (State.onlyPosts_of_ports rfl).trans (ih _)
    · exact (State.handOutcome_onlyPosts _ _).trans (ih _)

/-- A step that is not forward passes nothing (R90, R113). -/
theorem State.passedBy_backward {s : State} {new : Instant} (h : new ≤ s.nowNs) (t : Instant) :
    s.passedBy new t = false := by
  simp [State.passedBy, Nat.not_lt.mpr h]

theorem State.marksOnStep_frame (s : State) (passed : Instant → Bool) (new : Instant) :
    s.marksOnStep passed new =
      { s with
        marks := (s.marksOnStep passed new).marks
        outcomes := (s.marksOnStep passed new).outcomes
        ports := (s.marksOnStep passed new).ports } := by
  unfold State.marksOnStep
  rw [passMarks_frame]

theorem State.marksOnStep_onlyPosts (s : State) (passed : Instant → Bool) (new : Instant) :
    s.onlyPosts (s.marksOnStep passed new) :=
  (State.onlyPosts_of_ports rfl).trans (passMarks_onlyPosts _ _ _)

/-! ### The timescale unit's own part (R14) -/

/-- The unit's own part reaches the timescale unit and the summaries, and nothing else. -/
theorem State.stepUnit_frame (s : State) (src : Origin) (new : Instant) (clearFrac : Bool) :
    s.stepUnit src new clearFrac =
      { s with
        ts := (s.stepUnit src new clearFrac).ts
        ports := (s.stepUnit src new clearFrac).ports } := by
  unfold State.stepUnit
  simp only
  rw [State.alignLeap_frame, State.cancelSlew_frame]
  rfl

theorem State.endSlew_onlyPosts (s : State) (w : Slew) (o : SlewOutcome) : s.onlyPosts (s.endSlew w o) :=
  (State.onlyPosts_of_ports rfl).trans (State.onlyPosts_post _ _)

theorem State.cancelSlew_onlyPosts (s : State) (named : Origin → Bool) : s.onlyPosts (s.cancelSlew named) := by
  rcases s.cancelSlew_cases named with ⟨h, _⟩ | ⟨w, _, _, h⟩ <;> rw [h]
  · exact s.onlyPosts_refl
  · exact s.endSlew_onlyPosts w _

theorem State.alignLeap_onlyPosts (s : State) : s.onlyPosts s.alignLeap := by
  rcases s.alignLeap_cases with ⟨_, h⟩ | ⟨r, _, ⟨phase, h, _⟩ | h⟩ <;> rw [h]
  · exact s.onlyPosts_refl
  · exact State.onlyPosts_of_ports rfl
  · exact (State.onlyPosts_of_ports rfl).trans (State.onlyPosts_post _ _)

/-- A step posts STEP_TAKEN to every master and takes no flag away. -/
theorem State.stepUnit_posts (s : State) (src : Origin) (new : Instant) (clearFrac : Bool) :
    s.onlyPosts (s.stepUnit src new clearFrac) ∧
      ∀ m, ((s.stepUnit src new clearFrac).port m).has .stepTaken = true := by
  unfold State.stepUnit
  refine ⟨?_, fun m => by simp⟩
  refine State.onlyPosts.trans ?_ (State.onlyPosts_post _ _)
  refine State.onlyPosts.trans ?_ (State.onlyPosts_of_ports rfl)
  refine State.onlyPosts.trans ?_ (State.alignLeap_onlyPosts _)
  exact State.onlyPosts.trans (State.onlyPosts_of_ports rfl) (State.cancelSlew_onlyPosts _ _)

/-! ### The whole step -/

/-- What each block is after a step, given what the unit's own part made of the state. -/
theorem State.blocksOnStep_frame (s : State) (src : Origin) (new : Instant) (clearFrac : Bool) :
    s.blocksOnStep src new clearFrac =
      { s with
        ts := (s.stepUnit src new clearFrac).ts
        engine := { s.engine with stepNeeded := false }
        marks := (s.blocksOnStep src new clearFrac).marks
        outcomes := (s.blocksOnStep src new clearFrac).outcomes
        lines := s.lines.map (·.onStep (s.passedBy new))
        composer := { s.composer with frame := none }
        net := { s.net with ports := s.net.ports.map (·.onStep new s.net.settings.interval) }
        ports := (s.blocksOnStep src new clearFrac).ports } := by
  unfold State.blocksOnStep
  simp only [State.netOnStep, State.composerOnStep, State.linesOnStep]
  rw [State.marksOnStep_frame, State.engineOnStep, State.stepUnit_frame]
  rfl

/-- The note of a start that a step took away is no part of whether a start is due. -/
theorem State.startDue_noteOvertaken (s before : State) (i : LineId) : (s.noteOvertaken before).startDue i = s.startDue i := by
  have h : (s.noteOvertaken before).line i =
      if before.startDue i ∧ s.startDue i = false then { s.line i with overtaken := some s.ts.tickCount } else s.line i := by
    simp [State.line, State.noteOvertaken]
  unfold State.startDue State.trainPulseDue State.symbolDue State.commitmentDue State.markOffersNow
  rw [h]
  split_ifs <;> rfl

/-- What each block is after a step, the lines apart. -/
theorem State.stepTo_frame (s : State) (src : Origin) (new : Instant) (clearFrac : Bool) :
    s.stepTo src new clearFrac =
      { s with
        ts := (s.stepUnit src new clearFrac).ts
        engine := { s.engine with stepNeeded := false }
        marks := (s.stepTo src new clearFrac).marks
        outcomes := (s.stepTo src new clearFrac).outcomes
        lines := (s.stepTo src new clearFrac).lines
        composer := { s.composer with frame := none }
        net := { s.net with ports := s.net.ports.map (·.onStep new s.net.settings.interval) }
        ports := (s.stepTo src new clearFrac).ports } := by
  unfold State.stepTo State.noteOvertaken
  rw [State.blocksOnStep_frame]

/-- A step keeps the tick count (R4). -/
theorem State.tickCount_stepUnit (s : State) (src : Origin) (new : Instant) (clearFrac : Bool) :
    (s.stepUnit src new clearFrac).ts.tickCount = s.ts.tickCount := by
  have ha : ∀ t : State, t.alignLeap.ts.tickCount = t.ts.tickCount := fun t => by
    rcases t.alignLeap_cases with ⟨_, h⟩ | ⟨r, _, ⟨phase, h, _⟩ | h⟩ <;> rw [h] <;> rfl
  have hc : ∀ t : State, (t.cancelSlew anyOrigin).ts.tickCount = t.ts.tickCount := fun t => by
    rw [State.cancelSlew_frame]
  exact (ha _).trans (hc _)

theorem Line.overtaken_onStep (l : Line) (passed : Instant → Bool) : (l.onStep passed).overtaken = l.overtaken := by
  unfold Line.onStep Line.dropCommitments Line.cutHeld Line.cutEmission
  cases l.emission <;> cases l.held <;> split_ifs <;> rfl

/-- What a step makes of a line: an emission in flight ends, commitments passed are removed, and a start that the step
took away is noted (R112 to R114, R129). -/
theorem State.line_stepTo (s : State) (src : Origin) (new : Instant) (clearFrac : Bool) (i : LineId) :
    (s.stepTo src new clearFrac).line i =
      { (s.line i).onStep (s.passedBy new) with
        overtaken :=
          if s.startDue i ∧ (s.stepTo src new clearFrac).startDue i = false then some s.ts.tickCount
          else (s.line i).overtaken } := by
  have hl : (s.blocksOnStep src new clearFrac).line i = (s.line i).onStep (s.passedBy new) := by
    rw [State.blocksOnStep_frame]
    simp [State.line]
  have ht : (s.blocksOnStep src new clearFrac).ts.tickCount = s.ts.tickCount := by
    rw [State.blocksOnStep_frame]
    exact s.tickCount_stepUnit src new clearFrac
  have hn : (s.stepTo src new clearFrac).line i =
      if s.startDue i ∧ (s.blocksOnStep src new clearFrac).startDue i = false then
        { (s.blocksOnStep src new clearFrac).line i with overtaken := some s.ts.tickCount }
      else (s.blocksOnStep src new clearFrac).line i := by
    simp [State.line, State.stepTo, State.noteOvertaken, ht]
  have hd : (s.stepTo src new clearFrac).startDue i = (s.blocksOnStep src new clearFrac).startDue i :=
    State.startDue_noteOvertaken _ _ _
  rw [hn, hd, hl]
  split_ifs
  · rfl
  · rw [← Line.overtaken_onStep (s.line i) (s.passedBy new)]

/-- The summaries after a step hold every flag they held, those of the unit's own part among them. -/
theorem State.stepTo_posts (s : State) (src : Origin) (new : Instant) (clearFrac : Bool) :
    (s.stepUnit src new clearFrac).onlyPosts (s.stepTo src new clearFrac) := by
  have hm : (s.stepUnit src new clearFrac).onlyPosts
      ((s.stepUnit src new clearFrac).engineOnStep.marksOnStep (s.passedBy new) new) :=
    State.onlyPosts.trans (State.onlyPosts_of_ports rfl) (State.marksOnStep_onlyPosts _ _ _)
  have hp : (s.stepTo src new clearFrac).ports =
      ((s.stepUnit src new clearFrac).engineOnStep.marksOnStep (s.passedBy new) new).ports := by
    simp only [State.stepTo, State.noteOvertaken, State.blocksOnStep, State.netOnStep, State.composerOnStep, State.linesOnStep]
  exact hm.trans (State.onlyPosts_of_ports hp)

end Sys2Proof.Machine
end

