-- ==== Sys2Proof/Laws/Engine.lean ====
section
/-! SUPPORT. What the engine's shared operations can reach: each changes the timescale unit, the engine and the summaries
at most, and those that a reference's record takes part in, that one record too. -/

namespace Sys2Proof.Machine

open Sys2Proof

/-! ### Uncertainty and grade (R69 to R71) -/

/-- Setting U writes its anchor, and tells of a change of the grade taken. -/
theorem State.setUncertainty_cases (s : State) (ps : Nat) :
    (gradeOfPs (some (capPs ps)) = s.gradeTaken ∧
        s.setUncertainty ps = s.setEngine { s.engine with anchor := some ⟨capPs ps, s.run⟩ }) ∨
      (gradeOfPs (some (capPs ps)) ≠ s.gradeTaken ∧
        s.setUncertainty ps =
          (s.setEngine
            { s.engine with
              anchor := some ⟨capPs ps, s.run⟩
              announced := gradeOfPs (some (capPs ps)) }).post .gradeChanged) := by
  by_cases h : gradeOfPs (some (capPs ps)) = s.gradeTaken
  · exact .inl ⟨h, by simp [State.setUncertainty, h]⟩
  · exact .inr ⟨h, by simp [State.setUncertainty, h, State.setEngine]⟩

theorem State.setUncertainty_onlyPosts (s : State) (ps : Nat) : s.onlyPosts (s.setUncertainty ps) := by
  rcases s.setUncertainty_cases ps with ⟨_, h⟩ | ⟨_, h⟩ <;> rw [h]
  · exact State.onlyPosts_of_ports rfl
  · exact (State.onlyPosts_of_ports rfl).trans (State.onlyPosts_post _ _)

/-- The grade's eight values come in the order of their bounds. -/
theorem gradeOfPs_mono {a b : Nat} (h : a ≤ b) : gradeOfPs (some a) ≤ gradeOfPs (some b) := by
  simp only [gradeOfPs]
  split_ifs <;> first | omega | decide

/-! ### What is reached -/

/-- `t` is `s` but for the timescale unit, the engine and the summaries. -/
def State.onlyEngine (s t : State) : Prop :=
  t.pending = s.pending ∧ t.resetHeld = s.resetHeld ∧ t.refs = s.refs ∧ t.marks = s.marks ∧ t.outcomes = s.outcomes ∧
    t.lines = s.lines ∧ t.composer = s.composer ∧ t.net = s.net ∧ t.clients = s.clients ∧ t.claim = s.claim

theorem State.onlyEngine.trans {s t u : State} (h : s.onlyEngine t) (k : t.onlyEngine u) : s.onlyEngine u := by
  obtain ⟨h1, h2, h3, h4, h5, h6, h7, h8, h9, h10⟩ := h
  obtain ⟨k1, k2, k3, k4, k5, k6, k7, k8, k9, k10⟩ := k
  exact ⟨k1.trans h1, k2.trans h2, k3.trans h3, k4.trans h4, k5.trans h5, k6.trans h6, k7.trans h7, k8.trans h8,
    k9.trans h9, k10.trans h10⟩

theorem State.onlyEngine.eq {s t : State} (h : s.onlyEngine t) :
    t = { s with ts := t.ts, engine := t.engine, ports := t.ports } := by
  obtain ⟨h1, h2, h3, h4, h5, h6, h7, h8, h9, h10⟩ := h
  cases s
  cases t
  simp_all

theorem State.onlyEngine_refl (s : State) : s.onlyEngine s := ⟨rfl, rfl, rfl, rfl, rfl, rfl, rfl, rfl, rfl, rfl⟩

theorem State.onlyEngine_setEngine (s : State) (e : Engine) : s.onlyEngine (s.setEngine e) :=
  ⟨rfl, rfl, rfl, rfl, rfl, rfl, rfl, rfl, rfl, rfl⟩

theorem State.onlyEngine_setTs (s : State) (ts : TimescaleUnit) : s.onlyEngine (s.setTs ts) :=
  ⟨rfl, rfl, rfl, rfl, rfl, rfl, rfl, rfl, rfl, rfl⟩

theorem State.onlyEngine_post (s : State) (e : Event) : s.onlyEngine (s.post e) :=
  ⟨rfl, rfl, rfl, rfl, rfl, rfl, rfl, rfl, rfl, rfl⟩

theorem State.setUncertainty_onlyEngine (s : State) (ps : Nat) : s.onlyEngine (s.setUncertainty ps) := by
  rcases s.setUncertainty_cases ps with ⟨_, h⟩ | ⟨_, h⟩ <;> rw [h]
  · exact State.onlyEngine_setEngine _ _
  · exact (State.onlyEngine_setEngine _ _).trans (State.onlyEngine_post _ _)

theorem State.cancelSlew_onlyEngine (s : State) (named : Origin → Bool) : s.onlyEngine (s.cancelSlew named) := by
  rw [State.cancelSlew_frame]
  exact ⟨rfl, rfl, rfl, rfl, rfl, rfl, rfl, rfl, rfl, rfl⟩

theorem State.enterState_onlyEngine (s : State) (st : EngineState) : s.onlyEngine (s.enterState st) :=
  (State.onlyEngine_setEngine _ _).trans (State.onlyEngine_post _ _)

theorem State.select_onlyEngine (s : State) (sel : Option RefId) : s.onlyEngine (s.select sel) :=
  (State.onlyEngine_setEngine _ _).trans (State.onlyEngine_post _ _)

/-- Entry into ACQUIRING (R56). -/
theorem State.enterAcquiring_onlyEngine (s : State) : s.onlyEngine s.enterAcquiring := by
  unfold State.enterAcquiring
  refine State.onlyEngine.trans ?_ (State.enterState_onlyEngine _ _)
  refine State.onlyEngine.trans ?_ (State.cancelSlew_onlyEngine _ _)
  refine State.onlyEngine.trans ?_ (State.onlyEngine_setEngine _ _)
  unfold State.acquiringUncertainty
  split
  · exact (State.onlyEngine_setEngine _ _).trans (State.setUncertainty_onlyEngine _ _)
  · exact State.onlyEngine_setEngine _ _

/-- Entry into HOLDOVER (R57). -/
theorem State.enterHoldover_onlyEngine (s : State) : s.onlyEngine s.enterHoldover := by
  unfold State.enterHoldover
  refine State.onlyEngine.trans ?_ (State.enterState_onlyEngine _ _)
  refine State.onlyEngine.trans ?_ (State.cancelSlew_onlyEngine _ _)
  refine State.onlyEngine.trans ?_ (State.onlyEngine_setTs _ _)
  exact (State.onlyEngine_setEngine _ _).trans (State.onlyEngine_setEngine _ _)

/-- Everything that a re-evaluation of the selection can do (R54). -/
theorem State.reevaluate_cases (s : State) :
    s.reevaluate = s ∨
      (∃ r, s.bestCandidate = some r ∧ s.reevaluate = (s.select (some r)).enterAcquiring) ∨
      (s.bestCandidate = none ∧ s.reevaluate = (s.select none).enterHoldover) := by
  unfold State.reevaluate
  cases hs : s.engine.state <;> cases hb : s.bestCandidate
  all_goals dsimp only
  case pinned.none | pinned.some | freerun.none | holdover.none => exact .inl rfl
  case freerun.some r | holdover.some r => exact .inr (.inl ⟨r, rfl, rfl⟩)
  case acquiring.none | locked.none =>
    by_cases h : none = s.engine.selection
    · exact .inl (by rw [if_pos h])
    · exact .inr (.inr ⟨rfl, by rw [if_neg h]⟩)
  case acquiring.some r | locked.some r =>
    by_cases h : some r = s.engine.selection
    · exact .inl (by rw [if_pos h])
    · exact .inr (.inl ⟨r, rfl, by rw [if_neg h]⟩)

theorem State.reevaluate_onlyEngine (s : State) : s.onlyEngine s.reevaluate := by
  rcases s.reevaluate_cases with h | ⟨r, _, h⟩ | ⟨_, h⟩ <;> rw [h]
  · exact State.onlyEngine_refl _
  · exact (State.select_onlyEngine _ _).trans (State.enterAcquiring_onlyEngine _)
  · exact (State.select_onlyEngine _ _).trans (State.enterHoldover_onlyEngine _)

/-- The loop update and the lock test (R62, R63). -/
theorem State.lockTest_onlyEngine (s : State) (x : Int) (a : Nat) : s.onlyEngine ((s.loopUpdate x).lockTest x a) := by
  have h : s.onlyEngine (s.loopUpdate x) := (State.onlyEngine_setEngine _ _).trans (State.onlyEngine_setTs _ _)
  refine h.trans ?_
  unfold State.lockTest
  simp only []
  split
  · refine State.onlyEngine.trans ?_ (State.enterState_onlyEngine _ _)
    refine State.onlyEngine.trans ?_ (State.setUncertainty_onlyEngine _ _)
    exact (State.onlyEngine_setEngine _ _).trans (State.onlyEngine_setEngine _ _)
  · exact State.onlyEngine_setEngine _ _

theorem State.enterAcquiring_onlyPosts (s : State) : s.onlyPosts s.enterAcquiring := by
  unfold State.enterAcquiring
  refine State.onlyPosts.trans ?_ ((State.onlyPosts_of_ports rfl).trans (State.onlyPosts_post _ _))
  refine State.onlyPosts.trans ?_ (State.cancelSlew_onlyPosts _ _)
  refine State.onlyPosts.trans ?_ (State.onlyPosts_of_ports rfl)
  unfold State.acquiringUncertainty
  split
  · exact (State.onlyPosts_of_ports rfl).trans (State.setUncertainty_onlyPosts _ _)
  · exact State.onlyPosts_of_ports rfl

theorem State.enterHoldover_onlyPosts (s : State) : s.onlyPosts s.enterHoldover := by
  unfold State.enterHoldover
  refine State.onlyPosts.trans ?_ ((State.onlyPosts_of_ports rfl).trans (State.onlyPosts_post _ _))
  exact State.onlyPosts.trans (State.onlyPosts_of_ports rfl) (State.cancelSlew_onlyPosts _ _)

theorem State.select_onlyPosts (s : State) (sel : Option RefId) : s.onlyPosts (s.select sel) :=
  (State.onlyPosts_of_ports rfl).trans (State.onlyPosts_post _ _)

theorem State.reevaluate_onlyPosts (s : State) : s.onlyPosts s.reevaluate := by
  rcases s.reevaluate_cases with h | ⟨r, _, h⟩ | ⟨_, h⟩ <;> rw [h]
  · exact State.onlyPosts_refl _
  · exact (State.select_onlyPosts _ _).trans (State.enterAcquiring_onlyPosts _)
  · exact (State.select_onlyPosts _ _).trans (State.enterHoldover_onlyPosts _)

/-! ### Reference records (R29, R44) -/

/-- A record enters a state: itself and the summaries. -/
theorem State.refEntered_frame (s : State) (r : RefId) (x : Reference) :
    s.refEntered r x = { s with refs := s.refs.set r x, ports := s.ports.map (·.withFlag .refChanged) } := rfl

/-- A disqualification reaches the record, and what a re-evaluation can. -/
theorem State.disqualify_onlyEngine (s : State) (r : RefId) (x : Reference) :
    (s.setRef r
      { x.cleared with
        state := .heldOff
        holdOffExpiry := some (s.run + x.settings.holdOff * 1000)
        disqualified := sat16 x.disqualified }).onlyEngine (s.disqualify r x) :=
  (State.onlyEngine_post _ _).trans (State.reevaluate_onlyEngine _)

theorem State.refLeavesFor_onlyEngine (s : State) (r : RefId) (x : Reference) (st : RefState) :
    (s.setRef r { x.cleared with state := st }).onlyEngine (s.refLeavesFor r x st) := by
  unfold State.refLeavesFor
  simp only []
  split
  · exact (State.onlyEngine_post _ _).trans (State.reevaluate_onlyEngine _)
  · exact State.onlyEngine_post _ _

end Sys2Proof.Machine
end

