-- ==== Sys2Proof/Laws/Marks.lean ====
section
/-! SUPPORT. Ordered lists and the mark list; what a load fault, a commitment, the end of a pulse and the taking of a mark
can do; the passes of a forward step. -/

namespace Sys2Proof.Machine

open Sys2Proof

/-! ### Insertion -/

theorem insertBy_perm {α : Type} (after : α → α → Bool) (x : α) (xs : List α) :
    (insertBy after x xs).Perm (x :: xs) := by
  induction xs with
  | nil => exact List.Perm.refl _
  | cons y ys ih =>
    unfold insertBy
    split
    · exact List.Perm.refl _
    · exact (ih.cons y).trans (List.Perm.swap x y ys)

/-- Insertion keeps a list in the order `r`, where `after y x` says that `x` may stand before `y` and before all that
may follow `y`, and its failure that `y` may stand before `x`. -/
theorem insertBy_pairwise {α : Type} {r : α → α → Prop} {after : α → α → Bool} {x : α} {xs : List α}
    (htrans : ∀ a b c, r a b → r b c → r a c) (hbefore : ∀ y ∈ xs, after y x = true → r x y)
    (hafter : ∀ y ∈ xs, after y x = false → r y x) (h : xs.Pairwise r) : (insertBy after x xs).Pairwise r := by
  induction xs with
  | nil => simp [insertBy]
  | cons y ys ih =>
    obtain ⟨hy, hys⟩ := List.pairwise_cons.mp h
    unfold insertBy
    split
    · rename_i hit
      have hxy : r x y := hbefore y (by simp) hit
      refine List.pairwise_cons.mpr ⟨fun z hz => ?_, h⟩
      rcases List.mem_cons.mp hz with rfl | hz
      · exact hxy
      · exact htrans x y z hxy (hy z hz)
    · rename_i miss
      have hyx : r y x := hafter y (by simp) (by simpa using miss)
      refine List.pairwise_cons.mpr ⟨fun z hz => ?_, ih (fun z hz => hbefore z (by simp [hz]))
        (fun z hz => hafter z (by simp [hz])) hys⟩
      rcases List.mem_cons.mp ((insertBy_perm after x ys).subset hz) with rfl | hz
      · exact hyx
      · exact hy z hz

theorem Mark.before_iff (a b : Mark) : a.before b = true ↔ a.taking < b.taking ∨ (a.taking = b.taking ∧ a.id < b.id) := by
  simp [Mark.before]

theorem insertMark_perm (m : Mark) (ms : List Mark) : (insertMark m ms).Perm (m :: ms) := insertBy_perm _ _ _

/-- A mark of a new id joins a list in the order of R78, and the list stays in that order. -/
theorem insertMark_pairwise {m : Mark} {ms : List Mark} (hid : ∀ x ∈ ms, x.id ≠ m.id)
    (h : ms.Pairwise (fun a b => a.before b)) : (insertMark m ms).Pairwise (fun a b => a.before b) := by
  refine insertBy_pairwise (fun a b c hab hbc => ?_) (fun y _ hy => hy) (fun y hy hn => ?_) h
  · have h1 := (Mark.before_iff a b).mp hab
    have h2 := (Mark.before_iff b c).mp hbc
    refine (Mark.before_iff a c).mpr ?_
    simp only [Instant] at *
    omega
  · have hne := hid y hy
    have hm : ¬ (m.before y = true) := by simp [hn]
    rw [Mark.before_iff] at hm
    refine (Mark.before_iff y m).mpr ?_
    simp only [Instant] at *
    omega

/-! ### Load faults and commitments (R109, R110, R114) -/

/-- A load judged good changes nothing; one at fault takes the line to FAULTED and posts LINE_FAULT. -/
theorem State.judgeLoad_cases (s : State) (i : LineId) (load : Load) :
    (load = .good ∧ s.judgeLoad i load = s) ∨
      (load ≠ .good ∧ s.judgeLoad i load = (s.setLine i (s.line i).faulted).post .lineFault) := by
  cases load
  · exact .inl ⟨rfl, rfl⟩
  · exact .inr ⟨by decide, rfl⟩
  · exact .inr ⟨by decide, rfl⟩

/-- `t` is `s` but for the lines and the summaries. -/
def State.onlyLines (s t : State) : Prop :=
  t.pending = s.pending ∧ t.resetHeld = s.resetHeld ∧ t.ts = s.ts ∧ t.refs = s.refs ∧ t.engine = s.engine ∧
    t.marks = s.marks ∧ t.outcomes = s.outcomes ∧ t.composer = s.composer ∧ t.net = s.net ∧ t.clients = s.clients ∧
    t.claim = s.claim

theorem State.onlyLines.trans {s t u : State} (h : s.onlyLines t) (k : t.onlyLines u) : s.onlyLines u := by
  obtain ⟨h1, h2, h3, h4, h5, h6, h7, h8, h9, h10, h11⟩ := h
  obtain ⟨k1, k2, k3, k4, k5, k6, k7, k8, k9, k10, k11⟩ := k
  exact ⟨k1.trans h1, k2.trans h2, k3.trans h3, k4.trans h4, k5.trans h5, k6.trans h6, k7.trans h7, k8.trans h8,
    k9.trans h9, k10.trans h10, k11.trans h11⟩

theorem State.onlyLines.eq {s t : State} (h : s.onlyLines t) : t = { s with lines := t.lines, ports := t.ports } := by
  obtain ⟨h1, h2, h3, h4, h5, h6, h7, h8, h9, h10, h11⟩ := h
  cases s
  cases t
  simp_all

theorem State.onlyLines_refl (s : State) : s.onlyLines s := ⟨rfl, rfl, rfl, rfl, rfl, rfl, rfl, rfl, rfl, rfl, rfl⟩

theorem State.onlyLines_setLine (s : State) (i : LineId) (l : Line) : s.onlyLines (s.setLine i l) :=
  ⟨rfl, rfl, rfl, rfl, rfl, rfl, rfl, rfl, rfl, rfl, rfl⟩

theorem State.onlyLines_post (s : State) (e : Event) : s.onlyLines (s.post e) :=
  ⟨rfl, rfl, rfl, rfl, rfl, rfl, rfl, rfl, rfl, rfl, rfl⟩

theorem State.judgeLoad_onlyLines (s : State) (i : LineId) (load : Load) : s.onlyLines (s.judgeLoad i load) := by
  rcases s.judgeLoad_cases i load with ⟨_, h⟩ | ⟨_, h⟩ <;> rw [h]
  · exact State.onlyLines_refl _
  · exact (State.onlyLines_setLine _ _ _).trans (State.onlyLines_post _ _)

/-- Everything that the judging of an overtaken start can do: nothing, or a load fault at the tick of the step. -/
theorem State.judgeOvertaken_cases (s : State) (i : LineId) (mode : LineMode) (load : Load) :
    s.judgeOvertaken i mode load = s ∨
      (load ≠ .good ∧ (s.line i).state = .running ∧ (s.line i).settings.mode = mode ∧
        (s.line i).overtaken = some s.ts.tickCount ∧
        s.judgeOvertaken i mode load = (s.setLine i (s.line i).faulted).post .lineFault) := by
  unfold State.judgeOvertaken
  dsimp only
  split_ifs with h
  · rcases s.judgeLoad_cases i load with ⟨_, hg⟩ | ⟨hf, hg⟩
    · exact .inl hg
    · exact .inr ⟨hf, h.1, h.2.1, h.2.2, hg⟩
  · exact .inl rfl

@[simp] theorem State.judgeOvertaken_good (s : State) (i : LineId) (mode : LineMode) :
    s.judgeOvertaken i mode .good = s := by
  rcases s.judgeOvertaken_cases i mode .good with h | ⟨h, _⟩
  · exact h
  · exact absurd rfl h

theorem State.judgeOvertaken_onlyLines (s : State) (i : LineId) (mode : LineMode) (load : Load) :
    s.onlyLines (s.judgeOvertaken i mode load) := by
  rcases s.judgeOvertaken_cases i mode load with h | ⟨_, _, _, _, h⟩ <;> rw [h]
  · exact State.onlyLines_refl _
  · exact (State.onlyLines_setLine _ _ _).trans (State.onlyLines_post _ _)

/-- A line with no start taken away at this tick keeps its state, whatever the load. -/
theorem State.judgeOvertaken_none {s : State} {i : LineId} (h : (s.line i).overtaken ≠ some s.ts.tickCount)
    (mode : LineMode) (load : Load) : s.judgeOvertaken i mode load = s := by
  rcases s.judgeOvertaken_cases i mode load with hj | ⟨_, _, _, ho, _⟩
  · exact hj
  · exact absurd ho h

theorem State.judgeOvertakenAll_onlyLines (s : State) (faulty : BitVec 16) : s.onlyLines (s.judgeOvertakenAll faulty) := by
  have walk : ∀ (is : List LineId) (t : State), s.onlyLines t →
      s.onlyLines (is.foldl (fun t i => t.judgeOvertaken i .marks (loadIn faulty i)) t) := by
    intro is
    induction is with
    | nil => exact fun _ h => h
    | cons i is ih => exact fun t h => ih _ (h.trans (State.judgeOvertaken_onlyLines _ _ _ _))
  exact walk allLines s (State.onlyLines_refl _)

theorem State.startCommitment_onlyLines (s : State) (i : LineId) (c : Commitment) (load : Load) :
    s.onlyLines (s.startCommitment i c load) := by
  unfold State.startCommitment
  simp only []
  split
  · exact State.onlyLines_setLine _ _ _
  · exact (State.onlyLines_setLine _ _ _).trans (State.judgeLoad_onlyLines _ _ _)

theorem State.commit_onlyLines (s : State) (i : LineId) (c : Commitment) (load : Load) : s.onlyLines (s.commit i c load) := by
  unfold State.commit
  simp only []
  split
  · exact ((State.onlyLines_setLine _ _ _).trans (State.onlyLines_setLine _ _ _)).trans (State.startCommitment_onlyLines _ _ _ _)
  · exact State.onlyLines_setLine _ _ _

/-- A list of commitments keeps its order by start as one joins it, and holds 64 at most. -/
theorem Line.joinCommitment_wf (l : Line) (c : Commitment) (h : l.commitments.Pairwise (fun a b => a.start ≤ b.start)) :
    (l.joinCommitment c).commitments.Pairwise (fun a b => a.start ≤ b.start) ∧
      (l.joinCommitment c).commitments.length ≤ 64 := by
  have hp : (insertBy (fun y x => decide (x.start < y.start)) c l.commitments).Pairwise (fun a b => a.start ≤ b.start) := by
    refine insertBy_pairwise (fun a b c => le_trans) (fun y _ hy => ?_) (fun y _ hy => ?_) h
    · have := of_decide_eq_true hy
      exact le_of_lt this
    · have := of_decide_eq_false hy
      exact not_lt.mp this
  unfold Line.joinCommitment
  simp only []
  split
  · rename_i hl
    exact ⟨hp, hl⟩
  · exact ⟨hp.sublist (List.take_sublist _ _), by simp⟩

/-- A commitment joins behind every earlier start and behind the equal ones accepted before it (R109). -/
theorem insertBy_start (c : Commitment) (cs : List Commitment) :
    insertBy (fun y x => decide (x.start < y.start)) c cs =
      cs.takeWhile (fun x => decide (x.start ≤ c.start)) ++ c :: cs.dropWhile (fun x => decide (x.start ≤ c.start)) := by
  induction cs with
  | nil => rfl
  | cons y ys ih =>
    unfold insertBy
    by_cases h : c.start < y.start
    · simp [h, not_le.mpr h]
    · simp [h, not_lt.mp h, ih]

/-- Everything that the acceptance of a commitment can do: it waits, or its start is reached and it is acted on. -/
theorem State.commit_cases (s : State) (i : LineId) (c : Commitment) (load : Load) :
    let joined := (s.line i).joinCommitment c
    let left := { joined with commitments := joined.commitments.erase c }
    (¬ (s.hasReached c.start = true ∧ c ∈ joined.commitments) ∧ s.commit i c load = s.setLine i joined) ∨
      ((s.hasReached c.start = true ∧ c ∈ joined.commitments) ∧
        s.commit i c load = ((s.setLine i joined).setLine i left).startCommitment i c load) := by
  unfold State.commit
  simp only [List.contains_iff_mem]
  split
  · rename_i h
    exact .inr ⟨h, rfl⟩
  · rename_i h
    exact .inl ⟨h, rfl⟩

/-- Everything that a start acted on can do: it merges into the pulse in flight, or it starts a pulse, whose load is
judged. -/
theorem State.startCommitment_cases (s : State) (i : LineId) (c : Commitment) (load : Load) :
    (∃ kind ends, (s.line i).emission = .pulse kind ends ∧
      s.startCommitment i c load =
        s.setLine i { s.line i with
          emission := .pulse kind (laterOf ends c.ends)
          flags := { (s.line i).flags with markMerged := true } }) ∨
      ((∀ kind ends, (s.line i).emission ≠ .pulse kind ends) ∧
        s.startCommitment i c load = (s.setLine i ((s.line i).startPulse .mark c.ends)).judgeLoad i load) := by
  unfold State.startCommitment
  dsimp only
  split
  · rename_i kind ends h
    exact .inl ⟨kind, ends, h, rfl⟩
  · rename_i h
    exact .inr ⟨h, rfl⟩

/-- Everything that PULSE_END can do. -/
theorem pulseEndState_cases (i : LineId) (s : State) :
    pulseEndState i s = s ∨
      ∃ kind ends, (s.line i).emission = .pulse kind ends ∧ s.hasPassed ends = true ∧ s.mergeComesFirst i ends = false ∧
        pulseEndState i s = s.setLine i { s.line i with emission := .none } := by
  unfold pulseEndState State.unlessHeld
  split
  · exact .inl rfl
  · dsimp only
    split
    · rename_i kind ends h
      split
      · rename_i hp
        exact .inr ⟨kind, ends, h, hp.1, hp.2, rfl⟩
      · exact .inl rfl
    · exact .inl rfl

/-! ### The largest compensation, and the passes of a forward step (R79, R91) -/

/-- The largest compensation among the lines of a set is no less than each, and is that of one of them where the set is
not empty (R79). -/
theorem State.largestCompensation_spec (s : State) {ls : BitVec 16} (h : ls ≠ 0) :
    (∀ l : LineId, inSet ls l = true → (s.line l).settings.compensation ≤ s.largestCompensation ls) ∧
      ∃ l : LineId, inSet ls l = true ∧ (s.line l).settings.compensation = s.largestCompensation ls := by
  have walk : ∀ (is : List LineId) (c : Nat),
      let top := is.foldl (fun c l => if inSet ls l then max c (s.line l).settings.compensation else c) c
      c ≤ top ∧ (∀ l ∈ is, inSet ls l = true → (s.line l).settings.compensation ≤ top) ∧
        (top = c ∨ ∃ l, inSet ls l = true ∧ (s.line l).settings.compensation = top) := by
    intro is
    induction is with
    | nil => simp
    | cons i is ih =>
      intro c
      rw [List.foldl_cons]
      by_cases hi : inSet ls i = true
      · rw [if_pos hi]
        obtain ⟨hc, hall, hat⟩ := ih (max c (s.line i).settings.compensation)
        refine ⟨by omega, fun l hl hin => ?_, ?_⟩
        · rcases List.mem_cons.mp hl with rfl | hl
          · omega
          · exact hall l hl hin
        · rcases hat with hat | hat
          · rcases le_total (s.line i).settings.compensation c with hle | hle
            · exact .inl (by rw [hat, max_eq_left hle])
            · exact .inr ⟨i, hi, by rw [hat, max_eq_right hle]⟩
          · exact .inr hat
      · rw [if_neg hi]
        obtain ⟨hc, hall, hat⟩ := ih c
        refine ⟨hc, fun l hl hin => ?_, hat⟩
        rcases List.mem_cons.mp hl with rfl | hl
        · exact absurd hin hi
        · exact hall l hl hin
  obtain ⟨_, hall, hat⟩ := walk allLines 0
  have hmem : ∀ l : LineId, l ∈ allLines := List.mem_finRange
  refine ⟨fun l hl => hall l (hmem l) hl, ?_⟩
  rcases hat with hat | hat
  · obtain ⟨l, hl⟩ : ∃ l : LineId, inSet ls l = true := by
      by_contra hno
      refine h (BitVec.eq_of_getLsbD_eq fun k hk => ?_)
      simpa [inSet] using fun hin => hno ⟨⟨k, hk⟩, hin⟩
    have hle := hall l (hmem l) hl
    exact ⟨l, hl, le_antisymm hle (by unfold State.largestCompensation; omega)⟩
  · exact hat

/-- The passes that put the taking instant after the step, as R91 counts them. -/
theorem passesToClear_le_iff {m : Mark} {p : Nat} (comp : Nat) (new : Instant) (hp : 0 < p) {j : Nat} (hj : 1 ≤ j) :
    max 1 (passesToClear m p comp new) ≤ j ↔ new + comp < m.due + j * p := by
  unfold passesToClear
  have hpj : 1 * p ≤ j * p := Nat.mul_le_mul_right p hj
  have hd : (new + comp - m.due) / p < j ↔ new + comp - m.due < j * p := Nat.div_lt_iff_lt_mul hp
  split <;> simp only [Instant] at * <;> omega

/-- The passes after which the next due instant would leave the range. -/
theorem passesToRange_le_iff {m : Mark} {p : Nat} (hp : 0 < p) (hdue : m.due < Config.nsRange) {j : Nat} (hj : 1 ≤ j) :
    max 1 (passesToRange m p) ≤ j ↔ Config.nsRange ≤ m.due + j * p := by
  unfold passesToRange
  have hd : (Config.nsRange - 1 - m.due) / p < j ↔ Config.nsRange - 1 - m.due < j * p := Nat.div_lt_iff_lt_mul hp
  generalize Config.nsRange = range at *
  simp only [Instant] at *
  omega

/-! ### The taking (R83 to R87) -/

theorem offerLines_onlyLines (m : Mark) (faulty : BitVec 16) (is : List LineId) (acc : State × Nat × Nat) :
    acc.1.onlyLines (offerLines m faulty is acc).1 := by
  induction is generalizing acc with
  | nil => exact State.onlyLines_refl _
  | cons i is ih =>
    obtain ⟨s, yes, no⟩ := acc
    unfold offerLines
    split
    · split
      · exact (State.commit_onlyLines _ _ _ _).trans (ih _)
      · exact ih _
    · exact ih _

/-- Retiring or re-arming a mark reaches the list, the outcomes and the summaries. -/
theorem State.retireOrRearm_frame (s : State) (m : Mark) :
    s.retireOrRearm m =
      { s with
        marks := (s.retireOrRearm m).marks
        outcomes := (s.retireOrRearm m).outcomes
        ports := (s.retireOrRearm m).ports } := by
  unfold State.retireOrRearm
  cases m.nextDue with
  | none =>
    dsimp only
    have h := State.handOutcome_frame s (m.outcomeOf .completed m.due)
    generalize s.handOutcome (m.outcomeOf .completed m.due) = t at h ⊢
    rw [h]
  | some due => rfl

/-- The taking of a mark reaches the lines, the list, the outcomes and the summaries, and nothing else. -/
theorem State.takeMark_frame (s : State) (m : Mark) (faulty : BitVec 16) :
    s.takeMark m faulty =
      { s with
        marks := (s.takeMark m faulty).marks
        outcomes := (s.takeMark m faulty).outcomes
        lines := (s.takeMark m faulty).lines
        ports := (s.takeMark m faulty).ports } := by
  unfold State.takeMark
  by_cases h : s.withholds m
  · simp only [h, if_true]
    rw [State.retireOrRearm_frame]
  · simp only [h, Bool.false_eq_true, if_false]
    have e := (offerLines_onlyLines m faulty allLines (s, 0, 0)).eq
    generalize (offerLines m faulty allLines (s, 0, 0)) = r at e ⊢
    obtain ⟨t, yes, no⟩ := r
    simp only at e ⊢
    have f := State.retireOrRearm_frame t (m.counted yes no)
    generalize t.retireOrRearm (m.counted yes no) = u at f ⊢
    rw [f, e]

end Sys2Proof.Machine
end

