-- ==== Sys2Proof/WellFormed.lean ====
section
/-! DEFINITION. Which commands are ones that the part can meet: what the index types do not already say. -/

namespace Sys2Proof

/-- The seven transaction codes (10.1). -/
def transactionCodes : List Byte := [0x21#8, 0x22#8, 0x31#8, 0x32#8, 0x33#8, 0x34#8, 0x4C#8]

/-- A transaction of a known kind has at least its first byte (R172); an unknown transaction's first byte is none of
the seven codes (R191). Every other command is well formed by its operands' types. -/
def Instr.wellFormed : Instr → Bool
  | .readResult _ len => decide (1 ≤ len)
  | .readState _ len => decide (1 ≤ len)
  | .readErrors _ len => decide (1 ≤ len)
  | .portClear _ len => decide (1 ≤ len)
  | .unknownTransaction _ code => !transactionCodes.contains code
  | .powerOn _ | .resetRelease | .slewCompletion | .insertedSecondStart | .leapInstant | .readTime _ | .setTime _
  | .stepBy _ | .slewBy _ | .setLeap _ | .clearLeap _ | .setUtcOffset _ | .setLocalOffset _ | .referenceEdge _ _
  | .missingEdgeExpiry _ | .messageArrival _ _ | .settleExpiry _ | .holdOffExpiry _ | .setReference _
  | .readReference _ | .gradeGrowthCrossing | .setEngine _ | .readEngine _ | .pin _ | .unpin _ | .addMark _
  | .cancelMark _ | .takeOutcomes _ | .markTaking _ | .setLine _ | .changePoint _ | .pulseStart _ _ | .pulseEnd _
  | .commitmentStart _ _ | .lineRestart _ | .senseLine _ | .composition | .frameRelease | .frameBegin _ _
  | .symbolStart _ _ | .symbolEnd _ | .frameEnd _ | .linkUp _ | .linkDown _ | .beaconDue | .transmitEnd _
  | .askTimingPoint _ | .askArrival _ _ | .setNetwork _ | .readPort _ | .idleCheck | .forgetClient _
  | .writeParams _ _ | .post _ _ | .sense _ _ | .unknownCommand _ | .claim _ | .release _ | .leaseExpiry
  | .setEventMask _ | .readTable _ | .readMore _ | .identify _ | .restart _ | .networkClear _ | .tick
  | .messageCharacter _ _ | .transactionBegin _ => true

end Sys2Proof
end

