-- ==== Sys2Proof/Laws/MasterPorts.lean ====
section
/-! SUPPORT. Everything that the taking of a posted command and the end of a transaction can do. -/

namespace Sys2Proof.Machine

open Sys2Proof

/-! ### While the RESET input is held -/

theorem State.unlessHeld_released {s : State} (h : s.resetHeld = false) (f : State → State) : s.unlessHeld f = f s := by
  simp [State.unlessHeld, h]

theorem State.unlessHeld_held {s : State} (h : s.resetHeld = true) (f : State → State) : s.unlessHeld f = s := by
  simp [State.unlessHeld, h]

/-! ### Posted commands -/

/-- A command that passes the common checks is judged by its owner alone. -/
theorem State.takeCommand_waits {s : State} {mp : Mp} {row : CommandRow} {ws : List Word} (h : s.waits mp row ws)
    (act : List Word → State → Judged) : s.takeCommand mp row act = s.answered mp (act ws s) := by
  obtain ⟨hr, hs, hc⟩ := h
  unfold State.takeCommand
  rw [State.unlessHeld_released hr]
  simp only [hs, if_true]
  congr 1
  unfold State.judgeCommand
  simp only [ne_eq, not_true_eq_false, if_false]
  by_cases hcl : row.claim = true
  · simp [hc hcl]
  · simp [hcl]

/-- A command with the wrong parameter count is refused PARAMS (R177). -/
theorem State.takeCommand_params {s : State} {mp : Mp} {row : CommandRow} {p : Posted} (hr : s.resetHeld = false)
    (hs : (s.port mp).slot = some p) (hn : p.number = row.number) (hw : p.count ≠ row.words)
    (act : List Word → State → Judged) : s.takeCommand mp row act = s.finish mp .params [] := by
  unfold State.takeCommand
  rw [State.unlessHeld_released hr]
  simp [hs, hn, State.judgeCommand, hw, State.answered]

/-- A command that needs the claim is refused CLAIM_NEEDED to a port that does not hold it (R177). -/
theorem State.takeCommand_claimNeeded {s : State} {mp : Mp} {row : CommandRow} {p : Posted} (hr : s.resetHeld = false)
    (hs : (s.port mp).slot = some p) (hn : p.number = row.number) (hw : p.count = row.words) (hc : row.claim = true)
    (hh : s.holdsClaim mp = false) (act : List Word → State → Judged) :
    s.takeCommand mp row act = s.finish mp .claimNeeded [] := by
  unfold State.takeCommand
  rw [State.unlessHeld_released hr]
  simp [hs, hn, State.judgeCommand, hw, hc, hh, State.answered]

/-- With no command of the row in the slot, nothing is taken. -/
theorem State.takeCommand_other {s : State} {mp : Mp} {row : CommandRow}
    (h : ∀ p ∈ (s.port mp).slot, p.number ≠ row.number) (act : List Word → State → Judged) :
    s.takeCommand mp row act = s := by
  cases hr : s.resetHeld with
  | true => exact State.unlessHeld_held hr _
  | false =>
    refine (State.unlessHeld_released hr _).trans ?_
    cases hs : (s.port mp).slot with
    | none => simp only
    | some p => simp only [if_neg (h p (by rw [hs]; rfl))]

/-- A command in the slot of a released part is judged in the common order. -/
theorem State.takeCommand_slot {s : State} {mp : Mp} {row : CommandRow} {p : Posted} (hr : s.resetHeld = false)
    (hs : (s.port mp).slot = some p) (hn : p.number = row.number) (act : List Word → State → Judged) :
    s.takeCommand mp row act = s.answered mp (s.judgeCommand mp row p act) := by
  refine (State.unlessHeld_released hr _).trans ?_
  simp only [hs, if_pos hn]

/-- Everything that the taking of a posted command can do. -/
theorem State.takeCommand_cases (s : State) (mp : Mp) (row : CommandRow) (act : List Word → State → Judged) :
    s.takeCommand mp row act = s ∨
      ∃ p, (s.port mp).slot = some p ∧ p.number = row.number ∧
        (s.takeCommand mp row act = s.finish mp .params [] ∨ s.takeCommand mp row act = s.finish mp .claimNeeded [] ∨
          (p.count = row.words ∧ s.takeCommand mp row act = s.answered mp (act p.words s))) := by
  cases hr : s.resetHeld with
  | true => exact .inl (State.unlessHeld_held hr _)
  | false =>
    cases hs : (s.port mp).slot with
    | none => exact .inl (State.takeCommand_other (by simp [hs]) act)
    | some p =>
      by_cases hn : p.number = row.number
      · refine .inr ⟨p, rfl, hn, ?_⟩
        rw [State.takeCommand_slot hr hs hn]
        unfold State.judgeCommand
        by_cases hw : p.count = row.words
        · by_cases hc : row.claim = true ∧ s.holdsClaim mp = false
          · rw [if_neg (not_not.mpr hw), if_pos hc]
            exact .inr (.inl rfl)
          · rw [if_neg (not_not.mpr hw), if_neg hc]
            exact .inr (.inr ⟨hw, rfl⟩)
        · rw [if_pos hw]
          exact .inl rfl
      · exact .inl (State.takeCommand_other (by simpa [hs] using hn) act)

/-! ### Transactions -/

/-- A transaction of the right length acts as its rule gives, after the port has taken it off the link. -/
theorem State.endTransaction_fits {s : State} {mp : Mp} {t : Transaction} (hr : s.resetHeld = false)
    (ht : (s.port mp).transaction = some t) (len : Nat) (data : Transaction → List Byte)
    (act : Transaction → State → State) :
    s.endTransaction mp len data true act =
      act t (s.setPort mp { s.port mp with transaction := none, dataOut := (t.header :: data t).take len }) := by
  unfold State.endTransaction
  rw [State.unlessHeld_released hr]
  simp [ht]

/-- A transaction of the wrong length sets LENGTH and nothing else of the mailbox (R172). -/
theorem State.endTransaction_length {s : State} {mp : Mp} {t : Transaction} (hr : s.resetHeld = false)
    (ht : (s.port mp).transaction = some t) (len : Nat) (data : Transaction → List Byte)
    (act : Transaction → State → State) :
    s.endTransaction mp len data false act =
      s.setPort mp { s.port mp with
        transaction := none
        dataOut := (t.header :: data t).take len
        errors := { (s.port mp).errors with length := true } } := by
  unfold State.endTransaction
  rw [State.unlessHeld_released hr]
  simp [ht]

/-- With no transaction begun, the end of one is none. -/
theorem State.endTransaction_none {s : State} {mp : Mp} (ht : (s.port mp).transaction = none) (len : Nat)
    (data : Transaction → List Byte) (fits : Bool) (act : Transaction → State → State) :
    s.endTransaction mp len data fits act = s := by
  cases hr : s.resetHeld with
  | true => exact State.unlessHeld_held hr _
  | false =>
    refine (State.unlessHeld_released hr _).trans ?_
    simp only [ht]

/-- The two lists of transaction codes are one. -/
theorem isTransactionCode_eq (code : Byte) : isTransactionCode code = transactionCodes.contains code := rfl

end Sys2Proof.Machine
end

