-- ==== Sys2Proof/Laws/Network.lean ====
section
/-! SUPPORT. What the transmit arbiter makes of a port, and what an ask can reach. -/

namespace Sys2Proof.Machine

open Sys2Proof

/-! ### The leap state of a beacon (R140) -/

/-- A second is reached, or not, by the time and what the tick reached alone. -/
theorem State.secondReached_congr {s t : State} (ht : t.ts.time = s.ts.time) (hf : t.ts.reachedFrom = s.ts.reachedFrom)
    (sec : Int) : t.secondReached sec = s.secondReached sec := by
  simp [State.secondReached, State.reachedNow, State.nowNs, ht, hf]

theorem State.leapReached_none {s : State} (hr : s.resetHeld = false) (hl : s.ts.leap = none) : s.leapReached = s.ts := by
  simp [State.leapReached, leapInstantState, insertedSecondStartState, State.unlessHeld, hr, hl]

/-- An INSERT record in a departing beacon: as it stands before the inserted second, INSERTING in it, gone after it. -/
theorem State.leapReached_insert {s : State} {r : Leap} (hr : s.resetHeld = false) (hl : s.ts.leap = some r)
    (hk : r.kind = .insert) :
    (s.leapReached.utcOffset, s.leapReached.leap) =
      if r.phase = .pending ∧ s.secondReached (s.ts.insertedSecond r) = false then (s.ts.utcOffset, some r)
      else if s.secondReached (s.ts.insertedSecond r + 1) = true then (s.ts.utcOffset + 1, none)
      else (s.ts.utcOffset, some { r with phase := .inserting }) := by
  obtain ⟨kind, d, src, phase⟩ := r
  subst hk
  have hc := fun l sec => State.secondReached_congr (s := s) (t := s.setTs { s.ts with leap := l }) rfl rfl sec
  simp only [State.leapReached, leapInstantState, insertedSecondStartState, State.unlessHeld, hr, hl, Bool.false_eq_true,
    if_false, true_and]
  cases phase <;> cases h1 : s.secondReached (s.ts.insertedSecond ⟨.insert, d, src, .pending⟩) <;>
    cases h2 : s.secondReached (s.ts.insertedSecond ⟨.insert, d, src, .pending⟩ + 1) <;>
    simp_all [TimescaleUnit.insertedSecond, State.setLeapPhase, State.applyLeap]

/-- A DELETE record in a departing beacon: as it stands before its instant, gone from then on. -/
theorem State.leapReached_delete {s : State} {r : Leap} (hr : s.resetHeld = false) (hl : s.ts.leap = some r)
    (hk : r.kind = .delete) :
    (s.leapReached.utcOffset, s.leapReached.leap) =
      if s.secondReached (s.ts.insertedSecond r - 1) = true then (s.ts.utcOffset - 1, none)
      else (s.ts.utcOffset, some r) := by
  simp only [State.leapReached, leapInstantState, insertedSecondStartState, State.unlessHeld, hr, hl, hk,
    Bool.false_eq_true, if_false, reduceCtorEq, false_and]
  split <;> simp [State.applyLeap, hl]

/-! ### The transmit arbiter (R140, R141) -/

/-- Everything that the handing on of the wire can do: a beacon departs, else the oldest answer, else the wire is idle. -/
theorem State.handWire_cases (s : State) (port : NetPort) :
    (∃ k, port.pendingBeacon = some k ∧
        s.handWire port =
          { port with
            wire := .beacon (s.departingBeacon port k)
            pendingBeacon := none
            beaconSeq := (port.beaconSeq + 1) % 65536 }) ∨
      (∃ a rest, port.pendingBeacon = none ∧ port.queue = a :: rest ∧
        s.handWire port =
          { port with
            wire := .answer { a with t3 := some s.nowNs } s.net.settings.address
            queue := rest }) ∨
      (port.pendingBeacon = none ∧ port.queue = [] ∧ s.handWire port = { port with wire := .idle }) := by
  unfold State.handWire
  cases hb : port.pendingBeacon with
  | some k => exact .inl ⟨k, rfl, rfl⟩
  | none =>
    cases hq : port.queue with
    | nil => exact .inr (.inr ⟨rfl, rfl, rfl⟩)
    | cons a rest => exact .inr (.inl ⟨a, rest, rfl, rfl, rfl⟩)

/-- The arbiter leaves the link, the schedule, the reception and the counters of a port, and lengthens no queue. -/
theorem State.handWire_keeps (s : State) (port : NetPort) :
    (s.handWire port).link = port.link ∧ (s.handWire port).nextDue = port.nextDue ∧
      (s.handWire port).reception = port.reception ∧ (s.handWire port).counters = port.counters ∧
      (s.handWire port).queue.length ≤ port.queue.length := by
  rcases s.handWire_cases port with ⟨k, _, h⟩ | ⟨a, rest, _, hq, h⟩ | ⟨_, _, h⟩ <;> rw [h]
  · exact ⟨rfl, rfl, rfl, rfl, le_refl _⟩
  · refine ⟨rfl, rfl, rfl, rfl, ?_⟩
    rw [hq]
    simp
  · exact ⟨rfl, rfl, rfl, rfl, le_refl _⟩

theorem State.offerWire_keeps (s : State) (port : NetPort) :
    (s.offerWire port).link = port.link ∧ (s.offerWire port).nextDue = port.nextDue ∧
      (s.offerWire port).reception = port.reception ∧ (s.offerWire port).counters = port.counters ∧
      (s.offerWire port).queue.length ≤ port.queue.length := by
  unfold State.offerWire
  split
  · exact s.handWire_keeps port
  · exact ⟨rfl, rfl, rfl, rfl, le_refl _⟩
  · exact ⟨rfl, rfl, rfl, rfl, le_refl _⟩

/-- After the arbiter a wire left idle has nothing waiting for it. -/
theorem State.handWire_idle (s : State) (port : NetPort) (h : (s.handWire port).wire = .idle) :
    (s.handWire port).queue = [] ∧ (s.handWire port).pendingBeacon = none := by
  rcases s.handWire_cases port with ⟨k, _, e⟩ | ⟨a, rest, _, _, e⟩ | ⟨hb, hq, e⟩ <;> rw [e] at h ⊢
  · cases h
  · cases h
  · exact ⟨hq, hb⟩

/-! ### Asks (R143 to R145, R157 to R163) -/

/-- `t` is `s` but for the network ports, their settings apart, the client table and the summaries. -/
def State.onlyNetwork (s t : State) : Prop :=
  t.pending = s.pending ∧ t.resetHeld = s.resetHeld ∧ t.ts = s.ts ∧ t.refs = s.refs ∧ t.engine = s.engine ∧
    t.marks = s.marks ∧ t.outcomes = s.outcomes ∧ t.lines = s.lines ∧ t.composer = s.composer ∧
    t.net.settings = s.net.settings ∧ t.claim = s.claim

theorem State.onlyNetwork.trans {s t u : State} (h : s.onlyNetwork t) (k : t.onlyNetwork u) : s.onlyNetwork u := by
  obtain ⟨h1, h2, h3, h4, h5, h6, h7, h8, h9, h10, h11⟩ := h
  obtain ⟨k1, k2, k3, k4, k5, k6, k7, k8, k9, k10, k11⟩ := k
  exact ⟨k1.trans h1, k2.trans h2, k3.trans h3, k4.trans h4, k5.trans h5, k6.trans h6, k7.trans h7, k8.trans h8,
    k9.trans h9, k10.trans h10, k11.trans h11⟩

theorem State.onlyNetwork_refl (s : State) : s.onlyNetwork s := ⟨rfl, rfl, rfl, rfl, rfl, rfl, rfl, rfl, rfl, rfl, rfl⟩

theorem State.onlyNetwork_setNetPort (s : State) (p : NetId) (x : NetPort) : s.onlyNetwork (s.setNetPort p x) :=
  ⟨rfl, rfl, rfl, rfl, rfl, rfl, rfl, rfl, rfl, rfl, rfl⟩

theorem State.onlyNetwork_clients (s : State) (t : ClientTable) : s.onlyNetwork { s with clients := t } :=
  ⟨rfl, rfl, rfl, rfl, rfl, rfl, rfl, rfl, rfl, rfl, rfl⟩

theorem State.onlyNetwork_post (s : State) (e : Event) : s.onlyNetwork (s.post e) :=
  ⟨rfl, rfl, rfl, rfl, rfl, rfl, rfl, rfl, rfl, rfl, rfl⟩

theorem State.onSub_onlyNetwork (s : State) (p : NetId) (a : NetAddress) (f : SubRecord → SubRecord) :
    s.onlyNetwork (s.onSub p a f) := by
  unfold State.onSub
  split
  · exact State.onlyNetwork_refl _
  · split
    · exact State.onlyNetwork_refl _
    · exact State.onlyNetwork_clients _ _

theorem State.takeReport_onlyNetwork (s : State) (c : Client) (p : NetId) (ask : Ask) (r : Reception) :
    s.onlyNetwork (s.takeReport c p ask r) := by
  unfold State.takeReport
  split
  · exact State.onlyNetwork_refl _
  · simp only []
    split
    · exact (State.onlyNetwork_clients _ _).trans (State.onlyNetwork_post _ _)
    · exact State.onlyNetwork_clients _ _

theorem State.recordAnswered_onlyNetwork (s : State) (p : NetId) (a : NetAddress) (ask : Ask) (r : Reception) :
    s.onlyNetwork (s.recordAnswered p a ask r) := by
  unfold State.recordAnswered
  split
  · exact (State.onlyNetwork_clients _ _).trans (State.takeReport_onlyNetwork _ _ _ _ _)
  · split
    · exact State.onlyNetwork_refl _
    · exact (State.onlyNetwork_clients _ _).trans (State.takeReport_onlyNetwork _ _ _ _ _)

/-- An ask that the port passes reaches the ports, the client table and the summaries, and nothing else. -/
theorem State.handleAsk_onlyNetwork (s : State) (p : NetId) (a : NetAddress) (ask : Ask) (r : Reception) :
    s.onlyNetwork (s.handleAsk p a ask r) := by
  unfold State.handleAsk
  split
  · exact (State.onSub_onlyNetwork _ _ _ _).trans (State.onlyNetwork_setNetPort _ _ _)
  · exact (State.onSub_onlyNetwork _ _ _ _).trans (State.onlyNetwork_setNetPort _ _ _)
  · split
    · exact (State.recordAnswered_onlyNetwork _ _ _ _ _).trans (State.onlyNetwork_setNetPort _ _ _)
    · exact (State.onSub_onlyNetwork _ _ _ _).trans (State.onlyNetwork_setNetPort _ _ _)
  · split
    · exact (State.onlyNetwork_setNetPort _ _ _).trans (State.onlyNetwork_setNetPort _ _ _)
    · exact State.onlyNetwork_setNetPort _ _ _

end Sys2Proof.Machine
end

