-- ==== Sys2Proof/Laws/Operands.lean ====
section
/-! SUPPORT. What the readers of parameter words answer, each said once: the value read exactly when it is one that the
reader admits, so that `= none` is every other case; and the bytes and the free numbers that other operations count on. -/

namespace Sys2Proof.Machine

open Sys2Proof

theorem wordAt_lt (ws : List Word) (k : Nat) : wordAt ws k < 2 ^ 128 := BitVec.isLt _

/-! ### Quantities, instants and flags -/

theorem inRange_eq_some_iff (lo hi n m : Nat) : inRange lo hi n = some m ↔ n = m ∧ lo ≤ n ∧ n ≤ hi := by
  unfold inRange
  split <;> rename_i h
  · simp [h]
  · simp [h]

/-- An instant's word gives the instant when its seconds and its nanoseconds are in range; the fraction is not read
(R192). -/
theorem instantOf_eq_some_iff {w : Nat} (hw : w < 2 ^ 128) (t : Instant) :
    instantOf w = some t ↔
      w / 2 ^ 64 % 2 ^ 64 < 2 ^ 48 ∧ w / 2 ^ 32 % 2 ^ 32 < 10 ^ 9 ∧
        t = w / 2 ^ 64 % 2 ^ 64 * 10 ^ 9 + w / 2 ^ 32 % 2 ^ 32 := by
  have h : w / 2 ^ 64 % 2 ^ 64 = w / 2 ^ 64 := Nat.mod_eq_of_lt (by omega)
  rw [h]
  unfold instantOf
  simp only [Config.secRange, Config.nsPerSec]
  split <;> rename_i hc
  · simp only [Option.some.injEq, hc.1, true_and]
    exact ⟨fun e => ⟨hc.2, e.symm⟩, fun e => e.2.symm⟩
  · simp only [reduceCtorEq, false_iff]
    exact fun e => hc ⟨e.1, e.2.1⟩

theorem flagOf_eq_some_iff (n : Nat) (b : Bool) : flagOf n = some b ↔ n = b.toNat := by
  unfold flagOf
  split <;> cases b <;> simp_all

/-! ### Fields of results (10.2) -/

/-- An instant's field in its units. Its value is kept from the kernel's own unfolding, which would count the units up. -/
theorem fInstant_eq (t : Instant) : fInstant t = .instant (t / 10 ^ 9 * 2 ^ 64 + t % 10 ^ 9 * 2 ^ 32) := by
  simp [fInstant, fTime, TimeValue.ofNs, Config.nsPerSec]

theorem Field.blank_fInstant (t : Instant) : (fInstant t).blank = .instant 0 := rfl

theorem fOption_none {α : Type} (shape : α) (fields : α → List Field) :
    fOption none shape fields = fCode 0 :: (fields shape).map Field.blank := rfl

theorem fOption_some {α : Type} (x shape : α) (fields : α → List Field) :
    fOption (some x) shape fields = fCode 1 :: fields x := rfl

/-! ### Options of parameters (R192) -/

/-- A presence field of 0 reads as absent, one of 1 as what the value reads as, and any other as nothing (R192). -/
theorem optionOf_eq_some_iff {α : Type} (presence : Nat) (value o : Option α) :
    optionOf presence value = some o ↔ (presence = 0 ∧ o = none) ∨ (presence = 1 ∧ o.isSome ∧ value = o) := by
  unfold optionOf
  split
  · cases o <;> simp
  · cases value <;> cases o <;> simp
  · simp_all

/-! ### Grades, codes and indices -/

theorem gradeOf_eq_some_iff (n : Nat) (g : Grade) : gradeOf n = some g ↔ n = g.val := by
  unfold gradeOf
  split
  · simp [Fin.ext_iff]
  · simp only [reduceCtorEq, false_iff]
    omega

theorem gateOf_eq_some_iff (n : Nat) (g : Grade) : gateOf n = some g ↔ n = g.val ∧ g.val ≤ 6 := by
  unfold gateOf
  split
  · rw [gradeOf_eq_some_iff]
    omega
  · simp only [reduceCtorEq, false_iff]
    omega

theorem refKindOf_eq_some_iff (n : Nat) (k : RefKind) : refKindOf n = some k ↔ n = k.code := by
  unfold refKindOf RefKind.code
  split <;> cases k <;> simp_all

theorem edgeOf_eq_some_iff (n : Nat) (e : Edge) : edgeOf n = some e ↔ n = Edge.code e := by
  unfold edgeOf Edge.code
  split <;> cases e <;> simp_all

theorem leapKindOf_eq_some_iff (n : Nat) (k : LeapKind) : leapKindOf n = some k ↔ n = k.code := by
  unfold leapKindOf LeapKind.code
  split <;> cases k <;> simp_all

theorem lineModeOf_eq_some_iff (n : Nat) (m : LineMode) : lineModeOf n = some m ↔ n = m.code := by
  unfold lineModeOf LineMode.code
  split <;> cases m <;> simp_all

theorem linePolarityOf_eq_some_iff (n : Nat) (p : LinePolarity) : linePolarityOf n = some p ↔ n = p.code := by
  unfold linePolarityOf LinePolarity.code
  split <;> cases p <;> simp_all

theorem netIdOf_eq_some_iff (n : Nat) (p : NetId) : netIdOf n = some p ↔ n = NetId.code p := by
  unfold netIdOf NetId.code
  split <;> cases p <;> simp_all

theorem tableOf_eq_some_iff (n : Nat) (t : Table) : tableOf n = some t ↔ n = t.code := by
  unfold tableOf Table.code
  split <;> cases t <;> simp_all

theorem refIdOf_eq_some_iff (n : Nat) (r : RefId) : refIdOf n = some r ↔ n = r.val := by
  unfold refIdOf
  split
  · simp [Fin.ext_iff]
  · simp only [reduceCtorEq, false_iff]
    omega

theorem lineIdOf_eq_some_iff (n : Nat) (i : LineId) : lineIdOf n = some i ↔ n = i.val := by
  unfold lineIdOf
  split
  · simp [Fin.ext_iff]
  · simp only [reduceCtorEq, false_iff]
    omega

/-! ### Bytes, and numbers not in use -/

/-- The bytes of a number, most significant byte first. -/
theorem beBytes_spec (n k : Nat) :
    (beBytes k n).length = k ∧ ∀ j < k, (beBytes k n)[j]? = some (BitVec.ofNat 8 (n / 256 ^ (k - 1 - j))) := by
  induction k with
  | zero => simp [beBytes]
  | succ k ih =>
    refine ⟨by simp [beBytes, ih.1], fun j hj => ?_⟩
    cases j with
    | zero => simp [beBytes]
    | succ j =>
      simp only [beBytes, List.getElem?_cons_succ, ih.2 j (by omega)]
      congr 4
      omega

/-- The lowest free number is the one that is free and has none free below it. -/
theorem lowestFree_eq_some_iff (used : List Nat) (bound k : Nat) :
    lowestFree used bound = some k ↔ k < bound ∧ k ∉ used ∧ ∀ j < k, j ∈ used := by
  unfold lowestFree
  rw [List.find?_range_eq_some]
  simp only [Bool.not_eq_true', List.contains_eq_mem, decide_eq_false_iff_not, List.mem_range, Bool.not_not,
    decide_eq_true_eq]
  exact ⟨fun h => ⟨h.2.1, h.1, h.2.2⟩, fun h => ⟨h.2.1, h.1, h.2.2⟩⟩

theorem lowestFree_eq_none_iff (used : List Nat) (bound : Nat) : lowestFree used bound = none ↔ ∀ k < bound, k ∈ used := by
  unfold lowestFree
  simp

end Sys2Proof.Machine
end

