-- ==== Sys2Proof/Tests/Slice0.lean ====
section
/-! SUPPORT. Our own tests: ill-formed commands that WellFormed refuses, single steps from the spec's worked examples, and
for each obligation states that meet the hypotheses of its clauses, at the ends of their ranges. Each is about one step,
or a few, on a small state built by the helpers below. -/

namespace Sys2Proof.Tests

open Sys2Proof Sys2Proof.Machine

set_option Elab.async false

/-! ### Helpers -/

/-- The state after a command; every command goes on. -/
def after (c : Instr) (s : State) : State :=
  match exec c s with
  | .next t => t
  | .fault _ => s
  | .refused _ => s

def run (cs : List Instr) (s : State) : State := cs.foldl (fun s c => after c s) s

/-- The timescale has just reached `sec` s and `ns` ns by advance, at tick `tick`. -/
def atTime (s : State) (sec ns tick : Nat) : State :=
  { s with
    ts := { s.ts with time := ⟨sec, ns, 0⟩, tickCount := tick, reachedFrom := some (sec * 10 ^ 9 + ns - 4) } }

/-- The command of `row` with words `ws` in the slot of master port 1. -/
def inSlot (s : State) (row : CommandRow) (ws : List Word) : State :=
  s.setPort 1 { s.port 1 with slot := some ⟨row.number, row.words, ws⟩, handshake := .busy }

/-- The same, with the claim held by master 1. -/
def ready (s : State) (row : CommandRow) (ws : List Word) : State :=
  inSlot { s with claim := some ⟨1, 10 ^ 9⟩ } row ws

def code (s : State) : Option ResultCode := (s.port 1).result.map (·.code)
def word (s : State) (k : Nat) : Option Nat := (s.port 1).result.map fun r => (r.words.getD k 0).toNat
def raised (s : State) (e : Event) : Bool := (s.port 3).has e

/-- The reset state in an engine state out of FREERUN, with U anchored, and the grade that it gives. -/
def inState (st : EngineState) (sel : Option RefId) : State :=
  { State.reset with
    engine := { Engine.powerOn with state := st, selection := sel, anchor := some ⟨600000, 0⟩, announced := 2 } }

def reference (kind : RefKind) (st : RefState) : Reference :=
  { Reference.powerOn with settings := { RefSettings.powerOn with kind := kind }, state := st }

def lineIn (mode : LineMode) : Line :=
  { Line.powerOn with settings := { LineSettings.powerOn with mode := mode }, state := .running }

/-- `ready` meets the hypothesis `waits` for every row, and `inSlot` meets `slotHas`, in any state out of RESET. -/
theorem test_ready_waits (s : State) (row : CommandRow) (ws : List Word) (h : s.resetHeld = false) :
    (ready s row ws).waits 1 row ws := by
  simp [ready, inSlot, State.waits, State.holdsClaim, State.setPort, State.port, Four.set, Four.get, h]

theorem test_inSlot_has (s : State) (row : CommandRow) (ws : List Word) (h : s.resetHeld = false) :
    (inSlot s row ws).slotHas 1 row ws ∧ (ready s row ws).slotHas 1 row ws := by
  simp [ready, inSlot, State.slotHas, State.setPort, State.port, Four.set, Four.get, h]

theorem test_ready_holdsClaim (row : CommandRow) (ws : List Word) :
    (ready State.reset row ws).holdsClaim 1 = true ∧ (inSlot State.reset row ws).holdsClaim 1 = false := ⟨rfl, rfl⟩

/-! ### WellFormed -/

theorem test_illformed_readResult : Instr.wellFormed (.readResult 0 0) = false := by decide
theorem test_illformed_readState : Instr.wellFormed (.readState 0 0) = false := by decide
theorem test_illformed_readErrors : Instr.wellFormed (.readErrors 0 0) = false := by decide
theorem test_illformed_portClear : Instr.wellFormed (.portClear 0 0) = false := by decide
theorem test_illformed_unknownTransaction : Instr.wellFormed (.unknownTransaction 0 0x21#8) = false := by decide
theorem test_wellformed_neighbours :
    Instr.wellFormed (.readResult 0 1) = true ∧ Instr.wellFormed (.unknownTransaction 0 0x20#8) = true := by decide

/-- No word spells a command, so the machine is unchanged by one. -/
theorem test_no_word_spells_a_command :
    decodeTableWord 8 0 = none ∧ State.reset.withFetchWord 8 0 = State.reset := ⟨rfl, rfl⟩

/-! ### The queue and the resets -/

theorem test_step_front :
    step { State.reset with pending := [.tick, .resetRelease] } =
      exec .tick { State.reset with pending := [.resetRelease] } := rfl

theorem test_step_idle : step State.reset = .next State.reset := rfl

theorem test_held_tick_does_nothing :
    after .tick { State.reset with resetHeld := true } = { State.reset with resetHeld := true } := by decide +kernel

/-- The last tick count but one is followed by the last (R3). -/
theorem test_last_tick_count :
    (after .tick (atTime State.reset 5 0 (2 ^ 64 - 2))).ts.tickCount = 2 ^ 64 - 1 := by decide +kernel

theorem test_powerOn_release_tick :
    (after (.powerOn true) (inState .pinned none)).resetHeld = true ∧
      (run [.powerOn true, .tick] (inState .pinned none)).ts.tickCount = 0 ∧
      (run [.powerOn true, .resetRelease, .tick] (inState .pinned none)).ts.tickCount = 1 ∧
      (after (.powerOn false) (inState .pinned none)).engine = Engine.powerOn := by decide +kernel

/-- A locked part with a slew, two CODED lines, one of whose frames is ahead of its slot 0. -/
def busy : State :=
  { atTime (inState .locked (some 0)) 100 950000000 (100950 * 250000) with
    refs := State.reset.refs.set 0 (reference .receiver .usable)
    lines := State.reset.lines.set 2 (lineIn .coded)
    composer := ⟨some ⟨101, 0, 1, 0, 3, 0, 0, frameSymbols 0 1 0 3 0 0⟩, none⟩ }

theorem test_restart_resets :
    let t := after (.restart 1) (ready { busy with ts := { busy.ts with slew := some ⟨.engine, 5, 5 * finePerNs, ⟨9, 0, 0⟩⟩ } }
      .restart [])
    t.engine.state = .holdover ∧ t.claim = none ∧ t.ts.slew = none ∧ (t.port 1).summary = 0x0041#16 ∧
      (t.ref 0).state = .seeking ∧ (t.line 2).held.isSome ∧ (t.ts.lastSlew.map (·.residualLeft)) = some 5 := by decide +kernel

/-- U's anchor at a RESTART: kept in HOLDOVER, and new where LOCKED becomes HOLDOVER. -/
theorem test_restart_anchor :
    let anchor (st : EngineState) (sel : Option RefId) := (after (.restart 1)
      (ready (atTime (inState st sel) 5 0 (7 * 250000)) .restart [])).engine.anchor
    anchor .holdover none = some ⟨600000, 0⟩ ∧ anchor .locked (some 0) = some ⟨600000, 7⟩ := by decide +kernel

/-- A frame whose slot 0 has passed is not held again. -/
theorem test_restart_past_slot0 :
    (((after (.restart 1) (ready (atTime busy 101 0 9) .restart [])).line 2).held) = none := by decide +kernel

theorem test_portClear :
    let s := after (.transactionBegin 1) (ready State.reset .identify [])
    let t := after (.portClear 1 1) s
    s.holdsClaim 1 = true ∧ t.claim = none ∧ (t.port 1).summary = 0x0400#16 ∧ (t.port 1).handshake = .idle ∧
      (t.port 0).has .claimEnded = true ∧
      (after (.portClear 1 1) (after (.transactionBegin 1) (inSlot State.reset .identify []))).claim = none := by
  decide +kernel

theorem test_networkClear :
    let s := { State.reset with clients := ⟨[⟨4, 0x0A0000000001, 0, .new, some ⟨0, 0, 0, 1, 0, 0⟩, none, none⟩], none⟩ }
    code (after (.networkClear 1) (ready s .networkClear [])) = some .ok ∧
      (after (.networkClear 1) (ready s .networkClear [])).clients.entries = [] ∧
      code (after (.networkClear 1) (inSlot s .networkClear [])) = some .claimNeeded := by decide +kernel

/-! ### The timescale unit -/

/-- Legal timescales at both limits of the rate, with no slew and with a slew of either sign about to end or far from its
end. -/
def withSlew (requested residual rate : Int) : State :=
  { State.reset with ts := { State.reset.ts with rate := rate, slew := some ⟨.master 1, requested, residual, ⟨0, 0, 0⟩⟩ } }

theorem test_witness_TickAdvancesByTheEffectiveRate :
    State.reset.resetHeld = false ∧ State.reset.ts.slew = none ∧
      ∀ s ∈ [State.reset, withSlew 1 0 200000000, withSlew (10 ^ 9) (10 ^ 9 * finePerNs) (-200000000),
        withSlew (-10 ^ 9) (-10 ^ 9 * finePerNs) 0, withSlew (-1) (-1) 0], s.ts.wf := by decide +kernel

/-- Four nanoseconds at the nominal rate; a full slew part at 100 ppm is 0.4 ps per tick; the last part is what is left. -/
theorem test_tick :
    (after .tick State.reset).ts.time = ⟨0, 4, 0⟩ ∧
      (withSlew (10 ^ 9) (10 ^ 9 * finePerNs) 0).ts.slewPart = 4 * 2 ^ 32 * 100 * 10 ^ 6 ∧
      (withSlew (-1) (-7) 0).ts.slewPart = -7 ∧
      ((after .tick (withSlew (-1) (-7) 0)).ts.slew.map (·.residual)) = some 0 := by decide +kernel

theorem test_slewCompletion :
    let t := after .slewCompletion (withSlew 300 0 0)
    t.ts.slew = none ∧ t.ts.lastSlew = some ⟨.master 1, 300, ⟨0, 0, 0⟩, .done, 0, 0⟩ ∧ raised t .slewEnded ∧
      after .slewCompletion (withSlew 300 1 0) = withSlew 300 1 0 := by decide +kernel

/-- The leap record of the worked example of section 1.5: the inserted second of the day that ends at 773,107,200 under
utc_offset 12 begins at 773,107,212 s. -/
def withLeap (kind : LeapKind) (phase : LeapPhase) (sec : Nat) : State :=
  let s := atTime State.reset sec 0 1000
  { s with ts := { s.ts with utcOffset := 12, leap := some ⟨kind, 773107200, .ref 0, phase⟩ } }

theorem test_insertedSecondStart :
    (after .insertedSecondStart (withLeap .insert .pending 773107212)).ts.leap =
        some ⟨.insert, 773107200, .ref 0, .inserting⟩ ∧
      after .insertedSecondStart (withLeap .insert .pending 773107211) = withLeap .insert .pending 773107211 := by
  decide +kernel

theorem test_leapInstant :
    (after .leapInstant (withLeap .insert .inserting 773107213)).ts.utcOffset = 13 ∧
      raised (after .leapInstant (withLeap .insert .inserting 773107213)) .leapTaken ∧
      (after .leapInstant (withLeap .delete .pending 773107211)).ts.utcOffset = 11 ∧
      after .leapInstant (withLeap .delete .pending 773107210) = withLeap .delete .pending 773107210 ∧
      after .leapInstant State.reset = State.reset := by decide +kernel

/-- The inserted second that begins where the seconds return to 0: the timescale has just come to 0 from its last tick. -/
def atWrap : State :=
  { State.reset with
    ts := { State.reset.ts with
      time := ⟨0, 1, 0⟩
      reachedFrom := some (Config.nsRange - 3)
      utcOffset := 12
      leap := some ⟨.insert, 2 ^ 48 - 12, .ref 0, .pending⟩ } }

/-- A leap event leaves alone a record of the other kind or phase, and acts at second 2^48. -/
theorem test_leap_events_by_phase :
    (∀ phase, after .insertedSecondStart (withLeap .delete phase 773107300) = withLeap .delete phase 773107300) ∧
      after .leapInstant (withLeap .insert .pending 773107300) = withLeap .insert .pending 773107300 ∧
      after .leapInstant (withLeap .insert .inserting 773107212) = withLeap .insert .inserting 773107212 ∧
      after .insertedSecondStart (withLeap .insert .inserting 773107300) = withLeap .insert .inserting 773107300 ∧
      (after .insertedSecondStart atWrap).ts.leap.map (·.phase) = some .inserting := by
  refine ⟨fun phase => ?_, ?_⟩
  · cases phase <;> decide +kernel
  · decide +kernel

/-- What a tick has reached, and what it has not: on the way up, and round the return to 0; and the latest multiple of a
second less 400 ns, which may lie before 0. -/
theorem test_reached :
    let s := atTime State.reset 100 0 9
    s.reachedNow (100 * 10 ^ 9) ∧ s.reachedNow (100 * 10 ^ 9 - 3) ∧ s.reachedNow (100 * 10 ^ 9 - 4) = false ∧
      s.reachedNow (100 * 10 ^ 9 + 1) = false ∧ atWrap.reachedNow 0 ∧ atWrap.reachedNow 1 ∧ atWrap.reachedNow (-2) ∧
      atWrap.reachedNow (-3) = false ∧ atWrap.hasReached (Config.nsRange - 2) ∧
      atWrap.hasReached (Config.nsRange - 3) = false ∧ State.reset.reachedNow 0 = false ∧
      s.latestMultiple (10 ^ 9) 400 = 100 * 10 ^ 9 - 400 ∧ State.reset.latestMultiple (10 ^ 9) 400 = -400 := by
  decide +kernel

/-- Section 1.3's example: a slew of 300,000 ns under a limit of 100 ppm takes 3,000 s; a second one is SLEW_BUSY with
the origin (master 1 = 17) and the residual. -/
theorem test_slewBy :
    let s := inState .pinned none
    let t := after (.slewBy 1) (ready s .slewBy [300000])
    code t = some .ok ∧ word t 0 = some 3000 ∧
      word (after (.slewBy 1) (ready t .slewBy [1])) 0 = some (17 + 300000 * 256) ∧
      code (after (.slewBy 1) (ready t .slewBy [1])) = some .slewBusy ∧
      code (after (.slewBy 1) (ready s .slewBy [0])) = some .range ∧
      code (after (.slewBy 1) (ready s .slewBy [BitVec.ofNat 128 (10 ^ 9 + 1)])) = some .range ∧
      code (after (.slewBy 1) (ready s .slewBy [BitVec.ofNat 128 (2 ^ 32 - 10 ^ 9)])) = some .ok ∧
      code (after (.slewBy 1) (ready (inState .locked (some 0)) .slewBy [1])) = some .state := by decide +kernel

/-- A step that would leave the timescale's range is refused RANGE; one to 0 is taken. -/
theorem test_stepBy :
    let s := atTime State.reset 0 500 1000
    (after (.stepBy 1) (ready s .stepBy [BitVec.ofInt 128 (-500)])).ts.time = ⟨0, 0, 0⟩ ∧
      s.stepTarget (-500) = some 0 ∧ s.stepTarget (-501) = none ∧
      code (after (.stepBy 1) (ready s .stepBy [BitVec.ofInt 128 (-501)])) = some .range ∧
      raised (after (.stepBy 1) (ready s .stepBy [7])) .stepTaken ∧
      code (after (.stepBy 1) (ready (inState .acquiring (some 0)) .stepBy [7])) = some .state := by decide +kernel

/-- The last instant of the range is a step's target, and the one after it is none. -/
theorem test_stepTarget :
    let s := atTime State.reset 5 0 9
    s.stepTarget (2 ^ 48 * 10 ^ 9 - 1 - 5 * 10 ^ 9) = some (2 ^ 48 * 10 ^ 9 - 1) ∧
      s.stepTarget (2 ^ 48 * 10 ^ 9 - 5 * 10 ^ 9) = none := by decide +kernel

theorem test_setTime :
    let ws : List Word := [BitVec.ofNat 128 (790000000 * 2 ^ 64 + 250000000 * 2 ^ 32), 500]
    let t := after (.setTime 1) (ready (inState .holdover none) .setTime ws)
    setTimeParams ws = some (790000000250000000, 500) ∧ t.ts.time = ⟨790000000, 250000000, 0⟩ ∧
      t.uncertainty = some 500000 ∧ word t 0 = some 790000000250000000 ∧
      (after (.setTime 1) (ready State.reset .setTime ws)).uncertainty = none ∧
      setTimeParams [BitVec.ofNat 128 (10 ^ 9 * 2 ^ 32), 0] = none ∧
      code (after (.setTime 1) (ready State.reset .setTime [BitVec.ofNat 128 (10 ^ 9 * 2 ^ 32), 0])) = some .range ∧
      code (after (.setTime 1) (ready (inState .locked (some 0)) .setTime ws)) = some .state := by decide +kernel

/-- The hypotheses of its last clauses: a declared uncertainty that changes the grade and one that does not, and one that
GRADE_CHANGED is posted for. -/
theorem test_setTime_regrades :
    let ws (declared : Nat) : List Word := [BitVec.ofNat 128 (790000000 * 2 ^ 64), BitVec.ofNat 128 declared]
    let s := inState .holdover none
    s.engine.state ≠ .freerun ∧ gradeOfPs (some (min 4294967295000 (500 * 1000))) = s.engine.announced ∧
      gradeOfPs (some (min 4294967295000 (50 * 1000))) ≠ s.engine.announced ∧
      raised (after (.setTime 1) (ready s .setTime (ws 50))) .gradeChanged ∧
      raised (after (.setTime 1) (ready s .setTime (ws 500))) .gradeChanged = false ∧
      raised (after (.setTime 1) (ready s .setTime (ws 500))) .stepTaken := by decide +kernel

/-- The three places of a step against an INSERT, and the two against a DELETE (R13, R15). -/
theorem test_step_aligns_leap :
    let at' (s : State) (sec : Nat) := (s.stepTo (.master 1) (sec * 10 ^ 9) false).ts
    (at' (withLeap .insert .inserting 5) 773107211).leap = some ⟨.insert, 773107200, .ref 0, .pending⟩ ∧
      (at' (withLeap .insert .pending 5) 773107212).leap = some ⟨.insert, 773107200, .ref 0, .inserting⟩ ∧
      (at' (withLeap .insert .pending 5) 773107213).utcOffset = 13 ∧
      (at' (withLeap .delete .pending 5) 773107210).leap = some ⟨.delete, 773107200, .ref 0, .pending⟩ ∧
      (at' (withLeap .delete .pending 5) 773107211).utcOffset = 11 := by decide +kernel

/-- The calendar: the last second of 2000-02-29, the first of 2001, and the last before 2000; years that are leap years
and years that are not. -/
theorem test_labels :
    labelOf (60 * 86400 - 1) = ⟨2000, 60, 86399⟩ ∧ labelOf (366 * 86400) = ⟨2001, 1, 0⟩ ∧
      labelOf (-1) = ⟨1999, 365, 86399⟩ ∧ (labelOf (36890 * 86400 - 1)).dayOfYear = 365 ∧
      labelOf 773107199 = ⟨2024, 182, 86399⟩ := by decide +kernel

theorem test_setLeap :
    let s := atTime State.reset 86399 0 9
    let ws (kind d : Nat) : List Word := [BitVec.ofNat 128 (kind + d * 2 ^ 8)]
    setLeapParams (ws 1 86400) = some (.insert, 86400) ∧
      (after (.setLeap 1) (ready s .setLeap (ws 1 86400))).ts.leap = some ⟨.insert, 86400, .master 1, .pending⟩ ∧
      code (after (.setLeap 1) (ready s .setLeap (ws 1 86401))) = some .range ∧
      code (after (.setLeap 1) (ready s .setLeap (ws 2 86400))) = some .range ∧
      code (after (.setLeap 1) (ready s .setLeap (ws 0 86400))) = some .range ∧
      code (after (.setLeap 1) (ready (withLeap .insert .inserting 5) .setLeap (ws 1 86400))) = some .state := by
  decide +kernel

theorem test_clearLeap :
    (after (.clearLeap 1) (ready (withLeap .insert .pending 5) .clearLeap [])).ts.leap = none ∧
      code (after (.clearLeap 1) (ready State.reset .clearLeap [])) = some .notFound := by decide +kernel

/-- SET_UTC_OFFSET: with no record, at the limits that leave no room, and on each side of the inserted or deleted
second. -/
theorem test_setUtcOffset :
    let set (s : State) (u : Word) := after (.setUtcOffset 1) (ready s .setUtcOffset [u])
    (set State.reset 255).ts.utcOffset = 255 ∧ code (set (withLeap .insert .pending 5) 255) = some .range ∧
      (set (withLeap .insert .pending 773107212) 13).ts.leap = some ⟨.insert, 773107200, .ref 0, .pending⟩ ∧
      (set (withLeap .insert .pending 773107211) 11).ts.leap = some ⟨.insert, 773107200, .ref 0, .inserting⟩ ∧
      (set (withLeap .insert .pending 773107211) 10).ts.utcOffset = 11 ∧
      code (set (withLeap .delete .pending 5) 0) = some .range ∧
      (set (withLeap .delete .pending 773107208) 10).ts = { (withLeap .delete .pending 773107208).ts with utcOffset := 10 } ∧
      (set (withLeap .delete .pending 773107209) 10).ts.utcOffset = 9 := by decide +kernel

theorem test_setLocalOffset :
    let set (x : Int) := after (.setLocalOffset 1) (ready State.reset .setLocalOffset [BitVec.ofInt 128 (x % 256)])
    (set (-48)).ts.localOffset = -48 ∧ (set 56).ts.localOffset = 56 ∧ code (set (-49)) = some .range ∧
      code (set 57) = some .range ∧
      code (after (.setLocalOffset 1) (inSlot State.reset .setLocalOffset [0])) = some .claimNeeded := by decide +kernel

/-- READ_TIME's first words in the worked example of section 1.6: the timescale, and the run counter beside it. -/
theorem test_readTime :
    let t := after (.readTime 1) (inSlot (atTime State.reset 790000001 249850002 1250250000000) .readTime [])
    code t = some .ok ∧ word t 0 = some 0x2f1671810ee4689200000000 := by decide +kernel

/-- A part whose every optional group is present, and READ_TIME's fourteen words of it and of the reset state. -/
def grouped : State :=
  let s := withLeap .insert .inserting 773107212
  { s with
    ts := { s.ts with
      localOffset := -48
      rate := -1
      slew := some ⟨.engine, -5, -3 * finePerNs, ⟨1, 2, 3⟩⟩
      lastSlew := some ⟨.ref 2, 7, ⟨4, 5, 6⟩, .cancelled, -2, 9⟩
      lastStep := some ⟨.master 3, -500, ⟨7, 8, 9⟩, ⟨10, 11, 12⟩, 13⟩ }
    engine := (inState .locked (some 3)).engine }

theorem test_readTime_words :
    pack grouped.timeFields = grouped.timeWords (2 ^ 64 - 500) ∧ pack State.reset.timeFields = State.reset.timeWords 0 ∧
      (grouped.timeWords 0).length = 14 ∧ grouped.ts.labelNow = ⟨2024, 182, 86400⟩ ∧
      (grouped.timeWords 0)[2]? = some (wordOf [(32, 2024), (16, 182), (32, 86400), (8, 1), (8, 1)]) := by decide +kernel

theorem test_identify :
    word (after (.identify 1) (inSlot State.reset .identify [])) 0 = some 0x0104600A71 := by decide +kernel

theorem test_reads_by_index :
    code (after (.readReference 1) (inSlot State.reset .readReference [3])) = some .ok ∧
      code (after (.readReference 1) (inSlot State.reset .readReference [4])) = some .range ∧
      code (after (.readPort 1) (inSlot State.reset .readPort [1])) = some .ok ∧
      code (after (.readPort 1) (inSlot State.reset .readPort [2])) = some .range ∧
      code (after (.readEngine 1) (inSlot State.reset .readEngine [])) = some .ok := by decide +kernel

/-- Hypotheses of StepAlignsLeapAndPassesMarks: three marks of one owner, passed (one-shot and periodic) and not, by a
step that carries the timescale from 100 s to 103.5 s. -/
def markAt (id sec : Nat) (period : Option Nat) : Mark :=
  ⟨id, 2, 0x0010#16, sec * 10 ^ 9, 20000, period, none, none, 5, sec * 10 ^ 9, 0, 0, 0, 0, 0⟩

def withMarks : State :=
  { atTime (inState .holdover none) 100 0 25000000000 with
    marks := [markAt 0 101 none, markAt 1 102 (some 1000), markAt 2 104 none] }

theorem test_step_passes_marks :
    withMarks.marksWf ∧
      ((withMarks.stepTo (.master 1) (103 * 10 ^ 9 + 500000000) false).marks.map fun m => (m.id, m.due, m.skipped)) =
        [(1, 104 * 10 ^ 9, 2), (2, 104 * 10 ^ 9, 0)] ∧
      withMarks.passedBy (103 * 10 ^ 9) (101 * 10 ^ 9) = true ∧ withMarks.passedBy (103 * 10 ^ 9) (104 * 10 ^ 9) = false ∧
      (withMarks.stepTo (.master 1) (90 * 10 ^ 9) false).marks = withMarks.marks := by decide +kernel

/-- The one-shot mark that the step passes leaves with outcome COMPLETED, skipped once, to a queue with room and to a full
one. -/
theorem test_step_hands_outcomes :
    let o : Outcome := ⟨9, 0, 2, .completed, 0, 1, 0, 0, 0⟩
    let t (q : List Outcome) := (withMarks.setQueue 2 q).stepTo (.master 1) (103 * 10 ^ 9 + 500000000) false
    (((t []).queue 2).map fun x => (x.id, x.outcome, x.lastDue, x.skipped)) = [(0, .completed, 101 * 10 ^ 9, 1)] ∧
      ((t []).port 2).has .outcomesReady ∧ (((t [o]).queue 2).map (·.id)) = [9, 0] ∧
      ((t (List.replicate 16 o)).queue 2).length = 16 ∧ ((t (List.replicate 16 o)).port 2).has .outcomeOverrun := by
  decide +kernel

/-- A periodic mark of 102 s passed to 104 s: its count spent at the step's end, spent before it, and left over; and one
whose next due instant stays within the range, and leaves it. -/
theorem test_passMark :
    let pass (sec : Nat) (count : Option Nat) (new : Nat) :=
      withMarks.passMark (new * 10 ^ 9) { markAt 1 sec (some 1000) with remaining := count }
    let kept (sec : Nat) (count : Option Nat) (new : Nat) : Option (List Nat) :=
      (pass sec count new).1.map fun m => [m.due, m.remaining.getD 0, m.skipped]
    let left (sec : Nat) (count : Option Nat) (new : Nat) : List Nat :=
      [(pass sec count new).2.lastDue, (pass sec count new).2.skipped]
    kept 102 (some 3) 104 = none ∧ left 102 (some 3) 104 = [104 * 10 ^ 9, 3] ∧ kept 102 (some 2) 104 = none ∧
      left 102 (some 2) 104 = [103 * 10 ^ 9, 2] ∧ kept 102 (some 4) 104 = some [105 * 10 ^ 9, 1, 3] ∧
      kept 102 none 104 = some [105 * 10 ^ 9, 0, 3] ∧ kept (2 ^ 48 - 2) none (2 ^ 48 - 2) = some [(2 ^ 48 - 1) * 10 ^ 9, 0, 1] ∧
      kept (2 ^ 48 - 2) none (2 ^ 48 - 1) = none ∧ left (2 ^ 48 - 2) none (2 ^ 48 - 1) = [(2 ^ 48 - 1) * 10 ^ 9, 2] ∧
      (withMarks.passMark (104 * 10 ^ 9) (markAt 0 101 none)).2 = ⟨0, 5, 2, .completed, 101 * 10 ^ 9, 0, 0, 1, 0⟩ := by
  decide +kernel

/-- A step forward passes what lies after the old timescale and up to the new one, what the tick reached, and nothing
beyond; after it no instant is reached. -/
theorem test_passedBy :
    let s := withMarks
    s.passedBy (101 * 10 ^ 9) (100 * 10 ^ 9 + 1) ∧ s.passedBy (101 * 10 ^ 9) (101 * 10 ^ 9) ∧
      s.passedBy (101 * 10 ^ 9) (101 * 10 ^ 9 + 1) = false ∧ s.passedBy (101 * 10 ^ 9) (100 * 10 ^ 9) ∧
      s.passedBy (100 * 10 ^ 9) (100 * 10 ^ 9) = false ∧ atWrap.nowNs < 5 ∧
      atWrap.passedBy 5 Config.nsRange ∧ atWrap.reachedNow 0 ∧
      (atWrap.stepTo .engine 0 false).reachedNow 0 = false := by decide +kernel

/-- A step cuts what is in flight, drops what it passes, empties the answer queues and cancels the slew. -/
theorem test_step_tells_every_block :
    let l : Line := { lineIn .marks with emission := .pulse .mark 6000, commitments := [⟨7000, 8000, 0, 2⟩] }
    let s : State := { withSlew 300 5 0 with lines := State.reset.lines.set 3 l }
    let t := s.stepTo (.master 1) 10000 true
    (t.line 3).emission = .none ∧ (t.line 3).flags = ⟨false, true, true, false, false⟩ ∧ (t.line 3).commitments = [] ∧
      t.ts.slew = none ∧ t.ts.lastSlew.map (·.outcome) = some .cancelled ∧
      (t.netPort .na).nextDue = 1000000000 := by decide +kernel

/-! ### The reference inputs -/

/-- Reference 0 as a record of `kind` in `st`, its last edge at tick 1,000,000,000. -/
def refIn (kind : RefKind) (st : RefState) (latch : Option Capture) (tick : Nat) : State :=
  { atTime (inState .holdover none) 790000010 0 tick with
    refs := State.reset.refs.set 0 { reference kind st with lastEdge := some 1000000000, latch := latch } }

def capture : Capture := ⟨790000009 * 10 ^ 9, 1000000000, false⟩

theorem test_first_edge :
    let s := { State.reset with refs := State.reset.refs.set 0 (reference .receiver .seeking) }
    let t := after (.referenceEdge 0 .rising) s
    (t.ref 0).state = .qualifying ∧ raised t .refChanged ∧ after (.referenceEdge 0 .falling) s = s ∧
      ((after (.referenceEdge 0 .rising) (atTime t 1 0 (250000000 - 62501))).ref 0).glitches = 1 ∧
      ((after (.referenceEdge 0 .rising) (atTime t 1 0 (250000000 - 62500))).ref 0).lastEdge = some (250000000 - 62500) ∧
      ((after (.referenceEdge 0 .rising) (atTime t 1 0 (250000000 + 62500))).ref 0).lastEdge = some (250000000 + 62500) := by
  decide +kernel

/-- The window's two ends, a replaced capture that saw no message, and one that did; the third missed message. -/
theorem test_window :
    let edge (c : Option Capture) (st : RefState) (k : Nat) := after (.referenceEdge 0 .rising) (refIn .receiver st c k)
    let s := refIn .receiver .usable (some capture) 1250000000
    let third := after (.referenceEdge 0 .rising) (s.setRef 0 { s.ref 0 with badRun := 2 })
    ((edge none .usable 1249937499).ref 0).glitches = 1 ∧ ((edge none .usable 1249937500).ref 0).latch.isSome ∧
      ((edge none .usable 1250062500).ref 0).lastEdge = some 1250062500 ∧
      ((edge (some capture) .usable 1250000000).ref 0).badRun = 1 ∧
      ((edge (some { capture with badSeen := true }) .usable 1250000000).ref 0).badRun = 0 ∧
      ((edge (some capture) .qualifying 1250000000).ref 0).messageErrors = 1 ∧
      (third.ref 0).state = .heldOff ∧ (third.ref 0).holdOffExpiry = some (third.run + 60000) := by decide +kernel

/-- An edge in OFF and in HELD_OFF, and a change opposite to the polarity, are no edges. -/
theorem test_ignored_edges :
    (∀ st ∈ [RefState.off, .heldOff], ∀ e ∈ [Edge.rising, .falling],
        after (.referenceEdge 0 e) (refIn .receiver st none 1250000000) = refIn .receiver st none 1250000000) ∧
      ∀ st ∈ [RefState.qualifying, .usable],
        after (.referenceEdge 0 .falling) (refIn .receiver st none 1250000000) = refIn .receiver st none 1250000000 := by
  decide +kernel

/-- An edge after the closing tick: one missed edge is counted and it is judged by the next window, at both ends of it; a
second one is then missed too, or the record leaves. -/
theorem test_late_edge :
    let edge (missing k : Nat) :=
      let s := refIn .receiver .usable none k
      (after (.referenceEdge 0 .rising) (s.setRef 0 { s.ref 0 with missingRun := missing })).ref 0
    (edge 0 1250062501).missingEdges = 1 ∧ (edge 0 1250062501).glitches = 1 ∧
      (edge 0 1499937500).lastEdge = some 1499937500 ∧ (edge 0 1499937500).missingRun = 0 ∧
      (edge 0 1500062500).lastEdge = some 1500062500 ∧ (edge 0 1500062501).lastEdge = some 1000000000 ∧
      (edge 2 1750062501).state = .heldOff := by decide +kernel

theorem test_missing_edge :
    let at' (st : RefState) (missing k : Nat) : State :=
      let s := refIn .receiver st none k
      s.setRef 0 { s.ref 0 with missingRun := missing }
    let after' (s : State) := after (.missingEdgeExpiry 0) s
    after' (at' .usable 0 1250062500) = at' .usable 0 1250062500 ∧
      ((after' (at' .usable 0 1250062501)).ref 0).missingEdges = 1 ∧
      ((after' (at' .qualifying 1 1500062501)).ref 0).missingRun = 2 ∧
      ((after' (at' .qualifying 2 1750062501)).ref 0).state = .seeking ∧
      ((after' (at' .usable 2 1750062501)).ref 0).state = .heldOff := by decide +kernel

theorem test_holdOff_expiry :
    let s := refIn .receiver .heldOff none 250000000
    let held (k : Nat) := s.setRef 0 { s.ref 0 with lastEdge := none, holdOffExpiry := some k }
    ((after (.holdOffExpiry 0) (held 1000)).ref 0).state = .seeking ∧
      ((after (.holdOffExpiry 0) (held 1001)).ref 0).state = .heldOff := by decide +kernel

/-- A PULSE_ONLY measurement completes 50,000,000 ticks after its edge; its offset is the nearer way to a whole second. -/
theorem test_settle_expiry :
    let at' (st : RefState) (ns k : Nat) : State :=
      let s := refIn .pulseOnly st (some ⟨790000009 * 10 ^ 9 + ns, 1000000000, false⟩) k
      s.setRef 0 { s.ref 0 with settleExpiry := some 1050000000 }
    let offset (s : State) := ((after (.settleExpiry 0) s).ref 0).latest.map (·.offset)
    after (.settleExpiry 0) (at' .qualifying 3 1049999999) = at' .qualifying 3 1049999999 ∧
      offset (at' .qualifying 499999999 1050000000) = some 499999999 ∧
      offset (at' .usable 500000000 1050000000) = some (-500000000) := by decide +kernel

/-- The message of the worked example of section 2.3's form: RECEIVER, UTC count 773,000,000, offset 18, accuracy 50. -/
def messageWith (kind status announced dayEnd : Nat) : List Byte :=
  let b := beBytes 1 kind ++ beBytes 6 773000000 ++ beBytes 1 18 ++ beBytes 4 50 ++ beBytes 1 status ++ beBytes 1 announced
    ++ beBytes 6 dayEnd
  [0xC5#8, 0x3A#8] ++ b ++ [(checkSums b).1, (checkSums b).2]

def messageBytes (kind status : Nat) : List Byte := messageWith kind status 0 0

/-- What the bytes of a message say, and those that say nothing: an unassigned source kind, status or announcement, and a
wrong check byte. -/
theorem test_messageOf :
    (messageBytes 1 1).length = 24 ∧ messageOf (messageBytes 1 1) = some ⟨.receiver, 773000000, 18, 50, 1, .none⟩ ∧
      messageOf (messageWith 2 7 1 773107200) = some ⟨.link, 773000000, 18, 50, 7, .insert 773107200⟩ ∧
      (messageOf (messageWith 2 0 2 773107200)).map (·.announcement) = some (.delete 773107200) ∧
      (∀ kind ∈ [0, 3], messageOf (messageBytes kind 0) = none) ∧ messageOf (messageBytes 1 2) = none ∧
      messageOf (messageBytes 2 8) = none ∧ messageOf (messageWith 1 0 3 773107200) = none ∧
      messageOf ((messageBytes 1 0).take 22 ++ [0#8] ++ (messageBytes 1 0).drop 23) = none := by decide +kernel

/-- Reference 0 with all but the last character gathered, `ticks` after the edge. -/
def gathered (st : RefState) (kind status ticks : Nat) (latch : Option Capture) : State :=
  let s := refIn .receiver st latch (1000000000 + ticks)
  s.setRef 0 { s.ref 0 with gather := .gathering ((messageBytes kind status).take 23) }

def lastChar (kind status : Nat) : Character := ⟨(messageBytes kind status).getD 23 0, true⟩

theorem test_message_valid :
    let t := after (.messageArrival 0 (lastChar 1 0)) (gathered .qualifying 1 0 12500000 (some capture))
    (t.ref 0).goodRun = 1 ∧ (t.ref 0).latch = none ∧
      (t.ref 0).latest.map (·.offset) = some ((790000009 - 773000018) * 10 ^ 9) ∧
      ((after (.messageArrival 0 (lastChar 1 0)) (gathered .usable 1 0 237500000 (some capture))).ref 0).latest.map
        (·.accuracy) = some 1000 := by decide +kernel

/-- A message too early, too late, of another kind, with no capture, or unfit; and one with its check wrong. -/
theorem test_message_bad :
    let bad (kind status ticks : Nat) (latch : Option Capture) :=
      ((after (.messageArrival 0 (lastChar kind status)) (gathered .usable kind status ticks latch)).ref 0)
    (bad 1 0 12499999 (some capture)).messageErrors = 1 ∧ (bad 1 0 237500001 (some capture)).messageErrors = 1 ∧
      (bad 2 0 20000000 (some capture)).badRun = 1 ∧ (bad 1 0 20000000 none).messageErrors = 1 ∧
      (bad 1 1 20000000 (some capture)).state = .heldOff ∧
      ((after (.messageArrival 0 ⟨0, true⟩) (gathered .qualifying 1 0 20000000 (some capture))).ref 0).messageErrors = 1 ∧
      ((after (.messageArrival 0 (lastChar 1 1)) (gathered .qualifying 1 1 20000000 (some capture))).ref 0).goodRun = 0 ∧
      messageOf (messageBytes 1 0) ≠ none ∧ messageOf ((messageBytes 1 0).take 23 ++ [0#8]) = none := by
  decide +kernel

/-- Gathering: the first character, another first character, a second that rejects, a third, and a framing error. -/
theorem test_message_characters :
    let s := refIn .receiver .qualifying (some capture) 1020000000
    let one := after (.messageCharacter 0 ⟨0xC5, true⟩) s
    (one.ref 0).gather = .gathering [0xC5#8] ∧ after (.messageCharacter 0 ⟨0x3A, true⟩) s = s ∧
      ((after (.messageCharacter 0 ⟨0xC5, true⟩) one).ref 0).messageErrors = 1 ∧
      ((after (.messageArrival 0 ⟨0x3A, false⟩) one).ref 0).messageErrors = 1 ∧
      ((after (.messageCharacter 0 ⟨0x3A, true⟩) one).ref 0).gather = .gathering [0xC5#8, 0x3A#8] ∧
      after (.messageArrival 0 ⟨0x3A, true⟩) one = one ∧
      after (.messageCharacter 1 ⟨0xC5, true⟩) s = s := by decide +kernel

/-- The parameter words of SET_REFERENCE. -/
def refWords (r : RefId) (x : RefSettings) : List Word := pack (.bits 8 r.val :: x.fields)

theorem test_setReference :
    let s := { refIn .receiver .usable none 1020000000 with engine := { Engine.powerOn with state := .pinned } }
    let x := (s.ref 0).settings
    let set (y : RefSettings) := after (.setReference 1) (ready s .setReference (refWords 0 y))
    setReferenceParams (refWords 0 { x with priority := 3 }) = some (0, { x with priority := 3 }) ∧
      ((set x).ref 0).state = .usable ∧ ((set { x with priority := 3 }).ref 0).state = .usable ∧
      ((set { x with compensation := 65535 }).ref 0).state = .seeking ∧ ((set { x with kind := .link }).ref 0).state = .seeking ∧
      ((set { x with kind := .off }).ref 0).state = .off ∧ code (set { x with qualifyCount := 2 }) = some .range ∧
      ((after (.setReference 1) (ready s .setReference (refWords 1 { RefSettings.powerOn with priority := 3 }))).ref 1).state =
        .off := by decide +kernel

/-! ### The discipline engine and time quality -/

/-- The engine of the worked example of section 3.4: time constant 16 s, lock count 4, growth 1,000 ps/s. -/
def engineIn (st : EngineState) (initialStep : Bool) (autoStep : Bool) : State :=
  { refIn .receiver .usable none (16180 * 250000) with
    engine :=
      { Engine.powerOn with
        state := st
        selection := some 0
        initialStep := initialStep
        settings := ⟨16, 200, 4, 500000, autoStep, 1000⟩
        anchor := some ⟨1100000, 15180⟩ } }

/-- Its first loop update: x = 12 ns gives I = -11 and R = -761. -/
theorem test_loop_update :
    let t := (engineIn .acquiring false true).useMeasurement 0 12 100 none
    let s := (engineIn .acquiring false true).setEngine { (engineIn .acquiring false true).engine with goodRun := 3 }
    t.engine.integral = -11 ∧ t.ts.rate = -761 ∧ t.engine.goodRun = 1 ∧ t.engine.state = .acquiring ∧
      t.uncertainty = some 1101000 ∧
      (s.useMeasurement 0 (-200) 100 none).engine.state = .locked ∧ (s.useMeasurement 0 201 100 none).engine.goodRun = 0 ∧
      ((engineIn .locked false true).useMeasurement 0 3 100 none).uncertainty = some 103000 ∧
      (engineIn .locked false true).useMeasurement 1 3 100 none = engineIn .locked false true := by decide +kernel

/-- The update from a message: ignored while INSERTING; NONE from the record's own source and from another; a record
replaced, one whose checks fail, and one with no room; and the three places of an INSERT and the two of a DELETE. -/
theorem test_leapUpdate :
    let upd (s : State) (r : RefId) (u : Nat) (a : Announcement) := (s.leapUpdate r ⟨.receiver, 0, u, 0, 0, a⟩).ts
    let insert (sec : Nat) := withLeap .insert .pending sec
    let own := some (⟨.insert, 773107200, .ref 0, .pending⟩ : Leap)
    upd (withLeap .insert .inserting 9) 0 30 .none = (withLeap .insert .inserting 9).ts ∧
      (upd (insert 9) 0 30 .none).leap = none ∧ (upd (insert 9) 0 30 .none).utcOffset = 30 ∧
      (upd (insert 9) 1 30 .none).leap = own ∧
      (upd (insert 9) 1 30 (.delete 86400)).leap = some ⟨.delete, 86400, .ref 1, .pending⟩ ∧
      (upd (insert 9) 1 30 (.insert 86401)).leap = own ∧ (upd (insert 9) 1 255 (.insert 86400)).leap = none ∧
      (upd (insert 9) 1 0 (.delete 86400)).leap = own ∧ (upd (insert 86400) 1 0 (.insert 86400)).leap = own ∧
      (upd (insert 773107212) 1 13 .none).leap = own ∧
      (upd (insert 773107212) 1 12 .none).leap = own.map ({ · with phase := .inserting }) ∧
      (upd (insert 773107212) 1 11 .none).leap = none ∧ (upd (insert 773107212) 1 11 .none).utcOffset = 12 ∧
      (upd (withLeap .delete .pending 773107210) 1 12 .none).leap = some ⟨.delete, 773107200, .ref 0, .pending⟩ ∧
      (upd (withLeap .delete .pending 773107210) 1 11 .none).utcOffset = 10 ∧
      ((insert 773107212).leapUpdate 1 ⟨.receiver, 0, 11, 0, 0, .none⟩).ports = (State.reset.post .leapTaken).ports := by
  decide +kernel

theorem test_engine_corrections :
    let action (s : State) (x : Int) := (s.useMeasurement 0 x 100 none).engine.lastMeasurement.map (·.action)
    action (engineIn .acquiring true true) (-788000012000004370) = some .initialStep ∧
      action (engineIn .acquiring false true) 500000 = some .autoStep ∧
      action (engineIn .acquiring false false) (-500000) = some .slew ∧
      action (engineIn .acquiring false false) (10 ^ 9) = some .slew ∧
      action (engineIn .acquiring false false) (10 ^ 9 + 1) = some .stepNeeded ∧
      raised ((engineIn .acquiring false false).useMeasurement 0 (10 ^ 9 + 1) 100 none) .stepNeeded ∧
      action (engineIn .acquiring false false) 499999 = some .loop ∧
      action (engineIn .locked false true) (2 ^ 63 - 1) = some .ignored ∧
      action ((engineIn .acquiring false false).setTs (withSlew 9 9 0).ts) 500000 = some .slew ∧
      action ((engineIn .acquiring false false).setTs
        { (withSlew 9 9 0).ts with slew := some ⟨.engine, 9, 9, ⟨0, 0, 0⟩⟩ }) 500000 = some .ignored ∧
      action ((engineIn .acquiring true true).setRef 0 (reference .pulseOnly .usable)) 5 = some .ignored := by
  decide +kernel

/-- U at the crossings of the worked example of section 3.6, and the grade on each side of them. -/
theorem test_grade :
    let held (ms : Nat) : State := { inState .holdover none with
      ts := { State.reset.ts with tickCount := ms * 250000 }
      engine := { (engineIn .holdover false true).engine with selection := none, anchor := some ⟨103000, 3600180⟩, announced := 1 } }
    (held 3747180).uncertainty = some 250000 ∧ (held 3747180).grade = 1 ∧ (held 3747181).grade = 2 ∧
      after .gradeGrowthCrossing (held 3747180) = held 3747180 ∧
      raised (after .gradeGrowthCrossing (held 3747181)) .gradeChanged ∧ State.reset.uncertainty = none ∧
      State.reset.grade = 7 ∧ (engineIn .locked false true).uncertainty = some 1100000 := by decide +kernel

theorem test_setEngine :
    let s := engineIn .holdover false true
    let x : EngineSettings := ⟨16, 10, 4, 1000, true, 1000000⟩
    let t := after (.setEngine 1) (ready s .setEngine (pack (x.fields ++ [.bits 16 500])))
    setEngineParams (pack (x.fields ++ [.bits 16 500])) = some (x, 500) ∧ t.ts.slewLimit = 500 ∧
      t.engine.settings = x ∧ t.engine.anchor = some ⟨1101000, 16180⟩ ∧
      code (after (.setEngine 1) (ready s .setEngine (pack (x.fields ++ [.bits 16 501])))) = some .range := by decide +kernel

theorem test_pin_unpin :
    let t := after (.pin 1) (ready State.reset .pin [500])
    t.engine.state = .pinned ∧ t.uncertainty = some 500000 ∧ raised t .stateChanged ∧ t.grade = 2 ∧
      (after (.unpin 1) (ready t .unpin [])).engine.state = .holdover ∧
      code (after (.unpin 1) (ready State.reset .unpin [])) = some .state := by decide +kernel

/-- The flags of a PIN that changes everything, and of one that changes the grade alone. -/
theorem test_pin_flags :
    let s : State := { inState .locked (some 0) with ts := (withSlew 5 5 0).ts }
    let pin (s : State) (u : Word) := ((after (.pin 1) (ready s .pin [u])).port 2).summary
    pin s 5 = 0x004F#16 ∧ pin s 600 = 0x004B#16 ∧ pin (inState .pinned none) 5 = 0x0005#16 ∧
      pin (inState .pinned none) 600 = 0x0001#16 := by decide +kernel

/-- The best candidate by priority, then by index; PULSE_ONLY ones apart in FREERUN; and what a re-evaluation does. -/
theorem test_reevaluate :
    let two : State := { inState .holdover none with refs := Four.all (reference .receiver .usable) }
    let pulse : State := { State.reset with refs := State.reset.refs.set 2 (reference .pulseOnly .usable) }
    two.bestCandidate = some 0 ∧
      (two.setRef 2 { two.ref 2 with settings := { (two.ref 2).settings with priority := 0 } }).bestCandidate = some 2 ∧
      two.reevaluate.engine.state = .acquiring ∧ raised two.reevaluate .selectionChanged ∧
      pulse.bestCandidate = none ∧ pulse.reevaluate = pulse ∧
      ({ inState .locked (some 0) with refs := Four.all .powerOn }.reevaluate).engine.state = .holdover ∧
      ({ two with engine := (inState .locked (some 0)).engine }.reevaluate) =
        { two with engine := (inState .locked (some 0)).engine } ∧
      ({ State.reset with refs := two.refs }.reevaluate).engine.initialStep = true := by decide +kernel

/-- The flags of a re-evaluation: out of FREERUN with a grade other than G7 (which no run reaches) and from HOLDOVER with a
master's slew; and into HOLDOVER with an engine slew. -/
theorem test_reevaluate_flags :
    let two : State := { inState .holdover none with refs := Four.all (reference .receiver .usable) }
    let out : State := { two with engine := { two.engine with state := .freerun } }
    let lost : State := { inState .locked (some 0) with
      ts := { (withSlew 5 5 0).ts with slew := some ⟨.engine, 5, 5, ⟨0, 0, 0⟩⟩ } }
    (two.reevaluate.port 2).summary = 0x000B#16 ∧ (out.reevaluate.port 2).summary = 0x000F#16 ∧
      out.engine.announced ≠ 7 ∧
      ({ two with ts := (withSlew 5 5 0).ts }.reevaluate.port 2).summary = 0x004B#16 ∧
      (lost.reevaluate.port 2).summary = 0x004B#16 ∧ lost.bestCandidate = none := by decide +kernel

/-! ### The mark scheduler -/

/-- Growth has carried U past G2's bound: a taking taken before its crossing sees the grade before, and one taken after it
the grade after (R84); so do the gate of a line, its GATED field, a start in PULSE mode and a composition (R85, R107,
R126). -/
def grown : State :=
  let s := atTime (inState .holdover none) 100 0 25000000000
  let gated (mode : LineMode) : Line := { lineIn mode with settings := { (lineIn mode).settings with gate := some 2 } }
  { s with
    engine := { s.engine with anchor := some ⟨1000001, 0⟩ }
    lines := (s.lines.set 3 (gated .marks)).set 4 (gated .pulse)
    marks := [⟨0, 2, 0x0008#16, 100 * 10 ^ 9, 20000, none, none, some 2, 5, 100 * 10 ^ 9, 0, 0, 0, 0, 0⟩] }

theorem test_grade_taken :
    let takes (cs : List Instr) := ((run cs grown).queue 2).map fun o => (o.fired, o.withheld)
    let open' : State := { grown with marks := grown.marks.map fun m => { m with minGrade := none } }
    grown.grade = 3 ∧ grown.gradeTaken = 2 ∧ takes [.markTaking 0] = [(1, 0)] ∧
      takes [.gradeGrowthCrossing, .markTaking 0] = [(0, 1)] ∧
      ((run [.gradeGrowthCrossing, .markTaking 0] open').queue 2).map (·.withheld) = [1] ∧
      ((run [.markTaking 0, .gradeGrowthCrossing] open').line 3).emissions = 1 ∧
      ((after (.pulseStart 4 .good) grown).line 4).emissions = 1 ∧
      ((run [.gradeGrowthCrossing, .pulseStart 4 .good] grown).line 4).gated = 1 ∧
      (run [.composition] (atTime grown 100 900000000 9)).composer.frame.map (·.grade) = some 2 ∧
      (run [.gradeGrowthCrossing, .composition] (atTime grown 100 900000000 9)).composer.frame.map (·.grade) = some 3 ∧
      (grown.line 4).gatedNow grown.gradeTaken = false ∧
      (grown.line 4).gatedNow (after .gradeGrowthCrossing grown).gradeTaken = true := by decide +kernel

/-- The parameter words of ADD_MARK. -/
def markWords (lines due width : Nat) (period count grade : Option Nat) : List Word :=
  pack [.bits 16 lines, fInstant due, .bits 32 width, .bits 8 (if period.isSome then 1 else 0), .bits 32 (period.getD 0),
    .bits 8 (if count.isSome then 1 else 0), .bits 16 (count.getD 0), .bits 8 (if grade.isSome then 1 else 0),
    .bits 8 (grade.getD 0), .bits 16 17]

/-- HOLDOVER at 100 s with line 3 in MARKS mode, compensation 1,200 ns, and line 5 in PULSE mode. -/
def markState : State :=
  { atTime (inState .holdover none) 100 0 25000000000 with
    lines := (State.reset.lines.set 3
      { lineIn .marks with settings := { (lineIn .marks).settings with compensation := 1200 } }).set 5 (lineIn .pulse) }

def addMark (s : State) (ws : List Word) : State := after (.addMark 1) (ready s .addMark ws)

theorem test_addMark :
    let t := addMark markState (markWords 0x28 (101 * 10 ^ 9) 100000 none none none)
    code t = some .ok ∧ word t 0 = some 0 ∧ word t 1 = some (100 * 2 ^ 64 + 999998800 * 2 ^ 32) ∧ t.markNumber 1 = 1 ∧
      (t.marks.map (·.taking)) = [100999998800] ∧
      code (addMark State.reset (markWords 8 (10 ^ 9) 1 none none none)) = some .state ∧
      code (addMark markState (markWords 0 (101 * 10 ^ 9) 1 none none none)) = some .range ∧
      code (addMark markState (markWords 8 (101 * 10 ^ 9) 1000 (some 1) none none)) = some .range ∧
      code (addMark markState (markWords 8 (101 * 10 ^ 9) 999 (some 1) (some 65535) (some 6))) = some .ok ∧
      code (addMark markState (markWords 8 (101 * 10 ^ 9) 1 none (some 1) none)) = some .range := by decide +kernel

/-- A taking instant 1 ms ahead is not too late, and one a nanosecond nearer is; the quota and the full list. -/
theorem test_addMark_limits :
    let full : State := { markState with marks := (List.range 64).map fun k =>
      { markAt k 200 none with owner := if k < 23 then 1 else if k < 46 then 2 else 3 } }
    let quota : State := { markState with marks := (List.range 24).map fun k => { markAt k 200 none with owner := 1 } }
    code (addMark markState (markWords 8 (100 * 10 ^ 9 + 10 ^ 6 + 1200) 1 none none none)) = some .ok ∧
      code (addMark markState (markWords 8 (100 * 10 ^ 9 + 10 ^ 6 + 1199) 1 none none none)) = some .tooLate ∧
      code (addMark quota (markWords 8 (101 * 10 ^ 9) 1 none none none)) = some .quota ∧
      code (addMark full (markWords 8 (101 * 10 ^ 9) 1 none none none)) = some .full ∧
      quota.markNumber 1 = 24 ∧ full.marks.length = 64 := by decide +kernel

theorem test_cancelMark :
    let cancel (s : State) (id : Word) := after (.cancelMark 1) (ready s .cancelMark [id])
    let own : State := { withMarks with marks := withMarks.marks.map fun m => { m with owner := 1 } }
    code (cancel own 2) = some .ok ∧ ((cancel own 2).marks.map (·.id)) = [0, 1] ∧ ((cancel own 2).queue 1).length = 1 ∧
      ((cancel own 2).port 1).has .outcomesReady = true ∧ code (cancel own 3) = some .notFound ∧
      code (cancel own 64) = some .range ∧ code (cancel withMarks 0) = some .notOwner := by decide +kernel

/-- Outcomes: the first, the sixteenth and the seventeenth; and four of five taken. -/
theorem test_outcomes :
    let o (k : Nat) : Outcome := ⟨k, 0, 1, .completed, 0, 1, 0, 0, 0⟩
    let five := State.reset.setQueue 1 ((List.range 5).map o)
    ((State.reset.handOutcome (o 9)).queue 1) = [o 9] ∧
      (((State.reset.setQueue 1 ((List.range 15).map o)).handOutcome (o 15)).queue 1).length = 16 ∧
      (((State.reset.setQueue 1 ((List.range 16).map o)).handOutcome (o 16)).port 1).has .outcomeOverrun = true ∧
      word (after (.takeOutcomes 1) (inSlot five .takeOutcomes [])) 0 = some 4 ∧
      ((after (.takeOutcomes 1) (inSlot five .takeOutcomes [])).queue 1) = [o 4] := by decide +kernel

/-- The words of TAKE_OUTCOMES: none, and five of which four are taken. -/
theorem test_outcome_words :
    let o (k : Nat) : Outcome := ⟨k, 65535, 1, .cancelled, 5 * 10 ^ 9 + k, 1, 2, 3, 4⟩
    let take (s : State) := ((after (.takeOutcomes 1) (inSlot s .takeOutcomes [])).port 1).result.map (·.words)
    take State.reset = some (resultWords [0, 0]) ∧
      take (State.reset.setQueue 1 ((List.range 5).map o)) =
        some (resultWords (4 :: ((List.range 4).map o).flatMap Outcome.words ++ [1])) ∧
      (o 3).words = [BitVec.ofNat 128 (3 + 65535 * 2 ^ 8 + 1 * 2 ^ 24 + 1 * 2 ^ 32),
        BitVec.ofNat 128 (5 * 2 ^ 64 + 3 * 2 ^ 32), BitVec.ofNat 128 (1 + 2 * 2 ^ 16 + 3 * 2 ^ 32 + 4 * 2 ^ 48)] := by
  decide +kernel

/-- The mark of section 4.6's example: fired on OL3 alone of its two lines, at the start of the pulse or before it. -/
theorem test_markTaking :
    let m : Mark := ⟨0, 2, 0x0028#16, 101 * 10 ^ 9, 100000, none, none, none, 5, 100999998800, 1200, 0, 0, 0, 0⟩
    let at' (ns : Nat) (m : Mark) : State := { atTime markState 100 ns 25249999700 with marks := [m] }
    let t := after (.markTaking 0) (at' 999998800 m)
    (t.line 3).emission = .pulse .mark 101099998800 ∧ t.marks = [] ∧
      ((t.queue 2).map fun o => (o.fired, o.partialTakes)) = [(1, 1)] ∧
      after (.markTaking 0) (at' 999998799 m) = at' 999998799 m ∧
      ((after (.markTaking 8) (at' 999998800 m)).line 3).state = .faulted ∧
      (((after (.markTaking 0) (at' 999998800 { m with minGrade := some 0 })).queue 2).map (·.withheld)) = [1] ∧
      (((after (.markTaking 0) (at' 999998800 { m with period := some 1000 })).marks).map fun m => (m.due, m.fired)) =
        [(102 * 10 ^ 9, 1)] ∧
      (((after (.markTaking 0) (at' 999998800 { m with taking := 100999998000, takingComp := 2000 })).line 3).emission ≠
        .none) := by decide +kernel

/-- Hypotheses of MarkTakingFiresAndRearms: line 3 accepts and line 5, in PULSE mode, does not; a start that is reached
and one that is not. -/
theorem test_markTaking_commits :
    let m : Mark := ⟨0, 2, 0x0028#16, 101 * 10 ^ 9, 100000, none, none, none, 5, 100999998000, 2000, 0, 0, 0, 0⟩
    let s : State := { atTime markState 100 999998000 25249999500 with marks := [m] }
    let t := after (.markTaking 0) s
    s.hasReached 100999998000 = true ∧ s.hasReached 100999998800 = false ∧
      ((t.line 3).commitments.map fun c => (c.start, c.ends)) = [(100999998800, 101099998800)] ∧
      (t.line 3).emission = .none := by decide +kernel

/-- Lines 3 and 6 both accept: one starts its pulse and the other commits, among what it holds already, in a list of 64
that loses its last or the offer itself, and with a pulse of its own in flight. -/
theorem test_markTaking_lines :
    let m : Mark := ⟨0, 2, 0x0048#16, 101 * 10 ^ 9, 100000, none, none, none, 5, 100999998800, 1200, 0, 0, 0, 0⟩
    let c (sec : Nat) : Commitment := ⟨sec * 10 ^ 9, sec * 10 ^ 9 + 1000, 1, 2⟩
    let holding (cs : List Commitment) : State :=
      { atTime (markState.setLine 6 { lineIn .marks with commitments := cs }) 100 999998800 25249999700 with marks := [m] }
    let on (cs : List Commitment) := after (.markTaking 0) (holding cs)
    let six (cs : List Commitment) := ((on cs).line 6).commitments.map fun c => (c.start, c.mark)
    let flying := (holding []).setLine 3 { (holding []).line 3 with emission := .pulse .mark (101 * 10 ^ 9) }
    ((on []).line 3).emissions = 1 ∧ six [] = [(101 * 10 ^ 9, 0)] ∧
      ((on []).queue 2).map (fun o => (o.fired, o.partialTakes)) = [(1, 0)] ∧
      six [c 101, c 102] = [(101 * 10 ^ 9, 1), (101 * 10 ^ 9, 0), (102 * 10 ^ 9, 1)] ∧
      (six (List.replicate 64 (c 102))).length = 64 ∧ (six (List.replicate 64 (c 102))).head? = some (101 * 10 ^ 9, 0) ∧
      ((on (List.replicate 64 (c 102))).line 6).flags.pulseDropped ∧
      ((on (List.replicate 64 (c 101))).line 6).commitments = List.replicate 64 (c 101) ∧
      ((on (List.replicate 64 (c 101))).line 6).flags.pulseDropped ∧
      ((after (.markTaking 0) flying).line 3).emission = .pulse .mark 101099998800 ∧
      ((after (.markTaking 0) flying).line 3).flags.markMerged ∧ ((after (.markTaking 8) flying).line 3).state = .running := by
  decide +kernel

/-! ### The output lines -/

/-- The parameter words of SET_LINE. -/
def lineWords (i : LineId) (x : LineSettings) : List Word := pack (.bits 8 i.val :: x.fields)

theorem test_setLine :
    let x : LineSettings := ⟨.pulse, .activeHigh, 500, 1000, 10000, some 3⟩
    let set (s : State) (x : LineSettings) := after (.setLine 1) (ready s .setLine (lineWords 2 x))
    setLineParams (lineWords 2 x) = some (2, x) ∧ ((set State.reset x).line 2).pending = some x ∧
      word (set State.reset x) 0 = some 1 ∧ ((set (set State.reset x) .powerOn).line 2).pending = none ∧
      code (set State.reset { x with period := 10, width := 10000 }) = some .range ∧
      code (set State.reset { x with period := 10, width := 9999 }) = some .ok ∧
      code (set State.reset { x with gate := some 7 }) = some .range := by decide +kernel

def faultedLine : Line := { lineIn .coded with state := .faulted, flags := ⟨true, false, true, false, false⟩, faults := 1 }

/-- A held frame is taken up again on a restart before its slot 0, and not after it. -/
theorem test_lineRestart :
    let s := busy.setLine 2 faultedLine
    let restart (s : State) (i : Word) := after (.lineRestart 1) (ready s .lineRestart [i])
    ((restart s 2).line 2).state = .running ∧ ((restart s 2).line 2).held.isSome ∧
      ((restart s 2).line 2).flags = ⟨false, false, true, false, false⟩ ∧
      ((restart (atTime s 101 0 9) 2).line 2).held = none ∧ code (restart s 3) = some .state ∧
      code (restart s 16) = some .range ∧
      ((restart (s.setLine 2 { faultedLine with settings := .powerOn }) 2).line 2).state = .off := by decide +kernel

theorem test_senseLine :
    let s := State.reset.setLine 2 faultedLine
    let sense (w : Word) := after (.senseLine 1) (inSlot s .senseLine [w])
    ((sense 0x0102).line 2).flags = ⟨true, false, false, false, false⟩ ∧ ((sense 0x0002).line 2).flags = faultedLine.flags ∧
      code (sense 0x0010) = some .range ∧ code (sense 0x0202) = some .range := by decide +kernel

/-- The status word of lines idle, in a pulse, gated and in a frame; the driver's level in each polarity, and in RESET. -/
theorem test_line_shows :
    let low (l : Line) : Line := { l with settings := { l.settings with polarity := .activeLow } }
    let pulse : Line := { lineIn .pulse with emission := .pulse .pulse 9 }
    let gated : Line := { lineIn .marks with settings := { (lineIn .marks).settings with gate := some 1 } }
    let coded (e : Option Instant) : Line :=
      { lineIn .coded with emission := .frame ⟨⟨100, 0, 1, 0, 3, 0, 0, []⟩, 0, 100 * 10 ^ 9⟩ 3 e }
    let s := atTime (inState .holdover none) 100 40000000 9
    let level (s : State) (l : Line) := (s.setLine 6 l).outputLevel 6
    (∀ l ∈ [pulse, gated, coded none, coded (some 9), low pulse, faultedLine],
        pack (s.statusFields l ++ l.countFields) = pack (s.senseValues l)) ∧
      level s pulse ∧ level s (low pulse) = false ∧ level s gated = false ∧ level s (low gated) ∧
      level s (coded (some 9)) ∧ level s (coded none) = false ∧ level { s with resetHeld := true } (low gated) = false ∧
      gated.gatedNow s.grade ∧ pulse.gatedNow s.grade = false ∧ s.codedSlot (coded none) = some 2 ∧
      (atTime s 100 39999999 9).codedSlot (coded none) = some 1 ∧ (atTime s 100 999999999 9).codedSlot (coded none) = some 49 ∧
      s.codedSlot pulse = none := by decide +kernel

/-- The change point: reached by advance, and once; in mode, in polarity and in neither. -/
theorem test_changePoint :
    let l (p : LineSettings) : Line := { lineIn .pulse with emission := .pulse .pulse (200 * 10 ^ 9), pending := some p }
    let s (p : LineSettings) : State := (atTime State.reset 100 0 25000000000).setLine 4 (l p)
    let x := (lineIn .pulse).settings
    let at' (s : State) := (after (.changePoint 4) s).line 4
    (at' (s { x with mode := .off })).state = .off ∧ (at' (s { x with mode := .off })).flags.pulseCut = true ∧
      (at' (s { x with polarity := .activeLow })).emission = .none ∧ (at' (s { x with width := 7 })).emission = (l x).emission ∧
      (at' (s { x with width := 7 })).settings.width = 7 ∧
      after (.changePoint 4) (atTime (s { x with width := 7 }) 100 4 9) = atTime (s { x with width := 7 }) 100 4 9 ∧
      after (.changePoint 4) (after (.changePoint 4) (s { x with width := 7 })) = after (.changePoint 4) (s { x with width := 7 }) := by
  decide +kernel

/-- A line that leaves MARKS drops its commitments; one that enters CODED takes up the held frame; a FAULTED one stays. -/
theorem test_changePoint_marks_coded :
    let marks : Line := { lineIn .marks with commitments := [⟨200 * 10 ^ 9, 201 * 10 ^ 9, 0, 2⟩], pending := some (lineIn .coded).settings }
    let frame := frameSymbols 0 1 0 3 0 0
    let s : State := { (atTime State.reset 100 0 25000000000).setLine 4 marks with composer := ⟨some ⟨101, 0, 1, 0, 3, 0, 0, frame⟩, none⟩ }
    let t := (after (.changePoint 4) s).line 4
    marks.wf ∧ t.commitments = [] ∧ t.flags.pulseDropped = true ∧ t.held.isSome ∧
      ((after (.changePoint 4) (s.setLine 4 { faultedLine with pending := some .powerOn })).line 4).state = .faulted := by decide +kernel

/-- Which changes take the start of the change's second as acted on. -/
theorem test_changePoint_startAt :
    let x : LineSettings := ⟨.pulse, .activeHigh, 500, 1000, 10000, none⟩
    let at' (p : LineSettings) (old : LineSettings) : Option Nat :=
      ((after (.changePoint 4) ((atTime State.reset 100 0 25000000000).setLine 4
        { lineIn .pulse with settings := old, pending := some p })).line 4).startAt
    (∀ p ∈ [{ x with compensation := 0 }, { x with polarity := .activeLow }, { x with gate := some 3 }], at' p x = none) ∧
      (∀ p ∈ [{ x with width := 7 }, { x with period := 500 }], at' p x = some 25000000000) ∧
      at' x { x with mode := .marks } = some 25000000000 ∧ at' { x with mode := .marks } x = none := by decide +kernel

/-- A compensation lowered to 0 at second 100: the start of that second is made, the change point before it or after. -/
theorem test_changePoint_keeps_the_start :
    let s := (atTime (inState .holdover none) 100 0 25000000000).setLine 0
      { lineIn .pulse with
        settings := ⟨.pulse, .activeHigh, 500, 1000, 10000, none⟩
        pending := some ⟨.pulse, .activeHigh, 0, 1000, 10000, none⟩ }
    ((run [.changePoint 0, .pulseStart 0 .good] s).line 0).emission = .pulse .pulse 100010000000 := by decide +kernel

/-- A regular start in PULSE mode, 500 ns before the second: with the gate passing, failing, with the load at fault, and
once only. -/
def pulseLine (gate : Option Grade) : State :=
  (atTime (inState .holdover none) 99 999999500 25000000000).setLine 0
    { lineIn .pulse with settings := ⟨.pulse, .activeHigh, 500, 1000, 10000, gate⟩ }

theorem test_pulseStart :
    let t := after (.pulseStart 0 .good) (pulseLine none)
    (pulseLine none).pulseStartNow ((pulseLine none).line 0) = some 99999999500 ∧
      (t.line 0).emission = .pulse .pulse 100009999500 ∧ (t.line 0).emissions = 1 ∧
      after (.pulseStart 0 .good) t = t ∧ ((after (.pulseStart 0 .good) (pulseLine (some 1))).line 0).gated = 1 ∧
      ((after (.pulseStart 0 .good) (pulseLine (some 2))).line 0).gated = 0 ∧
      ((after (.pulseStart 0 .openLoad) (pulseLine none)).line 0).state = .faulted ∧
      raised (after (.pulseStart 0 .overloaded) (pulseLine none)) .lineFault ∧
      after (.pulseStart 0 .good) (atTime (pulseLine none) 99 999999504 9) = atTime (pulseLine none) 99 999999504 9 := by
  decide +kernel

theorem test_pulseEnd :
    let s (ns : Nat) := (atTime State.reset 100 ns 25000000000).setLine 0 { lineIn .pulse with emission := .pulse .pulse 100000000008 }
    ((after (.pulseEnd 0) (s 8)).line 0).emission = .none ∧ after (.pulseEnd 0) (s 7) = s 7 := by decide +kernel

/-- The starts of a period below 1 s by the instant, of one above it by the label, and the inserted second for 1 s
alone. -/
theorem test_pulseStartNow :
    let line (period : Nat) : Line := { lineIn .pulse with settings := ⟨.pulse, .activeHigh, 0, period, 1, none⟩ }
    let at' (sec ns period : Nat) := (atTime State.reset sec ns 9).pulseStartNow (line period)
    let leap (sec period : Nat) := (withLeap .insert .inserting sec).pulseStartNow (line period)
    at' 100 10000001 10 = some 100010000000 ∧ at' 100 10000004 10 = none ∧ at' 100 0 2000 = some 100000000000 ∧
      at' 101 0 2000 = none ∧ at' 101 0 1000 = some 101000000000 ∧ leap 773107212 1000 = some 773107212000000000 ∧
      leap 773107212 2000 = none ∧ leap 773107213 2000 = some 773107213000000000 := by decide +kernel

/-- Instants are compared over the shorter way round the range. -/
theorem test_notAfter :
    notAfter 5 5 ∧ notAfter 5 6 ∧ notAfter 6 5 = false ∧ laterOf 5 6 = 6 ∧ laterOf 6 5 = 6 ∧
      notAfter 0 (Config.nsRange / 2 - 1) ∧ notAfter (Config.nsRange / 2) 0 = false ∧
      notAfter (Config.nsRange - 5) 5 ∧ notAfter 5 (Config.nsRange - 5) = false ∧
      laterOf (Config.nsRange - 5) 5 = 5 := by decide +kernel

/-- A mark whose start is the very end of the pulse in flight, due and not yet taken, and a commitment there: PULSE_END
waits, and the merge keeps one pulse. -/
theorem test_pulseEnd_waits_for_merges :
    let m : Mark := ⟨0, 2, 0x0008#16, 101 * 10 ^ 9, 100000, none, none, none, 5, 100999998800, 1200, 0, 0, 0, 0⟩
    let s : State := atTime markState 100 999998800 25249999700
    let l : Line := { s.line 3 with emission := .pulse .mark 100999998800 }
    let due : State := { s.setLine 3 l with marks := [m] }
    let held : State := s.setLine 3 { l with commitments := [⟨100999998800, 101099998800, 0, 2⟩] }
    after (.pulseEnd 3) due = due ∧ run [.pulseEnd 3, .markTaking 0] due = after (.markTaking 0) due ∧
      ((after (.markTaking 0) due).line 3).flags.markMerged ∧ ((after (.markTaking 0) due).line 3).emissions = 0 ∧
      after (.pulseEnd 3) held = held ∧
      ((run [.commitmentStart 3 .good, .pulseEnd 3] held).line 3).emission = .pulse .mark 101099998800 ∧
      ((after (.pulseEnd 3) { due with marks := [{ m with due := 102 * 10 ^ 9, taking := 102 * 10 ^ 9 }] }).line 3).emission =
        .none := by decide +kernel

/-- The overlapping marks of section 5.6's example, merged; and a commitment alone, with a good load and at fault. -/
theorem test_commitmentStart :
    let s (e : Emission) (ns : Nat) := (atTime State.reset 200 ns 50000000000).setLine 3
      { lineIn .marks with emission := e, commitments := [⟨200002998800, 200006998800, 1, 2⟩] }
    let flight : Emission := .pulse .mark 200004998800
    ((after (.commitmentStart 3 .good) (s flight 2998800)).line 3).emission = .pulse .mark 200006998800 ∧
      ((after (.commitmentStart 3 .good) (s flight 2998800)).line 3).flags.markMerged = true ∧
      ((after (.commitmentStart 3 .good) (s .none 2998800)).line 3).emissions = 1 ∧
      ((after (.commitmentStart 3 .openLoad) (s .none 2998800)).line 3).state = .faulted ∧
      after (.commitmentStart 3 .good) (s .none 2998799) = s .none 2998799 := by decide +kernel

/-- A pulse in PULSE mode, a commitment and a mark to be taken, each with its start reached, and a step taken first. -/
def overtaken : State :=
  let s := pulseLine none
  let marks : Line := { lineIn .marks with commitments := [⟨99999999500, 100009999500, 1, 2⟩] }
  { s with
    lines := (s.lines.set 3 marks).set 5 (lineIn .marks)
    marks := [⟨0, 2, 0x0020#16, 99999999500, 20000, none, none, none, 5, 99999999500, 0, 0, 0, 0, 0⟩] }

def stepped (s : State) : State := s.stepTo .engine (101 * 10 ^ 9) false

/-- After a step taken first the start does not begin, and its load fault enters FAULTED in the row that brings it; a good
load changes nothing, nor does a fault at a later tick (R113, R114). -/
theorem test_load_fault_after_step :
    let t := stepped overtaken
    let at' (cs : List Instr) (i : LineId) := ((run cs t).line i)
    let later : State := { t with ts := { t.ts with tickCount := t.ts.tickCount + 1 } }
    (∀ i ∈ [0, 3, 5], overtaken.startDue i ∧ t.startDue i = false) ∧ overtaken.startDue 1 = false ∧
      run [.pulseStart 0 .good, .commitmentStart 3 .good, .markTaking 0] t = t ∧
      (at' [.pulseStart 0 .openLoad] 0).state = .faulted ∧ (at' [.pulseStart 0 .openLoad] 0).faults = 1 ∧
      (at' [.pulseStart 0 .openLoad] 0).emissions = 0 ∧ (at' [.commitmentStart 3 .overloaded] 3).state = .faulted ∧
      (at' [.commitmentStart 3 .overloaded] 3).flags.pulseDropped ∧ (at' [.markTaking 0x0020#16] 5).state = .faulted ∧
      (at' [.markTaking 0x0021#16] 0).state = .running ∧ raised (run [.markTaking 0x0020#16] t) .lineFault ∧
      run [.pulseStart 0 .openLoad, .pulseStart 0 .openLoad] t = run [.pulseStart 0 .openLoad] t ∧
      after (.pulseStart 1 .openLoad) t = t ∧ after (.pulseStart 0 .openLoad) later = later := by decide +kernel

/-- A step that leaves the start where it is reached still takes nothing away: its pulse begins, and its load is judged. -/
theorem test_step_of_nothing :
    let t := overtaken.stepTo .engine overtaken.nowNs false
    t.startDue 3 = true ∧ (t.line 3).overtaken = none ∧ ((after (.commitmentStart 3 .good) t).line 3).emissions = 1 := by
  decide +kernel

/-! ### The coded time frame -/

/-- The compositions of section 6.5's example, through the inserted second. -/
theorem test_composition :
    let at' (sec : Nat) (phase : LeapPhase) :=
      (after .composition (atTime (withLeap .insert phase 5) sec 900000000 7)).composer.frame.map
        fun f => (f.target, f.secOfDay, f.dayOfYear, f.year, f.leapField)
    at' 773107210 .pending = some (773107211, 86399, 182, 24, 1) ∧
      at' 773107211 .pending = some (773107212, 86400, 182, 24, 3) ∧
      at' 773107212 .inserting = some (773107213, 0, 183, 24, 0) ∧
      (after .composition (atTime State.reset 5 900000004 9)).composer.frame = none ∧
      ((after .composition (atTime busy 99 900000000 9)).line 2).held.map (·.slot0) = some (100 * 10 ^ 9) := by
  decide +kernel

/-- The second labels about an INSERT and a DELETE, and the years that a frame cannot carry. -/
theorem test_label_ahead :
    let x (k : LeapKind) (sec : Nat) := ((withLeap k .pending 5).ts.labelAhead sec)
    (x .insert 773107211).inserted = false ∧ (x .insert 773107212).label = ⟨2024, 182, 86400⟩ ∧
      (x .insert 773107213).label = ⟨2024, 183, 0⟩ ∧ (x .delete 773107210).label = ⟨2024, 182, 86398⟩ ∧
      (x .delete 773107211).label = ⟨2024, 183, 0⟩ ∧ ((withLeap .insert .pending 5).composeFrame 5) = none ∧
      (State.reset.composeFrame 0).isSome := by decide +kernel

theorem test_frameRelease :
    (after .frameRelease (atTime busy 101 0 9)).composer.frame = none ∧
      after .frameRelease (atTime busy 100 999999999 9) = atTime busy 100 999999999 9 := by decide +kernel

/-- A frame on its way: its begin, a symbol's end, the next symbol, the frame's end, and the load at fault. -/
def frameLine (e : Emission) (held : Option HeldFrame) (sec ns : Nat) : State :=
  (atTime State.reset sec ns 9).setLine 6 { lineIn .coded with emission := e, held := held }

def aFrame : HeldFrame := ⟨⟨100, 0, 1, 0, 3, 0, 0, frameSymbols 0 1 0 3 0 0⟩, 0, 100 * 10 ^ 9⟩

theorem test_frame :
    let s := frameLine .none (some aFrame) 100 0
    let t := after (.frameBegin 6 .good) s
    let on (k : Nat) (e : Option Instant) (sec ns : Nat) := frameLine (.frame aFrame k e) none sec ns
    (t.line 6).emission = .frame aFrame 1 (some 100016000000) ∧ (t.line 6).emissions = 1 ∧ (t.line 6).held = none ∧
      ((after (.frameBegin 6 .openLoad) s).line 6).flags.frameCut = true ∧
      after (.frameBegin 6 .good) (frameLine .none (some aFrame) 99 999999999) = frameLine .none (some aFrame) 99 999999999 ∧
      ((after (.symbolEnd 6) (on 1 (some 100016000000) 100 16000000)).line 6).emission = .frame aFrame 1 none ∧
      after (.symbolEnd 6) (on 1 none 100 16000000) = on 1 none 100 16000000 ∧
      ((after (.symbolStart 6 .good) (on 1 none 100 20000000)).line 6).emission = .frame aFrame 2 (some 100024000000) ∧
      ((after (.symbolStart 6 .overloaded) (on 1 none 100 20000000)).line 6).state = .faulted ∧
      after (.symbolStart 6 .good) (on 50 none 101 0) = on 50 none 101 0 ∧
      ((after (.frameEnd 6) (on 50 none 101 0)).line 6).emission = .none ∧
      after (.frameEnd 6) (on 50 none 100 999999999) = on 50 none 100 999999999 := by decide +kernel

/-- A frame to begin, and a symbol to start, that a step taken first has cut (R114, R129). -/
theorem test_frame_fault_after_step :
    let begin' := stepped (frameLine .none (some aFrame) 100 0)
    let symbol := stepped (frameLine (.frame aFrame 1 none) none 100 20000000)
    let between := stepped (frameLine (.frame aFrame 1 none) none 100 19999999)
    ((after (.frameBegin 6 .openLoad) begin').line 6).state = .faulted ∧ after (.frameBegin 6 .good) begin' = begin' ∧
      ((after (.symbolStart 6 .openLoad) symbol).line 6).state = .faulted ∧
      ((after (.symbolStart 6 .openLoad) symbol).line 6).flags.frameCut ∧ after (.symbolStart 6 .good) symbol = symbol ∧
      after (.symbolStart 6 .openLoad) between = between := by decide +kernel

/-- The slot plan on the worked example of section 6.5: its last four symbols, and a negative local offset's sign bit. -/
theorem test_frame_symbols :
    (frameSymbols 86399 182 24 1 1 4).drop 46 = [.zero, .one, .zero, .zero] ∧
      (frameSymbols 86400 182 24 1 3 4).drop 46 = [.zero, .zero, .zero, .zero] ∧
      (frameSymbols 0 1 0 0 0 (-64))[46]? = some .one ∧ (frameSymbols 0 1 0 0 0 63)[46]? = some .zero := by decide +kernel

/-! ### The process network ports -/

/-- Both ports enabled, their links up, the station address set, in HOLDOVER. -/
def netState : State :=
  { atTime (inState .holdover none) 300 0 75000000000 with
    net := ⟨{ NetSettings.powerOn with enable := ⟨true, true⟩, address := 0x020000000001 },
      ⟨{ NetPort.powerOn .up with nextDue := 300 * 10 ^ 9, beaconSeq := 4211 }, { NetPort.powerOn .up with nextDue := 301 * 10 ^ 9 }⟩⟩ }

def anAnswer (n : Nat) : Answer := ⟨BitVec.ofNat 48 n, 0, 0, [], 0, none, false, 2⟩

/-- Port NA with an answer on the wire and two queued. -/
def sending : State :=
  netState.setNetPort .na { netState.netPort .na with wire := .answer (anAnswer 1) 0, queue := [anAnswer 7, anAnswer 12] }

theorem test_link :
    sending.portState .na = .active ∧ (after (.linkDown .na) sending).portState .na = .down ∧
      ((after (.linkDown .na) sending).netPort .na).counters.linkFlush = 3 ∧
      ((after (.linkDown .na) sending).netPort .na).counters.linkLosses = 1 ∧
      ((after (.linkUp .na) State.reset).netPort .na).link = .up ∧
      (after (.linkUp .na) State.reset).portState .na = .disabled ∧
      ((after (.linkDown .na) State.reset).netPort .na).counters.linkLosses = 0 := by decide +kernel

/-- The other reads' values are those that they pack, with their optional groups present and absent. -/
theorem test_read_values :
    let s : State := { grouped with
      engine := { grouped.engine with lastMeasurement := some ⟨1, -5, 6, 7, .stepNeeded⟩ } }
    let full : Reference := { reference .receiver .usable with
      latch := some ⟨5 * 10 ^ 9 + 7, 9, true⟩, lastEdge := some 3, comparison := some (-4), disagree := true
      latest := some ⟨1, 2, 3, -4, 5, some ⟨.link, 6, 7, 8, 9, .delete 86400⟩⟩, holdOffExpiry := some 99999 }
    let settled : Reference := { full with latest := some ⟨1, 2, 3, -4, 5, none⟩ }
    (∀ t ∈ [s, State.reset], t.engineFields = t.engineValues) ∧
      (∀ x ∈ [full, settled, .powerOn, { full with state := .heldOff }],
        (s.setRef 3 x).referenceFields 3 = (s.setRef 3 x).referenceValues 3) ∧
      (∀ p ∈ [NetId.na, NetId.nb], sending.portFields p = sending.portValues p) := by decide +kernel

def beaconOf (s : State) : Option BeaconFrame :=
  match (s.netPort .na).wire with
  | .beacon b => some b
  | .idle | .answer _ _ => none

/-- Section 7.6's example: a beacon due over a busy wire waits, and goes before the queued answers. -/
theorem test_beacon :
    let t := after .beaconDue sending
    let u := after (.transmitEnd .na) t
    (t.netPort .na).pendingBeacon = some 1000 ∧ (t.netPort .na).nextDue = 301 * 10 ^ 9 ∧
      (t.netPort .nb) = sending.netPort .nb ∧ (u.netPort .na).beaconSeq = 4212 ∧
      (u.netPort .na).counters.answersSent = 1 ∧ (u.netPort .na).queue.length = 2 ∧
      ((after (.transmitEnd .na) u).netPort .na).queue.length = 1 ∧
      ((after (.transmitEnd .na) u).netPort .na).counters.beaconsSent = 1 ∧
      ((after .beaconDue netState).netPort .na).beaconSeq = 4212 ∧
      ((after .beaconDue { netState with engine := Engine.powerOn }).netPort .na).wire = .idle ∧
      after (.transmitEnd .nb) netState = netState ∧
      ((after (.transmitEnd .na) (netState.setNetPort .na { netState.netPort .na with wire := .answer (anAnswer 1) 0 })).netPort
        .na).wire = .idle := by decide +kernel

/-- The check value of Ethernet's CRC-32, and the lengths of the frames that leave: a beacon is padded to 64 octets, and
its bytes after the addresses and the type are those of its layout. -/
theorem test_frame_octets :
    let b := beaconOf (after .beaconDue netState)
    crc32 ("123456789".toList.map fun c => BitVec.ofNat 8 c.toNat) = 0xCBF43926#32 ∧
      (b.map fun b => b.bytes.length) = some 33 ∧
      ((((after .beaconDue netState).netPort .na).wire.octets).map List.length) = some 64 ∧
      ({ anAnswer 7 with t1 := List.replicate 10 7#8, t3 := some 5 } : Answer).bytes.length = 40 ∧
      (((Wire.answer { anAnswer 7 with t1 := List.replicate 60 7#8 } 0).octets).map List.length) = some 108 ∧
      Wire.idle.octets = none := by decide +kernel

/-- A beacon of the inserted second carries INSERTING and the old offset, and one of the second after it the new offset and
no record, whichever event of the tick comes first; a DELETE likewise. -/
theorem test_beacon_leap :
    let s (kind : LeapKind) (phase : LeapPhase) (sec : Nat) : State := { netState with ts := (withLeap kind phase sec).ts }
    let shown (s : State) := (beaconOf (after .beaconDue s)).map fun b => (b.utcOffset, b.leap.map (·.phase))
    shown (s .insert .pending 773107211) = some (12, some .pending) ∧
      shown (s .insert .pending 773107212) = some (12, some .inserting) ∧
      shown (after .insertedSecondStart (s .insert .pending 773107212)) = some (12, some .inserting) ∧
      shown (s .insert .inserting 773107213) = some (13, none) ∧
      shown (after .leapInstant (s .insert .inserting 773107213)) = some (13, none) ∧
      shown (s .delete .pending 773107210) = some (12, some .pending) ∧
      shown (s .delete .pending 773107211) = some (11, none) ∧ shown netState = some (0, none) := by decide +kernel

/-- The body of an ask, with a self-report of an offset or without one, and a frame that carries it. -/
def askBody (seq : Nat) (offset : Option Int) : List Byte :=
  beBytes 1 2 ++ beBytes 1 1 ++ beBytes 2 (if offset.isSome then 24 else 15) ++ beBytes 2 seq ++ beBytes 2 9 ++
    List.replicate 10 7#8 ++
    (match offset with
      | none => [0#8]
      | some x => [1#8] ++ beBytes 4 (x % 2 ^ 32).toNat ++ beBytes 4 5 ++ [3#8])

def askFrame (src seq : Nat) (offset : Option Int) : RxFrame :=
  ⟨true, 0x020000000001, BitVec.ofNat 48 src, 0x89C2, askBody seq offset⟩

/-- An ask whose reception began and ends at once. -/
def ask (s : State) (f : RxFrame) : State := run [.askTimingPoint .na, .askArrival .na f] s

def counts (s : State) : PortCounters := (s.netPort .na).counters

theorem test_ask_port :
    let f := askFrame 0x0A0000000001 5 none
    ((after (.askTimingPoint .na) netState).netPort .na).reception = some ⟨300 * 10 ^ 9, 300000, false⟩ ∧
      after (.askTimingPoint .na) State.reset = State.reset ∧ after (.askArrival .na f) netState = netState ∧
      (counts (ask netState { f with receptionOk := false })).receiveErrors = 1 ∧
      counts (ask netState { f with frameType := 0x0800 }) = PortCounters.zero ∧
      (counts (ask netState { f with body := [] })).unknown = 1 ∧
      (counts (ask netState { f with destination := 0x020000000002 })).unknown = 1 ∧
      (counts (ask netState { f with source := 0x010000000001 })).unknown = 1 ∧
      (counts (ask { netState with engine := Engine.powerOn } f)).notReady = 1 ∧
      (counts (after (.askArrival .na f) ((after (.askTimingPoint .na) netState).stepTo .engine 5 false))).stepFlush = 1 ∧
      netState.takesFrame { f with destination := 0x03A054460001 } ∧ (askOf f.body).isSome := by decide +kernel

/-- What the body of an ask says, and bodies that are none: another kind, version or length, another flag, a client grade
of 8, and one cut short. -/
theorem test_askOf :
    let plain := askBody 5 none
    let full := askBody 5 (some (-1000))
    askOf plain = some ⟨5, 9, List.replicate 10 7#8, none⟩ ∧ askOf (plain ++ [0#8]) = askOf plain ∧
      (askOf full).map (·.report) = some (some ⟨-1000, 5, 3⟩) ∧ askOf (full.set 27 7#8) ≠ none ∧
      (∀ x ∈ [plain.set 0 1#8, plain.set 1 2#8, plain.set 3 16#8, plain.set 18 1#8, plain.dropLast, full.set 18 2#8,
        full.set 27 8#8, full.dropLast], askOf x = none) := by decide +kernel

/-- A client table with an entry in slot 0, its sub-record of NA answered 100 ms ago with sequence 4. -/
def tracked : State :=
  { netState with
    clients := ⟨[⟨0, 0x0A0000000001, 9, .new, some ⟨4, 299900, 0, 1, 0, 0⟩, none, none⟩], none⟩ }

/-- The table's answers: a new client, the spacing met exactly and missed by 1 ms, a repeat, and a straggler at the limit
and past it. -/
theorem test_client_table :
    let sub (s : State) := (s.clients.entries.map fun c => c.subA.map fun x => (x.answered, x.refused, x.repeats))
    let f (seq : Nat) (o : Option Int) := askFrame 0x0A0000000001 seq o
    (sub (ask netState (f 5 none))) = [some (1, 0, 0)] ∧ (sub (ask tracked (f 5 none))) = [some (2, 0, 0)] ∧
      sub (ask (atTime tracked 300 0 (75000000000 - 250000)) (f 5 none)) = [some (1, 1, 0)] ∧
      sub (ask tracked (f 4 none)) = [some (1, 0, 1)] ∧
      ((ask tracked (f 5 (some 1000))).clients.entries.map (·.state)) = [.tracked] ∧
      ((ask tracked (f 5 (some (-1001)))).clients.entries.map (·.state)) = [.straggler] ∧
      raised (ask tracked (f 5 (some (-1001)))) .straggler ∧
      ((ask tracked (f 5 none)).netPort .na).queue = [] ∧ ((ask sending (f 5 none)).netPort .na).queue.length = 3 := by
  decide +kernel

/-- A full answer queue, with an entry, with an entry without NA's sub-record, and without one; a full table. -/
theorem test_client_table_full :
    let fill (s : State) := s.setNetPort .na { s.netPort .na with wire := .answer (anAnswer 1) 0, queue := (List.range 32).map anAnswer }
    let other : State := { tracked with clients := ⟨[⟨0, 0x0A0000000001, 9, .new, none, some ⟨4, 0, 0, 1, 0, 0⟩, none⟩], none⟩ }
    let full : State := { netState with clients :=
      ⟨(List.range 96).map fun k => ⟨k, BitVec.ofNat 48 (0x0B0000000000 + k), 0, .new, some ⟨0, 0, 0, 1, 0, 0⟩, none, none⟩, none⟩ }
    let f := askFrame 0x0A0000000001 5 none
    (counts (ask (fill tracked) f)).queueFull = 1 ∧ (counts (ask (fill netState) f)).queueFull = 1 ∧
      (counts (ask (fill other) f)).queueFull = 1 ∧ (ask other f).clients.entries.map (·.subA.isSome) = [true] ∧
      (counts (ask full f)).untracked = 1 ∧ full.clients.freeSlot = none ∧ tracked.clients.freeSlot = some 1 := by
  decide +kernel

/-- The lowest free slot below an entry, between two and above them; an entry put in its place, and one added there. -/
theorem test_client_slots :
    let c (k : Nat) (tag : BitVec 16) : Client := ⟨k, BitVec.ofNat 48 k, tag, .new, none, none, none⟩
    let t (ks : List Nat) : ClientTable := ⟨ks.map fun k => c k 0, none⟩
    (t [1, 2]).freeSlot = some 0 ∧ (t [0, 2]).freeSlot = some 1 ∧ (t [0, 1]).freeSlot = some 2 ∧
      (t (List.range 95)).freeSlot = some 95 ∧ (t (List.range 96)).freeSlot = none ∧
      (((t [0, 2]).add (c 1 7)).entries.map fun x => (x.slot, x.tag)) = [(0, 0), (1, 7), (2, 0)] ∧
      (((t [0, 2]).put (c 2 7)).entries.map fun x => (x.slot, x.tag)) = [(0, 0), (2, 7)] ∧
      (t [0, 2]).find 2 = some (c 2 0) ∧ (t [0, 2]).find 1 = none := by decide +kernel

/-- The parameter words of SET_NETWORK. -/
def netWords (x : NetSettings) : List Word := pack x.fields

theorem test_setNetwork :
    let x := sending.net.settings
    let set (y : NetSettings) := after (.setNetwork 1) (ready sending .setNetwork (netWords y))
    setNetworkParams (netWords x) = some x ∧ ((set { x with enable := ⟨false, true⟩ }).netPort .na).counters.linkFlush = 3 ∧
      word (set { x with enable := ⟨false, true⟩ }) 0 = some 512 ∧
      ((set { x with interval := 2000 }).netPort .na).nextDue = 302 * 10 ^ 9 ∧
      (set { x with spacing := 10000 }).net = { sending.net with settings := { x with spacing := 10000 } } ∧
      code (set { x with spacing := 10001 }) = some .range ∧ code (set { x with address := 0 }) = some .range ∧
      code (set { x with address := 0x010000000001 }) = some .range := by decide +kernel

/-! ### The client table -/

/-- The idle check at whole seconds of run time: 32 intervals of 1,000 ms after the last answered ask, and later. -/
theorem test_idleCheck :
    let s (ms : Nat) := atTime tracked 300 0 (ms * 250000)
    let old (ms : Nat) : State := { s ms with
      clients := ⟨[⟨0, 0x0A0000000001, 9, .new, some ⟨4, 299000, 0, 1, 0, 0⟩, none, none⟩], none⟩ }
    (after .idleCheck (old 331000)).clients.entries.length = 1 ∧ (after .idleCheck (old 332000)).clients.entries = [] ∧
      raised (after .idleCheck (old 332000)) .clientLost ∧ after .idleCheck (old 332001) = old 332001 ∧
      after .idleCheck (s 0) = s 0 ∧
      after .idleCheck (after .idleCheck (old 331000)) = after .idleCheck (old 331000) := by decide +kernel

theorem test_forgetClient :
    let forget (a : Word) := after (.forgetClient 1) (ready tracked .forgetClient [a])
    (forget 0x0A0000000001).clients.entries = [] ∧ raised (forget 0x0A0000000001) .clientLost = false ∧
      code (forget 0x0A0000000002) = some .notFound ∧ code (forget 0) = some .range ∧
      code (forget 0x010000000000) = some .range := by decide +kernel

/-! ### The master ports and the control claim -/

/-- CLAIM posted on the link, byte by byte: WRITE_PARAMS of word 0, POST, the taking, and READ_RESULT. -/
theorem test_mailbox :
    let s := run [.transactionBegin 1, .writeParams 1 ([0#8, 1#8] ++ List.replicate 15 0#8 ++ [120#8]), .transactionBegin 1,
      .post 1 [0x38#8, 1#8]] State.reset
    let t := after (.claim 1) s
    let u := run [.transactionBegin 1, .readResult 1 258] t
    (s.port 1).handshake = .busy ∧ (s.port 1).slot = some ⟨0x38#8, 1, [120]⟩ ∧ s.waits 1 .claim' [120] ∧
      t.claim = some ⟨1, 120000⟩ ∧ (t.port 1).handshake = .done ∧ (u.port 1).handshake = .idle ∧
      (u.port 1).dataOut.take 3 = [0x96#8, 0x00#8, 0x00#8] ∧ (u.port 1).dataOut.length = 258 := by decide +kernel

/-- WRITE_PARAMS at the last word; POST of 16 words, in BUSY and in DONE. -/
theorem test_framing_limits :
    let s := after (.transactionBegin 1) State.reset
    let w := after (.writeParams 1 ([15#8, 1#8] ++ List.replicate 15 0#8 ++ [7#8])) s
    (w.port 1).params.length = 16 ∧ (w.port 1).params[15]? = some 7 ∧ (State.reset.port 1).params.length = 16 ∧
      ((after (.post 1 [0x01#8, 16#8]) s).port 1).handshake = .busy ∧
      ((run [.post 1 [0x01#8, 0#8], .transactionBegin 1, .post 1 [0x3D#8, 0#8]] s).port 1).lastCommand = some 0x01#8 ∧
      ((run [.post 1 [0x3D#8, 0#8], .identify 1, .transactionBegin 1, .post 1 [0x01#8, 0#8]] s).port 1).errors.resultOverwritten =
        true := by decide +kernel

theorem test_bad_framing :
    let s := after (.transactionBegin 1) State.reset
    let flags (c : Instr) := ((after c s).port 1).errors
    flags (.readResult 1 257) = ⟨false, true, false⟩ ∧ flags (.readState 1 11) = ⟨false, true, false⟩ ∧
      flags (.readErrors 1 1) = ⟨false, true, false⟩ ∧ flags (.portClear 1 2) = ⟨false, true, false⟩ ∧
      flags (.sense 1 [0#8]) = ⟨false, true, false⟩ ∧ flags (.post 1 [0x01#8, 17#8]) = ⟨false, true, false⟩ ∧
      flags (.post 1 [0x01#8]) = ⟨false, true, false⟩ ∧ flags (.writeParams 1 [0#8]) = ⟨false, true, false⟩ ∧
      flags (.writeParams 1 [0#8, 0#8]) = ⟨false, true, false⟩ ∧
      flags (.writeParams 1 ([16#8, 1#8] ++ List.replicate 16 0#8)) = ⟨false, true, false⟩ ∧
      flags (.writeParams 1 ([0#8, 1#8] ++ List.replicate 15 0#8)) = ⟨false, true, false⟩ ∧
      flags (.unknownTransaction 1 0x23) = ⟨true, false, false⟩ ∧ 0x23#8 ∉ transactionCodes := by decide +kernel

/-- What the reads shift out: the state and the errors; and a result area that is empty. -/
theorem test_reads_shift_out :
    let s := after (.transactionBegin 1) (State.reset.setPort 1 { State.reset.port 1 with errors := ⟨true, true, false⟩ })
    ((after (.readState 1 10) s).port 1).dataOut = [0x9C#8, 0x00#8, 0xFF#8, 0xFF#8, 0xFF#8, 0xFF#8, 0xFF#8, 0x01#8, 0#8, 0#8] ∧
      ((after (.readErrors 1 2) s).port 1).dataOut = [0x9C#8, 0x03#8] ∧
      ((after (.readErrors 1 2) s).port 1).errors = ErrorFlags.clear ∧
      ((after (.readResult 1 258) s).port 1).dataOut.take 2 = [0x9C#8, 0xFF#8] := by decide +kernel

/-- READ_STATE with everything present, and the order of the bytes of a word, sent and taken. -/
theorem test_state_bytes :
    let p : MasterPort := { State.reset.port 1 with
      handshake := .busy, lastCommand := some 0x38#8, slot := some ⟨0x3B#8, 16, []⟩, cursor := some ⟨.ports, 1⟩
      summary := 1, mask := 0x8001#16 }
    p.stateBytes = [0x01#8, 0x38#8, 0x3B#8, 0x10#8, 0x04#8, 0x01#8, 0x00#8, 0x80#8, 0x01#8] ∧
      (wordBytes 0x0102#128)[15]? = some 0x02#8 ∧ (wordBytes 0x0102#128)[14]? = some 0x01#8 ∧
      (wordBytes (0xAB#128 <<< 120))[0]? = some 0xAB#8 ∧ bytesWord (wordBytes 0x0102#128) = 0x0102#128 := by decide +kernel

/-- A result of no word, of two and of sixteen. -/
theorem test_finish :
    let words (ws : List Word) := ((State.reset.finish 1 .ok ws).port 1).result.map (·.words)
    words [] = some (List.replicate 16 0) ∧ words [3, 4] = some ([3, 4] ++ List.replicate 14 0) ∧
      words ((List.range 16).map (BitVec.ofNat 128)) = some ((List.range 16).map (BitVec.ofNat 128)) := by decide +kernel

/-- The common checks in order, at the numbers beside IDENTIFY's. -/
theorem test_common_checks :
    let s (number : Byte) (n : Nat) := State.reset.setPort 1 { State.reset.port 1 with slot := some ⟨number, n, []⟩, handshake := .busy }
    code (after (.unknownCommand 1) (s 0x40 0)) = some .unknown ∧ after (.unknownCommand 1) (s 0x3F 0) = s 0x3F 0 ∧
      code (after (.networkClear 1) (s 0x3F 1)) = some .params ∧ code (after (.networkClear 1) (s 0x3F 0)) = some .claimNeeded ∧
      after (.identify 1) (s 0x3F 0) = s 0x3F 0 ∧ postedRow (.networkClear 1) = some (1, .networkClear) ∧
      commandTable.length = 31 := by decide +kernel

theorem test_command_rows :
    commandRows.map (fun x => postedRow (x.1 2)) = commandRows.map (fun x => some (2, x.2)) ∧
      commandTable = commandRows.map (·.2) ∧ (commandRows.map (·.2.number)).Nodup := by decide +kernel

theorem test_claim :
    let claim (s : State) (lease : Word) := after (.claim 1) (inSlot s .claim' [lease])
    let other : State := { atTime State.reset 5 0 250000000 with claim := some ⟨0, 60000⟩ }
    (claim State.reset 1).claim = some ⟨1, 1000⟩ ∧ code (claim State.reset 0) = some .range ∧
      code (claim State.reset 121) = some .range ∧ code (claim State.reset 120) = some .ok ∧
      code (claim other 5) = some .claimed ∧ word (claim other 5) 0 = some (59000 * 256) ∧
      (after (.claim 1) (ready State.reset .claim' [5])).claim = some ⟨1, 5000⟩ ∧
      raised (after (.claim 1) (ready State.reset .claim' [5])) .claimTaken = false ∧
      (after .leaseExpiry (atTime other 5 0 (60000 * 250000))).claim = none ∧
      after .leaseExpiry (atTime other 5 0 (60000 * 250000 - 1)) = atTime other 5 0 (60000 * 250000 - 1) ∧
      after .leaseExpiry State.reset = State.reset := by decide +kernel

theorem test_release :
    (after (.release 1) (ready State.reset .release [])).claim = none ∧
      raised (after (.release 1) (ready State.reset .release [])) .claimEnded ∧
      code (after (.release 1) (inSlot State.reset .release [])) = some .notHolder ∧
      code (after (.release 1) (inSlot { State.reset with claim := some ⟨0, 9⟩ } .release [])) = some .notHolder := by
  decide +kernel

theorem test_sense_and_mask :
    let s := after (.transactionBegin 1) State.reset
    ((after (.sense 1 [1#8, 0#8]) s).port 1).summary = 0 ∧ ((after (.sense 1 [0#8, 0#8]) s).port 1).summary = 1 ∧
      ((after (.sense 1 [1#8, 0#8]) s).port 1).dataOut = [0x94#8, 0x00#8, 0x01#8] ∧
      ((after (.setEventMask 1) (inSlot State.reset .setEventMask [0xFFFF])).port 1).mask = 0xFFFF#16 ∧
      (after (.setEventMask 1) (inSlot State.reset .setEventMask [0xFFFF])).attentionOutput 1 = false ∧
      (after (.setEventMask 1) (inSlot State.reset .setEventMask [0xFFFE])).attentionOutput 1 = true := by decide +kernel

/-- Two references to a result, one of every other table; the last slots, and past them. -/
theorem test_tables :
    let read (w : Word) := after (.readTable 1) (inSlot tracked .readTable [w])
    word (read 0x0000) 0 = some 0x0200 ∧ ((read 0x0000).port 1).cursor = some ⟨.references, 2⟩ ∧
      ((after (.readMore 1) (inSlot (read 0x0000) .readMore [])).port 1).cursor = none ∧
      code (after (.readMore 1) (inSlot State.reset .readMore [])) = some .state ∧ word (read 0x0300) 0 = some 0x0100 ∧
      word (read 0x0003) 0 = some 0x0103 ∧ code (read 0x0F01) = some .ok ∧ code (read 0x1001) = some .range ∧
      code (read 0x0104) = some .ok ∧ code (read 0x0005) = some .range ∧ code (read 0x3F02) = some .ok ∧
      code (read 0x5F03) = some .ok ∧ code (read 0x6003) = some .range := by decide +kernel

/-- A table read of MARKS gives the slots in increasing order, whatever the order of the list, and goes on from the slot
after the last; so does one of CLIENTS. -/
theorem test_table_order :
    let s : State := { tracked with marks := [markAt 5 101 none, markAt 0 102 none, markAt 63 103 none] }
    let read (s : State) (w : Word) := after (.readTable 1) (inSlot s .readTable [w])
    let more (s : State) := after (.readMore 1) (inSlot s .readMore [])
    ((s.records .marks).map (·.1)) = [0, 5, 63] ∧ ((read s 0x0002).port 1).cursor = some ⟨.marks, 1⟩ ∧
      ((more (read s 0x0002)).port 1).cursor = some ⟨.marks, 6⟩ ∧ ((more (more (read s 0x0002))).port 1).cursor = none ∧
      word (more (read s 0x0002)) 1 = (pack (markAt 5 101 none).record).head?.map (·.toNat) ∧
      s.clientsWf ∧ ((s.records .clients).map (·.1)) = [0] := by decide +kernel

/-- The records of a table read are those that the statements list, with their optional groups present and absent. -/
theorem test_records :
    let ref : Reference := { reference .receiver .usable with disagree := true, latest := some ⟨1, 2, 3, -4, 5, none⟩ }
    let line : Line := { lineIn .marks with
      pending := some ⟨.coded, .activeLow, 65535, 10, 500, some 3⟩, commitments := [⟨5 * 10 ^ 9 + 7, 6 * 10 ^ 9, 1, 2⟩]
      gated := 3, faults := 4, emissions := 5 }
    let frame : Line := { lineIn .coded with
      emission := .frame aFrame 3 (some 9), settings := { (lineIn .coded).settings with gate := some 6 } }
    let sub : SubRecord := ⟨4, 299900, 10 ^ 9 + 3, 1, 2, 3⟩
    let marks : List Mark := [markAt 5 101 none, { markAt 6 102 (some 1000) with remaining := some 7, minGrade := some 4, skipped := 9 }]
    let clients : List Client := [⟨0, 0x0A0000000001, 9, .new, some sub, none, none⟩,
      ⟨7, 0x0A0000000002, 8, .straggler, none, some sub, some ⟨-5, 6, 2, 7 * 10 ^ 9, .nb⟩⟩]
    (∀ x ∈ [ref, .powerOn], (State.reset.setRef 2 x).referenceRecord 2 = (State.reset.setRef 2 x).referenceShort 2) ∧
      (∀ x ∈ [line, frame, faultedLine, .powerOn],
        (grown.setLine 9 x).lineRecord 9 = (grown.setLine 9 x).lineValues 9) ∧
      (∀ m ∈ marks, m.record = m.values) ∧ (∀ c ∈ clients, c.record = c.values) ∧
      (∀ p ∈ [NetId.na, NetId.nb], sending.portRecord p = sending.portShort p) := by decide +kernel

/-- Results are packed as 10.2 says: to the end of a word, past it, and about an instant. -/
theorem test_pack :
    pack [.bits 64 1, .bits 64 2] = [wordOf [(64, 1), (64, 2)]] ∧
      pack [.bits 64 1, .bits 32 2, .bits 48 3] = [wordOf [(64, 1), (32, 2)], 3] ∧
      pack [.bits 8 1, .instant 5, .bits 8 2] = [1, 5, 2] ∧ pack [.bits 8 1, .newWord, .newWord, .bits 8 2] = [1, 2] ∧
      pack [.instant (2 ^ 128 + 4), .newWord] = [4] := by decide +kernel

/-- Parameters at the ends of their ranges are well formed, and read back. -/
theorem test_parameters_read_back :
    instantOf ((2 ^ 48 - 1) * 2 ^ 64 + 999999999 * 2 ^ 32 + 5) = some ((2 ^ 48 - 1) * 10 ^ 9 + 999999999) ∧
      (⟨.marks, .activeLow, 65535, 60000, 500000, some 6⟩ : LineSettings).wf ∧
      setLineParams (lineWords 15 ⟨.marks, .activeLow, 65535, 60000, 500000, some 6⟩) =
        some (15, ⟨.marks, .activeLow, 65535, 60000, 500000, some 6⟩) ∧
      (⟨1024, 100000, 64, 1000000000, false, 1000000⟩ : EngineSettings).wf ∧
      (⟨.pulseOnly, 15, 65535, .falling, 65535, 60, 3600, 1000000, 115200⟩ : RefSettings).wf ∧
      setReferenceParams (refWords 3 ⟨.pulseOnly, 15, 65535, .falling, 65535, 60, 3600, 1000000, 115200⟩) =
        some (3, ⟨.pulseOnly, 15, 65535, .falling, 65535, 60, 3600, 1000000, 115200⟩) ∧
      (⟨⟨true, true⟩, 0xFEFFFFFFFFFF, 2000, 10000, 1000000, 255⟩ : NetSettings).wf ∧
      setNetworkParams (netWords ⟨⟨true, true⟩, 0xFEFFFFFFFFFF, 2000, 10000, 1000000, 255⟩) =
        some ⟨⟨true, true⟩, 0xFEFFFFFFFFFF, 2000, 10000, 1000000, 255⟩ := by decide +kernel

/-- A parameter one past its range, an unassigned code, a presence field of 2 and a second of 2^48 read as nothing; what
stands in an absent option's place is not read. -/
theorem test_parameters_refused :
    let t (sec ns : Nat) : Nat := sec * 2 ^ 64 + ns * 2 ^ 32
    let mark (ps c cs : Nat) : List Word :=
      [1, BitVec.ofNat 128 (t 5 7), BitVec.ofNat 128 (900 + ps * 2 ^ 32 + 1 * 2 ^ 40 + c * 2 ^ 72 + cs * 2 ^ 80 + 9 * 2 ^ 104 + 3 * 2 ^ 112)]
    setTimeParams [BitVec.ofNat 128 (t (2 ^ 48 - 1) 999999999), 5] = some (2 ^ 48 * 10 ^ 9 - 1, 5) ∧
      setTimeParams [BitVec.ofNat 128 (t (2 ^ 48) 0), 5] = none ∧ setTimeParams [BitVec.ofNat 128 (t 0 (10 ^ 9)), 5] = none ∧
      addMarkParams (mark 1 1 65535) = some ⟨1, 5000000007, 900, some 1, some 65535, none, 3⟩ ∧
      addMarkParams (mark 0 0 0) = some ⟨1, 5000000007, 900, none, none, none, 3⟩ ∧
      (∀ ws ∈ [mark 2 0 0, mark 1 2 1, mark 1 1 0, mark 0 1 5], addMarkParams ws = none) ∧
      senseLineParams [0x010F] = some (15, true) ∧ senseLineParams [0x0010] = none ∧ senseLineParams [0x0200] = none ∧
      (∀ x ∈ [{ RefSettings.powerOn with baud := 9601 }, { RefSettings.powerOn with priority := 16 },
        { RefSettings.powerOn with phaseLimit := 99 }], setReferenceParams (refWords 0 x) = none) ∧
      setReferenceParams [4 ||| BitVec.ofNat 128 (2 ^ 32), 9600] = none ∧ setLineParams [0x040F] = none ∧
      setEngineParams [BitVec.ofNat 128 (2 * 2 ^ 88), 5] = none ∧
      (∀ x ∈ [{ NetSettings.powerOn with interval := 126 }, { NetSettings.powerOn with idleLimit := 7 },
        { NetSettings.powerOn with enable := ⟨false, true⟩ }], setNetworkParams (netWords x) = none) := by decide +kernel

/-! ### Witnesses: for each obligation, states and operands that meet the hypotheses of its clauses together, at the ends
of their ranges -/

theorem test_witness_StepRunsFrontCommand :
    { State.reset with pending := [.tick] }.pending = .tick :: [] ∧ State.reset.pending = [] := ⟨rfl, rfl⟩

theorem test_witness_EveryCommandGoesOnUnlessHeld :
    { State.reset with resetHeld := true }.resetHeld = true ∧ (∀ h, Instr.tick ≠ .powerOn h) ∧ Instr.tick ≠ .resetRelease ∧
      ∀ p, Instr.tick ≠ .linkUp p ∧ Instr.tick ≠ .linkDown p := by
  refine ⟨rfl, ?_, ?_, ?_⟩ <;> simp

theorem test_witness_PowerOnThenReleaseStartsThePart :
    (atTime State.reset 5 0 (2 ^ 64 - 2)).ts.tickCount + 1 < 2 ^ 64 := by decide +kernel

/-- Line 2 is in CODED mode with a frame in the composer, line 0 is not; slot 0 is ahead, and has passed. -/
theorem test_witness_RestartResetsEveryBlock :
    (ready busy .restart []).waits 1 .restart [] ∧ (busy.line 2).settings.mode = .coded ∧ busy.composer.frame.isSome ∧
      (busy.line 0).settings.mode ≠ .coded ∧ busy.hasPassed (101 * 10 ^ 9) = false ∧
      (atTime busy 101 0 9).hasPassed (101 * 10 ^ 9) = true := by
  decide +kernel

/-- A transaction in progress at port 1. -/
def begun (s : State) : State := after (.transactionBegin 1) s

theorem test_witness_PortClearClearsItsPortAlone :
    (begun State.reset).resetHeld = false ∧ ((begun State.reset).port 1).transaction = some ((State.reset.port 1).begun 1) ∧
      (begun (ready State.reset .identify [])).holdsClaim 1 = true ∧ (begun State.reset).holdsClaim 1 = false ∧
      (0 : Mp) ≠ 1 := by decide +kernel

/-- The hypotheses of NetworkClearEmptiesPortsAndTable, SetLocalOffsetTakesTheValue, ReleaseEndsTheHoldersClaim,
IdentifyGivesTheFixedCodes and ReadsChangeOnlyTheMailbox on the slot and the claim. -/
theorem test_witness_slotHas (row : CommandRow) (ws : List Word) :
    (ready State.reset row ws).slotHas 1 row ws ∧ (ready State.reset row ws).holdsClaim 1 = true ∧
      (inSlot State.reset row ws).slotHas 1 row ws ∧ (inSlot State.reset row ws).holdsClaim 1 = false ∧
      (∃ c, (ready State.reset row ws).claim = some c ∧ c.holder = 1) ∧
      ∀ c ∈ (inSlot State.reset row ws).claim, c.holder ≠ 1 :=
  ⟨(test_inSlot_has _ _ _ rfl).2, rfl, (test_inSlot_has _ _ _ rfl).1, rfl, ⟨_, rfl, rfl⟩, nofun⟩

theorem test_witness_ReadsChangeOnlyTheMailbox :
    wordAt [3] 0 % 2 ^ 8 = (3 : RefId).val ∧ 4 ≤ wordAt [4] 0 % 2 ^ 8 ∧ wordAt [1] 0 % 2 ^ 8 = NetId.code .nb ∧
      2 ≤ wordAt [2] 0 % 2 ^ 8 := by decide +kernel

theorem test_witness_SetLocalOffsetTakesTheValue :
    toSigned 8 (wordAt [0xD0] 0 % 2 ^ 8) = -48 ∧ toSigned 8 (wordAt [56] 0 % 2 ^ 8) = 56 ∧
      toSigned 8 (wordAt [0xCF] 0 % 2 ^ 8) < -48 ∧ 56 < toSigned 8 (wordAt [57] 0 % 2 ^ 8) ∧
      (State.reset.composeFrame 0).isSome := by decide +kernel

theorem test_witness_TicksAccumulateWithoutLoss :
    State.reset.resetHeld = false ∧ State.reset.ts.wf ∧ State.reset.ts.slew = none ∧ State.reset.ts.tickCount + 3 < 2 ^ 64 :=
  ⟨rfl, by decide +kernel, rfl, by decide +kernel⟩

/-- A residual that has reached zero and one that has not; each leap record at its instant; no record. -/
theorem test_witness_TimescaleEventsActAtTheirInstants :
    (withSlew 300 0 0).ts.slew = some ⟨.master 1, 300, 0, ⟨0, 0, 0⟩⟩ ∧ (∀ w ∈ (withSlew 300 1 0).ts.slew, w.residual ≠ 0) ∧
      (withLeap .insert .pending 773107212).ts.leap = some ⟨.insert, 773107200, .ref 0, .pending⟩ ∧
      (773107200 : Int) + (withLeap .insert .pending 773107212).ts.utcOffset ≤ (withLeap .insert .pending 773107212).ts.time.sec ∧
      (withLeap .insert .inserting 773107213).ts.leap = some ⟨.insert, 773107200, .ref 0, .inserting⟩ ∧
      (773107200 : Int) + (withLeap .insert .inserting 773107213).ts.utcOffset + 1 ≤
        (withLeap .insert .inserting 773107213).ts.time.sec ∧
      (withLeap .delete .pending 773107211).ts.leap = some ⟨.delete, 773107200, .ref 0, .pending⟩ ∧
      (773107200 : Int) - 1 + (withLeap .delete .pending 773107211).ts.utcOffset ≤
        (withLeap .delete .pending 773107211).ts.time.sec ∧ State.reset.ts.leap = none ∧
      ¬ (withLeap .insert .pending 773107211).secondMet (773107200 + 12) ∧
      ¬ (withLeap .insert .inserting 773107212).secondMet (773107200 + 12 + 1) ∧
      ¬ (withLeap .delete .pending 773107210).secondMet (773107200 + 12 - 1) ∧ atWrap.secondMet (2 ^ 48) := by decide +kernel

theorem test_witness_MastersStepSetAndSlewTheTimescale :
    (ready State.reset .stepBy [7]).waits 1 .stepBy [7] ∧ (ready State.reset .stepBy [7]).engine.state.free ∧
      (ready State.reset .stepBy [7]).stepTarget (toSigned 64 (wordAt [7] 0 % 2 ^ 64)) = some 7 ∧
      (ready State.reset .stepBy [0xFFFFFFFFFFFFFFFF]).stepTarget (toSigned 64 (wordAt [0xFFFFFFFFFFFFFFFF] 0 % 2 ^ 64)) = none ∧
      (ready (inState .pinned none) .setTime [0, 0]).waits 1 .setTime [0, 0] ∧ setTimeParams [0, 0] = some (0, 0) ∧
      setTimeParams [0xFFFFFFFF00000000, 0] = none ∧ (inState .pinned none).engine.state.free ∧
      (inState .acquiring (some 0)).engine.state.follows ∧ (inState .locked (some 0)).engine.state.follows ∧
      (toSigned 32 (wordAt [0] 0 % 2 ^ 32)).natAbs = 0 ∧ (toSigned 32 (wordAt [1000000000] 0 % 2 ^ 32)).natAbs = 10 ^ 9 ∧
      10 ^ 9 < (toSigned 32 (wordAt [1000000001] 0 % 2 ^ 32)).natAbs ∧ (withSlew 300 5 0).ts.slew.isSome ∧
      State.reset.ts.slew = none := by
  decide +kernel

theorem test_witness_StepTellsEveryBlock :
    (withSlew 300 5 0).ts.slew.isSome ∧ State.reset.ts.slew = none ∧ State.reset.ts.leap = none ∧
      (0 : Instant) ≤ State.reset.nowNs ∧ overtaken.resetHeld = false ∧
      (∀ i ∈ [0, 3], overtaken.startDue i = true ∧ (stepped overtaken).startDue i = false) ∧
      (overtaken.line 0).settings.mode = .pulse ∧ (overtaken.line 3).settings.mode = .marks ∧
      (frameLine .none (some aFrame) 100 0).startDue 6 = true ∧
      (stepped (frameLine .none (some aFrame) 100 0)).startDue 6 = false := by decide +kernel

/-- The three places of a step against an INSERT and the two against a DELETE; a step back and forward; the marks passed and
not, one-shot and periodic. -/
theorem test_witness_StepAlignsLeapAndPassesMarks_legal :
    ∀ s ∈ [withMarks, withLeap .insert .pending 5, withLeap .delete .pending 5], s.marksWf := by decide +kernel

theorem test_witness_StepAlignsLeapAndPassesMarks :
    (withLeap .insert .pending 5).ts.leap = some ⟨.insert, 773107200, .ref 0, .pending⟩ ∧
      (((773107211 * 10 ^ 9 + 999999999) / 10 ^ 9 : Nat) : Int) < 773107200 + (withLeap .insert .pending 5).ts.utcOffset ∧
      ((773107212 * 10 ^ 9 / 10 ^ 9 : Nat) : Int) = 773107200 + (withLeap .insert .pending 5).ts.utcOffset ∧
      ((773107213 * 10 ^ 9 / 10 ^ 9 : Nat) : Int) > 773107200 + (withLeap .insert .pending 5).ts.utcOffset ∧
      (withLeap .delete .pending 5).ts.leap = some ⟨.delete, 773107200, .ref 0, .pending⟩ ∧
      ((773107210 * 10 ^ 9 / 10 ^ 9 : Nat) : Int) < 773107200 - 1 + (withLeap .delete .pending 5).ts.utcOffset ∧
      ((773107211 * 10 ^ 9 / 10 ^ 9 : Nat) : Int) ≥ 773107200 - 1 + (withLeap .delete .pending 5).ts.utcOffset ∧
      withMarks.nowNs ≤ withMarks.nowNs ∧ markAt 0 101 none ∈ withMarks.marks ∧ markAt 1 102 (some 1000) ∈ withMarks.marks ∧
      withMarks.passedBy (102 * 10 ^ 9) (markAt 0 101 none).taking = true ∧
      withMarks.passedBy (102 * 10 ^ 9) (markAt 1 102 (some 1000)).taking = true ∧
      withMarks.passedBy (102 * 10 ^ 9) (markAt 2 104 none).taking = false ∧
      (markAt 0 101 none).period = none ∧ (markAt 1 102 (some 1000)).period = some 1000 ∧
      withMarks.queue 2 = [] ∧ (withMarks.passMark (102 * 10 ^ 9) (markAt 0 101 none)).1 = none := by decide +kernel

theorem test_witness_LabelsFollowTheCalendar :
    ¬ (((labelOf (36890 * 86400)).year % 4 = 0 ∧ (labelOf (36890 * 86400)).year % 100 ≠ 0) ∨
      (labelOf (36890 * 86400)).year % 400 = 0) := by decide +kernel

/-- States in which the leap commands are refused STATE, each way, and one in which they are not; each clause's operands. -/
theorem test_witness_LeapCommandsRuleTheLeapRecord :
    { inState .locked (some 0) with refs := State.reset.refs.set 0 (reference .receiver .usable) }.leapRefused ∧
      { inState .acquiring (some 3) with refs := State.reset.refs.set 3 (reference .link .usable) }.leapRefused ∧
      (withLeap .insert .inserting 5).leapRefused ∧ ¬ State.reset.leapRefused ∧ ¬ (withLeap .insert .pending 5).leapRefused ∧
      (ready State.reset .setUtcOffset [255]).waits 1 .setUtcOffset [255] ∧
      (0x15101 : Nat) % 2 ^ 8 = LeapKind.insert.code ∧ (0x15102 : Nat) % 2 ^ 8 = LeapKind.delete.code ∧
      (∀ code ∈ [0, 3, 255], code ≠ LeapKind.insert.code ∧ code ≠ LeapKind.delete.code) ∧
      ((withLeap .delete .pending 773107208).ts.time.sec : Int) < 773107200 - 1 + 10 ∧
      setLeapParams [0x15101] = some (.insert, 0x151) ∧ wordAt [255] 0 % 2 ^ 8 = 255 ∧ wordAt [0] 0 % 2 ^ 8 = 0 ∧
      ((withLeap .insert .pending 773107211).ts.time.sec : Int) < 773107200 + 12 ∧
      ((withLeap .insert .pending 773107212).ts.time.sec : Int) = 773107200 + 12 ∧
      ((withLeap .insert .pending 773107213).ts.time.sec : Int) > 773107200 + 12 ∧
      ((withLeap .delete .pending 773107211).ts.time.sec : Int) ≥ 773107200 - 1 + 12 := by
  decide +kernel

theorem test_witness_FirstEdgeEntersQualifying :
    ((State.reset.setRef 0 (reference .receiver .seeking)).ref 0).state = .seeking ∧
      ((State.reset.setRef 0 (reference .receiver .seeking)).ref 0).settings.polarity = .rising ∧
      ((State.reset.setRef 0 (reference .receiver .seeking)).ref 0).settings.polarity ≠ .falling ∧
      (let s := State.reset.setRef 0 (reference .receiver .seeking)
        let t := after (.referenceEdge 0 .rising) s
        t.resetHeld = false ∧ (atTime t 1 0 (250000000 - 62500)).ref 0 = t.ref 0) := by decide +kernel

/-- Before the window, at its two ends, and with the latch empty, seen bad and unseen. -/
theorem test_witness_WindowJudgesEdges :
    let s (st : RefState) (c : Option Capture) (k : Nat) := refIn .receiver st c k
    (s .usable none 9).resetHeld = false ∧ ((s .usable none 9).ref 0).state.windowed ∧
      ((s .usable none 9).ref 0).lastEdge = some 1000000000 ∧
      (s .usable none 1249937499).ts.tickCount < 1000000000 + 250000000 - 62500 ∧
      1000000000 + 250000000 - 62500 ≤ (s .usable none 1249937500).ts.tickCount ∧
      (s .usable none 1250062500).ts.tickCount ≤ 1000000000 + 250000000 + 62500 ∧
      ((s .usable none 9).ref 0).latch = none ∧ ((s .qualifying (some capture) 9).ref 0).latch = some capture ∧
      capture.badSeen = false ∧ ((s .qualifying none 9).ref 0).state = .qualifying ∧
      ((s .usable none 9).ref 0).badRun < 2 ∧ { reference .receiver .usable with badRun := 2 }.badRun = 2 ∧
      ((s .off none 9).ref 0).state = .off ∧ ((s .heldOff none 9).ref 0).state = .heldOff ∧
      Edge.falling ≠ ((s .usable none 9).ref 0).settings.polarity ∧
      1000000000 + 250000000 + 62500 < (s .usable none 1250062501).ts.tickCount ∧
      (s .usable none 1500062500).ts.tickCount ≤ 1000000000 + 250000000 + 250000000 + 62500 ∧
      1000000000 + 250000000 + 250000000 + 62500 < (s .usable none 1500062501).ts.tickCount := by decide +kernel

theorem test_witness_ReferenceExpiriesActWhenDue :
    let s (st : RefState) (k : Nat) := refIn .receiver st (some capture) k
    ((s .usable 9).ref 0).state.windowed ∧ ((s .usable 9).ref 0).lastEdge = some 1000000000 ∧
      (s .usable 1250062500).ts.tickCount ≤ 1000000000 + 250000000 + 62500 ∧
      1000000000 + 250000000 + 62500 < (s .usable 1250062501).ts.tickCount ∧ ((s .usable 9).ref 0).missingRun < 2 ∧
      { reference .receiver .usable with missingRun := 2 }.missingRun = 2 ∧
      { reference .receiver .heldOff with holdOffExpiry := some 1000 }.holdOffExpiry = some 1000 ∧
      1000 ≤ (atTime State.reset 1 0 250000000).run ∧ (atTime State.reset 1 0 249999999).run < 1000 ∧
      { reference .pulseOnly .usable with settleExpiry := some 1050000000, latch := some capture }.settleExpiry = some 1050000000 ∧
      (s .usable 1049999999).ts.tickCount < 1050000000 ∧ 1050000000 ≤ (s .usable 1050000000).ts.tickCount := by decide +kernel

/-- A record that gathers nothing, one that has a character and one that has 23; the characters that stop; the message's
time at the two ends. -/
theorem test_witness_MessagesAreGatheredAndJudged :
    let s (ticks : Nat) := gathered .usable 1 0 ticks (some capture)
    ¬ ((State.reset.ref 0).state.windowed ∧ ((State.reset.ref 0).settings.kind = .receiver ∨ (State.reset.ref 0).settings.kind = .link)) ∧
      ((s 9).ref 0).state.windowed ∧ ((s 9).ref 0).settings.kind = .receiver ∧
      ((refIn .receiver .usable none 9).ref 0).gather = .hunting ∧
      ((s 9).ref 0).gather = .gathering ((messageBytes 1 0).take 23) ∧ ((messageBytes 1 0).take 23).length = 23 ∧
      (lastChar 1 0).framed = true ∧ messageOf (messageBytes 1 0) ≠ none ∧
      (messageBytes 1 0).take 23 ++ [(lastChar 1 0).data] = messageBytes 1 0 ∧
      messageOf ((messageBytes 1 0).take 23 ++ [0#8]) = none ∧ ((s 9).ref 0).latch = some capture ∧
      capture.tick + 12500000 ≤ (s 12500000).ts.tickCount ∧ (s 237500000).ts.tickCount ≤ capture.tick + 237500000 ∧
      (messageOf (messageBytes 1 0)).map (fun m => (m.kind, m.status)) = some (.receiver, 0) ∧
      (messageOf (messageBytes 2 6)).map (fun m => (m.kind, m.status)) = some (.link, 6) ∧
      (messageOf (messageBytes 1 1)).map (fun m => (m.kind, m.status)) = some (.receiver, 1) := by decide +kernel

theorem test_witness_SetReferenceActsOnWhatChanged :
    let x := (reference .receiver .usable).settings
    let s := refIn .receiver .usable none 9
    (ready s .setReference (refWords 0 x)).waits 1 .setReference (refWords 0 x) ∧ (s.ref 0).settings = x ∧
      setReferenceParams (refWords 0 x) = some (0, x) ∧
      setReferenceParams (refWords 0 { x with kind := .off }) = some (0, { x with kind := .off }) ∧
      setReferenceParams (refWords 0 { x with baud := 115200 }) = some (0, { x with baud := 115200 }) ∧
      setReferenceParams (refWords 0 { x with priority := 0 }) = some (0, { x with priority := 0 }) ∧
      setReferenceParams (refWords 0 { x with phaseLimit := 99 }) = none ∧ (State.reset.ref 1).settings.kind = .off := by
  decide +kernel

/-- The lock window and the threshold met and missed by 1 ns, and an engine that does not use the measurement. -/
theorem test_witness_MeasurementsUpdateTheLoop :
    let s := engineIn .acquiring false true
    s.engine.selection = some 0 ∧ s.engine.state = .acquiring ∧ s.engine.initialStep = false ∧ s.ts.slew = none ∧
      (499999 : Int).natAbs < s.engine.settings.threshold ∧ (200 : Int).natAbs ≤ s.engine.settings.lockWindow ∧
      s.engine.settings.lockWindow < (201 : Int).natAbs ∧ s.engine.settings.lockCount ≤ min 64 (3 + 1) ∧
      min 64 (s.engine.goodRun + 1) < s.engine.settings.lockCount ∧ (engineIn .locked false true).engine.state = .locked ∧
      ¬ (s.engine.state.follows ∧ s.engine.selection = some 1) := by decide +kernel

/-- The hypotheses of the update from a message: a record INSERTING, one PENDING, none; a record left with room and
without, on each side of its instants. -/
theorem test_witness_MeasurementsUpdateTheLoop_leap :
    let s := withLeap .insert .pending 773107212
    (∃ old, (withLeap .insert .inserting 9).ts.leap = some old ∧ old.phase = .inserting) ∧
      (s.ts.leap.map (·.phase)) = some .pending ∧ State.reset.announced 0 5 .none = none ∧
      s.announced 1 12 .none = s.ts.leap ∧ s.announced 1 12 (.delete 86400) = s.ts.leap ∧
      s.announced 0 12 .none = none ∧
      State.reset.announced 1 0 (.insert 86400) = some ⟨.insert, 86400, .ref 1, .pending⟩ ∧
      State.reset.announced 1 1 (.delete 86400) = some ⟨.delete, 86400, .ref 1, .pending⟩ ∧
      State.reset.announced 1 0 (.delete 86400) = none ∧ State.reset.announced 1 255 (.insert 0) = none ∧
      (withLeap .insert .pending 9).announced 1 255 .none = s.ts.leap ∧
      (773107212 : Int) = 773107200 + 12 ∧ (773107212 : Int) < 773107200 + 13 ∧ (773107212 : Int) > 773107200 + 11 := by
  exact ⟨⟨_, rfl, rfl⟩, by decide +kernel⟩

theorem test_witness_MeasurementsStepOrSlewInAcquiring :
    let s := engineIn .acquiring
    (s true true).engine.selection = some 0 ∧ (s true true).engine.state.follows ∧ (s true true).engine.initialStep = true ∧
      (s true true).stepTarget 5 = some (790000010 * 10 ^ 9 + 5) ∧ (s true true).stepTarget (-790000010000000001) = none ∧
      ((s true true).ref 0).settings.kind ≠ .pulseOnly ∧
      (((s true true).setRef 0 (reference .pulseOnly .usable)).ref 0).settings.kind = .pulseOnly ∧
      (s false true).engine.initialStep = false ∧ (s false true).engine.settings.threshold ≤ (500000 : Int).natAbs ∧
      (s false true).engine.settings.autoStep = true ∧ (s false false).engine.settings.autoStep = false ∧
      (1000000000 : Int).natAbs ≤ 10 ^ 9 ∧ 10 ^ 9 < (1000000001 : Int).natAbs ∧
      (∃ w ∈ ({ (s false true).ts with slew := some ⟨.engine, 9, 9, ⟨0, 0, 0⟩⟩ }).slew, w.origin = .engine) ∧
      (∀ w ∈ (withSlew 9 9 0).ts.slew, w.origin ≠ .engine) ∧ (withSlew 9 9 0).ts.slew ≠ none := by
  decide +kernel

theorem test_witness_GradeFollowsUncertainty :
    State.reset.engine.anchor = none ∧ (engineIn .locked false true).engine.anchor = some ⟨1100000, 15180⟩ ∧
      (engineIn .holdover false true).engine.state = .holdover ∧ (engineIn .holdover false true).resetHeld = false ∧
      (engineIn .holdover false true).grade ≠ (engineIn .holdover false true).engine.announced ∧
      State.reset.grade = State.reset.engine.announced ∧
      (State.reset.setUncertainty 1).grade ≠ State.reset.engine.announced ∧
      ((inState .locked none).setUncertainty 500000).grade = (inState .locked none).engine.announced := by decide +kernel

theorem test_witness_EngineCommandsSetPinAndUnpin :
    (ready State.reset .setEngine []).waits 1 .setEngine [] ∧ (ready State.reset .pin [5]).waits 1 .pin [5] ∧
      (ready (inState .pinned none) .unpin []).waits 1 .unpin [] ∧ (inState .pinned none).engine.state = .pinned ∧
      State.reset.engine.state ≠ .pinned ∧
      setEngineParams (pack (EngineSettings.powerOn.fields ++ [.bits 16 1])) = some (.powerOn, 1) ∧
      setEngineParams (pack (EngineSettings.powerOn.fields ++ [.bits 16 501])) = none ∧
      (⟨1024, 100000, 64, 1000000000, false, 1000000⟩ : EngineSettings).growth ≠ EngineSettings.powerOn.growth := by
  decide +kernel

/-- A PIN that regrades and one that does not; UNPIN with an engine slew, with a master's and with none. -/
theorem test_witness_EngineCommandsSetPinAndUnpin_flags :
    let s := inState .pinned none
    gradeOfPs (some (min 4294967295000 (5 * 1000))) ≠ s.engine.announced ∧
      gradeOfPs (some (min 4294967295000 (600 * 1000))) = s.engine.announced ∧
      (withSlew 5 5 0).ts.slew.map (·.origin) = some (.master 1) ∧ grouped.ts.slew.map (·.origin) = some .engine ∧
      s.ts.slew = none := by decide +kernel

theorem test_witness_ReevaluationFollowsTheBestCandidate :
    let two : State := { inState .holdover none with refs := Four.all (reference .receiver .usable) }
    two.bestCandidate = some 0 ∧ two.engine.state ≠ .pinned ∧ ¬ two.engine.state.follows ∧
      (inState .pinned none).engine.state = .pinned ∧ State.reset.bestCandidate = none ∧
      State.reset.engine.state = .freerun ∧ { two with engine := (inState .locked (some 0)).engine }.bestCandidate = some 0 ∧
      { two with engine := (inState .locked (some 1)).engine }.bestCandidate ≠ some 1 ∧
      (inState .locked (some 0)).engine.state.follows ∧ (inState .locked (some 0)).bestCandidate = none ∧
      (withSlew 5 5 0).ts.slew.map (·.origin.isMaster) = some true ∧ two.ts.slew = none := by decide +kernel

theorem test_witness_AddMarkPlacesTheMark :
    let ws := markWords 8 (100 * 10 ^ 9 + 10 ^ 6 + 1200) 1 none none none
    (ready markState .addMark ws).waits 1 .addMark ws ∧
      markState.engine.state ≠ .freerun ∧ State.reset.engine.state = .freerun ∧
      (addMarkParams ws).map (fun p => (p.lines, p.due)) = some (8#16, 100 * 10 ^ 9 + 10 ^ 6 + 1200) ∧
      addMarkParams (markWords 0 5 1 none none none) = none := by decide +kernel

/-- The list as ADD_MARK finds it: empty, with a master's 24 marks, and full. -/
theorem test_witness_AddMarkPlacesTheMark_legal :
    (ready markState .addMark []).marksWf ∧
      ∀ marks ∈ [(List.range 24).map fun k => { markAt k 200 none with owner := (1 : Mp) },
        (List.range 64).map fun k => { markAt k 200 none with owner := if k < 23 then (1 : Mp) else if k < 46 then 2 else 3 }],
        { markState with marks := marks }.marksWf := by decide +kernel

theorem test_witness_MarksAreCancelledAndOutcomesTaken :
    let own : State := { withMarks with marks := withMarks.marks.map fun m => { m with owner := 1 } }
    (ready own .cancelMark [2]).waits 1 .cancelMark [2] ∧ (ready own .cancelMark [2]).marksWf ∧
      (∃ m ∈ own.marks, m.id = wordAt [2] 0 % 2 ^ 8 ∧ m.owner = 1) ∧ (∃ m ∈ withMarks.marks, m.id = 2 ∧ m.owner ≠ 1) ∧
      (∀ m ∈ own.marks, m.id ≠ wordAt [63] 0 % 2 ^ 8) ∧ 64 ≤ wordAt [64] 0 % 2 ^ 8 ∧ State.reset.queue 1 = [] ∧
      (ready State.reset .takeOutcomes []).waits 1 .takeOutcomes [] := by
  decide +kernel

/-- Line 3 accepts and line 5 does not; the taking and the start reached, and not; the grade passes, and does not. -/
theorem test_witness_MarkTakingFiresAndRearms :
    let m : Mark := ⟨0, 2, 0x0028#16, 101 * 10 ^ 9, 100000, none, none, none, 5, 100999998800, 1200, 0, 0, 0, 0⟩
    let s (ns : Nat) : State := { atTime markState 100 ns 25249999700 with marks := [m] }
    (s 999998800).resetHeld = false ∧ (s 999998800).marks = m :: [] ∧ (s 999998800).hasReached m.taking = true ∧
      (s 999998799).hasReached m.taking = false ∧ m.lines.getLsbD 3 = true ∧ m.lines.getLsbD 5 = true ∧
      ((s 999998800).line 3).state = .running ∧ ((s 999998800).line 3).settings.mode = .marks ∧
      ((s 999998800).line 5).settings.mode ≠ .marks ∧ m.taking + 1200 ≤ m.due ∧ ((s 999998800).line 3).commitments = [] ∧
      ((s 999998800).line 3).emission = .none ∧ gatePasses none (s 999998800).engine.announced = true ∧
      gatePasses (some 0) (s 999998800).engine.announced = false ∧ (0x0008#16).getLsbD 3 = true ∧ (0#16).getLsbD 3 = false ∧
      (stepped overtaken).resetHeld = false ∧ (∀ m ∈ (stepped overtaken).marks.head?, False) ∧
      (stepped overtaken).overtakenIn 5 .marks ∧ ¬ (stepped overtaken).overtakenIn 1 .marks := by
  decide +kernel

theorem test_witness_LineCommandsWriteRestartAndSense :
    (ready State.reset .setLine (lineWords 2 .powerOn)).waits 1 .setLine (lineWords 2 .powerOn) ∧
      setLineParams (lineWords 2 .powerOn) = some (2, (State.reset.line 2).settings) ∧
      setLineParams (lineWords 2 (lineIn .marks).settings) = some (2, (lineIn .marks).settings) ∧
      (lineIn .marks).settings ≠ .powerOn ∧ setLineParams (lineWords 2 { LineSettings.powerOn with width := 0 }) = none ∧
      (ready State.reset .lineRestart [2]).waits 1 .lineRestart [2] ∧ 16 ≤ wordAt [16] 0 % 2 ^ 8 ∧
      wordAt [15] 0 % 2 ^ 8 = (15 : LineId).val ∧ faultedLine.state = .faulted ∧ (lineIn .coded).state ≠ .faulted ∧
      faultedLine.settings.mode = .coded ∧ (ready State.reset .senseLine [0x010F]).waits 1 .senseLine [0x010F] ∧
      senseLineParams [0x010F] = some (15, true) ∧ senseLineParams [0x0210] = none := by
  decide +kernel

theorem test_witness_ChangePointAppliesThePendingRecord :
    let l : Line := { lineIn .marks with pending := some (lineIn .coded).settings }
    let s : State := (atTime State.reset 100 0 25000000000).setLine 4 l
    s.resetHeld = false ∧ (s.line 4).pending = some (lineIn .coded).settings ∧
      s.reachedNow (s.latestMultiple (10 ^ 9) 0) = true ∧ (s.line 4).changeAt ≠ some s.ts.tickCount ∧
      (atTime s 100 4 9).reachedNow ((atTime s 100 4 9).latestMultiple (10 ^ 9) 0) = false ∧ (State.reset.line 4).pending = none ∧
      (lineIn .coded).settings.mode ≠ l.settings.mode ∧ faultedLine.state = .faulted := by decide +kernel

theorem test_witness_ChangePointAppliesThePendingRecord_legal :
    ∀ l ∈ [faultedLine, { lineIn .marks with pending := some (lineIn .coded).settings }], l.wf := by decide +kernel

theorem test_witness_PulsesStartMergeFaultAndEnd :
    let s := pulseLine none
    let l := s.line 0
    let c : Line := { lineIn .marks with commitments := [⟨200002998800, 200006998800, 1, 2⟩] }
    s.resetHeld = false ∧ l.state = .running ∧ l.settings.mode = .pulse ∧ l.startAt ≠ some s.ts.tickCount ∧
      s.pulseStartNow l = some 99999999500 ∧ l.emission = .none ∧ gatePasses (some 1) s.engine.announced = false ∧
      gatePasses (some 2) s.engine.announced = true ∧ Load.openLoad ≠ .good ∧ l.commitments = [] ∧
      (atTime State.reset 100 8 9).hasPassed 100000000008 = true ∧ (atTime State.reset 100 7 9).hasPassed 100000000008 = false ∧
      c.state = .running ∧ c.settings.mode = .marks ∧ (atTime State.reset 200 2998800 9).hasReached 200002998800 = true ∧
      (atTime State.reset 200 2998799 9).hasReached 200002998800 = false ∧
      (stepped overtaken).overtakenIn 0 .pulse ∧ (stepped overtaken).overtakenIn 3 .marks ∧
      (stepped overtaken).pulseStartNow ((stepped overtaken).line 0) = none ∧
      ((stepped overtaken).line 3).commitments = [] ∧ ¬ s.overtakenIn 0 .pulse ∧
      (State.reset.line 0).settings.mode = .off := by decide +kernel

theorem test_witness_PulsesStartMergeFaultAndEnd_legal : faultedLine.wf ∧ faultedLine.state ≠ .running := by decide +kernel

theorem test_witness_CompositionBuildsAndReleasesTheFrame :
    let s := atTime busy 99 900000000 9
    s.resetHeld = false ∧ s.reachedNow (s.latestMultiple (10 ^ 9) 100000000) = true ∧
      s.composer.composedAt ≠ some s.ts.tickCount ∧
      (atTime busy 99 900000004 9).reachedNow ((atTime busy 99 900000004 9).latestMultiple (10 ^ 9) 100000000) = false ∧
      (s.composeFrame 100).isSome ∧ s.ts.leap = none ∧ (withLeap .insert .pending 5).ts.leap.isSome ∧ s.composer.frame.isSome ∧
      (atTime busy 101 0 9).hasPassed (101 * 10 ^ 9) = true ∧ (atTime busy 100 999999999 9).hasPassed (101 * 10 ^ 9) = false := by
  decide +kernel

theorem test_witness_FramesAreEmittedSlotBySlot :
    let s := frameLine .none (some aFrame) 100 0
    s.resetHeld = false ∧ (s.line 6).held = some aFrame ∧ (s.line 6).state = .running ∧ (s.line 6).settings.mode = .coded ∧
      s.hasPassed aFrame.slot0 = true ∧ (frameLine .none (some aFrame) 99 999999999).hasPassed aFrame.slot0 = false ∧
      ((frameLine (.frame aFrame 49 none) none 100 980000000).line 6).emission = .frame aFrame 49 none ∧
      (atTime State.reset 100 980000000 9).hasPassed ((aFrame.slot0 + 49 * 20000000) % Config.nsRange) = true ∧
      (atTime State.reset 100 979999999 9).hasPassed ((aFrame.slot0 + 49 * 20000000) % Config.nsRange) = false ∧
      (atTime State.reset 101 0 9).hasPassed ((aFrame.slot0 + 50 * 20000000) % Config.nsRange) = true ∧
      (stepped s).overtakenIn 6 .coded ∧ ((stepped s).line 6).held = none ∧ ((stepped s).line 6).emission = .none := by
  decide +kernel

theorem test_witness_FrameSymbolsFollowTheSlotPlan :
    (-64 : Int) ≤ -64 ∧ (-64 : Int) < 64 ∧ (frameSymbols 86399 366 127 7 3 (-64))[0]? = some .mark := by decide +kernel

theorem test_witness_LinkReportsMoveThePort :
    sending.portState .na = .active ∧ State.reset.portState .na ≠ .active := by decide +kernel

/-- A due instant reached, and not; a beacon made at once, made pending, and not made; each end of a transmission. -/
theorem test_witness_BeaconsAndAnswersShareTheWire :
    netState.resetHeld = false ∧ netState.hasPassed (netState.netPort .na).nextDue = true ∧
      netState.hasPassed (netState.netPort .nb).nextDue = false ∧ netState.portState .na = .active ∧
      netState.engine.state ≠ .freerun ∧ (netState.netPort .na).pendingBeacon = none ∧ (netState.netPort .na).wire = .idle ∧
      (sending.netPort .na).wire ≠ .idle ∧ (sending.netPort .na).queue = anAnswer 7 :: [anAnswer 12] ∧
      ((after .beaconDue sending).netPort .na).pendingBeacon = some 1000 := by decide +kernel

theorem test_witness_AsksAreStampedAndJudgedByThePort :
    let f := askFrame 0x0A0000000001 5 none
    let s := after (.askTimingPoint .na) netState
    s.resetHeld = false ∧ netState.portState .na = .active ∧ State.reset.portState .na ≠ .active ∧
      (netState.netPort .na).reception = none ∧ (s.netPort .na).reception = some ⟨300 * 10 ^ 9, 300000, false⟩ ∧
      f.receptionOk = true ∧ f.frameType = 0x89C2#16 ∧ (askOf f.body).isSome ∧ s.takesFrame f ∧ askOf [] = none ∧
      ¬ s.takesFrame { f with source := 0x010000000001 } ∧
      ((s.stepTo .engine 5 false).netPort .na).reception = some ⟨300 * 10 ^ 9, 300000, true⟩ := by decide +kernel

/-- The spacing met exactly; an entry with NA's sub-record and one without; a queue with room and a full one; a free slot
and none. -/
theorem test_witness_ClientTableAnswersAsks :
    let s := after (.askTimingPoint .na) tracked
    let f := askFrame 0x0A0000000001 5 none
    s.askPassed .na f ⟨300 * 10 ^ 9, 300000, false⟩ ⟨5, 9, List.replicate 10 7#8, none⟩ ∧
      s.clients.find f.source = some ⟨0, 0x0A0000000001, 9, .new, some ⟨4, 299900, 0, 1, 0, 0⟩, none, none⟩ ∧
      299900 + s.net.settings.spacing ≤ 300000 ∧ 299999 < 299900 + s.net.settings.spacing ∧
      (s.netPort .na).queue.length < 32 ∧ ((s.netPort .na).wire = .idle → (s.netPort .na).queue = [] ∧
        (s.netPort .na).pendingBeacon = none) ∧
      netState.clients.find f.source = none ∧ netState.clients.freeSlot = some 0 := by decide +kernel

theorem test_witness_SetNetworkActsInOneEvent :
    let x := sending.net.settings
    (ready sending .setNetwork (netWords x)).waits 1 .setNetwork (netWords x) ∧ setNetworkParams (netWords x) = some x ∧
      setNetworkParams (netWords { x with interval := 126 }) = none ∧ sending.portState .na = .active ∧
      (({ x with enable := ⟨false, true⟩ } : NetSettings).enable.get .na) = false := by
  decide +kernel

theorem test_witness_ClientsExpireOrAreForgotten :
    (atTime tracked 300 0 250000000).ts.tickCount % 250000000 = 0 ∧ 0 < (atTime tracked 300 0 250000000).ts.tickCount ∧
      tracked.clients.checkedAt ≠ some 250000000 ∧ (atTime tracked 300 0 250000001).ts.tickCount % 250000000 ≠ 0 ∧
      (ready tracked .forgetClient [0x0A0000000001]).waits 1 .forgetClient [0x0A0000000001] ∧
      isGroup 0x0A0000000001 = false ∧ isGroup 0x010000000000 = true ∧ (tracked.clients.find 0x0A0000000001).isSome ∧
      tracked.clients.find 0x0A0000000002 = none := by
  decide +kernel

/-- A run of words that ends at word 15, of one and of all sixteen; the handshakes; counts of 16 and 17. -/
theorem test_witness_TransactionsWriteAndPost :
    let s := begun State.reset
    s.resetHeld = false ∧ (s.port 1).transaction = some ((State.reset.port 1).begun 1) ∧ 1 ≤ (1#8).toNat ∧
      (15#8).toNat + (1#8).toNat ≤ 16 ∧ (0#8).toNat + (16#8).toNat ≤ 16 ∧
      (List.replicate 256 0#8).length = 16 * (16#8).toNat ∧ (s.port 1).params.length = 16 ∧ (16#8).toNat ≤ 16 ∧
      (s.port 1).handshake = .idle ∧ ((begun (inSlot State.reset .identify [])).port 1).handshake = .busy ∧
      ((begun (after (.identify 1) (inSlot State.reset .identify []))).port 1).handshake = .done := by decide +kernel

/-- Begun in DONE, begun before, and with the area empty. -/
theorem test_witness_ReadsReturnWhatWasFixed :
    let x (s : State) := ((begun s).port 1).transaction
    let s := after (.identify 1) (inSlot State.reset .identify [])
    ((x s).map fun t => (t.handshake, t.result.map (·.words.length), t.stateBytes.length)) = some (.done, some 16, 9) ∧
      ((begun s).port 1).handshake = .done ∧
      ((x (inSlot s .identify [])).map fun t => (t.handshake, t.result.map (·.words.length))) = some (.busy, some 16) ∧
      ((x State.reset).map fun t => (t.handshake, t.result)) = some (.idle, none) := by decide +kernel

theorem test_witness_BadFramingSetsItsFlagAlone :
    (begun State.reset).resetHeld = false ∧ ((begun State.reset).port 1).transaction = some ((State.reset.port 1).begun 1) ∧
      257 ≠ 258 ∧ 16 < (17#8).toNat ∧ ([] : List Byte).length < 2 ∧ (0#8).toNat = 0 ∧ 16 < (15#8).toNat + (2#8).toNat ∧
      0x4D#8 ∉ [0x21#8, 0x22#8, 0x31#8, 0x32#8, 0x33#8, 0x34#8, 0x4C#8] := by decide +kernel

theorem test_witness_CommonChecksComeFirst :
    (inSlot State.reset .restart []).resetHeld = false ∧ ((inSlot State.reset .restart []).port 1).slot = some ⟨0x3E#8, 0, []⟩ ∧
      postedRow (.restart 1) = some (1, .restart) ∧ CommandRow.restart.claim = true ∧
      (inSlot State.reset .restart []).holdsClaim 1 = false ∧ (∀ row ∈ commandTable, row.number ≠ 0x40#8) ∧
      (∃ row ∈ commandTable, row.number = 0x3F#8) ∧ (List.replicate 16 (1 : Word)).length ≤ 16 ∧
      ([] : List Word).length ≤ 16 := by decide +kernel

theorem test_witness_ClaimIsGrantedRenewedAndExpires :
    (inSlot State.reset .claim' [1]).waits 1 .claim' [1] ∧ (inSlot State.reset .claim' [1]).claim = none ∧
      wordAt [0] 0 % 2 ^ 8 = 0 ∧ 120 < wordAt [121] 0 % 2 ^ 8 ∧ wordAt [120] 0 % 2 ^ 8 ≤ 120 ∧
      (ready State.reset .claim' [1]).claim = some ⟨1, 10 ^ 9⟩ ∧ (0 : Mp) ≠ 1 ∧
      (1000 : Nat) ≤ (atTime State.reset 1 0 250000000).run ∧ (atTime State.reset 1 0 249999999).run < 1000 := by decide +kernel

theorem test_witness_SummariesAreSensedAndMasked :
    (begun State.reset).resetHeld = false ∧ ((begun State.reset).port 1).transaction = some ((State.reset.port 1).begun 1) ∧
      (1#8).getLsbD 0 = true ∧ (2#8).getLsbD 0 = false ∧
      (inSlot State.reset .setEventMask [0]).slotHas 1 .setEventMask [0] := by decide +kernel

theorem test_witness_TableReadsReturnOccupiedSlots :
    (inSlot State.reset .readTable [0x5F03]).slotHas 1 .readTable [0x5F03] ∧
      readTableParams [0x5F03] = some ⟨.clients, 95⟩ ∧ readTableParams [0x6003] = none ∧
      (inSlot State.reset .readMore []).slotHas 1 .readMore [] ∧ (State.reset.port 1).cursor = none ∧
      ((after (.readTable 1) (inSlot State.reset .readTable [0])).port 1).cursor = some ⟨.references, 2⟩ := by decide +kernel

/-- Legal states with something in every block, from each of which a step answers next (EveryCommandGoesOnUnlessHeld). -/
theorem test_witness_StepKeepsTheTimescaleUnit : { withSlew 300 5 0 with pending := [.tick] }.timeWf := by decide +kernel
theorem test_witness_StepKeepsTheReferences : (gathered .usable 1 0 12500000 (some capture)).refsWf := by decide +kernel
theorem test_witness_StepKeepsTheReferences_qualifying :
    let s := gathered .qualifying 1 0 12500000 (some capture)
    let x := s.ref 0
    (s.setRef 0 { x with goodRun := x.settings.qualifyCount - 1 }).refsWf := by decide +kernel
theorem test_witness_StepKeepsTheEngine : (engineIn .acquiring true true).engineWf := by decide +kernel
theorem test_witness_StepKeepsTheMarks : withMarks.marksWf := by decide +kernel
theorem test_witness_StepKeepsTheLines : busy.linesWf := by decide +kernel
theorem test_witness_StepKeepsTheNetwork : sending.netWf := by decide +kernel
theorem test_witness_StepKeepsTheClients : tracked.clientsWf := by decide +kernel
theorem test_witness_StepKeepsThePorts : (ready State.reset .identify []).portsWf := by decide +kernel
theorem test_witness_step_answers_next : ∃ t, step { tracked with pending := [.tick] } = .next t := ⟨_, rfl⟩

end Sys2Proof.Tests
end

section
/-! SUPPORT. What every command reaches. `State.keepsTime` and `State.timeSafe` are relations between the state before an
operation and the state after it; they compose, so that a command is judged from the operations it is made of. -/

namespace Sys2Proof.Machine

open Sys2Proof

/-! ### Rules for commands, transactions and the RESET input -/

/-- What holds of a state and of what an event makes of it holds whether the RESET input is held or not. -/
theorem State.unlessHeld_induct {P : State → Prop} {s : State} {f : State → State} (hs : P s) (hf : P (f s)) :
    P (s.unlessHeld f) := by
  unfold State.unlessHeld
  split
  · exact hs
  · exact hf

theorem withParams_eq_taken_iff {α : Type} (params : Option α) (act : α → Judged) (t : State) (out : List Word) :
    withParams params act = .taken t out ↔ ∃ x, params = some x ∧ act x = .taken t out := by
  cases params <;> simp [withParams]

/-- What holds of a state, of what its owner makes of a command, and of either with a result written, holds after the
taking of the command. -/
theorem State.takeCommand_induct {P : State → Prop} {s : State} {mp : Mp} {row : CommandRow}
    {act : List Word → State → Judged} (hs : P s) (hfinish : ∀ t code ws, P t → P (t.finish mp code ws))
    (htaken : ∀ ws t out, act ws s = .taken t out → P t) : P (s.takeCommand mp row act) := by
  rcases s.takeCommand_cases mp row act with h | ⟨p, _, _, h | h | ⟨_, h⟩⟩ <;> rw [h]
  · exact hs
  · exact hfinish _ _ _ hs
  · exact hfinish _ _ _ hs
  · cases ha : act p.words s with
    | refused code words => exact hfinish _ _ _ hs
    | taken t out => exact hfinish _ _ _ (htaken _ _ _ ha)

/-- What holds of a state, whatever the mailboxes hold, holds after the end of a transaction whose effect keeps it. -/
theorem State.endTransaction_induct {P : State → Prop} {s : State} {mp : Mp} {len : Nat}
    {data : Transaction → List Byte} {fits : Bool} {act : Transaction → State → State} (hs : P s)
    (hport : ∀ t x, P t → P (t.setPort mp x)) (hact : ∀ x t, P t → P (act x t)) :
    P (s.endTransaction mp len data fits act) := by
  refine State.unlessHeld_induct hs ?_
  dsimp only
  split
  · exact hs
  · split
    · exact hact _ _ (hport _ _ hs)
    · exact hport _ _ hs

/-! ### Operations that leave the timescale unit and the engine's loop -/

/-- `t` has the queue, the timescale unit and the engine's settings and integral term of `s`. -/
def State.keepsTime (s t : State) : Prop :=
  t.pending = s.pending ∧ t.ts = s.ts ∧ t.engine.integral = s.engine.integral ∧ t.engine.settings = s.engine.settings

theorem State.keepsTime_refl (s : State) : s.keepsTime s := ⟨rfl, rfl, rfl, rfl⟩

theorem State.keepsTime.trans {s t u : State} (h : s.keepsTime t) (k : t.keepsTime u) : s.keepsTime u := by
  obtain ⟨hp, ht, hi, hs⟩ := h
  obtain ⟨kp, kt, ki, ks⟩ := k
  exact ⟨kp.trans hp, kt.trans ht, ki.trans hi, ks.trans hs⟩

theorem State.onlyLines.keepsTime {s t : State} (h : s.onlyLines t) : s.keepsTime t := by
  obtain ⟨hp, _, ht, _, he, _⟩ := h
  exact ⟨hp, ht, by rw [he], by rw [he]⟩

theorem State.onlyNetwork.keepsTime {s t : State} (h : s.onlyNetwork t) : s.keepsTime t := by
  obtain ⟨hp, _, ht, _, he, _⟩ := h
  exact ⟨hp, ht, by rw [he], by rw [he]⟩

theorem State.finish_keepsTime (s : State) (mp : Mp) (code : ResultCode) (ws : List Word) :
    s.keepsTime (s.finish mp code ws) := ⟨rfl, rfl, rfl, rfl⟩

theorem State.setPort_keepsTime (s : State) (mp : Mp) (x : MasterPort) : s.keepsTime (s.setPort mp x) :=
  ⟨rfl, rfl, rfl, rfl⟩

theorem State.setRef_keepsTime (s : State) (r : RefId) (x : Reference) : s.keepsTime (s.setRef r x) :=
  ⟨rfl, rfl, rfl, rfl⟩

theorem State.refEntered_keepsTime (s : State) (r : RefId) (x : Reference) : s.keepsTime (s.refEntered r x) :=
  ⟨rfl, rfl, rfl, rfl⟩

theorem State.post_keepsTime (s : State) (e : Event) : s.keepsTime (s.post e) := ⟨rfl, rfl, rfl, rfl⟩

theorem State.handOutcome_keepsTime (s : State) (o : Outcome) : s.keepsTime (s.handOutcome o) := by
  rw [State.handOutcome_frame]
  exact ⟨rfl, rfl, rfl, rfl⟩

/-- A command whose taking keeps the time keeps it. -/
theorem State.takeCommand_keepsTime {s : State} {mp : Mp} {row : CommandRow} {act : List Word → State → Judged}
    (h : ∀ ws t out, act ws s = .taken t out → s.keepsTime t) : s.keepsTime (s.takeCommand mp row act) :=
  State.takeCommand_induct s.keepsTime_refl (fun t code ws ht => ht.trans (t.finish_keepsTime mp code ws)) h

/-- A transaction whose effect keeps the time keeps it. -/
theorem State.endTransaction_keepsTime {s : State} {mp : Mp} {len : Nat} {data : Transaction → List Byte} {fits : Bool}
    {act : Transaction → State → State} (h : ∀ (x : Transaction) (t : State), t.keepsTime (act x t)) :
    s.keepsTime (s.endTransaction mp len data fits act) :=
  State.endTransaction_induct s.keepsTime_refl (fun t x ht => ht.trans (t.setPort_keepsTime mp x))
    fun x t ht => ht.trans (h x t)

/-- A read command leaves the state it is taken in. -/
theorem State.read_keepsTime {s : State} {mp : Mp} {row : CommandRow} {act : List Word → State → Judged}
    (h : ∀ ws t out, act ws s = .taken t out → t = s) : s.keepsTime (s.takeCommand mp row act) :=
  State.takeCommand_keepsTime fun ws t out ht => h ws t out ht ▸ s.keepsTime_refl

/-! ### The output lines (chapters 5 and 6) -/

theorem changePointState_onlyLines (i : LineId) (s : State) : s.onlyLines (changePointState i s) := by
  refine State.unlessHeld_induct s.onlyLines_refl ?_
  dsimp only
  split
  · exact s.onlyLines_refl
  · split
    · exact State.onlyLines_setLine _ _ _
    · exact s.onlyLines_refl

theorem State.startTrainPulse_onlyLines (s : State) (i : LineId) (t : Int) (load : Load) :
    s.onlyLines (s.startTrainPulse i t load) := by
  unfold State.startTrainPulse
  dsimp only
  split
  · exact (State.onlyLines_setLine _ _ _).trans (State.judgeLoad_onlyLines _ _ _)
  · exact State.onlyLines_setLine _ _ _

theorem pulseStartState_onlyLines (i : LineId) (load : Load) (s : State) : s.onlyLines (pulseStartState i load s) := by
  refine State.unlessHeld_induct s.onlyLines_refl ?_
  split
  · exact State.judgeOvertaken_onlyLines _ _ _ _
  · exact State.startTrainPulse_onlyLines _ _ _ _

theorem pulseEndState_onlyLines (i : LineId) (s : State) : s.onlyLines (pulseEndState i s) := by
  rcases pulseEndState_cases i s with h | ⟨_, _, _, _, _, h⟩ <;> rw [h]
  · exact s.onlyLines_refl
  · exact State.onlyLines_setLine _ _ _

theorem commitmentStartState_onlyLines (i : LineId) (load : Load) (s : State) :
    s.onlyLines (commitmentStartState i load s) := by
  refine State.unlessHeld_induct s.onlyLines_refl ?_
  dsimp only
  split
  · exact State.judgeOvertaken_onlyLines _ _ _ _
  · split
    · exact (State.onlyLines_setLine _ _ _).trans (State.startCommitment_onlyLines _ _ _ _)
    · exact State.judgeOvertaken_onlyLines _ _ _ _

theorem State.startSymbol_onlyLines (s : State) (i : LineId) (h : HeldFrame) (slot : Nat) (load : Load) :
    s.onlyLines (s.startSymbol i h slot load) :=
  (State.onlyLines_setLine _ _ _).trans (State.judgeLoad_onlyLines _ _ _)

theorem frameBeginState_onlyLines (i : LineId) (load : Load) (s : State) : s.onlyLines (frameBeginState i load s) := by
  refine State.unlessHeld_induct s.onlyLines_refl ?_
  dsimp only
  split
  · exact State.judgeOvertaken_onlyLines _ _ _ _
  · split
    · exact (State.onlyLines_setLine _ _ _).trans (State.startSymbol_onlyLines _ _ _ _ _)
    · exact State.judgeOvertaken_onlyLines _ _ _ _

theorem symbolStartState_onlyLines (i : LineId) (load : Load) (s : State) : s.onlyLines (symbolStartState i load s) := by
  refine State.unlessHeld_induct s.onlyLines_refl ?_
  split
  · split
    · exact State.startSymbol_onlyLines _ _ _ _ _
    · exact State.judgeOvertaken_onlyLines _ _ _ _
  · exact State.judgeOvertaken_onlyLines _ _ _ _

theorem symbolEndState_onlyLines (i : LineId) (s : State) : s.onlyLines (symbolEndState i s) := by
  refine State.unlessHeld_induct s.onlyLines_refl ?_
  dsimp only
  split
  · split
    · exact State.onlyLines_setLine _ _ _
    · exact s.onlyLines_refl
  · exact s.onlyLines_refl

theorem frameEndState_onlyLines (i : LineId) (s : State) : s.onlyLines (frameEndState i s) := by
  refine State.unlessHeld_induct s.onlyLines_refl ?_
  dsimp only
  split
  · split
    · exact State.onlyLines_setLine _ _ _
    · exact s.onlyLines_refl
  · exact s.onlyLines_refl

theorem setLineState_keepsTime (mp : Mp) (s : State) : s.keepsTime (setLineState mp s) := by
  refine State.takeCommand_keepsTime fun ws t out h => ?_
  obtain ⟨x, _, hx⟩ := (withParams_eq_taken_iff _ _ _ _).mp h
  cases hx
  exact (State.onlyLines_setLine _ _ _).keepsTime

theorem lineRestartState_keepsTime (mp : Mp) (s : State) : s.keepsTime (lineRestartState mp s) := by
  refine State.takeCommand_keepsTime fun ws t out h => ?_
  obtain ⟨i, _, hx⟩ := (withParams_eq_taken_iff _ _ _ _).mp h
  split at hx <;> cases hx
  exact (State.onlyLines_setLine _ _ _).keepsTime

theorem senseLineState_keepsTime (mp : Mp) (s : State) : s.keepsTime (senseLineState mp s) := by
  refine State.takeCommand_keepsTime fun ws t out h => ?_
  obtain ⟨⟨i, clear⟩, _, hx⟩ := (withParams_eq_taken_iff _ _ _ _).mp h
  cases hx
  split
  · exact (State.onlyLines_setLine _ _ _).keepsTime
  · exact s.keepsTime_refl

theorem compositionState_keepsTime (s : State) : s.keepsTime (compositionState s) := by
  refine State.unlessHeld_induct s.keepsTime_refl ?_
  split
  · unfold State.compose
    dsimp only
    split <;> exact ⟨rfl, rfl, rfl, rfl⟩
  · exact s.keepsTime_refl

theorem frameReleaseState_keepsTime (s : State) : s.keepsTime (frameReleaseState s) := by
  refine State.unlessHeld_induct s.keepsTime_refl ?_
  dsimp only
  split
  · exact s.keepsTime_refl
  · split <;> exact ⟨rfl, rfl, rfl, rfl⟩

/-! ### The mark scheduler (chapter 4) -/

theorem markTakingState_keepsTime (faulty : BitVec 16) (s : State) : s.keepsTime (markTakingState faulty s) := by
  refine State.unlessHeld_induct s.keepsTime_refl ?_
  split
  · exact (State.judgeOvertakenAll_onlyLines _ _).keepsTime
  · split
    · rw [State.takeMark_frame]
      exact ⟨rfl, rfl, rfl, rfl⟩
    · exact (State.judgeOvertakenAll_onlyLines _ _).keepsTime

theorem addMarkState_keepsTime (mp : Mp) (s : State) : s.keepsTime (addMarkState mp s) := by
  refine State.takeCommand_keepsTime fun ws t out h => ?_
  unfold addMarkAct at h
  split at h
  · cases h
  · obtain ⟨x, _, hx⟩ := (withParams_eq_taken_iff _ _ _ _).mp h
    unfold State.placeMark at hx
    split_ifs at hx
    split at hx <;> cases hx
    exact ⟨rfl, rfl, rfl, rfl⟩

theorem cancelMarkState_keepsTime (mp : Mp) (s : State) : s.keepsTime (cancelMarkState mp s) := by
  refine State.takeCommand_keepsTime fun ws t out h => ?_
  obtain ⟨x, _, hx⟩ := (withParams_eq_taken_iff _ _ _ _).mp h
  unfold State.cancelById at hx
  split at hx
  · cases hx
  · split at hx <;> cases hx
    exact State.keepsTime.trans ⟨rfl, rfl, rfl, rfl⟩ (State.handOutcome_keepsTime _ _)

theorem takeOutcomesState_keepsTime (mp : Mp) (s : State) : s.keepsTime (takeOutcomesState mp s) := by
  refine State.takeCommand_keepsTime fun ws t out h => ?_
  cases h
  exact ⟨rfl, rfl, rfl, rfl⟩

/-! ### The network ports and the client table (chapters 7 and 8) -/

theorem linkUpState_onlyNetwork (p : NetId) (s : State) : s.onlyNetwork (linkUpState p s) :=
  State.onlyNetwork_setNetPort _ _ _

theorem linkDownState_onlyNetwork (p : NetId) (s : State) : s.onlyNetwork (linkDownState p s) :=
  State.onlyNetwork_setNetPort _ _ _

theorem State.onlyNetwork_ports (s : State) (x : Two NetPort) :
    s.onlyNetwork { s with net := { s.net with ports := x } } :=
  ⟨rfl, rfl, rfl, rfl, rfl, rfl, rfl, rfl, rfl, rfl, rfl⟩

theorem beaconDueState_onlyNetwork (s : State) : s.onlyNetwork (beaconDueState s) := by
  refine State.unlessHeld_induct s.onlyNetwork_refl ?_
  exact s.onlyNetwork_ports _

theorem transmitEndState_onlyNetwork (p : NetId) (s : State) : s.onlyNetwork (transmitEndState p s) := by
  refine State.unlessHeld_induct s.onlyNetwork_refl ?_
  dsimp only
  split
  · exact s.onlyNetwork_refl
  · exact State.onlyNetwork_setNetPort _ _ _
  · exact State.onlyNetwork_setNetPort _ _ _

theorem askTimingPointState_onlyNetwork (p : NetId) (s : State) : s.onlyNetwork (askTimingPointState p s) := by
  refine State.unlessHeld_induct s.onlyNetwork_refl ?_
  dsimp only
  split
  · exact State.onlyNetwork_setNetPort _ _ _
  · exact s.onlyNetwork_refl

theorem State.count_onlyNetwork (s : State) (p : NetId) (f : PortCounters → PortCounters) :
    s.onlyNetwork (s.count p f) := State.onlyNetwork_setNetPort _ _ _

theorem State.arriveCandidate_onlyNetwork (s : State) (p : NetId) (f : RxFrame) (r : Reception) :
    s.onlyNetwork (s.arriveCandidate p f r) := by
  unfold State.arriveCandidate
  split
  · exact s.count_onlyNetwork p _
  · split
    · exact s.count_onlyNetwork p _
    · split_ifs
      · exact s.count_onlyNetwork p _
      · exact s.count_onlyNetwork p _
      · exact s.handleAsk_onlyNetwork p _ _ r

theorem askArrivalState_onlyNetwork (p : NetId) (f : RxFrame) (s : State) : s.onlyNetwork (askArrivalState p f s) := by
  refine State.unlessHeld_induct s.onlyNetwork_refl ?_
  dsimp only
  split
  · exact s.onlyNetwork_refl
  · rename_i r _
    refine (State.onlyNetwork_setNetPort s p { s.netPort p with reception := none }).trans ?_
    split_ifs
    · exact State.count_onlyNetwork _ p _
    · exact State.arriveCandidate_onlyNetwork _ p f _
    · exact State.onlyNetwork_refl _

theorem idleCheckState_onlyNetwork (s : State) : s.onlyNetwork (idleCheckState s) := by
  refine State.unlessHeld_induct s.onlyNetwork_refl ?_
  dsimp only
  split
  · split
    · exact (State.onlyNetwork_clients s _).trans (State.onlyNetwork_post _ _)
    · exact State.onlyNetwork_clients s _
  · exact s.onlyNetwork_refl

theorem setNetworkState_keepsTime (mp : Mp) (s : State) : s.keepsTime (setNetworkState mp s) := by
  refine State.takeCommand_keepsTime fun ws t out h => ?_
  obtain ⟨x, _, hx⟩ := (withParams_eq_taken_iff _ _ _ _).mp h
  cases hx
  exact ⟨rfl, rfl, rfl, rfl⟩

theorem forgetClientState_keepsTime (mp : Mp) (s : State) : s.keepsTime (forgetClientState mp s) := by
  refine State.takeCommand_keepsTime fun ws t out h => ?_
  obtain ⟨x, _, hx⟩ := (withParams_eq_taken_iff _ _ _ _).mp h
  unfold State.forgetClient at hx
  split at hx <;> cases hx
  exact (State.onlyNetwork_clients s _).keepsTime

theorem networkClearState_keepsTime (mp : Mp) (s : State) : s.keepsTime (networkClearState mp s) := by
  refine State.takeCommand_keepsTime fun ws t out h => ?_
  cases h
  exact ⟨rfl, rfl, rfl, rfl⟩

/-! ### The master ports (chapter 9) -/

theorem unknownCommandState_keepsTime (mp : Mp) (s : State) : s.keepsTime (unknownCommandState mp s) := by
  refine State.unlessHeld_induct s.keepsTime_refl ?_
  split
  · exact s.keepsTime_refl
  · split
    · exact s.keepsTime_refl
    · exact s.finish_keepsTime _ _ _

theorem transactionBeginState_keepsTime (mp : Mp) (s : State) : s.keepsTime (transactionBeginState mp s) :=
  State.unlessHeld_induct s.keepsTime_refl (s.setPort_keepsTime _ _)

theorem writeParamsState_keepsTime (mp : Mp) (rest : List Byte) (s : State) : s.keepsTime (writeParamsState mp rest s) := by
  refine State.endTransaction_keepsTime fun _ t => ?_
  split
  · exact t.keepsTime_refl
  · exact t.setPort_keepsTime _ _

theorem postState_keepsTime (mp : Mp) (rest : List Byte) (s : State) : s.keepsTime (postState mp rest s) := by
  refine State.endTransaction_keepsTime fun _ t => ?_
  split
  · exact t.keepsTime_refl
  · exact t.setPort_keepsTime _ _

theorem readResultState_keepsTime (mp : Mp) (len : Nat) (s : State) : s.keepsTime (readResultState mp len s) := by
  refine State.endTransaction_keepsTime fun _ t => ?_
  dsimp only
  split
  · exact t.setPort_keepsTime _ _
  · exact t.keepsTime_refl

theorem readStateState_keepsTime (mp : Mp) (len : Nat) (s : State) : s.keepsTime (readStateState mp len s) :=
  State.endTransaction_keepsTime fun _ t => t.keepsTime_refl

theorem senseState_keepsTime (mp : Mp) (rest : List Byte) (s : State) : s.keepsTime (senseState mp rest s) := by
  refine State.endTransaction_keepsTime fun _ t => ?_
  split
  · exact t.setPort_keepsTime _ _
  · exact t.keepsTime_refl

theorem readErrorsState_keepsTime (mp : Mp) (len : Nat) (s : State) : s.keepsTime (readErrorsState mp len s) :=
  State.endTransaction_keepsTime fun _ t => t.setPort_keepsTime _ _

theorem State.endClaim_keepsTime (s : State) : s.keepsTime s.endClaim := ⟨rfl, rfl, rfl, rfl⟩

theorem portClearState_keepsTime (mp : Mp) (len : Nat) (s : State) : s.keepsTime (portClearState mp len s) := by
  refine State.endTransaction_keepsTime fun _ t => ?_
  dsimp only
  split <;> exact ⟨rfl, rfl, rfl, rfl⟩

theorem unknownTransactionState_keepsTime (mp : Mp) (code : Byte) (s : State) :
    s.keepsTime (unknownTransactionState mp code s) := by
  unfold unknownTransactionState
  split
  · exact s.keepsTime_refl
  · exact State.endTransaction_keepsTime fun _ t => t.setPort_keepsTime _ _

theorem claimState_keepsTime (mp : Mp) (s : State) : s.keepsTime (claimState mp s) := by
  refine State.takeCommand_keepsTime fun ws t out h => ?_
  obtain ⟨x, _, hx⟩ := (withParams_eq_taken_iff _ _ _ _).mp h
  dsimp only at hx
  split at hx
  · cases hx
    exact ⟨rfl, rfl, rfl, rfl⟩
  · split at hx <;> cases hx
    exact ⟨rfl, rfl, rfl, rfl⟩

theorem releaseState_keepsTime (mp : Mp) (s : State) : s.keepsTime (releaseState mp s) := by
  refine State.takeCommand_keepsTime fun ws t out h => ?_
  unfold releaseAct at h
  split at h <;> cases h
  exact s.endClaim_keepsTime

theorem leaseExpiryState_keepsTime (s : State) : s.keepsTime (leaseExpiryState s) := by
  refine State.unlessHeld_induct s.keepsTime_refl ?_
  split
  · exact s.keepsTime_refl
  · split
    · exact s.endClaim_keepsTime
    · exact s.keepsTime_refl

theorem setEventMaskState_keepsTime (mp : Mp) (s : State) : s.keepsTime (setEventMaskState mp s) := by
  refine State.takeCommand_keepsTime fun ws t out h => ?_
  cases h
  exact s.setPort_keepsTime _ _

theorem State.readTable_keepsTime {s t : State} {mp : Mp} {c : Cursor} {out : List Word}
    (h : s.readTable mp c = .taken t out) : s.keepsTime t := by
  cases h
  exact s.setPort_keepsTime _ _

theorem readTableState_keepsTime (mp : Mp) (s : State) : s.keepsTime (readTableState mp s) := by
  refine State.takeCommand_keepsTime fun ws t out h => ?_
  obtain ⟨x, _, hx⟩ := (withParams_eq_taken_iff _ _ _ _).mp h
  exact State.readTable_keepsTime hx

theorem readMoreState_keepsTime (mp : Mp) (s : State) : s.keepsTime (readMoreState mp s) := by
  refine State.takeCommand_keepsTime fun ws t out h => ?_
  unfold readMoreAct at h
  split at h
  · cases h
  · exact State.readTable_keepsTime h

end Sys2Proof.Machine
end

section
/-! SUPPORT. What every command makes of the timescale unit: each operation that reaches it keeps it legal (R1 to R16). -/

namespace Sys2Proof.Machine

open Sys2Proof

/-! ### Updates of the timescale unit that keep it legal -/

theorem TimescaleUnit.wf_time {ts : TimescaleUnit} {t : TimeValue} {rem : Nat} (h : ts.wf) (ht : t.wf)
    (hrem : rem < Config.pptOne) (from' : Option Instant) :
    { ts with time := t, rem := rem, reachedFrom := from' }.wf := by
  obtain ⟨_, _, hrate, htick, hutc, hlocal, hlimit, hslew, hleap⟩ := h
  exact ⟨ht, hrem, hrate, htick, hutc, hlocal, hlimit, hslew, hleap⟩

theorem TimescaleUnit.wf_rate {ts : TimescaleUnit} {rate : Int} (h : ts.wf)
    (hr : -200000000 ≤ rate ∧ rate ≤ 200000000) : { ts with rate := rate }.wf := by
  obtain ⟨htime, hrem, _, htick, hutc, hlocal, hlimit, hslew, hleap⟩ := h
  exact ⟨htime, hrem, hr, htick, hutc, hlocal, hlimit, hslew, hleap⟩

theorem TimescaleUnit.wf_slewLimit {ts : TimescaleUnit} {limit : Nat} (h : ts.wf) (hl : 1 ≤ limit ∧ limit ≤ 500) :
    { ts with slewLimit := limit }.wf := by
  obtain ⟨htime, hrem, hrate, htick, hutc, hlocal, _, hslew, hleap⟩ := h
  exact ⟨htime, hrem, hrate, htick, hutc, hlocal, hl, hslew, hleap⟩

theorem TimescaleUnit.wf_localOffset {ts : TimescaleUnit} {x : Int} (h : ts.wf) (hx : -48 ≤ x ∧ x ≤ 56) :
    { ts with localOffset := x }.wf := by
  obtain ⟨htime, hrem, hrate, htick, hutc, _, hlimit, hslew, hleap⟩ := h
  exact ⟨htime, hrem, hrate, htick, hutc, hx, hlimit, hslew, hleap⟩

theorem TimescaleUnit.wf_slew {ts : TimescaleUnit} {slew : Option Slew} (h : ts.wf) (hs : ∀ w ∈ slew, w.wf)
    (last : Option LastSlew) : { ts with slew := slew, lastSlew := last }.wf := by
  obtain ⟨htime, hrem, hrate, htick, hutc, hlocal, hlimit, _, hleap⟩ := h
  exact ⟨htime, hrem, hrate, htick, hutc, hlocal, hlimit, hs, hleap⟩

theorem TimescaleUnit.wf_lastStep {ts : TimescaleUnit} (h : ts.wf) (last : Option LastStep) :
    { ts with lastStep := last }.wf := h

theorem TimescaleUnit.wf_leap {ts : TimescaleUnit} {u : Nat} {leap : Option Leap} (h : ts.wf) (hu : u ≤ 255)
    (hl : ∀ r ∈ leap, r.wf u) : { ts with utcOffset := u, leap := leap }.wf := by
  obtain ⟨htime, hrem, hrate, htick, _, hlocal, hlimit, hslew, _⟩ := h
  exact ⟨htime, hrem, hrate, htick, hu, hlocal, hlimit, hslew, hl⟩

/-- An instant in range is a timescale value in range (R1). -/
theorem TimeValue.ofNs_wf {n frac : Nat} (hn : n < Config.nsRange) (hf : frac < Config.fracRange) :
    (TimeValue.ofNs n frac).wf := by
  have hsec : n / 1000000000 < 281474976710656 := by
    simp only [Config.nsRange, Config.secRange, Config.nsPerSec] at hn
    omega
  exact ⟨hsec, Nat.mod_lt _ (by decide), hf⟩

theorem nextTickCount_lt (n : Nat) : nextTickCount n < Config.tickRange := by
  unfold nextTickCount
  split
  · assumption
  · exact Nat.mod_lt _ (by decide)

/-- A slew keeps its sign and stays within its amount as a tick takes its part (R9). -/
theorem Slew.wf_tick {w : Slew} (h : w.wf) (limit : Nat) :
    { w with residual := w.residual - slewAdvance limit w.residual }.wf := by
  obtain ⟨hlow, hhigh, hpos, hneg⟩ := h
  obtain ⟨hup, hdown⟩ := slewAdvance_within limit w.residual
  refine ⟨hlow, hhigh, fun hr => ?_, fun hr => ?_⟩ <;> dsimp only at hr ⊢
  · have := hpos hr
    have := hup this.1
    omega
  · have := hneg hr
    have := hdown this.2
    omega

/-- A slew just begun is legal for an amount in its range (R8). -/
theorem Slew.wf_begin {amount : Int} (h : 1 ≤ amount.natAbs ∧ amount.natAbs ≤ Config.nsPerSec) (origin : Origin)
    (start : TimeValue) : Slew.wf ⟨origin, amount, amount * finePerNs, start⟩ := by
  have hf : (0 : Int) ≤ (finePerNs : Int) := Int.natCast_nonneg _
  refine ⟨h.1, h.2, fun hr => ⟨?_, le_refl _⟩, fun hr => ⟨le_refl _, ?_⟩⟩
  · exact Int.mul_nonneg (le_of_lt hr) hf
  · exact Int.mul_nonpos_of_nonpos_of_nonneg (le_of_lt hr) hf

theorem TimescaleUnit.wf_tick {ts : TimescaleUnit} (h : ts.wf) : ts.tick.wf := by
  obtain ⟨htime, hrem⟩ := ts.advanceBy_wf ts.advance
  obtain ⟨_, _, hrate, _, hutc, hlocal, hlimit, hslew, hleap⟩ := h
  refine ⟨htime, hrem, hrate, nextTickCount_lt _, hutc, hlocal, hlimit, fun w hw => ?_, hleap⟩
  obtain ⟨v, hv, rfl⟩ := Option.map_eq_some_iff.mp hw
  exact Slew.wf_tick (hslew v hv) ts.slewLimit

/-! ### Operations that keep the timescale unit legal -/

/-- `t` has the queue of `s`, and is legal as far as the timescale unit goes where `s` is. -/
def State.timeSafe (s t : State) : Prop := t.pending = s.pending ∧ (s.timeWf → t.timeWf)

theorem State.timeSafe_refl (s : State) : s.timeSafe s := ⟨rfl, id⟩

theorem State.timeSafe.trans {s t u : State} (h : s.timeSafe t) (k : t.timeSafe u) : s.timeSafe u :=
  ⟨k.1.trans h.1, k.2 ∘ h.2⟩

theorem State.timeSafe_ite {s t u : State} (p : Prop) [Decidable p] (ht : s.timeSafe t) (hu : s.timeSafe u) :
    s.timeSafe (if p then t else u) := by
  split
  · exact ht
  · exact hu

theorem State.keepsTime.timeSafe {s t : State} (h : s.keepsTime t) : s.timeSafe t := by
  obtain ⟨hp, ht, hi, hs⟩ := h
  refine ⟨hp, fun hw => ?_⟩
  rw [State.timeWf, ht, hi, hs]
  exact hw

theorem State.setTs_timeSafe {s : State} {ts : TimescaleUnit} (h : s.timeWf → ts.wf) : s.timeSafe (s.setTs ts) :=
  ⟨rfl, fun hw => ⟨h hw, hw.2⟩⟩

theorem State.setEngine_timeSafe {s : State} {e : Engine}
    (h : s.timeWf → (-200000000 ≤ e.integral ∧ e.integral ≤ 200000000) ∧ 1000 ≤ e.settings.threshold) :
    s.timeSafe (s.setEngine e) :=
  ⟨rfl, fun hw => ⟨hw.1, h hw⟩⟩

/-- An engine with another loop state but the same integral term and settings. -/
theorem State.setEngine_keepsTime {s : State} {e : Engine} (hi : e.integral = s.engine.integral)
    (hs : e.settings = s.engine.settings) : s.keepsTime (s.setEngine e) := ⟨rfl, rfl, hi, hs⟩

theorem State.post_timeSafe (s : State) (e : Event) : s.timeSafe (s.post e) := (s.post_keepsTime e).timeSafe

/-- A command whose taking keeps the unit legal keeps it so. -/
theorem State.takeCommand_timeSafe {s : State} {mp : Mp} {row : CommandRow} {act : List Word → State → Judged}
    (h : ∀ ws t out, act ws s = .taken t out → s.timeSafe t) : s.timeSafe (s.takeCommand mp row act) :=
  State.takeCommand_induct s.timeSafe_refl (fun t code ws ht => ht.trans (t.finish_keepsTime mp code ws).timeSafe) h

/-! ### Slews and leap records -/

theorem State.endSlew_timeSafe (s : State) (w : Slew) (outcome : SlewOutcome) : s.timeSafe (s.endSlew w outcome) :=
  (State.setTs_timeSafe fun h => TimescaleUnit.wf_slew h.1 (by simp) _).trans (State.post_timeSafe _ _)

theorem State.cancelSlew_timeSafe (s : State) (named : Origin → Bool) : s.timeSafe (s.cancelSlew named) := by
  rcases s.cancelSlew_cases named with ⟨h, _⟩ | ⟨w, _, _, h⟩ <;> rw [h]
  · exact s.timeSafe_refl
  · exact s.endSlew_timeSafe w _

theorem State.beginSlew_timeSafe {s : State} {amount : Int}
    (h : s.timeWf → 1 ≤ amount.natAbs ∧ amount.natAbs ≤ Config.nsPerSec) (origin : Origin) :
    s.timeSafe (s.beginSlew origin amount) := by
  refine State.setTs_timeSafe fun hw => TimescaleUnit.wf_slew hw.1 (fun w hm => ?_) _
  cases hm
  exact Slew.wf_begin (h hw) origin s.ts.time

/-- The leap that a record stands for finds room for its change of utc_offset (R6, R16). -/
theorem State.applyLeap_timeSafe {s : State} {r : Leap} (h : s.ts.leap = some r) :
    s.timeSafe (s.applyLeap r.kind) := by
  refine State.timeSafe.trans (State.setTs_timeSafe fun hw => ?_) (State.post_timeSafe _ _)
  have hts := hw.1
  obtain ⟨_, _, _, _, hutc, _, _, _, hleap⟩ := hts
  obtain ⟨_, hins, _⟩ := hleap r (by rw [h]; rfl)
  refine TimescaleUnit.wf_leap hw.1 ?_ (by simp)
  cases hk : r.kind with
  | insert =>
    have := hins hk
    dsimp only
    omega
  | delete =>
    dsimp only
    omega

theorem State.setLeapPhase_timeSafe {s : State} {r : Leap} {phase : LeapPhase} (h : s.ts.leap = some r)
    (hp : r.kind = .delete → phase = .pending) : s.timeSafe (s.setLeapPhase r phase) := by
  refine State.setTs_timeSafe fun hw => ?_
  have hts := hw.1
  obtain ⟨_, _, _, _, hutc, _, _, _, hleap⟩ := hts
  obtain ⟨hday, hins, hdel⟩ := hleap r (by rw [h]; rfl)
  refine TimescaleUnit.wf_leap hw.1 hutc (fun x hx => ?_)
  cases hx
  exact ⟨hday, hins, fun hk => ⟨(hdel hk).1, hp hk⟩⟩

theorem State.alignLeap_timeSafe (s : State) : s.timeSafe s.alignLeap := by
  rcases s.alignLeap_cases with ⟨_, h⟩ | ⟨r, hr, ⟨phase, h, hp⟩ | h⟩ <;> rw [h]
  · exact s.timeSafe_refl
  · exact State.setLeapPhase_timeSafe hr hp
  · exact State.applyLeap_timeSafe hr

/-- The range checks of SET_LEAP on an INSERT (R24). -/
theorem TimescaleUnit.leapInRange_insert_iff (ts : TimescaleUnit) (d : Int) :
    ts.leapInRange .insert d = true ↔ d % 86400 = 0 ∧ ts.utcCount < d ∧ ts.utcOffset ≠ 255 := by
  simp only [TimescaleUnit.leapInRange, Bool.and_eq_true, decide_eq_true_eq, and_assoc]

/-- The range checks of SET_LEAP on a DELETE (R24). -/
theorem TimescaleUnit.leapInRange_delete_iff (ts : TimescaleUnit) (d : Int) :
    ts.leapInRange .delete d = true ↔ d % 86400 = 0 ∧ ts.utcCount < d - 1 ∧ ts.utcOffset ≠ 0 := by
  simp only [TimescaleUnit.leapInRange, Bool.and_eq_true, decide_eq_true_eq]
  omega

/-- utc_offset leaves room for the change that a leap record stands for (R18, R25). -/
theorem TimescaleUnit.leapHasNoRoom_eq_false_iff (ts : TimescaleUnit) (r : Leap) :
    ts.leapHasNoRoom r = false ↔ (r.kind = .insert → ts.utcOffset ≠ 255) ∧ (r.kind = .delete → ts.utcOffset ≠ 0) := by
  unfold TimescaleUnit.leapHasNoRoom
  cases r.kind <;> simp

/-- With utc_offset just written, an announcement writes the leap record alone (R18). -/
theorem State.takeAnnouncement_eq (s : State) (r : RefId) (u : Nat) (a : Announcement) :
    (s.setTs { s.ts with utcOffset := u }).takeAnnouncement r a =
      s.setTs { s.ts with utcOffset := u, leap := s.announced r u a } := by
  cases a with
  | none =>
    cases hl : s.ts.leap with
    | none => simp [State.takeAnnouncement, State.announced, State.setTs, hl]
    | some old =>
      by_cases ho : old.source = .ref r <;> simp [State.takeAnnouncement, State.announced, State.setTs, hl, ho]
  | insert d =>
    simp only [State.takeAnnouncement, State.announced, State.ts_setTs, TimescaleUnit.leapInRange_insert_iff,
      TimescaleUnit.utcCount]
    split <;> rfl
  | delete d =>
    simp only [State.takeAnnouncement, State.announced, State.ts_setTs, TimescaleUnit.leapInRange_delete_iff,
      TimescaleUnit.utcCount]
    split <;> rfl

/-- A leap record left by an announcement is legal but for the room that utc_offset leaves it (R15, R18). -/
theorem State.announced_legal {s : State} (hw : s.ts.wf) {r : RefId} {u : Nat} {a : Announcement} {x : Leap}
    (h : x ∈ s.announced r u a) : x.dayEnd % 86400 = 0 ∧ (x.kind = .delete → x.phase = .pending) := by
  obtain ⟨_, _, _, _, _, _, _, _, hleap⟩ := hw
  have old : ∀ y ∈ s.ts.leap, y.dayEnd % 86400 = 0 ∧ (y.kind = .delete → y.phase = .pending) := fun y hy =>
    ⟨(hleap y hy).1, fun hk => ((hleap y hy).2.2 hk).2⟩
  cases a with
  | none =>
    simp only [State.announced] at h
    split at h
    · cases h
    · exact old x h
  | insert d =>
    simp only [State.announced] at h
    split at h
    · rename_i hc
      cases h
      exact ⟨hc.1, fun hk => by cases hk⟩
    · exact old x h
  | delete d =>
    simp only [State.announced] at h
    split at h
    · rename_i hc
      cases h
      exact ⟨hc.1, fun _ => rfl⟩
    · exact old x h

/-- What is left of a leap record where one without room is removed (R18). -/
theorem State.dropLeapWithoutRoom_eq (s : State) :
    s.dropLeapWithoutRoom =
      s.setTs { s.ts with leap := s.ts.leap.filter fun r => !s.ts.leapHasNoRoom r } := by
  have hsame (leap : Option Leap) (h : leap = s.ts.leap) : s = s.setTs { s.ts with leap := leap } := by rw [h]; rfl
  unfold State.dropLeapWithoutRoom
  cases hl : s.ts.leap with
  | none => exact hsame _ (by rw [hl, Option.filter_none])
  | some r =>
    cases hn : s.ts.leapHasNoRoom r with
    | true => simp [Option.filter, hn]
    | false => simpa [Option.filter, hn] using hsame _ hl.symm

/-- The update from a message keeps the unit legal: a record that the new offset leaves no room for is removed (R18). -/
theorem State.leapUpdate_timeSafe (s : State) (r : RefId) {m : Message} (hm : m.utcOffset ≤ 255) :
    s.timeSafe (s.leapUpdate r m) := by
  unfold State.leapUpdate
  split
  · exact s.timeSafe_refl
  · rw [State.takeAnnouncement_eq, State.dropLeapWithoutRoom_eq]
    refine State.timeSafe.trans ?_ (State.alignLeap_timeSafe _)
    refine ⟨rfl, fun hw => ⟨?_, hw.2⟩⟩
    refine TimescaleUnit.wf_leap (ts := s.ts) hw.1 hm fun x hx => ?_
    obtain ⟨hx, hroom⟩ := Option.mem_filter_iff.mp hx
    obtain ⟨hday, hphase⟩ := State.announced_legal hw.1 hx
    obtain ⟨hins, hdel⟩ := (TimescaleUnit.leapHasNoRoom_eq_false_iff _ x).mp (by simpa using hroom)
    refine ⟨hday, fun hk => ?_, fun hk => ⟨Nat.pos_of_ne_zero (hdel hk), hphase hk⟩⟩
    exact Nat.le_of_lt_succ (lt_of_le_of_ne hm (hins hk))

/-! ### Steps -/

theorem State.stepTarget_lt {s : State} {amount : Int} {new : Instant} (h : s.stepTarget amount = some new) :
    new < Config.nsRange := by
  unfold State.stepTarget at h
  dsimp only at h
  split at h <;> cases h
  rename_i hc
  exact (Int.toNat_lt hc.1).mpr hc.2

theorem State.stepUnit_timeSafe (s : State) (src : Origin) {new : Instant} (hn : new < Config.nsRange)
    (clearFrac : Bool) : s.timeSafe (s.stepUnit src new clearFrac) := by
  unfold State.stepUnit
  refine State.timeSafe.trans ?_ (State.post_timeSafe _ _)
  refine State.timeSafe.trans ?_ (State.setTs_timeSafe fun h => TimescaleUnit.wf_lastStep h.1 _)
  refine State.timeSafe.trans ?_ (State.alignLeap_timeSafe _)
  refine State.timeSafe.trans ?_ (State.cancelSlew_timeSafe _ _)
  refine State.setTs_timeSafe fun h => TimescaleUnit.wf_time h.1 ?_ ?_ _
  · refine TimeValue.ofNs_wf hn ?_
    split
    · decide
    · exact h.1.1.2.2
  · split
    · decide
    · exact h.1.2.1

theorem State.stepTo_timeSafe (s : State) (src : Origin) {new : Instant} (hn : new < Config.nsRange)
    (clearFrac : Bool) : s.timeSafe (s.stepTo src new clearFrac) := by
  refine ⟨by rw [State.stepTo_frame], fun hw => ?_⟩
  obtain ⟨hts, _⟩ := (s.stepUnit_timeSafe src hn clearFrac).2 hw
  rw [State.stepTo_frame]
  exact ⟨hts, hw.2⟩

/-! ### The engine -/

theorem State.setUncertainty_keepsTime (s : State) (ps : Nat) : s.keepsTime (s.setUncertainty ps) := by
  rcases s.setUncertainty_cases ps with ⟨_, h⟩ | ⟨_, h⟩ <;> rw [h] <;> exact ⟨rfl, rfl, rfl, rfl⟩

theorem State.enterState_keepsTime (s : State) (st : EngineState) : s.keepsTime (s.enterState st) :=
  ⟨rfl, rfl, rfl, rfl⟩

theorem State.select_keepsTime (s : State) (sel : Option RefId) : s.keepsTime (s.select sel) := ⟨rfl, rfl, rfl, rfl⟩

theorem State.clearLockRun_keepsTime (s : State) : s.keepsTime s.clearLockRun := ⟨rfl, rfl, rfl, rfl⟩

theorem State.reanchor_keepsTime (s : State) : s.keepsTime s.reanchor := ⟨rfl, rfl, rfl, rfl⟩

theorem State.acquiringUncertainty_keepsTime (s : State) : s.keepsTime s.acquiringUncertainty := by
  unfold State.acquiringUncertainty
  split
  · exact State.keepsTime.trans ⟨rfl, rfl, rfl, rfl⟩ (State.setUncertainty_keepsTime _ _)
  · exact s.reanchor_keepsTime

/-- A rate correction within 200 ppm (R3). -/
theorem State.writeRate_timeSafe {s : State} {rate : Int}
    (h : s.timeWf → -200000000 ≤ rate ∧ rate ≤ 200000000) : s.timeSafe (s.writeRate rate) :=
  State.setTs_timeSafe fun hw => TimescaleUnit.wf_rate hw.1 (h hw)

theorem State.enterAcquiring_timeSafe (s : State) : s.timeSafe s.enterAcquiring :=
  (((s.acquiringUncertainty_keepsTime.trans (State.clearLockRun_keepsTime _)).timeSafe.trans
    (State.cancelSlew_timeSafe _ _))).trans (State.enterState_keepsTime _ _).timeSafe

theorem State.enterHoldover_timeSafe (s : State) : s.timeSafe s.enterHoldover := by
  unfold State.enterHoldover
  refine State.timeSafe.trans ?_ (State.enterState_keepsTime _ _).timeSafe
  refine State.timeSafe.trans ?_ (State.cancelSlew_timeSafe _ _)
  refine (s.reanchor_keepsTime.trans (State.clearLockRun_keepsTime _)).timeSafe.trans ?_
  exact State.writeRate_timeSafe fun hw => hw.2.1

theorem State.reevaluate_timeSafe (s : State) : s.timeSafe s.reevaluate := by
  rcases s.reevaluate_cases with h | ⟨r, _, h⟩ | ⟨_, h⟩ <;> rw [h]
  · exact s.timeSafe_refl
  · exact (s.select_keepsTime _).timeSafe.trans (State.enterAcquiring_timeSafe _)
  · exact (s.select_keepsTime _).timeSafe.trans (State.enterHoldover_timeSafe _)

theorem clampInt_within {lo hi : Int} (h : lo ≤ hi) (x : Int) : lo ≤ clampInt lo hi x ∧ clampInt lo hi x ≤ hi := by
  unfold clampInt
  split_ifs <;> omega

/-- The loop update holds the integral term and the rate to 200 ppm (R62). -/
theorem State.loopUpdate_timeSafe (s : State) (x : Int) : s.timeSafe (s.loopUpdate x) :=
  State.timeSafe.trans
    (State.setEngine_timeSafe (e := { s.engine with integral := loopIntegral _ _ _ }) fun hw =>
      ⟨clampInt_within (lo := -200000000) (hi := 200000000) (by norm_num) _, hw.2.2⟩)
    (State.writeRate_timeSafe fun _ => clampInt_within (lo := -200000000) (hi := 200000000) (by norm_num) _)

theorem State.lockTest_keepsTime (s : State) (x : Int) (a : Nat) : s.keepsTime (s.lockTest x a) := by
  unfold State.lockTest
  dsimp only
  split
  · refine State.keepsTime.trans ?_ (State.enterState_keepsTime _ _)
    exact State.keepsTime.trans ⟨rfl, rfl, rfl, rfl⟩ (State.setUncertainty_keepsTime _ _)
  · exact ⟨rfl, rfl, rfl, rfl⟩

/-- What the initial step sets besides the step: U, the initial-step flag and the run (R59). -/
theorem State.initialStepSet_timeSafe (t : State) (ps : Nat) :
    t.timeSafe ((t.setUncertainty ps).setEngine
      { (t.setUncertainty ps).engine with initialStep := false, goodRun := 0 }) :=
  ((t.setUncertainty_keepsTime ps).trans (State.setEngine_keepsTime rfl rfl)).timeSafe

theorem State.initialStepOn_timeSafe (s : State) (x : Int) (a : Nat) : s.timeSafe (s.initialStepOn x a) := by
  unfold State.initialStepOn
  split
  · exact s.timeSafe_refl
  · rename_i new hn
    exact (s.stepTo_timeSafe .engine (State.stepTarget_lt hn) false).trans (State.initialStepSet_timeSafe _ _)

theorem State.autoStepOn_timeSafe (s : State) (x : Int) : s.timeSafe (s.autoStepOn x) := by
  unfold State.autoStepOn
  split
  · exact s.timeSafe_refl
  · rename_i new hn
    refine (s.stepTo_timeSafe .engine (State.stepTarget_lt hn) false).trans ?_
    exact (State.setEngine_keepsTime rfl rfl).timeSafe

/-- An engine slew answers an offset of the threshold at least, which is not 0, and of 1 s at most (R60). -/
theorem State.engineSlewOn_timeSafe {s : State} {x : Int} (hlow : s.engine.settings.threshold ≤ x.natAbs)
    (hhigh : x.natAbs ≤ Config.nsPerSec) : s.timeSafe (s.engineSlewOn x) := by
  unfold State.engineSlewOn
  dsimp only
  have hrun : s.timeSafe (s.setEngine { s.engine with goodRun := 0 }) := (State.setEngine_keepsTime rfl rfl).timeSafe
  split
  · exact hrun
  · refine ⟨rfl, fun hw => ?_⟩
    refine (State.beginSlew_timeSafe (fun _ => ?_) _).2 (hrun.2 hw)
    have := hw.2.2
    rw [Int.natAbs_neg]
    omega

theorem State.needStep_keepsTime (s : State) : s.keepsTime s.needStep := by
  unfold State.needStep
  dsimp only
  split <;> exact ⟨rfl, rfl, rfl, rfl⟩

theorem State.acquiringCorrection_timeSafe (s : State) (r : RefId) (x : Int) (a : Nat) :
    s.timeSafe (s.acquiringCorrection r x a).1 := by
  unfold State.acquiringCorrection
  dsimp only
  split_ifs with hignored hinitial hsmall hauto hslew
  · exact s.timeSafe_refl
  · exact s.initialStepOn_timeSafe x a
  · exact (s.loopUpdate_timeSafe x).trans (State.lockTest_keepsTime _ x a).timeSafe
  · exact s.autoStepOn_timeSafe x
  · exact State.engineSlewOn_timeSafe (Nat.not_lt.mp hsmall) hslew
  · exact s.needStep_keepsTime.timeSafe

theorem State.correct_timeSafe (s : State) (r : RefId) (x : Int) (a : Nat) : s.timeSafe (s.correct r x a).1 := by
  unfold State.correct
  split_ifs
  · exact s.timeSafe_refl
  · exact (s.loopUpdate_timeSafe x).trans (State.setUncertainty_keepsTime _ _).timeSafe
  · exact s.acquiringCorrection_timeSafe r x a

/-- A measurement used by the engine: its message's utc_offset is a byte (R18, 10.5). -/
theorem State.useMeasurement_timeSafe (s : State) (r : RefId) (x : Int) (a : Nat) {m : Option Message}
    (hm : ∀ y ∈ m, y.utcOffset ≤ 255) : s.timeSafe (s.useMeasurement r x a m) := by
  unfold State.useMeasurement
  split
  · refine State.timeSafe.trans ?_ (State.setEngine_keepsTime rfl rfl).timeSafe
    refine State.timeSafe.trans ?_ (State.correct_timeSafe _ r x a)
    cases m with
    | none => exact s.timeSafe_refl
    | some y => exact s.leapUpdate_timeSafe r (hm y rfl)
  · exact s.timeSafe_refl

/-! ### The reference inputs -/

theorem State.disqualify_timeSafe (s : State) (r : RefId) (x : Reference) : s.timeSafe (s.disqualify r x) :=
  (s.refEntered_keepsTime r _).timeSafe.trans (State.reevaluate_timeSafe _)

theorem State.refLeavesFor_timeSafe (s : State) (r : RefId) (x : Reference) (st : RefState) :
    s.timeSafe (s.refLeavesFor r x st) := by
  have h := (s.refEntered_keepsTime r { x.cleared with state := st }).timeSafe
  unfold State.refLeavesFor
  dsimp only
  split
  · exact h.trans (State.reevaluate_timeSafe _)
  · exact h

theorem State.refFailed_timeSafe (s : State) (r : RefId) (x : Reference) (count : Nat) :
    s.timeSafe (s.refFailed r x count) := by
  have h (y : Reference) : s.timeSafe (s.setRef r y) := (s.setRef_keepsTime r y).timeSafe
  unfold State.refFailed
  split
  · exact h _
  · split
    · exact s.disqualify_timeSafe r x
    · exact h _
  all_goals exact h _

theorem State.missEdge_timeSafe (s : State) (r : RefId) : s.timeSafe (s.missEdge r) := by
  unfold State.missEdge
  dsimp only
  split
  · split
    · exact (s.refEntered_keepsTime r _).timeSafe
    · exact (s.setRef_keepsTime r _).timeSafe
  · split
    · exact s.disqualify_timeSafe r _
    · exact (s.setRef_keepsTime r _).timeSafe
  all_goals exact s.timeSafe_refl

theorem State.acceptEdge_timeSafe (s : State) (r : RefId) (x : Reference) : s.timeSafe (s.acceptEdge r x) := by
  unfold State.acceptEdge
  dsimp only
  split
  · exact (s.setRef_keepsTime r _).timeSafe
  · split
    · exact (s.setRef_keepsTime r _).timeSafe
    · exact s.refFailed_timeSafe r _ _

theorem State.windowEdge_timeSafe (s : State) (r : RefId) (x : Reference) : s.timeSafe (s.windowEdge r x) := by
  unfold State.windowEdge
  split
  · exact s.timeSafe_refl
  · split_ifs
    · exact (s.setRef_keepsTime r _).timeSafe
    · exact s.acceptEdge_timeSafe r x
    · exact s.timeSafe_refl

theorem State.seeEdge_timeSafe (s : State) (r : RefId) : s.timeSafe (s.seeEdge r) := by
  unfold State.seeEdge
  dsimp only
  split
  · exact s.timeSafe_refl
  · exact s.timeSafe_refl
  · exact (s.refEntered_keepsTime r _).timeSafe
  · exact s.windowEdge_timeSafe r _
  · exact s.windowEdge_timeSafe r _

theorem State.qualify_timeSafe (s : State) (r : RefId) (x : Reference) (offset : Int) :
    s.timeSafe (s.qualify r x offset) := by
  unfold State.qualify
  dsimp only
  refine State.timeSafe_ite _ ?_ ?_
  · exact (s.refEntered_keepsTime r _).timeSafe.trans (State.reevaluate_timeSafe _)
  · exact (s.setRef_keepsTime r _).timeSafe

theorem State.measureUsable_timeSafe (s : State) (r : RefId) (x : Reference) (offset : Int) (accuracy : Nat)
    {m : Option Message} (hm : ∀ y ∈ m, y.utcOffset ≤ 255) : s.timeSafe (s.measureUsable r x offset accuracy m) := by
  unfold State.measureUsable
  dsimp only
  split
  · exact s.disqualify_timeSafe r _
  · refine State.timeSafe.trans ?_ (State.useMeasurement_timeSafe _ r offset accuracy hm)
    split
    · exact (s.setRef_keepsTime r _).timeSafe
    · exact (s.setRef_keepsTime r _).timeSafe.trans (State.post_timeSafe _ _)

theorem State.measured_timeSafe (s : State) (r : RefId) (x : Reference) (c : Capture) (offset : Int) (accuracy : Nat)
    {m : Option Message} (fit : Bool) (hm : ∀ y ∈ m, y.utcOffset ≤ 255) :
    s.timeSafe (s.measured r x c offset accuracy m fit) := by
  have h (y : Reference) : s.timeSafe (s.setRef r y) := (s.setRef_keepsTime r y).timeSafe
  unfold State.measured
  dsimp only
  split
  · split
    · exact s.qualify_timeSafe r _ offset
    · exact h _
  · split
    · exact s.measureUsable_timeSafe r _ offset accuracy hm
    · exact s.disqualify_timeSafe r _
  all_goals exact h _

theorem State.badMessage_timeSafe (s : State) (r : RefId) (x : Reference) : s.timeSafe (s.badMessage r x) :=
  s.refFailed_timeSafe r _ _

theorem beNat_lt (bs : List Byte) : beNat bs < 256 ^ bs.length := by
  have walk : ∀ (bs : List Byte) (n : Nat),
      bs.foldl (fun n b => n * 256 + b.toNat) n < (n + 1) * 256 ^ bs.length := by
    intro bs
    induction bs with
    | nil => simp
    | cons b bs ih =>
      intro n
      have hb := b.isLt
      calc (b :: bs).foldl (fun n b => n * 256 + b.toNat) n
          < (n * 256 + b.toNat + 1) * 256 ^ bs.length := ih _
        _ ≤ ((n + 1) * 256) * 256 ^ bs.length := Nat.mul_le_mul_right _ (by omega)
        _ = (n + 1) * 256 ^ (b :: bs).length := by rw [List.length_cons, Nat.pow_succ]; ring
  simpa [beNat] using walk bs 0

/-- A message's utc_offset is one byte (10.5). -/
theorem messageOf_utcOffset_le {cs : List Byte} {m : Message} (h : messageOf cs = some m) : m.utcOffset ≤ 255 := by
  have hbyte : charsAt cs 9 1 < 256 ^ 1 := by
    refine (beNat_lt _).trans_le (Nat.pow_le_pow_right (by decide) ?_)
    exact List.length_take_le 1 _
  unfold messageOf at h
  dsimp only at h
  split at h
  · simp only [Option.bind_eq_bind, Option.bind_eq_some_iff] at h
    obtain ⟨⟨kind, top⟩, _, ann, _, h⟩ := h
    dsimp only at h
    split at h <;> cases h
    dsimp only
    omega
  · cases h

theorem Gather.decided_utcOffset_le {g : Gather} {c : Character} {m : Option Message}
    (h : g.receive c = .decided m) : ∀ y ∈ m, y.utcOffset ≤ 255 := by
  unfold Gather.receive at h
  split at h
  · split at h <;> cases h
  · dsimp only at h
    split_ifs at h
    all_goals cases h
    · simp
    · simp
    · exact fun y hy => messageOf_utcOffset_le hy

theorem State.arriveMessage_timeSafe (s : State) (r : RefId) {m : Option Message}
    (hm : ∀ y ∈ m, y.utcOffset ≤ 255) : s.timeSafe (s.arriveMessage r m) := by
  unfold State.arriveMessage
  dsimp only
  split
  · exact s.badMessage_timeSafe r _
  · unfold State.judgeMessage
    dsimp only
    split
    · exact s.badMessage_timeSafe r _
    · split
      · exact s.measured_timeSafe r _ _ _ _ _ hm
      · exact s.badMessage_timeSafe r _

theorem referenceEdgeState_timeSafe (r : RefId) (e : Edge) (s : State) : s.timeSafe (referenceEdgeState r e s) := by
  refine State.unlessHeld_induct s.timeSafe_refl ?_
  split
  · refine State.timeSafe.trans ?_ (State.seeEdge_timeSafe _ r)
    split
    · exact s.missEdge_timeSafe r
    · exact s.timeSafe_refl
  · exact s.timeSafe_refl

theorem missingEdgeExpiryState_timeSafe (r : RefId) (s : State) : s.timeSafe (missingEdgeExpiryState r s) := by
  refine State.unlessHeld_induct s.timeSafe_refl ?_
  split
  · exact s.missEdge_timeSafe r
  · exact s.timeSafe_refl

theorem messageCharacterState_timeSafe (r : RefId) (c : Character) (s : State) :
    s.timeSafe (messageCharacterState r c s) := by
  refine State.unlessHeld_induct s.timeSafe_refl ?_
  unfold State.receiveCharacter
  dsimp only
  split
  · split
    · exact s.timeSafe_refl
    · exact (s.setRef_keepsTime r _).timeSafe
    · rename_i m hm
      exact s.arriveMessage_timeSafe r (Gather.decided_utcOffset_le hm)
  · exact s.timeSafe_refl

theorem messageArrivalState_timeSafe (r : RefId) (c : Character) (s : State) :
    s.timeSafe (messageArrivalState r c s) := by
  refine State.unlessHeld_induct s.timeSafe_refl ?_
  dsimp only
  split
  · split
    · exact s.timeSafe_refl
    · exact s.timeSafe_refl
    · rename_i m hm
      exact s.arriveMessage_timeSafe r (Gather.decided_utcOffset_le hm)
  · exact s.timeSafe_refl

theorem settleExpiryState_timeSafe (r : RefId) (s : State) : s.timeSafe (settleExpiryState r s) := by
  refine State.unlessHeld_induct s.timeSafe_refl ?_
  dsimp only
  split
  · split
    · exact s.measured_timeSafe r _ _ _ _ _ (by simp)
    · exact s.timeSafe_refl
  · exact s.timeSafe_refl

theorem holdOffExpiryState_keepsTime (r : RefId) (s : State) : s.keepsTime (holdOffExpiryState r s) := by
  refine State.unlessHeld_induct s.keepsTime_refl ?_
  dsimp only
  split
  · exact s.keepsTime_refl
  · split
    · exact s.refEntered_keepsTime r _
    · exact s.keepsTime_refl

theorem State.changeReference_timeSafe (s : State) (r : RefId) (new : RefSettings) :
    s.timeSafe (s.changeReference r new) := by
  have retold (t : State) (p : Prop) [Decidable p] (h : s.timeSafe t) : s.timeSafe (if p then t.reevaluate else t) :=
    State.timeSafe_ite p (h.trans t.reevaluate_timeSafe) h
  unfold State.changeReference
  dsimp only
  split
  · exact retold _ _ (s.refLeavesFor_timeSafe r _ _)
  · exact retold _ _ (s.setRef_keepsTime r _).timeSafe

theorem setReferenceState_timeSafe (mp : Mp) (s : State) : s.timeSafe (setReferenceState mp s) := by
  refine State.takeCommand_timeSafe fun ws t out h => ?_
  obtain ⟨⟨r, new⟩, _, hx⟩ := (withParams_eq_taken_iff _ _ _ _).mp h
  cases hx
  exact s.changeReference_timeSafe r new

theorem readReferenceState_keepsTime (mp : Mp) (s : State) : s.keepsTime (readReferenceState mp s) := by
  refine State.read_keepsTime fun ws t out h => ?_
  obtain ⟨r, _, hx⟩ := (withParams_eq_taken_iff _ _ _ _).mp h
  cases hx
  rfl

theorem readPortState_keepsTime (mp : Mp) (s : State) : s.keepsTime (readPortState mp s) := by
  refine State.read_keepsTime fun ws t out h => ?_
  obtain ⟨p, _, hx⟩ := (withParams_eq_taken_iff _ _ _ _).mp h
  cases hx
  rfl

/-! ### The events and the commands of the timescale unit -/

theorem tickState_timeSafe (s : State) : s.timeSafe (tickState s) :=
  State.unlessHeld_induct s.timeSafe_refl (State.setTs_timeSafe fun h => TimescaleUnit.wf_tick h.1)

theorem slewCompletionState_timeSafe (s : State) : s.timeSafe (slewCompletionState s) := by
  refine State.unlessHeld_induct s.timeSafe_refl ?_
  split
  · exact s.timeSafe_refl
  · split
    · exact s.endSlew_timeSafe _ _
    · exact s.timeSafe_refl

theorem insertedSecondStartState_timeSafe (s : State) : s.timeSafe (insertedSecondStartState s) := by
  refine State.unlessHeld_induct s.timeSafe_refl ?_
  split
  · exact s.timeSafe_refl
  · rename_i r hr
    split
    · rename_i hc
      exact State.setLeapPhase_timeSafe hr fun hk => by rw [hc.1] at hk; cases hk
    · exact s.timeSafe_refl

theorem leapInstantState_timeSafe (s : State) : s.timeSafe (leapInstantState s) := by
  refine State.unlessHeld_induct s.timeSafe_refl ?_
  split
  · exact s.timeSafe_refl
  · rename_i r hr
    have happly := State.applyLeap_timeSafe hr
    split
    all_goals
      rename_i hk
      rw [hk] at happly
      split
      · exact happly
      · exact s.timeSafe_refl

theorem State.vouch_keepsTime (s : State) (declared : Nat) : s.keepsTime (s.vouch declared) := by
  unfold State.vouch
  dsimp only
  split
  · exact ⟨rfl, rfl, rfl, rfl⟩
  · exact (s.setUncertainty_keepsTime _).trans ⟨rfl, rfl, rfl, rfl⟩

/-- An instant parameter lies in the range of the timescale (R192). -/
theorem instantOf_lt {w : Nat} {t : Instant} (h : instantOf w = some t) : t < Config.nsRange := by
  unfold instantOf at h
  dsimp only at h
  split at h <;> cases h
  rename_i hc
  obtain ⟨hsec, hns⟩ := hc
  generalize w / 2 ^ 64 = sec at *
  generalize w / 2 ^ 32 % 2 ^ 32 = ns at *
  simp only [Instant, Config.nsRange, Config.secRange, Config.nsPerSec] at *
  omega

/-- SET_TIME's value lies in the range of the timescale (R20, R192). -/
theorem setTimeParams_lt {ws : List Word} {new : Instant} {declared : Nat}
    (h : setTimeParams ws = some (new, declared)) : new < Config.nsRange := by
  unfold setTimeParams at h
  split at h
  · obtain ⟨t, ht, hu⟩ := Option.bind_eq_some_iff.mp h
    cases hu
    exact instantOf_lt ht
  · cases h

theorem setTimeState_timeSafe (mp : Mp) (s : State) : s.timeSafe (setTimeState mp s) := by
  refine State.takeCommand_timeSafe fun ws t out h => ?_
  unfold setTimeAct at h
  split at h
  · obtain ⟨⟨new, declared⟩, hp, hx⟩ := (withParams_eq_taken_iff _ _ _ _).mp h
    cases hx
    exact (s.stepTo_timeSafe _ (setTimeParams_lt hp) true).trans (State.vouch_keepsTime _ _).timeSafe
  · cases h

theorem stepByState_timeSafe (mp : Mp) (s : State) : s.timeSafe (stepByState mp s) := by
  refine State.takeCommand_timeSafe fun ws t out h => ?_
  unfold stepByAct at h
  split at h
  · obtain ⟨new, hp, hx⟩ := (withParams_eq_taken_iff _ _ _ _).mp h
    cases hx
    exact s.stepTo_timeSafe _ (State.stepTarget_lt hp) false
  · cases h

theorem slewByState_timeSafe (mp : Mp) (s : State) : s.timeSafe (slewByState mp s) := by
  refine State.takeCommand_timeSafe fun ws t out h => ?_
  unfold slewByAct at h
  split at h
  · obtain ⟨a, hp, hx⟩ := (withParams_eq_taken_iff _ _ _ _).mp h
    have ha : 1 ≤ a.natAbs ∧ a.natAbs ≤ Config.nsPerSec := by
      unfold slewByParams at hp
      dsimp only at hp
      split at hp <;> cases hp
      assumption
    unfold State.slewOrBusy at hx
    split at hx <;> cases hx
    exact State.beginSlew_timeSafe (fun _ => ha) _
  · cases h

/-- A leap record within the range checks of SET_LEAP is legal (R15, R24). -/
theorem TimescaleUnit.wf_ofLeapInRange {ts : TimescaleUnit} (h : ts.wf) {kind : LeapKind} {d : Int}
    (hr : ts.leapInRange kind d = true) (src : Origin) : Leap.wf ⟨kind, d, src, .pending⟩ ts.utcOffset := by
  obtain ⟨_, _, _, _, hutc, _⟩ := h
  cases kind with
  | insert =>
    obtain ⟨hday, _, hroom⟩ := (ts.leapInRange_insert_iff d).mp hr
    exact ⟨hday, fun _ => Nat.le_of_lt_succ (lt_of_le_of_ne hutc hroom), nofun⟩
  | delete =>
    obtain ⟨hday, _, hroom⟩ := (ts.leapInRange_delete_iff d).mp hr
    exact ⟨hday, nofun, fun _ => ⟨Nat.pos_of_ne_zero hroom, rfl⟩⟩

theorem setLeapState_timeSafe (mp : Mp) (s : State) : s.timeSafe (setLeapState mp s) := by
  refine State.takeCommand_timeSafe fun ws t out h => ?_
  unfold setLeapAct at h
  split at h
  · cases h
  · obtain ⟨⟨kind, d⟩, _, hx⟩ := (withParams_eq_taken_iff _ _ _ _).mp h
    dsimp only at hx
    split at hx <;> cases hx
    rename_i hr
    refine State.setTs_timeSafe fun hw => TimescaleUnit.wf_leap hw.1 hw.1.2.2.2.2.1 fun x hx => ?_
    cases hx
    exact TimescaleUnit.wf_ofLeapInRange hw.1 hr _

theorem clearLeapState_timeSafe (mp : Mp) (s : State) : s.timeSafe (clearLeapState mp s) := by
  refine State.takeCommand_timeSafe fun ws t out h => ?_
  unfold clearLeapAct at h
  split_ifs at h
  cases h
  exact State.setTs_timeSafe fun hw => TimescaleUnit.wf_leap hw.1 hw.1.2.2.2.2.1 (by simp)

theorem setUtcOffsetState_timeSafe (mp : Mp) (s : State) : s.timeSafe (setUtcOffsetState mp s) := by
  refine State.takeCommand_timeSafe fun ws t out h => ?_
  unfold setUtcOffsetAct at h
  dsimp only at h
  split_ifs at h with _ hroom
  cases h
  have hu : setUtcOffsetParams ws ≤ 255 := by unfold setUtcOffsetParams; omega
  generalize setUtcOffsetParams ws = u at hroom hu
  refine State.timeSafe.trans (State.setTs_timeSafe fun hw => ?_) (State.alignLeap_timeSafe _)
  have hts := hw.1
  obtain ⟨_, _, _, _, _, _, _, _, hleap⟩ := hts
  refine TimescaleUnit.wf_leap hw.1 hu fun r hr => ?_
  obtain ⟨hday, _, hdel⟩ := hleap r hr
  have hnot : { s.ts with utcOffset := u }.leapHasNoRoom r = false := by
    simp only [TimescaleUnit.offsetRefused, Option.any_eq_true, not_exists, not_and, Bool.not_eq_true] at hroom
    exact hroom r hr
  obtain ⟨hins, hdel'⟩ := (TimescaleUnit.leapHasNoRoom_eq_false_iff _ r).mp hnot
  refine ⟨hday, fun hk => ?_, fun hk => ⟨Nat.pos_of_ne_zero (hdel' hk), (hdel hk).2⟩⟩
  exact Nat.le_of_lt_succ (lt_of_le_of_ne hu (hins hk))

theorem setLocalOffsetState_timeSafe (mp : Mp) (s : State) : s.timeSafe (setLocalOffsetState mp s) := by
  refine State.takeCommand_timeSafe fun ws t out h => ?_
  obtain ⟨x, hp, hx⟩ := (withParams_eq_taken_iff _ _ _ _).mp h
  cases hx
  refine State.setTs_timeSafe fun hw => TimescaleUnit.wf_localOffset hw.1 ?_
  unfold setLocalOffsetParams at hp
  dsimp only at hp
  split at hp <;> cases hp
  assumption

/-! ### The commands of the engine -/

theorem gradeGrowthCrossingState_keepsTime (s : State) : s.keepsTime (gradeGrowthCrossingState s) := by
  refine State.unlessHeld_induct s.keepsTime_refl ?_
  split
  · exact s.keepsTime_refl
  · exact ⟨rfl, rfl, rfl, rfl⟩

theorem inRange_within {lo hi n m : Nat} (h : inRange lo hi n = some m) : lo ≤ m ∧ m ≤ hi := by
  obtain ⟨rfl, hn⟩ := (inRange_eq_some_iff lo hi n m).mp h
  exact hn

/-- SET_ENGINE's threshold and slew rate limit are in their ranges (R74). -/
theorem setEngineParams_within {ws : List Word} {x : EngineSettings} {limit : Nat}
    (h : setEngineParams ws = some (x, limit)) : 1000 ≤ x.threshold ∧ 1 ≤ limit ∧ limit ≤ 500 := by
  unfold setEngineParams at h
  split at h
  · simp only [Option.bind_eq_bind, Option.bind_eq_some_iff] at h
    obtain ⟨_, _, _, _, _, _, thr, hthr, _, _, _, _, lim, hlim, h⟩ := h
    cases h
    exact ⟨(inRange_within hthr).1, inRange_within hlim⟩
  · cases h

theorem setEngineState_timeSafe (mp : Mp) (s : State) : s.timeSafe (setEngineState mp s) := by
  refine State.takeCommand_timeSafe fun ws t out h => ?_
  obtain ⟨⟨new, limit⟩, hp, hx⟩ := (withParams_eq_taken_iff _ _ _ _).mp h
  cases hx
  obtain ⟨hthr, hlim⟩ := setEngineParams_within hp
  have hanchor : s.timeSafe (if s.engine.settings.growth = new.growth then s else s.reanchor) := by
    split
    · exact s.timeSafe_refl
    · exact s.reanchor_keepsTime.timeSafe
  refine hanchor.trans (State.timeSafe.trans (State.setEngine_timeSafe (e := { State.engine _ with settings := new })
    fun hw => ⟨hw.2.1, hthr⟩) ?_)
  exact State.setTs_timeSafe fun hw => TimescaleUnit.wf_slewLimit hw.1 hlim

theorem State.pinned_timeSafe (s : State) (declared : Nat) : s.timeSafe (s.pinned declared) := by
  have hdeselect : s.keepsTime s.deselect := by
    unfold State.deselect
    split
    · exact s.select_keepsTime none
    · exact s.keepsTime_refl
  have hrate : s.timeSafe ((s.deselect.cancelSlew anyOrigin).writeRate s.engine.integral) := by
    refine ⟨(hdeselect.timeSafe.trans (State.cancelSlew_timeSafe _ _)).1, fun hw => ?_⟩
    have hc := (hdeselect.timeSafe.trans (State.cancelSlew_timeSafe _ anyOrigin)).2 hw
    exact (State.writeRate_timeSafe fun _ => hw.2.1).2 hc
  have hset := hrate.trans (State.setUncertainty_keepsTime _ (declared * 1000)).timeSafe
  unfold State.pinned
  dsimp only
  split
  · exact hset.trans (State.setEngine_keepsTime rfl rfl).timeSafe
  · exact (hset.trans (State.setEngine_keepsTime rfl rfl).timeSafe).trans (State.enterState_keepsTime _ _).timeSafe

theorem pinState_timeSafe (mp : Mp) (s : State) : s.timeSafe (pinState mp s) := by
  refine State.takeCommand_timeSafe fun ws t out h => ?_
  cases h
  exact s.pinned_timeSafe _

theorem unpinState_timeSafe (mp : Mp) (s : State) : s.timeSafe (unpinState mp s) := by
  refine State.takeCommand_timeSafe fun ws t out h => ?_
  unfold unpinAct at h
  split at h <;> cases h
  exact s.enterHoldover_timeSafe.trans (State.reevaluate_timeSafe _)

/-! ### RESTART, power-on and the RESET input -/

theorem State.engineRestarted_timeSafe (s : State) : s.timeSafe s.engineRestarted := by
  have hholdover : s.timeSafe ((s.reanchor.clearLockRun).writeRate s.engine.integral) :=
    (s.reanchor_keepsTime.trans (State.clearLockRun_keepsTime _)).timeSafe.trans
      (State.writeRate_timeSafe fun hw => hw.2.1)
  unfold State.engineRestarted
  split
  · exact hholdover.trans (State.setEngine_keepsTime rfl rfl).timeSafe
  · exact hholdover.trans (State.setEngine_keepsTime rfl rfl).timeSafe
  all_goals exact s.clearLockRun_keepsTime.timeSafe

theorem State.restart_timeSafe (s : State) : s.timeSafe s.restart := by
  have hblocks : s.timeSafe s.restartBlocks :=
    ((s.cancelSlew_timeSafe anyOrigin).trans (State.engineRestarted_timeSafe _)).trans
      (State.keepsTime.timeSafe ⟨rfl, rfl, rfl, rfl⟩)
  have hpart (ports : Four MasterPort) : s.timeSafe { s.restartBlocks with claim := none, ports := ports } :=
    hblocks.trans (State.keepsTime.timeSafe ⟨rfl, rfl, rfl, rfl⟩)
  unfold State.restart
  dsimp only
  split
  · exact (hpart _).trans (State.post_timeSafe _ _)
  · exact hpart _

theorem restartState_timeSafe (mp : Mp) (s : State) : s.timeSafe (restartState mp s) := by
  refine State.unlessHeld_induct s.timeSafe_refl ?_
  split
  · exact s.timeSafe_refl
  · unfold State.judgeRestart
    split_ifs
    · exact (s.finish_keepsTime _ _ _).timeSafe
    · exact (s.finish_keepsTime _ _ _).timeSafe
    · exact s.restart_timeSafe
    · exact s.timeSafe_refl

theorem State.powerOn_timeWf (pending : List Instr) (held : Bool) (linkA linkB : LinkState) :
    (State.powerOn pending held linkA linkB).timeWf := by
  refine ⟨?_, ?_, ?_⟩ <;> dsimp only [State.powerOn] <;> decide

theorem powerOnState_timeSafe (held : Bool) (s : State) : s.timeSafe (powerOnState held s) :=
  ⟨rfl, fun _ => State.powerOn_timeWf _ _ _ _⟩

/-! ### Every command -/

/-- Every command leaves the part going on, keeps the queue, and keeps the timescale unit legal. -/
theorem exec_timeSafe (c : Instr) (s : State) : ∃ t, exec c s = .next t ∧ s.timeSafe t := by
  cases c with
  | powerOn held => exact ⟨_, rfl, powerOnState_timeSafe held s⟩
  | resetRelease => exact ⟨_, rfl, rfl, id⟩
  | slewCompletion => exact ⟨_, rfl, slewCompletionState_timeSafe s⟩
  | insertedSecondStart => exact ⟨_, rfl, insertedSecondStartState_timeSafe s⟩
  | leapInstant => exact ⟨_, rfl, leapInstantState_timeSafe s⟩
  | readTime mp => exact ⟨_, rfl, (State.read_keepsTime fun ws t out h => by cases h; rfl).timeSafe⟩
  | setTime mp => exact ⟨_, rfl, setTimeState_timeSafe mp s⟩
  | stepBy mp => exact ⟨_, rfl, stepByState_timeSafe mp s⟩
  | slewBy mp => exact ⟨_, rfl, slewByState_timeSafe mp s⟩
  | setLeap mp => exact ⟨_, rfl, setLeapState_timeSafe mp s⟩
  | clearLeap mp => exact ⟨_, rfl, clearLeapState_timeSafe mp s⟩
  | setUtcOffset mp => exact ⟨_, rfl, setUtcOffsetState_timeSafe mp s⟩
  | setLocalOffset mp => exact ⟨_, rfl, setLocalOffsetState_timeSafe mp s⟩
  | referenceEdge r e => exact ⟨_, rfl, referenceEdgeState_timeSafe r e s⟩
  | missingEdgeExpiry r => exact ⟨_, rfl, missingEdgeExpiryState_timeSafe r s⟩
  | messageArrival r ch => exact ⟨_, rfl, messageArrivalState_timeSafe r ch s⟩
  | settleExpiry r => exact ⟨_, rfl, settleExpiryState_timeSafe r s⟩
  | holdOffExpiry r => exact ⟨_, rfl, (holdOffExpiryState_keepsTime r s).timeSafe⟩
  | setReference mp => exact ⟨_, rfl, setReferenceState_timeSafe mp s⟩
  | readReference mp => exact ⟨_, rfl, (readReferenceState_keepsTime mp s).timeSafe⟩
  | gradeGrowthCrossing => exact ⟨_, rfl, (gradeGrowthCrossingState_keepsTime s).timeSafe⟩
  | setEngine mp => exact ⟨_, rfl, setEngineState_timeSafe mp s⟩
  | readEngine mp => exact ⟨_, rfl, (State.read_keepsTime fun ws t out h => by cases h; rfl).timeSafe⟩
  | pin mp => exact ⟨_, rfl, pinState_timeSafe mp s⟩
  | unpin mp => exact ⟨_, rfl, unpinState_timeSafe mp s⟩
  | addMark mp => exact ⟨_, rfl, (addMarkState_keepsTime mp s).timeSafe⟩
  | cancelMark mp => exact ⟨_, rfl, (cancelMarkState_keepsTime mp s).timeSafe⟩
  | takeOutcomes mp => exact ⟨_, rfl, (takeOutcomesState_keepsTime mp s).timeSafe⟩
  | markTaking faulty => exact ⟨_, rfl, (markTakingState_keepsTime faulty s).timeSafe⟩
  | setLine mp => exact ⟨_, rfl, (setLineState_keepsTime mp s).timeSafe⟩
  | changePoint i => exact ⟨_, rfl, (changePointState_onlyLines i s).keepsTime.timeSafe⟩
  | pulseStart i load => exact ⟨_, rfl, (pulseStartState_onlyLines i load s).keepsTime.timeSafe⟩
  | pulseEnd i => exact ⟨_, rfl, (pulseEndState_onlyLines i s).keepsTime.timeSafe⟩
  | commitmentStart i load => exact ⟨_, rfl, (commitmentStartState_onlyLines i load s).keepsTime.timeSafe⟩
  | lineRestart mp => exact ⟨_, rfl, (lineRestartState_keepsTime mp s).timeSafe⟩
  | senseLine mp => exact ⟨_, rfl, (senseLineState_keepsTime mp s).timeSafe⟩
  | composition => exact ⟨_, rfl, (compositionState_keepsTime s).timeSafe⟩
  | frameRelease => exact ⟨_, rfl, (frameReleaseState_keepsTime s).timeSafe⟩
  | frameBegin i load => exact ⟨_, rfl, (frameBeginState_onlyLines i load s).keepsTime.timeSafe⟩
  | symbolStart i load => exact ⟨_, rfl, (symbolStartState_onlyLines i load s).keepsTime.timeSafe⟩
  | symbolEnd i => exact ⟨_, rfl, (symbolEndState_onlyLines i s).keepsTime.timeSafe⟩
  | frameEnd i => exact ⟨_, rfl, (frameEndState_onlyLines i s).keepsTime.timeSafe⟩
  | linkUp p => exact ⟨_, rfl, (linkUpState_onlyNetwork p s).keepsTime.timeSafe⟩
  | linkDown p => exact ⟨_, rfl, (linkDownState_onlyNetwork p s).keepsTime.timeSafe⟩
  | beaconDue => exact ⟨_, rfl, (beaconDueState_onlyNetwork s).keepsTime.timeSafe⟩
  | transmitEnd p => exact ⟨_, rfl, (transmitEndState_onlyNetwork p s).keepsTime.timeSafe⟩
  | askTimingPoint p => exact ⟨_, rfl, (askTimingPointState_onlyNetwork p s).keepsTime.timeSafe⟩
  | askArrival p f => exact ⟨_, rfl, (askArrivalState_onlyNetwork p f s).keepsTime.timeSafe⟩
  | setNetwork mp => exact ⟨_, rfl, (setNetworkState_keepsTime mp s).timeSafe⟩
  | readPort mp => exact ⟨_, rfl, (readPortState_keepsTime mp s).timeSafe⟩
  | idleCheck => exact ⟨_, rfl, (idleCheckState_onlyNetwork s).keepsTime.timeSafe⟩
  | forgetClient mp => exact ⟨_, rfl, (forgetClientState_keepsTime mp s).timeSafe⟩
  | writeParams mp rest => exact ⟨_, rfl, (writeParamsState_keepsTime mp rest s).timeSafe⟩
  | post mp rest => exact ⟨_, rfl, (postState_keepsTime mp rest s).timeSafe⟩
  | readResult mp len => exact ⟨_, rfl, (readResultState_keepsTime mp len s).timeSafe⟩
  | readState mp len => exact ⟨_, rfl, (readStateState_keepsTime mp len s).timeSafe⟩
  | sense mp rest => exact ⟨_, rfl, (senseState_keepsTime mp rest s).timeSafe⟩
  | readErrors mp len => exact ⟨_, rfl, (readErrorsState_keepsTime mp len s).timeSafe⟩
  | portClear mp len => exact ⟨_, rfl, (portClearState_keepsTime mp len s).timeSafe⟩
  | unknownTransaction mp code => exact ⟨_, rfl, (unknownTransactionState_keepsTime mp code s).timeSafe⟩
  | unknownCommand mp => exact ⟨_, rfl, (unknownCommandState_keepsTime mp s).timeSafe⟩
  | claim mp => exact ⟨_, rfl, (claimState_keepsTime mp s).timeSafe⟩
  | release mp => exact ⟨_, rfl, (releaseState_keepsTime mp s).timeSafe⟩
  | leaseExpiry => exact ⟨_, rfl, (leaseExpiryState_keepsTime s).timeSafe⟩
  | setEventMask mp => exact ⟨_, rfl, (setEventMaskState_keepsTime mp s).timeSafe⟩
  | readTable mp => exact ⟨_, rfl, (readTableState_keepsTime mp s).timeSafe⟩
  | readMore mp => exact ⟨_, rfl, (readMoreState_keepsTime mp s).timeSafe⟩
  | identify mp => exact ⟨_, rfl, (State.read_keepsTime fun ws t out h => by cases h; rfl).timeSafe⟩
  | restart mp => exact ⟨_, rfl, restartState_timeSafe mp s⟩
  | networkClear mp => exact ⟨_, rfl, (networkClearState_keepsTime mp s).timeSafe⟩
  | tick => exact ⟨_, rfl, tickState_timeSafe s⟩
  | messageCharacter r ch => exact ⟨_, rfl, messageCharacterState_timeSafe r ch s⟩
  | transactionBegin mp => exact ⟨_, rfl, (transactionBeginState_keepsTime mp s).timeSafe⟩

theorem State.takeCommand_held {s : State} (hr : s.resetHeld = true) (mp : Mp) (row : CommandRow)
    (act : List Word → State → Judged) : s.takeCommand mp row act = s := State.unlessHeld_held hr _

theorem State.endTransaction_held {s : State} (hr : s.resetHeld = true) (mp : Mp) (len : Nat)
    (data : Transaction → List Byte) (fits : Bool) (act : Transaction → State → State) :
    s.endTransaction mp len data fits act = s := State.unlessHeld_held hr _

/-- While the RESET input is held, no command but those of the input and of the links' physical layers acts (R190). -/
theorem exec_held {c : Instr} {s : State} (hr : s.resetHeld = true) (hpower : ∀ h, c ≠ .powerOn h)
    (hrelease : c ≠ .resetRelease) (hlinks : ∀ p, c ≠ .linkUp p ∧ c ≠ .linkDown p) : exec c s = .next s := by
  cases c with
  | powerOn held => exact absurd rfl (hpower held)
  | resetRelease => exact absurd rfl hrelease
  | linkUp p => exact absurd rfl (hlinks p).1
  | linkDown p => exact absurd rfl (hlinks p).2
  | readTime mp | setTime mp | stepBy mp | slewBy mp | setLeap mp | clearLeap mp | setUtcOffset mp
  | setLocalOffset mp | setReference mp | readReference mp | setEngine mp | readEngine mp | pin mp | unpin mp
  | addMark mp | cancelMark mp | takeOutcomes mp | setLine mp | lineRestart mp | senseLine mp | setNetwork mp
  | readPort mp | forgetClient mp | claim mp | release mp | setEventMask mp | readTable mp | readMore mp
  | identify mp | networkClear mp =>
    exact congrArg Host.Outcome.next (State.takeCommand_held hr _ _ _)
  | writeParams mp _ | post mp _ | readResult mp _ | readState mp _ | sense mp _ | readErrors mp _
  | portClear mp _ =>
    exact congrArg Host.Outcome.next (State.endTransaction_held hr _ _ _ _ _)
  | unknownTransaction mp code =>
    refine congrArg Host.Outcome.next ?_
    unfold unknownTransactionState
    split
    · rfl
    · exact State.endTransaction_held hr _ _ _ _ _
  | _ => exact congrArg Host.Outcome.next (State.unlessHeld_held hr _)

/-- Settles O53: a step runs one command, or idles. -/
theorem stepKeepsTheTimescaleUnit : Obligations.StepKeepsTheTimescaleUnit := by
  intro s t hw hstep
  unfold step at hstep
  split at hstep
  · cases hstep
    exact hw
  · rename_i c rest _
    obtain ⟨u, hu, _, hsafe⟩ := exec_timeSafe c { s with pending := rest }
    rw [hu] at hstep
    cases hstep
    exact hsafe hw

/-- Settles O2. -/
theorem everyCommandGoesOnUnlessHeld : Obligations.EveryCommandGoesOnUnlessHeld := by
  intro c s
  obtain ⟨t, ht, hp, _⟩ := exec_timeSafe c s
  exact ⟨⟨t, ht, hp⟩, exec_held⟩

end Sys2Proof.Machine
end

section
/-! SUPPORT. The queue, power-on, the tick, the calendar and the timed events of the timescale unit. -/

namespace Sys2Proof.Machine

open Sys2Proof

/-! ### The queue and the resets -/

/-- Settles O1. -/
theorem stepRunsFrontCommand : Obligations.StepRunsFrontCommand := by
  refine ⟨fun c rest s h => ?_, fun s h => ?_⟩ <;> unfold step <;> rw [h]

/-- Settles O4: each block's part of a legal state, at its power-on values. -/
theorem resetStateIsLegal : Obligations.ResetStateIsLegal := by
  have hrefs : State.reset.refsWf := fun r => by
    rw [show State.reset.ref r = .powerOn from Four.get_all _ r]
    decide
  have hengine : State.reset.engineWf := by
    refine ⟨by decide, by decide, nofun, by decide, nofun, by decide, by decide, by decide, by decide, by decide⟩
  have hmarks : State.reset.marksWf := by
    refine ⟨by decide, .nil, .nil, by decide, nofun, fun mp => ?_⟩
    rw [show State.reset.queue mp = [] from Four.get_all _ mp]
    exact ⟨by decide, nofun⟩
  have hlines : State.reset.linesWf := fun i => by
    rw [show State.reset.line i = .powerOn from Sixteen.get_all _ i]
    refine ⟨⟨by decide, by decide, by decide, by decide, nofun⟩, nofun, ?_⟩
    decide
  have hnet : State.reset.netWf := by
    refine ⟨by decide, fun p _ => ?_⟩
    cases p <;> decide
  have hclients : State.reset.clientsWf := ⟨nofun, .nil, .nil⟩
  have hports : State.reset.portsWf := fun mp => by
    rw [show State.reset.port mp = .powerOn from Four.get_all _ mp]
    exact ⟨rfl, by decide, nofun, nofun, nofun⟩
  exact ⟨State.powerOn_timeWf _ _ _ _, hrefs, hengine, hmarks, hlines, hnet, hclients, hports⟩

/-- A tick of a released part reaches the timescale unit alone (R2). -/
theorem exec_tick {s : State} (hr : s.resetHeld = false) : exec .tick s = .next (s.setTs s.ts.tick) :=
  congrArg Host.Outcome.next (State.unlessHeld_released hr _)

/-- The tick count rises by one below its largest value (R4). -/
theorem nextTickCount_eq {n : Nat} (h : n + 1 < 2 ^ 64) : nextTickCount n = n + 1 := if_pos h

/-- Settles O3. -/
theorem powerOnThenReleaseStartsThePart : Obligations.PowerOnThenReleaseStartsThePart := by
  intro s held
  refine ⟨rfl, rfl, fun h => ⟨_, exec_tick rfl, ?_⟩⟩
  exact nextTickCount_eq h

/-! ### The tick (R2) -/

/-- One tick moves the timescale by its advance, exactly, round its range (R1, R2). -/
theorem TimescaleUnit.fine_tick {ts : TimescaleUnit} (h : ts.wf) :
    (ts.tick.fine : Int) = (ts.fine + 4 * 2 ^ 32 * (10 ^ 12 + ts.rate) + ts.slewPart) % (fineRange : Int) := by
  have hadv := TimescaleUnit.advance_eq h
  have hfine : ts.tick.fine = (ts.fine + ts.advance) % fineRange := by
    refine (ts.advanceBy_fine ts.advance).trans ?_
    rw [← Nat.add_assoc]
  rw [hfine, Int.natCast_mod, Nat.cast_add, hadv, ← Int.add_assoc]
  norm_num [Config.fracRange, Config.pptOne]

theorem TimescaleUnit.slewPart_none {ts : TimescaleUnit} (h : ts.slew = none) : ts.slewPart = 0 := by
  simp only [TimescaleUnit.slewPart, h]

theorem TimescaleUnit.slewPart_some {ts : TimescaleUnit} {w : Slew} (h : ts.slew = some w) :
    ts.slewPart = slewAdvance ts.slewLimit w.residual := by
  simp only [TimescaleUnit.slewPart, h]

theorem TimescaleUnit.slew_tick_none {ts : TimescaleUnit} (h : ts.slew = none) : ts.tick.slew = none := by
  simp [TimescaleUnit.tick, h]

theorem TimescaleUnit.slew_tick_some {ts : TimescaleUnit} {w : Slew} (h : ts.slew = some w) :
    ts.tick.slew = some { w with residual := w.residual - ts.slewPart } := by
  simp [TimescaleUnit.tick, h, TimescaleUnit.slewPart_some h]

/-- The slew part of a tick in the units of the obligations. -/
theorem slewAdvance_eq (limit : Nat) (residual : Int) :
    slewAdvance limit residual =
      if residual < 0 then max residual (-(4 * 2 ^ 32 * (limit * 10 ^ 6))) else min residual (4 * 2 ^ 32 * (limit * 10 ^ 6)) := by
  norm_num [slewAdvance, slewPartAt, Config.fracRange]

theorem nsRange_cast : ((Config.nsRange : Nat) : Int) = 2 ^ 48 * 10 ^ 9 := by
  norm_num [Config.nsRange, Config.secRange, Config.nsPerSec]

/-- The instants reached by a tick are those after the old timescale and up to the new one (R2). -/
theorem State.reachedNow_iff {s : State} {f : Instant} (h : s.ts.reachedFrom = some f) (x : Int) :
    s.reachedNow x = true ↔
      (if f ≤ s.nowNs then (f : Int) else (f : Int) - 2 ^ 48 * 10 ^ 9) < x ∧ x ≤ s.nowNs := by
  simp only [State.reachedNow, h, decide_eq_true_eq, nsRange_cast]

theorem State.reachedNow_none {s : State} (h : s.ts.reachedFrom = none) (x : Int) : s.reachedNow x = false := by
  simp only [State.reachedNow, h]

theorem State.hasReached_iff (s : State) (x : Instant) :
    s.hasReached x = true ↔ x ≤ s.nowNs ∨ s.reachedNow ((x : Int) - Config.nsRange) = true := by
  simp only [State.hasReached, Bool.or_eq_true, decide_eq_true_eq]

/-- Settles O8. -/
theorem tickAdvancesByTheEffectiveRate : Obligations.TickAdvancesByTheEffectiveRate := by
  intro s hr hw
  obtain ⟨htime, hrem⟩ := s.ts.advanceBy_wf s.ts.advance
  refine ⟨s.ts.tick, exec_tick hr, TimescaleUnit.fine_tick hw, htime, hrem, nextTickCount_eq,
    fun h => ⟨TimescaleUnit.slewPart_none h, TimescaleUnit.slew_tick_none h⟩, fun w h => ⟨TimescaleUnit.slew_tick_some h, ?_⟩,
    rfl, fun x => State.reachedNow_iff rfl x, fun x => ?_, fun span early x hs => s.latestMultiple_iff early hs x⟩
  · rw [TimescaleUnit.slewPart_some h, slewAdvance_eq]
  · rw [← nsRange_cast]
    exact s.hasReached_iff x

/-- Settles O9, by induction on the number of ticks. -/
theorem ticksAccumulateWithoutLoss : Obligations.TicksAccumulateWithoutLoss := by
  intro n
  induction n with
  | zero =>
    intro s _ hw _ _
    refine ⟨s.ts, rfl, ?_, rfl, rfl, hw⟩
    have hlt : s.ts.fine < fineRange := by
      obtain ⟨⟨hsec, hns, hfrac⟩, hrem, _⟩ := hw
      simp only [TimescaleUnit.fine, fineRange, TimeValue.toNs, Config.nsRange, Config.secRange, Config.nsPerSec,
        Config.fracRange, Config.pptOne] at *
      omega
    rw [Nat.cast_zero, zero_mul, add_zero]
    exact (Int.emod_eq_of_lt (Int.natCast_nonneg _) (by exact_mod_cast hlt)).symm
  | succ n ih =>
    intro s hr hw hslew hcount
    have htick : nextTickCount s.ts.tickCount = s.ts.tickCount + 1 := nextTickCount_eq (by omega)
    obtain ⟨ts, hrun, hfine, hticks, hrate, hwf⟩ := ih (s.setTs s.ts.tick) hr (TimescaleUnit.wf_tick hw)
      (TimescaleUnit.slew_tick_none hslew) (by rw [State.ts_setTs, show s.ts.tick.tickCount = _ from htick]; omega)
    refine ⟨ts, ?_, ?_, ?_, hrate, hwf⟩
    · have hstep : step { s with pending := List.replicate (n + 1) .tick } =
          .next { s.setTs s.ts.tick with pending := List.replicate n .tick } :=
        exec_tick (s := { s with pending := List.replicate n .tick }) hr
      simp only [Host.Core.run, Host.Check.core_step]
      rw [hstep]
      exact hrun
    · have hone := TimescaleUnit.fine_tick hw
      rw [TimescaleUnit.slewPart_none hslew, add_zero] at hone
      rw [hfine, State.ts_setTs, hone, Int.emod_add_emod, show s.ts.tick.rate = s.ts.rate from rfl]
      congr 1
      push_cast
      ring
    · rw [hticks, State.ts_setTs, show s.ts.tick.tickCount = _ from htick]
      omega

/-! ### The calendar (R5) -/

/-- Days of the years before year `y` of a 400-year cycle that begins with a leap year. -/
def daysBefore (y : Nat) : Nat := 365 * y + (y + 3) / 4 + (y + 399) / 400 - (y + 99) / 100

/-- The multiples of `k` up to a number, as it rises by one. -/
theorem succ_div_eq (x : Nat) {k : Nat} : (x + 1) / k = x / k + if (x + 1) % k = 0 then 1 else 0 := by
  simp [Nat.succ_div, Nat.dvd_iff_mod_eq_zero]

theorem daysBefore_succ (y : Nat) : daysBefore (y + 1) = daysBefore y + daysInYear y := by
  have hfour : (y + 1 + 3) / 4 = (y + 3) / 4 + if (y + 3 + 1) % 4 = 0 then 1 else 0 := succ_div_eq (y + 3)
  have hcentury : (y + 1 + 99) / 100 = (y + 99) / 100 + if (y + 99 + 1) % 100 = 0 then 1 else 0 := succ_div_eq (y + 99)
  have hcycle : (y + 1 + 399) / 400 = (y + 399) / 400 + if (y + 399 + 1) % 400 = 0 then 1 else 0 := succ_div_eq (y + 399)
  have hle : (y + 99) / 100 ≤ (y + 3) / 4 := by omega
  rw [Nat.add_assoc y 3 1, Nat.add_mod_right] at hfour
  rw [Nat.add_assoc y 99 1, Nat.add_mod_right] at hcentury
  rw [Nat.add_assoc y 399 1, Nat.add_mod_right] at hcycle
  have h4 : y % 100 = 0 → y % 4 = 0 := by omega
  have h100 : y % 400 = 0 → y % 100 = 0 := by omega
  unfold daysBefore daysInYear
  rw [hfour, hcentury, hcycle]
  generalize (y + 3) / 4 = a at *
  generalize (y + 99) / 100 = b at *
  generalize (y + 399) / 400 = c at *
  split_ifs <;> omega

/-- Counting years forward splits the days into those of whole years and a day of the last year (R5). -/
theorem walkYears_spec (n y d : Nat) :
    daysBefore (walkYears n y d).1 + (walkYears n y d).2 = daysBefore y + d ∧
      (daysBefore y + d < daysBefore (y + n) → (walkYears n y d).2 < daysInYear (walkYears n y d).1) := by
  induction n generalizing y d with
  | zero => exact ⟨rfl, fun h => by rw [Nat.add_zero] at h; omega⟩
  | succ n ih =>
    unfold walkYears
    split
    · rename_i h
      exact ⟨rfl, fun _ => h⟩
    · obtain ⟨hsum, hlt⟩ := ih (y + 1) (d - daysInYear y)
      rw [daysBefore_succ] at hsum hlt
      refine ⟨by omega, fun h => hlt ?_⟩
      rw [show y + 1 + n = y + (n + 1) by omega]
      omega

/-- Settles O14: the day count is whole cycles of 146,097 days, whole years of the cycle, and a day of the year. -/
theorem labelsFollowTheCalendar : Obligations.LabelsFollowTheCalendar := by
  intro u
  obtain ⟨hsum, hlt⟩ := walkYears_spec 400 0 (u / 86400 % 146097).toNat
  have hday : 0 ≤ u / 86400 % 146097 := Int.emod_nonneg _ (by decide)
  have hin := hlt (by rw [show daysBefore (0 + 400) = 146097 from rfl, show daysBefore 0 = 0 from rfl]; omega)
  have hsec : 0 ≤ u % 86400 := Int.emod_nonneg _ (by decide)
  rw [show daysBefore 0 = 0 from rfl] at hsum
  unfold labelOf
  dsimp only
  generalize walkYears 400 0 (u / 86400 % 146097).toNat = yd at *
  obtain ⟨y, d⟩ := yd
  dsimp only at *
  unfold daysBefore at hsum
  have hyear : d < 366 ∧ (¬ ((y % 4 = 0 ∧ y % 100 ≠ 0) ∨ y % 400 = 0) → d < 365) := by
    unfold daysInYear at hin
    split at hin
    · rename_i hleap
      exact ⟨hin, fun h => absurd hleap h⟩
    · exact ⟨by omega, fun _ => hin⟩
  generalize u / 86400 = day at *
  refine ⟨by omega, by omega, by omega, fun h => ?_, ?_⟩
  · have := hyear.2 (fun hl => h (by omega))
    omega
  · have hfour : (2000 + 400 * (day / 146097) + y - 1) / 4 = 100 * (day / 146097) + 499 + ((y + 3) / 4 : Nat) := by omega
    have hcentury : (2000 + 400 * (day / 146097) + y - 1) / 100 = 4 * (day / 146097) + 19 + ((y + 99) / 100 : Nat) := by omega
    have hcycle : (2000 + 400 * (day / 146097) + y - 1) / 400 = day / 146097 + 4 + ((y + 399) / 400 : Nat) := by omega
    rw [hfour, hcentury, hcycle]
    omega

/-! ### Timed events (R11, R15, R16) -/

theorem State.secondReached_iff (s : State) (sec : Int) : s.secondReached sec = true ↔ s.secondMet sec := by
  simp only [State.secondReached, Bool.or_eq_true, decide_eq_true_eq, Bool.and_eq_true, State.secondMet, Config.secRange]
  norm_num

theorem slewCompletionState_some {s : State} {w : Slew} (hr : s.resetHeld = false) (h : s.ts.slew = some w) :
    slewCompletionState s = if w.residual = 0 then s.endSlew w .done else s := by
  rw [slewCompletionState, State.unlessHeld_released hr]
  simp only [h]

theorem insertedSecondStartState_some {s : State} {r : Leap} (hr : s.resetHeld = false) (h : s.ts.leap = some r) :
    insertedSecondStartState s =
      if r.kind = .insert ∧ r.phase = .pending ∧ s.secondMet (r.dayEnd + s.ts.utcOffset) then s.setLeapPhase r .inserting
      else s := by
  rw [insertedSecondStartState, State.unlessHeld_released hr]
  simp only [h, State.secondReached_iff]
  rfl

theorem leapInstantState_insert {s : State} {r : Leap} (hr : s.resetHeld = false) (h : s.ts.leap = some r)
    (hk : r.kind = .insert) :
    leapInstantState s =
      if r.phase = .inserting ∧ s.secondMet (r.dayEnd + s.ts.utcOffset + 1) then s.applyLeap .insert else s := by
  rw [leapInstantState, State.unlessHeld_released hr]
  simp only [h, hk, State.secondReached_iff]
  rfl

theorem leapInstantState_delete {s : State} {r : Leap} (hr : s.resetHeld = false) (h : s.ts.leap = some r)
    (hk : r.kind = .delete) :
    leapInstantState s =
      if s.secondMet (r.dayEnd + s.ts.utcOffset - 1) then s.applyLeap .delete else s := by
  rw [leapInstantState, State.unlessHeld_released hr]
  simp only [h, hk, State.secondReached_iff]
  rfl

/-- Settles O10. -/
theorem timescaleEventsActAtTheirInstants : Obligations.TimescaleEventsActAtTheirInstants := by
  intro s hr leaps
  have next {t u : State} (h : t = u) : Host.Outcome.next (φ := Fault) (ρ := Refusal) t = .next u := congrArg _ h
  refine ⟨fun w hw => ?_, fun h => ?_, fun h => ?_, fun r h => ?_⟩
  · refine ⟨fun h0 => next ?_, fun h0 => next ?_⟩ <;> rw [slewCompletionState_some hr hw]
    · have hres : w.residualNs = 0 := by rw [Slew.residualNs, h0, Int.zero_tdiv]
      rw [if_pos h0, State.endSlew, hres]
      rfl
    · rw [if_neg h0]
  · refine next ?_
    rw [slewCompletionState, State.unlessHeld_released hr]
    simp only [h]
  · refine ⟨next ?_, next ?_⟩
    · rw [insertedSecondStartState, State.unlessHeld_released hr]
      simp only [h]
    · rw [leapInstantState, State.unlessHeld_released hr]
      simp only [h]
  · refine ⟨fun hk hp => ⟨next ?_, fun hm => next ?_, fun hm => next ?_⟩,
      fun hk hp => ⟨next ?_, fun hm => next ?_, fun hm => next ?_⟩,
      fun hk => ⟨next ?_, fun hm => next ?_, fun hm => next ?_⟩⟩
    · rw [leapInstantState_insert hr h hk, if_neg (fun hc => by rw [hp] at hc; cases hc.1)]
    · rw [insertedSecondStartState_some hr h, if_pos ⟨hk, hp, hm⟩]
      rfl
    · rw [insertedSecondStartState_some hr h, if_neg (fun hc => hm hc.2.2)]
    · rw [insertedSecondStartState_some hr h, if_neg (fun hc => by rw [hp] at hc; cases hc.2.1)]
    · rw [leapInstantState_insert hr h hk, if_pos ⟨hp, hm⟩]
      rfl
    · rw [leapInstantState_insert hr h hk, if_neg (fun hc => hm hc.2)]
    · rw [insertedSecondStartState_some hr h, if_neg (fun hc => by rw [hk] at hc; cases hc.1)]
    · rw [leapInstantState_delete hr h hk, if_pos hm]
      rfl
    · rw [leapInstantState_delete hr h hk, if_neg hm]

end Sys2Proof.Machine
end

section
/-! SUPPORT. The commands that set the leap record and the offsets: their refusals and their effects. -/

namespace Sys2Proof.Machine

open Sys2Proof

/-! ### Commands taken and refused -/

/-- A command that is ready and that its owner refuses leaves the refusal in the mailbox and nothing else (R174). -/
theorem State.takeCommand_refused {s : State} {mp : Mp} {row : CommandRow} {ws out : List Word} {code : ResultCode}
    {act : List Word → State → Judged} (h : s.waits mp row ws) (ha : act ws s = .refused code out) :
    s.takeCommand mp row act = s.finish mp code out := by
  rw [State.takeCommand_waits h, ha]
  rfl

/-- A command that is ready and that its owner takes leaves the state its owner makes, with the result OK (R174). -/
theorem State.takeCommand_taken {s t : State} {mp : Mp} {row : CommandRow} {ws out : List Word}
    {act : List Word → State → Judged} (h : s.waits mp row ws) (ha : act ws s = .taken t out) :
    s.takeCommand mp row act = t.finish mp .ok out := by
  rw [State.takeCommand_waits h, ha]
  rfl

/-- The next state, by an equation for it. -/
theorem next_congr {s t : State} (h : s = t) : Host.Outcome.next (φ := Fault) (ρ := Refusal) s = .next t :=
  congrArg _ h

theorem wordAt_mod_one (ws : List Word) (k n : Nat) : wordAt ws k / 2 ^ 0 % 2 ^ n = wordAt ws k % 2 ^ n := by
  rw [Nat.pow_zero, Nat.div_one]

/-! ### The alignment of a leap record (R17) -/

/-- An INSERT record before the inserted second is PENDING, in it INSERTING, and after it the leap is taken. -/
theorem State.alignLeap_insert {s : State} {r : Leap} (h : s.ts.leap = some r) (hk : r.kind = .insert) :
    ((s.ts.time.sec : Int) < r.dayEnd + s.ts.utcOffset →
        s.alignLeap = s.setTs { s.ts with leap := some { r with phase := .pending } }) ∧
      ((s.ts.time.sec : Int) = r.dayEnd + s.ts.utcOffset →
        s.alignLeap = s.setTs { s.ts with leap := some { r with phase := .inserting } }) ∧
      ((s.ts.time.sec : Int) > r.dayEnd + s.ts.utcOffset →
        s.alignLeap = (s.setTs { s.ts with utcOffset := s.ts.utcOffset + 1, leap := none }).post .leapTaken) := by
  have hal : s.alignLeap =
      if (s.ts.time.sec : Int) < r.dayEnd + s.ts.utcOffset then s.setLeapPhase r .pending
      else if (s.ts.time.sec : Int) = r.dayEnd + s.ts.utcOffset then s.setLeapPhase r .inserting
      else s.applyLeap .insert := by
    unfold State.alignLeap
    simp only [h, hk]
    rfl
  refine ⟨fun hc => ?_, fun hc => ?_, fun hc => ?_⟩ <;> rw [hal]
  · rw [if_pos hc]
    rfl
  · rw [if_neg (by omega), if_pos hc]
    rfl
  · rw [if_neg (by omega), if_neg (by omega)]
    rfl

/-- A DELETE record is PENDING before its last second but one has ended, and from then on the leap is taken. -/
theorem State.alignLeap_delete {s : State} {r : Leap} (h : s.ts.leap = some r) (hk : r.kind = .delete) :
    ((s.ts.time.sec : Int) < r.dayEnd - 1 + s.ts.utcOffset →
        s.alignLeap = s.setTs { s.ts with leap := some { r with phase := .pending } }) ∧
      ((s.ts.time.sec : Int) ≥ r.dayEnd - 1 + s.ts.utcOffset →
        s.alignLeap = (s.setTs { s.ts with utcOffset := s.ts.utcOffset - 1, leap := none }).post .leapTaken) := by
  have hal : s.alignLeap =
      if r.dayEnd + s.ts.utcOffset - 1 ≤ (s.ts.time.sec : Int) then s.applyLeap .delete
      else s.setLeapPhase r .pending := by
    unfold State.alignLeap
    simp only [h, hk]
    rfl
  refine ⟨fun hc => ?_, fun hc => ?_⟩ <;> rw [hal]
  · rw [if_neg (by omega)]
    rfl
  · rw [if_pos (by omega)]
    rfl

/-! ### SET_LEAP, CLEAR_LEAP and SET_UTC_OFFSET (R24, R25) -/

/-- The three commands are refused STATE while messages rule the leap record, and while it is INSERTING. -/
theorem State.leapsLocked_iff (s : State) : s.leapsLocked = true ↔ s.leapRefused := by
  have hrule : s.messagesRuleLeaps = true ↔ s.engine.state.follows ∧
      ∃ r ∈ s.engine.selection, (s.ref r).settings.kind = .receiver ∨ (s.ref r).settings.kind = .link := by
    cases hsel : s.engine.selection <;> simp [State.messagesRuleLeaps, State.selectedKind, hsel]
  simp only [State.leapsLocked, Bool.or_eq_true, hrule, Option.any_eq_true, decide_eq_true_eq, State.leapRefused,
    Option.mem_def]

theorem setLeapParams_eq (ws : List Word) :
    setLeapParams ws =
      (leapKindOf (wordAt ws 0 % 2 ^ 8)).map fun k => (k, toSigned 64 (wordAt ws 0 / 2 ^ 8 % 2 ^ 64)) := by
  have hu : unpack ws [.bits 8, .bits 64] = [wordAt ws 0 % 2 ^ 8, wordAt ws 0 / 2 ^ 8 % 2 ^ 64] := by
    simp [unpack, unpackFrom]
  unfold setLeapParams
  rw [hu]
  cases h : leapKindOf (wordAt ws 0 % 2 ^ 8) <;> simp only [h] <;> rfl

/-- The range checks of SET_LEAP, of either kind (R24). -/
theorem TimescaleUnit.leapInRange_iff (ts : TimescaleUnit) (kind : LeapKind) (d : Int) :
    ts.leapInRange kind d = true ↔
      d % 86400 = 0 ∧ ts.utcCount < d ∧ (kind = .delete → ts.utcCount < d - 1 ∧ ts.utcOffset ≠ 0) ∧
        (kind = .insert → ts.utcOffset ≠ 255) := by
  cases kind with
  | insert =>
    rw [TimescaleUnit.leapInRange_insert_iff]
    simp
  | delete =>
    rw [TimescaleUnit.leapInRange_delete_iff]
    simp only [reduceCtorEq, forall_const, IsEmpty.forall_iff, and_true]
    omega

theorem setLeapAct_open {s : State} (h : s.leapsLocked = false) (mp : Mp) (ws : List Word) :
    setLeapAct mp ws s =
      withParams (setLeapParams ws) fun (kind, d) =>
        if s.ts.leapInRange kind d then .taken (s.setTs { s.ts with leap := some ⟨kind, d, .master mp, .pending⟩ }) []
        else .refused .range [] := by
  unfold setLeapAct
  rw [if_neg (by simp [h])]

theorem clearLeapAct_open {s : State} (h : s.leapsLocked = false) (ws : List Word) :
    clearLeapAct ws s =
      if s.ts.leap = none then .refused .notFound [] else .taken (s.setTs { s.ts with leap := none }) [] := by
  unfold clearLeapAct
  rw [if_neg (by simp [h])]

theorem setUtcOffsetAct_open {s : State} (h : s.leapsLocked = false) (ws : List Word) :
    setUtcOffsetAct ws s =
      if s.ts.offsetRefused (wordAt ws 0 % 2 ^ 8) then .refused .range []
      else .taken (s.setTs { s.ts with utcOffset := wordAt ws 0 % 2 ^ 8 }).alignLeap [] := by
  unfold setUtcOffsetAct
  rw [if_neg (by simp [h])]
  rfl

theorem TimescaleUnit.offsetRefused_none {ts : TimescaleUnit} (h : ts.leap = none) (u : Nat) :
    ts.offsetRefused u = false := by
  simp [TimescaleUnit.offsetRefused, h]

theorem TimescaleUnit.offsetRefused_insert {ts : TimescaleUnit} {r : Leap} (h : ts.leap = some r)
    (hk : r.kind = .insert) (u : Nat) : ts.offsetRefused u = decide (u = 255) := by
  simp [TimescaleUnit.offsetRefused, TimescaleUnit.leapHasNoRoom, h, hk]

theorem TimescaleUnit.offsetRefused_delete {ts : TimescaleUnit} {r : Leap} (h : ts.leap = some r)
    (hk : r.kind = .delete) (u : Nat) : ts.offsetRefused u = decide (u = 0) := by
  simp [TimescaleUnit.offsetRefused, TimescaleUnit.leapHasNoRoom, h, hk]

/-- SET_UTC_OFFSET with a value that the leap record leaves no room for (R25). -/
theorem setUtcOffset_refused {s : State} {mp : Mp} {ws : List Word} (hlock : s.leapsLocked = false)
    (hw : s.waits mp .setUtcOffset ws) (hr : s.ts.offsetRefused (wordAt ws 0 % 2 ^ 8) = true) :
    exec (.setUtcOffset mp) s = .next (s.finish mp .range []) := by
  refine next_congr (State.takeCommand_refused hw ?_)
  rw [setUtcOffsetAct_open hlock, if_pos hr]

/-- SET_UTC_OFFSET with a value taken: the record that is present is aligned with it (R25). -/
theorem setUtcOffset_taken {s t : State} {mp : Mp} {ws : List Word} (hlock : s.leapsLocked = false)
    (hw : s.waits mp .setUtcOffset ws) (hr : s.ts.offsetRefused (wordAt ws 0 % 2 ^ 8) = false)
    (ht : (s.setTs { s.ts with utcOffset := wordAt ws 0 % 2 ^ 8 }).alignLeap = t) :
    exec (.setUtcOffset mp) s = .next (t.finish mp .ok []) := by
  refine next_congr (State.takeCommand_taken hw ?_)
  rw [setUtcOffsetAct_open hlock, if_neg (by rw [hr]; exact Bool.false_ne_true), ht]

/-- Settles O15. -/
theorem leapCommandsRuleTheLeapRecord : Obligations.LeapCommandsRuleTheLeapRecord := by
  intro s mp ws
  refine ⟨fun hlock => ?_, fun hopen => ?_⟩
  · have hl : s.leapsLocked = true := s.leapsLocked_iff.mpr hlock
    refine ⟨fun hw => next_congr (State.takeCommand_refused hw ?_), fun hw => next_congr (State.takeCommand_refused hw ?_),
      fun hw => next_congr (State.takeCommand_refused hw ?_)⟩
    · exact if_pos hl
    · exact if_pos hl
    · exact if_pos hl
  have hl : s.leapsLocked = false := Bool.eq_false_iff.mpr (mt s.leapsLocked_iff.mp hopen)
  refine ⟨fun hw h1 h2 => next_congr (State.takeCommand_refused hw ?_), fun hw kind hkind => ?_, fun hw => ?_, fun hw => ?_⟩
  · have hnone : leapKindOf (wordAt ws 0 % 2 ^ 8) = none := by
      cases hk : leapKindOf (wordAt ws 0 % 2 ^ 8) with
      | none => rfl
      | some k =>
        have hcode := (leapKindOf_eq_some_iff _ k).mp hk
        cases k
        · exact absurd hcode h1
        · exact absurd hcode h2
    rw [setLeapAct_open hl, setLeapParams_eq, hnone]
    rfl
  · have hparams : setLeapParams ws = some (kind, toSigned 64 (wordAt ws 0 / 2 ^ 8 % 2 ^ 64)) := by
      rw [setLeapParams_eq, (leapKindOf_eq_some_iff _ kind).mpr hkind]
      rfl
    intro d fits
    refine ⟨fun hf => next_congr (State.takeCommand_taken hw ?_), fun hf => next_congr (State.takeCommand_refused hw ?_)⟩
    · rw [setLeapAct_open hl, hparams]
      exact if_pos ((s.ts.leapInRange_iff kind d).mpr hf)
    · rw [setLeapAct_open hl, hparams]
      exact if_neg (mt (s.ts.leapInRange_iff kind d).mp hf)
  · refine ⟨fun hn => next_congr (State.takeCommand_refused hw ?_), fun hn => next_congr (State.takeCommand_taken hw ?_)⟩
    · rw [clearLeapAct_open hl, if_pos hn]
    · rw [clearLeapAct_open hl, if_neg hn]
      rfl
  · refine ⟨fun hn => setUtcOffset_taken hl hw (TimescaleUnit.offsetRefused_none hn _) (State.alignLeap_none hn),
      fun r hr hk => ?_, fun r hr hk => ?_⟩
    · have href := TimescaleUnit.offsetRefused_insert hr hk
      obtain ⟨hbefore, hat, hafter⟩ :=
        State.alignLeap_insert (s := s.setTs { s.ts with utcOffset := wordAt ws 0 % 2 ^ 8 }) hr hk
      refine ⟨fun hu => setUtcOffset_refused hl hw (by rw [href]; exact decide_eq_true hu), fun hu hc => ?_,
        fun hu hc => ?_, fun hu hc => ?_⟩
      · exact setUtcOffset_taken hl hw (by rw [href]; exact decide_eq_false hu) (hbefore hc)
      · exact setUtcOffset_taken hl hw (by rw [href]; exact decide_eq_false hu) (hat hc)
      · exact setUtcOffset_taken hl hw (by rw [href]; exact decide_eq_false hu) (hafter hc)
    · have href := TimescaleUnit.offsetRefused_delete hr hk
      obtain ⟨hbefore, hfrom⟩ :=
        State.alignLeap_delete (s := s.setTs { s.ts with utcOffset := wordAt ws 0 % 2 ^ 8 }) hr hk
      refine ⟨fun hu => setUtcOffset_refused hl hw (by rw [href]; exact decide_eq_true hu), fun hu hc => ?_,
        fun hu hc => ?_⟩
      · exact setUtcOffset_taken hl hw (by rw [href]; exact decide_eq_false hu) (hbefore hc)
      · exact setUtcOffset_taken hl hw (by rw [href]; exact decide_eq_false hu) (hfrom hc)

/-! ### SET_LOCAL_OFFSET (R26) -/

theorem State.composeFrame_localOffset {s : State} {sec : Nat} {f : Frame} (h : s.composeFrame sec = some f) :
    f.localOffset = s.ts.localOffset := by
  unfold State.composeFrame at h
  dsimp only at h
  split at h <;> cases h
  rfl

/-- Settles O16. -/
theorem setLocalOffsetTakesTheValue : Obligations.SetLocalOffsetTakesTheValue := by
  intro s mp ws hslot x
  obtain ⟨hr, hs⟩ := hslot
  refine ⟨fun hc => next_congr (State.takeCommand_claimNeeded hr hs rfl rfl rfl hc _), fun hc hx => ?_, fun hc hlow hhigh => ?_⟩
  · have hnone : setLocalOffsetParams ws = none := if_neg (by omega)
    refine next_congr (State.takeCommand_refused ⟨hr, hs, fun _ => hc⟩ ?_)
    rw [setLocalOffsetAct, hnone]
    rfl
  · have hsome : setLocalOffsetParams ws = some x := if_pos ⟨hlow, hhigh⟩
    refine ⟨_, next_congr (State.takeCommand_taken ⟨hr, hs, fun _ => hc⟩ ?_), rfl,
      fun sec f hf => State.composeFrame_localOffset hf⟩
    rw [setLocalOffsetAct, hsome]
    rfl

/-! ### STEP_BY, SET_TIME and SLEW_BY (R13, R20 to R23) -/

/-- A step is made exactly when its result lies within the range (R13). -/
theorem State.stepsWithinRange_holds (s : State) : s.stepsWithinRange := by
  intro a
  have hrange := nsRange_cast
  unfold State.stepTarget
  dsimp only
  constructor
  · intro new
    split <;> rename_i h
    · rw [Option.some.injEq]
      zify
      omega
    · rw [hrange] at h
      simp only [reduceCtorEq, false_iff]
      zify
      omega
  · split <;> rename_i h
    · simp only [reduceCtorEq, false_iff]
      omega
    · simp only [true_iff]
      omega

theorem EngineState.leavesTimeToMasters_of_free {st : EngineState} (h : st.free) : st.leavesTimeToMasters = true := by
  rcases h with rfl | rfl | rfl <;> rfl

theorem EngineState.leavesTimeToMasters_of_follows {st : EngineState} (h : st.follows) :
    st.leavesTimeToMasters = false := by
  rcases h with rfl | rfl <;> rfl

theorem State.run_stepTo (s : State) (src : Origin) (new : Instant) (clearFrac : Bool) :
    (s.stepTo src new clearFrac).run = s.run := by
  have h : (s.stepTo src new clearFrac).ts.tickCount = s.ts.tickCount := by
    rw [State.stepTo_frame]
    exact s.tickCount_stepUnit src new clearFrac
  rw [State.run, h, State.run]

theorem State.engine_stepTo (s : State) (src : Origin) (new : Instant) (clearFrac : Bool) :
    (s.stepTo src new clearFrac).engine = { s.engine with stepNeeded := false } := by
  rw [State.stepTo_frame]

/-- A step posts STEP_TAKEN to every master (R14). -/
theorem State.stepTaken_stepTo (s : State) (src : Origin) (new : Instant) (clearFrac : Bool) (m : Mp) :
    ((s.stepTo src new clearFrac).port m).has .stepTaken = true :=
  (s.stepTo_posts src new clearFrac m).2 _ ((s.stepUnit_posts src new clearFrac).2 m)

/-- What the engine makes of a SET_TIME in FREERUN (R21). -/
theorem State.vouch_freerun {s : State} (h : s.engine.state = .freerun) (declared : Nat) :
    s.vouch declared = s.setEngine { s.engine with initialStep := false } := by
  simp [State.vouch, h]

/-- What the engine makes of a SET_TIME out of FREERUN: U takes the declared value, and a change of the grade is told
(R21, R71). -/
theorem State.vouch_cases {s : State} (h : s.engine.state ≠ .freerun) (declared : Nat) :
    (gradeOfPs (some (capPs (declared * 1000))) = s.engine.announced ∧
        s.vouch declared =
          s.setEngine { s.engine with anchor := some ⟨capPs (declared * 1000), s.run⟩, initialStep := false }) ∨
      (gradeOfPs (some (capPs (declared * 1000))) ≠ s.engine.announced ∧
        s.vouch declared =
          (s.setEngine
            { s.engine with
              anchor := some ⟨capPs (declared * 1000), s.run⟩
              announced := gradeOfPs (some (capPs (declared * 1000)))
              initialStep := false }).post .gradeChanged) := by
  unfold State.vouch
  simp only [if_neg h]
  rcases s.setUncertainty_cases (declared * 1000) with ⟨hg, hu⟩ | ⟨hg, hu⟩ <;> rw [hu]
  · exact .inl ⟨hg, rfl⟩
  · exact .inr ⟨hg, rfl⟩

/-- U just set, in nanoseconds of 32 bits, has not grown (R69). -/
theorem Engine.uncertaintyAt_set {e : Engine} {run declared : Nat}
    (ha : e.anchor = some ⟨capPs (declared * 1000), run⟩) (hd : declared < 2 ^ 32) :
    e.uncertaintyAt run = some (declared * 1000) := by
  have hcap : capPs (declared * 1000) = declared * 1000 := Nat.min_eq_left (by simp only [Config.uncertaintyCap]; omega)
  unfold Engine.uncertaintyAt
  rw [ha]
  simp only [hcap, Nat.sub_self, Nat.mul_zero, Nat.zero_div, Nat.add_zero]
  split <;> rfl

/-- What SET_TIME leaves of the engine and the mailboxes, beside the step `stepped` (R21, R71, R73). -/
theorem State.vouch_stepTo (s : State) (src : Origin) (new : Instant) (declared : Nat) :
    let stepped := s.stepTo src new true
    let ps := min 4294967295000 (declared * 1000)
    let regrades := s.engine.state ≠ .freerun ∧ gradeOfPs (some ps) ≠ s.engine.announced
    let u := stepped.vouch declared
    u = { stepped with engine := u.engine, ports := u.ports } ∧
      u.engine =
        { s.engine with
          initialStep := false
          stepNeeded := false
          anchor := if s.engine.state = .freerun then s.engine.anchor else some ⟨ps, s.run⟩
          announced := u.engine.announced } ∧
      (s.engine.state ≠ .freerun → declared < 2 ^ 32 → u.uncertainty = some (declared * 1000)) ∧
      (regrades → u.engine.announced = gradeOfPs (some ps) ∧
        ∀ m, u.port m = (stepped.port m).withFlag .gradeChanged) ∧
      (¬ regrades → u.engine.announced = s.engine.announced ∧ ∀ m, u.port m = stepped.port m) ∧
      (∀ m, (u.port m).has .stepTaken = true) := by
  intro stepped ps regrades u
  have hps : capPs (declared * 1000) = ps := Nat.min_comm _ _
  have hengine : stepped.engine = { s.engine with stepNeeded := false } := s.engine_stepTo src new true
  have hrun : stepped.run = s.run := s.run_stepTo src new true
  have htaken : ∀ m, (stepped.port m).has .stepTaken = true := s.stepTaken_stepTo src new true
  have hstate : stepped.engine.state = s.engine.state := by rw [hengine]
  by_cases hf : s.engine.state = .freerun
  · have hu : u = stepped.setEngine { stepped.engine with initialStep := false } :=
      State.vouch_freerun (hstate.trans hf) declared
    have hports : ∀ m, u.port m = stepped.port m := fun m => by rw [hu]; rfl
    refine ⟨by rw [hu]; rfl, ?_, fun h => absurd hf h, fun h => absurd hf h.1, fun _ => ⟨?_, hports⟩, fun m => ?_⟩
    · rw [hu, State.engine_setEngine, hengine, if_pos hf]
    · rw [hu, State.engine_setEngine, hengine]
    · rw [hports]
      exact htaken m
  · have hanchor : u.engine.anchor = some ⟨capPs (declared * 1000), u.run⟩ := by
      rcases State.vouch_cases (s := stepped) (hstate.symm ▸ hf) declared with ⟨_, hu⟩ | ⟨_, hu⟩ <;>
        rw [show u = _ from hu] <;> rfl
    have hunc : s.engine.state ≠ .freerun → declared < 2 ^ 32 → u.uncertainty = some (declared * 1000) :=
      fun _ hd => Engine.uncertaintyAt_set hanchor hd
    rcases State.vouch_cases (s := stepped) (hstate.symm ▸ hf) declared with ⟨hg, hu⟩ | ⟨hg, hu⟩
    all_goals
      rw [hps, hrun] at hu
      rw [hps, hengine] at hg
      change u = _ at hu
    · have hports : ∀ m, u.port m = stepped.port m := fun m => by rw [hu]; rfl
      refine ⟨by rw [hu]; rfl, ?_, hunc, fun h => absurd hg h.2, fun _ => ⟨?_, hports⟩, fun m => ?_⟩
      · rw [hu, State.engine_setEngine, hengine, if_neg hf]
      · rw [hu, State.engine_setEngine, hengine]
      · rw [hports]
        exact htaken m
    · have hports : ∀ m, u.port m = (stepped.port m).withFlag .gradeChanged := fun m => by
        rw [hu, State.port_post]
        rfl
      refine ⟨by rw [hu]; rfl, ?_, hunc, fun _ => ⟨by rw [hu]; rfl, hports⟩, fun h => absurd ⟨hf, hg⟩ h, fun m => ?_⟩
      · rw [hu, State.engine_post, State.engine_setEngine, hengine, if_neg hf]
      · rw [hports]
        exact MasterPort.has_withFlag_of_has (htaken m) _

theorem stepByAct_free {s : State} (h : s.engine.state.free) (mp : Mp) (ws : List Word) :
    stepByAct mp ws s =
      withParams (s.stepTarget (stepByParams ws)) fun new =>
        .taken (s.stepTo (.master mp) new false) (pack [fTime (TimeValue.ofNs new s.ts.time.frac)]) :=
  if_pos (EngineState.leavesTimeToMasters_of_free h)

theorem setTimeAct_free {s : State} (h : s.engine.state.free) (mp : Mp) (ws : List Word) :
    setTimeAct mp ws s =
      withParams (setTimeParams ws) fun (new, declared) =>
        .taken ((s.stepTo (.master mp) new true).vouch declared) (pack [fAmount ((new : Int) - s.nowNs)]) :=
  if_pos (EngineState.leavesTimeToMasters_of_free h)

theorem slewByAct_free {s : State} (h : s.engine.state.free) (mp : Mp) (ws : List Word) :
    slewByAct mp ws s = withParams (slewByParams ws) (s.slewOrBusy mp) :=
  if_pos (EngineState.leavesTimeToMasters_of_free h)

/-- Settles O11. -/
theorem mastersStepSetAndSlewTheTimescale : Obligations.MastersStepSetAndSlewTheTimescale := by
  intro s mp ws
  refine ⟨s.stepsWithinRange_holds, fun hw hfree => ⟨fun new hn => ?_, fun hn => ?_⟩,
    fun hw hfree => ⟨fun new declared hp => ?_, fun hp => ?_⟩, fun hfollows => ⟨fun hw => ?_, fun hw => ?_⟩, fun hw => ?_⟩
  · refine next_congr (State.takeCommand_taken hw ?_)
    rw [stepByAct_free hfree, show s.stepTarget (stepByParams ws) = some new from hn]
    rfl
  · refine next_congr (State.takeCommand_refused hw ?_)
    rw [stepByAct_free hfree, show s.stepTarget (stepByParams ws) = none from hn]
    rfl
  · refine ⟨_, next_congr (State.takeCommand_taken hw ?_), s.vouch_stepTo (.master mp) new declared⟩
    rw [setTimeAct_free hfree, hp]
    rfl
  · refine next_congr (State.takeCommand_refused hw ?_)
    rw [setTimeAct_free hfree, hp]
    rfl
  · exact next_congr (State.takeCommand_refused hw (if_neg (by simp [EngineState.leavesTimeToMasters_of_follows hfollows])))
  · exact next_congr (State.takeCommand_refused hw (if_neg (by simp [EngineState.leavesTimeToMasters_of_follows hfollows])))
  · intro a
    refine ⟨fun hfollows => ?_, fun hfree hout => ?_, fun hfree hlow hhigh => ⟨fun w hslew => ?_, fun hslew => ?_⟩⟩
    · exact next_congr (State.takeCommand_refused hw (if_neg (by simp [EngineState.leavesTimeToMasters_of_follows hfollows])))
    · have hnone : slewByParams ws = none := if_neg (by simp only [Config.nsPerSec]; omega)
      refine next_congr (State.takeCommand_refused hw ?_)
      rw [slewByAct_free hfree, hnone]
      rfl
    · have hsome : slewByParams ws = some a := if_pos ⟨hlow, hhigh⟩
      refine next_congr (State.takeCommand_refused hw ?_)
      rw [slewByAct_free hfree, hsome]
      simp only [withParams, State.slewOrBusy, hslew]
      rfl
    · have hsome : slewByParams ws = some a := if_pos ⟨hlow, hhigh⟩
      refine next_congr (State.takeCommand_taken hw ?_)
      rw [slewByAct_free hfree, hsome]
      simp only [withParams, State.slewOrBusy, hslew]
      rfl

end Sys2Proof.Machine
end

section
/-! SUPPORT. What one step makes of every block (R12 to R14, R90, R112 to R114, R129, R147). -/

namespace Sys2Proof.Machine

open Sys2Proof

/-! ### The timescale unit -/

/-- The state with the timescale moved to `new` and the slew cancelled, before the leap record is aligned (R13, R14). -/
def State.movedTo (s : State) (new : Instant) (clearFrac : Bool) : State :=
  (s.setTs
    { s.ts with
      time := TimeValue.ofNs new (if clearFrac then 0 else s.ts.time.frac)
      rem := if clearFrac then 0 else s.ts.rem
      reachedFrom := none }).cancelSlew anyOrigin

/-- The unit's own part of a step: it moves, aligns the leap record, and writes the last-step record. -/
theorem State.stepUnit_eq (s : State) (src : Origin) (new : Instant) (clearFrac : Bool) :
    s.stepUnit src new clearFrac =
      ((s.movedTo new clearFrac).alignLeap.setTs
        { (s.movedTo new clearFrac).alignLeap.ts with
          lastStep := some ⟨src, (new : Int) - s.nowNs, s.ts.time,
            TimeValue.ofNs new (if clearFrac then 0 else s.ts.time.frac), s.run⟩ }).post .stepTaken := rfl

/-- The timescale unit as a step has moved it: any slew is cancelled (R12, R13). -/
theorem State.ts_movedTo (s : State) (new : Instant) (clearFrac : Bool) :
    (s.movedTo new clearFrac).ts =
      { s.ts with
        time := TimeValue.ofNs new (if clearFrac then 0 else s.ts.time.frac)
        rem := if clearFrac then 0 else s.ts.rem
        slew := none
        lastSlew := match s.ts.slew with
          | none => s.ts.lastSlew
          | some w => some ⟨w.origin, w.requested, w.start, .cancelled, w.residualNs, s.run⟩
        reachedFrom := none } := by
  unfold State.movedTo State.cancelSlew
  cases h : s.ts.slew with
  | none =>
    simp only [State.ts_setTs, h]
  | some w =>
    simp only [State.ts_setTs, h, anyOrigin, if_true]
    rfl

/-- What one step makes of the timescale unit (R12 to R14). -/
theorem State.ts_stepTo (s : State) (src : Origin) (new : Instant) (clearFrac : Bool) :
    (s.stepTo src new clearFrac).ts =
      { (s.movedTo new clearFrac).ts with
        leap := (s.movedTo new clearFrac).alignLeap.ts.leap
        utcOffset := (s.movedTo new clearFrac).alignLeap.ts.utcOffset
        lastStep := some ⟨src, (new : Int) - s.nowNs, s.ts.time,
          TimeValue.ofNs new (if clearFrac then 0 else s.ts.time.frac), s.run⟩ } := by
  rw [State.stepTo_frame, State.stepUnit_eq]
  rw [State.alignLeap_frame]
  rfl

/-- A step posts what the alignment of the leap record posts (R17). -/
theorem State.alignLeap_posts_stepTo (s : State) (src : Origin) (new : Instant) (clearFrac : Bool) :
    (s.movedTo new clearFrac).alignLeap.onlyPosts (s.stepTo src new clearFrac) := by
  refine State.onlyPosts.trans ?_ (s.stepTo_posts src new clearFrac)
  rw [State.stepUnit_eq]
  exact (State.onlyPosts_of_ports rfl).trans (State.onlyPosts_post _ _)

/-- A step that cancels a slew posts SLEW_ENDED (R12). -/
theorem State.slewEnded_stepTo {s : State} {w : Slew} (h : s.ts.slew = some w) (src : Origin) (new : Instant)
    (clearFrac : Bool) (m : Mp) : ((s.stepTo src new clearFrac).port m).has .slewEnded = true := by
  refine (s.alignLeap_posts_stepTo src new clearFrac m).2 _ (((s.movedTo new clearFrac).alignLeap_onlyPosts m).2 _ ?_)
  unfold State.movedTo State.cancelSlew
  simp only [State.ts_setTs, h, anyOrigin, if_true, State.endSlew, State.port_post, MasterPort.has_withFlag_same]

/-- A step takes no flag of any summary away, and touches nothing else of a mailbox (R181). -/
theorem State.onlyPosts_stepTo (s : State) (src : Origin) (new : Instant) (clearFrac : Bool) :
    s.onlyPosts (s.stepTo src new clearFrac) :=
  (s.stepUnit_posts src new clearFrac).1.trans (s.stepTo_posts src new clearFrac)

/-! ### The output lines -/

theorem Line.cutEmission_eq (l : Line) :
    l.cutEmission =
      { l with
        emission := .none
        flags := { l.flags with pulseCut := l.cutEmission.flags.pulseCut, frameCut := l.cutEmission.flags.frameCut } } := by
  unfold Line.cutEmission
  cases h : l.emission <;> simp only [← h]

theorem Line.cutHeld_eq (l : Line) :
    l.cutHeld = { l with held := none, flags := { l.flags with frameCut := l.flags.frameCut || l.held.isSome } } := by
  unfold Line.cutHeld
  cases h : l.held with
  | none =>
    dsimp only [Option.isSome]
    rw [Bool.or_false, ← h]
  | some x =>
    dsimp only [Option.isSome]
    rw [Bool.or_true]

theorem Line.dropCommitments_eq (l : Line) (gone : Commitment → Bool) :
    l.dropCommitments gone =
      { l with
        commitments := l.commitments.filter fun c => !gone c
        flags := { l.flags with pulseDropped := l.flags.pulseDropped || l.commitments.any gone } } := by
  unfold Line.dropCommitments
  by_cases h : l.commitments.any gone = true
  · simp [h]
  · have hkeep : (l.commitments.filter fun c => !gone c) = l.commitments :=
      List.filter_eq_self.mpr fun c hc => by
        simp only [List.any_eq_true, not_exists, not_and, Bool.not_eq_true] at h
        simp [h c hc]
    rw [if_neg h, hkeep, Bool.eq_false_iff.mpr h, Bool.or_false]

/-- A pulse in flight that a step cuts sets PULSE_CUT; a frame in flight sets FRAME_CUT (R112, R129). -/
theorem Line.cutEmission_flags (l : Line) :
    (l.cutEmission.flags.pulseCut = true ↔ l.flags.pulseCut = true ∨ ∃ k ends, l.emission = .pulse k ends) ∧
      (l.cutEmission.flags.frameCut = true ↔ l.flags.frameCut = true ∨ ∃ h n e, l.emission = .frame h n e) := by
  unfold Line.cutEmission
  cases h : l.emission <;> simp

/-- What a step makes of a line, its note of a start taken away apart (R112, R113, R129). -/
theorem Line.onStep_eq (l : Line) (passed : Instant → Bool) :
    l.onStep passed =
      { l with
        emission := .none
        held := none
        commitments := l.commitments.filter fun c => !passed c.start
        flags := { l.flags with
          pulseCut := l.cutEmission.flags.pulseCut
          frameCut := l.cutEmission.flags.frameCut || l.held.isSome
          pulseDropped := l.flags.pulseDropped || l.commitments.any fun c => passed c.start } } := by
  rw [Line.onStep, Line.dropCommitments_eq, Line.cutHeld_eq, Line.cutEmission_eq]

/-- A load fault, as the obligations write it. -/
theorem State.judgeLoad_fault (s : State) (i : LineId) {load : Load} (h : load ≠ .good) :
    s.judgeLoad i load = s.loadFault i (s.line i) := by
  have hf : (s.setLine i (s.line i).faulted).post .lineFault = s.loadFault i (s.line i) := by
    unfold Line.faulted
    cases he : (s.line i).emission <;> simp only [State.loadFault, he]
  cases load with
  | good => exact absurd rfl h
  | openLoad => exact hf
  | overloaded => exact hf

/-- A load fault that arrives with a start that a step has taken away (R114). -/
theorem State.judgeOvertaken_fault {s : State} {i : LineId} {mode : LineMode} {load : Load} (h : s.overtakenIn i mode)
    (hload : load ≠ .good) : s.judgeOvertaken i mode load = s.loadFault i (s.line i) := by
  unfold State.judgeOvertaken
  dsimp only
  rw [if_pos h]
  exact s.judgeLoad_fault i hload

/-- A line with a start to act on is RUNNING. -/
theorem State.running_of_startDue {s : State} {i : LineId} (h : s.startDue i = true) : (s.line i).state = .running := by
  unfold State.startDue at h
  split at h
  · cases h
  · simp only [State.trainPulseDue, Bool.and_eq_true] at h
    obtain ⟨hdue, _⟩ := h
    unfold State.trainStartDue at hdue
    split at hdue
    · rename_i hc
      exact hc.1
    · cases hdue
  · simp only [State.symbolDue, Line.runningCoded, Bool.and_eq_true, decide_eq_true_eq] at h
    exact h.1.1
  · simp only [State.commitmentDue] at h
    split at h
    · cases h
    · simp only [Bool.and_eq_true, decide_eq_true_eq] at h
      exact h.1

/-- With nothing reached at this tick, no regular start is (R105). -/
theorem State.trainStartDue_none {s : State} (h : s.ts.reachedFrom = none) (l : Line) : s.trainStartDue l = none := by
  have hnow : s.pulseStartNow l = none := by
    unfold State.pulseStartNow
    simp only [State.reachedNow_none h, Bool.false_and, Bool.false_eq_true, if_false, ite_self]
  unfold State.trainStartDue
  rw [hnow, ite_self]

/-- A PULSE line whose start a step has taken away meets a load fault (R114). -/
theorem State.pulseStart_overtaken {s : State} {i : LineId} {load : Load} (hr : s.resetHeld = false)
    (hreached : s.ts.reachedFrom = none) (ho : s.overtakenIn i .pulse) (hload : load ≠ .good) :
    exec (.pulseStart i load) s = .next (s.loadFault i (s.line i)) := by
  refine next_congr ((State.unlessHeld_released hr _).trans ?_)
  simp only [State.trainStartDue_none hreached]
  exact State.judgeOvertaken_fault ho hload

/-- A MARKS line whose start a step has taken away meets a load fault (R114). -/
theorem State.commitmentStart_overtaken {s : State} {i : LineId} {load : Load} (hr : s.resetHeld = false)
    (hfirst : ∀ c ∈ (s.line i).commitments.head?, s.hasReached c.start = false) (ho : s.overtakenIn i .marks)
    (hload : load ≠ .good) : exec (.commitmentStart i load) s = .next (s.loadFault i (s.line i)) := by
  refine next_congr ((State.unlessHeld_released hr _).trans ?_)
  dsimp only
  split
  · exact State.judgeOvertaken_fault ho hload
  · rename_i c rest hc
    rw [if_neg (fun h => by simp [hfirst c (by rw [hc]; rfl)] at h)]
    exact State.judgeOvertaken_fault ho hload

/-- A CODED line whose frame a step has taken away meets a load fault, in either row that starts a symbol (R114). -/
theorem State.frameStart_overtaken {s : State} {i : LineId} {load : Load} (hr : s.resetHeld = false)
    (hheld : (s.line i).held = none) (hem : (s.line i).emission = .none) (ho : s.overtakenIn i .coded)
    (hload : load ≠ .good) :
    exec (.frameBegin i load) s = .next (s.loadFault i (s.line i)) ∧
      exec (.symbolStart i load) s = .next (s.loadFault i (s.line i)) := by
  refine ⟨next_congr ((State.unlessHeld_released hr _).trans ?_), next_congr ((State.unlessHeld_released hr _).trans ?_)⟩
  · simp only [hheld]
    exact State.judgeOvertaken_fault ho hload
  · simp only [hem]
    exact State.judgeOvertaken_fault ho hload

/-- A start that a step took away leaves the line open to a load fault at that tick (R114; log entry 37). -/
theorem State.stepTo_overtaken {s : State} {src : Origin} {new : Instant} {clearFrac : Bool} {i : LineId} {load : Load}
    (hr : s.resetHeld = false) (hdue : s.startDue i = true) (hgone : (s.stepTo src new clearFrac).startDue i = false)
    (hload : load ≠ .good) :
    let t := s.stepTo src new clearFrac
    let mode := (s.line i).settings.mode
    let enters (c : Instr) : Prop := exec c t = .next (t.loadFault i (t.line i))
    (mode = .pulse → enters (.pulseStart i load)) ∧ (mode = .marks → enters (.commitmentStart i load)) ∧
      (mode = .coded → enters (.frameBegin i load) ∧ enters (.symbolStart i load)) := by
  intro t mode enters
  have htr : t.resetHeld = false := by rw [show t = _ from s.stepTo_frame src new clearFrac]; exact hr
  have hline : t.line i = { (s.line i).onStep (s.passedBy new) with overtaken := some s.ts.tickCount } := by
    rw [s.line_stepTo src new clearFrac i, if_pos ⟨hdue, hgone⟩]
  rw [Line.onStep_eq] at hline
  have htick : t.ts.tickCount = s.ts.tickCount := by
    rw [show t.ts = _ from s.ts_stepTo src new clearFrac, State.ts_movedTo]
  have hreached : t.ts.reachedFrom = none := by
    rw [show t.ts = _ from s.ts_stepTo src new clearFrac, State.ts_movedTo]
  have ho : ∀ m, mode = m → t.overtakenIn i m := fun m hm => by
    rw [State.overtakenIn, hline, htick]
    exact ⟨State.running_of_startDue hdue, hm, rfl⟩
  refine ⟨fun hm => State.pulseStart_overtaken htr hreached (ho _ hm) hload, fun hm => ?_, fun hm => ?_⟩
  · refine State.commitmentStart_overtaken htr (fun c hc => ?_) (ho _ hm) hload
    have hdue' : t.commitmentDue i = false := by
      have hmode : (t.line i).settings.mode = .marks := by rw [hline]; exact hm
      have hg := hgone
      change t.startDue i = false at hg
      simpa only [State.startDue, hmode] using hg
    have hem : (t.line i).emission = .none := by rw [hline]
    have hrun : (t.line i).state = .running := (ho _ hm).1
    simp only [State.commitmentDue, hem, hrun, decide_true, Bool.true_and, Bool.or_eq_false_iff, Option.any_eq_false] at hdue'
    simpa using hdue'.1 c hc
  · exact State.frameStart_overtaken htr (by rw [hline]) (by rw [hline]) (ho _ hm) hload

/-- What a step makes of a line, and which flags it sets (R112 to R114, R129). -/
theorem State.line_stepTo_eq (s : State) (src : Origin) (new : Instant) (clearFrac : Bool) (i : LineId) :
    let t := s.stepTo src new clearFrac
    t.line i =
        { s.line i with
          emission := .none
          held := none
          commitments := (s.line i).commitments.filter fun c => !s.passedBy new c.start
          flags := { (s.line i).flags with
            pulseCut := (t.line i).flags.pulseCut
            frameCut := (t.line i).flags.frameCut
            pulseDropped := (t.line i).flags.pulseDropped }
          overtaken :=
            if s.startDue i = true ∧ t.startDue i = false then some s.ts.tickCount else (s.line i).overtaken } ∧
      ((t.line i).flags.pulseCut = true ↔
        (s.line i).flags.pulseCut = true ∨ ∃ k ends, (s.line i).emission = .pulse k ends) ∧
      ((t.line i).flags.frameCut = true ↔
        (s.line i).flags.frameCut = true ∨ (s.line i).held.isSome = true ∨
          ∃ h n e, (s.line i).emission = .frame h n e) ∧
      ((t.line i).flags.pulseDropped = true ↔
        (s.line i).flags.pulseDropped = true ∨ ∃ c ∈ (s.line i).commitments, s.passedBy new c.start = true) := by
  intro t
  have hline : t.line i = _ := s.line_stepTo src new clearFrac i
  rw [Line.onStep_eq] at hline
  obtain ⟨hpulse, hframe⟩ := (s.line i).cutEmission_flags
  rw [hline]
  refine ⟨rfl, hpulse, ?_, ?_⟩
  · rw [Bool.or_eq_true, hframe, or_assoc]
    exact or_congr_right or_comm
  · rw [Bool.or_eq_true, List.any_eq_true]

/-! ### The network ports -/

theorem State.netPort_stepTo (s : State) (src : Origin) (new : Instant) (clearFrac : Bool) (p : NetId) :
    (s.stepTo src new clearFrac).netPort p = (s.netPort p).onStep new s.net.settings.interval := by
  rw [State.stepTo_frame]
  exact Two.get_map _ _ p

/-- What a step carries a mark or a commitment past (R90, R113; log entry 10). -/
theorem State.passedBy_iff (s : State) (new x : Instant) :
    s.passedBy new x = true ↔
      s.nowNs < new ∧
        ((s.nowNs < x ∧ x ≤ new) ∨ x ≤ s.nowNs ∨ s.reachedNow ((x : Int) - Config.nsRange) = true) := by
  simp only [State.passedBy, Bool.and_eq_true, Bool.or_eq_true, decide_eq_true_eq, State.hasReached_iff]

/-- Settles O12. -/
theorem stepTellsEveryBlock : Obligations.StepTellsEveryBlock := by
  intro s src new clearFrac t
  have hts : t.ts = _ := s.ts_stepTo src new clearFrac
  have hframe : t = _ := s.stepTo_frame src new clearFrac
  have hposts := s.onlyPosts_stepTo src new clearFrac
  have htime : t.ts.time = ⟨new / 10 ^ 9, new % 10 ^ 9, if clearFrac then 0 else s.ts.time.frac⟩ := by
    rw [hts, State.ts_movedTo]
    rfl
  have hreached : t.ts.reachedFrom = none := by rw [hts, State.ts_movedTo]
  refine ⟨htime, by rw [hts, State.ts_movedTo], ?_, fun w hw => ⟨?_, State.slewEnded_stepTo hw src new clearFrac⟩,
    fun hw => ?_, s.stepTaken_stepTo src new clearFrac, by rw [hts, State.ts_movedTo], by rw [hts, State.ts_movedTo],
    by rw [hts, State.ts_movedTo], by rw [hts, State.ts_movedTo], fun hl => ?_, s.engine_stepTo src new clearFrac,
    s.line_stepTo_eq src new clearFrac, fun c hc => State.passedBy_backward hc c, fun c hc => ?_, hreached,
    State.reachedNow_none hreached, by rw [hts, State.ts_movedTo], hposts, by rw [hframe], by rw [hframe],
    s.netPort_stepTo src new clearFrac, by rw [hframe], by rw [hframe], by rw [hframe], by rw [hframe],
    fun i load hr hdue hgone hload => State.stepTo_overtaken hr hdue hgone hload⟩
  · rw [htime, hts]
    rfl
  · rw [hts, State.ts_movedTo]
    simp only [hw]
  · rw [hts, State.ts_movedTo]
    simp only [hw]
  · have hnone : (s.movedTo new clearFrac).ts.leap = none := by rw [State.ts_movedTo]; exact hl
    rw [hts, State.alignLeap_none hnone, State.ts_movedTo]
    exact ⟨hl, rfl⟩
  · rw [State.passedBy_iff]
    exact and_iff_right hc

/-! ### The leap record and the mark list (R17, R90, R91) -/

/-- What a step leaves of an INSERT record (R17). -/
theorem State.leap_stepTo_insert {s : State} {r : Leap} (h : s.ts.leap = some r) (hk : r.kind = .insert) (src : Origin)
    (new : Instant) (clearFrac : Bool) :
    let t := s.stepTo src new clearFrac
    let sec : Int := ((new / 10 ^ 9 : Nat) : Int)
    (sec < r.dayEnd + s.ts.utcOffset → t.ts.leap = some { r with phase := .pending } ∧ t.ts.utcOffset = s.ts.utcOffset) ∧
      (sec = r.dayEnd + s.ts.utcOffset →
        t.ts.leap = some { r with phase := .inserting } ∧ t.ts.utcOffset = s.ts.utcOffset) ∧
      (sec > r.dayEnd + s.ts.utcOffset →
        t.ts.leap = none ∧ t.ts.utcOffset = s.ts.utcOffset + 1 ∧ ∀ m, (t.port m).has .leapTaken = true) := by
  intro t sec
  have hmoved := s.ts_movedTo new clearFrac
  have hleap : (s.movedTo new clearFrac).ts.leap = some r := by rw [hmoved]; exact h
  have halign := State.alignLeap_insert hleap hk
  have hposts := s.alignLeap_posts_stepTo src new clearFrac
  rw [hmoved] at halign
  obtain ⟨hbefore, hat, hafter⟩ := halign
  have hts : t.ts = _ := s.ts_stepTo src new clearFrac
  refine ⟨fun hc => ?_, fun hc => ?_, fun hc => ?_⟩
  · rw [hts, hbefore hc]
    exact ⟨rfl, rfl⟩
  · rw [hts, hat hc]
    exact ⟨rfl, rfl⟩
  · refine ⟨by rw [hts, hafter hc]; rfl, by rw [hts, hafter hc]; rfl, fun m => (hposts m).2 _ ?_⟩
    rw [hafter hc, State.port_post]
    exact MasterPort.has_withFlag_same _ _

/-- What a step leaves of a DELETE record (R17). -/
theorem State.leap_stepTo_delete {s : State} {r : Leap} (h : s.ts.leap = some r) (hk : r.kind = .delete) (src : Origin)
    (new : Instant) (clearFrac : Bool) :
    let t := s.stepTo src new clearFrac
    let sec : Int := ((new / 10 ^ 9 : Nat) : Int)
    (sec < r.dayEnd - 1 + s.ts.utcOffset →
        t.ts.leap = some { r with phase := .pending } ∧ t.ts.utcOffset = s.ts.utcOffset) ∧
      (sec ≥ r.dayEnd - 1 + s.ts.utcOffset →
        t.ts.leap = none ∧ t.ts.utcOffset = s.ts.utcOffset - 1 ∧ ∀ m, (t.port m).has .leapTaken = true) := by
  intro t sec
  have hmoved := s.ts_movedTo new clearFrac
  have hleap : (s.movedTo new clearFrac).ts.leap = some r := by rw [hmoved]; exact h
  have halign := State.alignLeap_delete hleap hk
  have hposts := s.alignLeap_posts_stepTo src new clearFrac
  rw [hmoved] at halign
  obtain ⟨hbefore, hfrom⟩ := halign
  have hts : t.ts = _ := s.ts_stepTo src new clearFrac
  refine ⟨fun hc => ?_, fun hc => ?_⟩
  · rw [hts, hbefore hc]
    exact ⟨rfl, rfl⟩
  · refine ⟨by rw [hts, hfrom hc]; rfl, by rw [hts, hfrom hc]; rfl, fun m => (hposts m).2 _ ?_⟩
    rw [hfrom hc, State.port_post]
    exact MasterPort.has_withFlag_same _ _

/-- What a passed mark becomes depends on the line settings alone. -/
theorem State.passMark_congr {s t : State} (h : t.lines = s.lines) (new : Instant) (m : Mark) :
    t.passMark new m = s.passMark new m := by
  have hc : t.largestCompensation = s.largestCompensation := by
    funext ls
    simp only [State.largestCompensation, State.line, h]
  have hr : t.retime = s.retime := by
    funext x
    simp only [State.retime, hc]
  simp only [State.passMark, hc, hr]

/-- A one-shot mark that a step passes leaves the list (R90). -/
theorem State.passMark_oneShot {m : Mark} (h : m.period = none) (s : State) (new : Instant) :
    s.passMark new m =
      (none, ⟨m.id, m.tag, m.owner, .completed, m.due, m.fired, m.withheld, sat16 m.skipped, m.partialTakes⟩) := by
  unfold State.passMark
  simp only [h, Mark.outcomeOf]

/-- The mark that a passed periodic one becomes: re-armed after `k` passes of `p` ns (R91). -/
def Mark.rearmed (m : Mark) (p k comp : Nat) : Mark :=
  { m with
    due := m.due + k * p
    remaining := m.remaining.map (· - k)
    skipped := sat16By m.skipped k
    taking := m.due + k * p - comp
    takingComp := comp }

/-- The outcome of a periodic mark that leaves the list after `k` passes of `p` ns (R91). -/
def Mark.spentOutcome (m : Mark) (p k : Nat) : Outcome :=
  ⟨m.id, m.tag, m.owner, .completed, m.due + (k - 1) * p, m.fired, m.withheld, sat16By m.skipped k, m.partialTakes⟩

/-- A periodic mark that a step passes: it is re-armed, or it leaves the list as its count is spent or its next due instant
would leave the range (R91). -/
theorem State.passMark_periodic {m : Mark} {ms : Nat} (h : m.period = some ms) (s : State) (new : Instant) :
    s.passMark new m =
      (if m.remaining.map (· - passCount m (ms * 1000000) (s.largestCompensation m.lines) new) = some 0 ∨
          Config.nsRange ≤ m.due + passCount m (ms * 1000000) (s.largestCompensation m.lines) new * (ms * 1000000) then none
        else some (m.rearmed (ms * 1000000) (passCount m (ms * 1000000) (s.largestCompensation m.lines) new)
          (s.largestCompensation m.lines)),
        m.spentOutcome (ms * 1000000) (passCount m (ms * 1000000) (s.largestCompensation m.lines) new)) := by
  unfold State.passMark
  simp only [h]
  generalize passCount m (ms * 1000000) (s.largestCompensation m.lines) new = k
  split_ifs
  · rfl
  · simp only [State.retime, Mark.rearmed, Mark.spentOutcome, Mark.outcomeOf, h]

/-- A mark that stays in the list keeps its id (R91). -/
theorem State.passMark_id {s : State} {new : Instant} {m m' : Mark} (h : (s.passMark new m).1 = some m') : m'.id = m.id := by
  cases hp : m.period with
  | none =>
    rw [State.passMark_oneShot hp] at h
    cases h
  | some ms =>
    rw [State.passMark_periodic hp] at h
    obtain ⟨_, hm⟩ := Option.ite_none_left_eq_some.mp h
    rw [← Option.some.inj hm, Mark.rearmed]

/-- A mark that leaves the list hands an outcome to its owner (R91). -/
theorem State.passMark_owner (s : State) (new : Instant) (m : Mark) : (s.passMark new m).2.owner = m.owner := by
  cases hp : m.period with
  | none => rw [State.passMark_oneShot hp]
  | some ms =>
    rw [State.passMark_periodic hp]
    rfl

/-- The marks that a step leaves: those in the list and what becomes of those passed (R90, R91). -/
theorem passMarks_perm (new : Instant) (ms : List Mark) (s : State) :
    (passMarks new ms s).marks.Perm (s.marks ++ ms.filterMap fun m => (s.passMark new m).1) := by
  induction ms generalizing s with
  | nil => simp [passMarks]
  | cons m rest ih =>
    unfold passMarks
    cases hp : s.passMark new m with
    | mk kept out =>
      cases kept with
      | some m' =>
        refine (ih _).trans ?_
        rw [List.filterMap_cons_some (by rw [hp])]
        exact ((insertMark_perm m' s.marks).append_right _).trans List.perm_middle.symm
      | none =>
        refine (ih _).trans ?_
        rw [List.filterMap_cons_none (by rw [hp])]
        have hl : (s.handOutcome out).lines = s.lines := by rw [State.handOutcome_frame]
        have hm : (s.handOutcome out).marks = s.marks := by rw [State.handOutcome_frame]
        simp only [State.passMark_congr hl, hm]
        exact List.Perm.refl _

/-- The order of R78 is kept as passed marks, of ids apart, come back into the list. -/
theorem passMarks_pairwise (new : Instant) (ms : List Mark) (s : State)
    (hid : ((ms ++ s.marks).map (·.id)).Nodup) (h : s.marks.Pairwise (fun a b => a.before b)) :
    (passMarks new ms s).marks.Pairwise (fun a b => a.before b) := by
  induction ms generalizing s with
  | nil => exact h
  | cons m rest ih =>
    simp only [List.cons_append, List.map_cons, List.nodup_cons] at hid
    obtain ⟨hm, hrest⟩ := hid
    unfold passMarks
    cases hp : s.passMark new m with
    | mk kept out =>
      cases kept with
      | some m' =>
        have hid' : m'.id = m.id := State.passMark_id (by rw [hp])
        refine ih _ ?_ (insertMark_pairwise (fun x hx hne => hm ?_) h)
        · have hperm : ((rest ++ insertMark m' s.marks).map (·.id)).Perm (m.id :: (rest ++ s.marks).map (·.id)) := by
            rw [← hid', ← List.map_cons]
            exact (((insertMark_perm m' s.marks).append_left rest).trans List.perm_middle).map _
          exact (hperm.nodup_iff).mpr (List.nodup_cons.mpr ⟨hm, hrest⟩)
        · rw [← hid', ← hne]
          exact List.mem_map_of_mem (List.mem_append_right rest hx)
      | none =>
        have hmarks : (s.handOutcome out).marks = s.marks := by rw [State.handOutcome_frame]
        exact ih _ (by rw [hmarks]; exact hrest) (by rw [hmarks]; exact h)

/-- The outcomes that the marks of `ms` leaving the list hand to port `mp` (R91). -/
def State.outcomesLeft (s : State) (new : Instant) (mp : Mp) (ms : List Mark) : List Outcome :=
  (ms.filter fun m => decide (m.owner = mp) && (s.passMark new m).1.isNone).map fun m => (s.passMark new m).2

theorem State.outcomesLeft_congr {s t : State} (h : t.lines = s.lines) (new : Instant) (mp : Mp) (ms : List Mark) :
    t.outcomesLeft new mp ms = s.outcomesLeft new mp ms := by
  simp only [State.outcomesLeft, State.passMark_congr h]

/-- An outcome handed to a queue: appended where there is room, else lost (R94). -/
theorem State.queue_handOutcome (s : State) (o : Outcome) (mp : Mp) :
    (s.handOutcome o).queue mp =
      if o.owner = mp ∧ (s.queue mp).length < 16 then s.queue mp ++ [o] else s.queue mp := by
  by_cases hmp : o.owner = mp
  · subst hmp
    rcases s.handOutcome_cases o with ⟨hq, h⟩ | ⟨_, hl, h⟩ | ⟨hl, h⟩ <;> rw [h]
    · rw [if_pos ⟨rfl, by rw [hq]; decide⟩, hq]
      exact State.queue_setQueue _ _ _
    · rw [if_pos ⟨rfl, hl⟩]
      exact State.queue_setQueue _ _ _
    · rw [if_neg (by omega)]
      rfl
  · rw [if_neg (fun hc => hmp hc.1)]
    have hne : mp ≠ o.owner := fun e => hmp e.symm
    rcases s.handOutcome_cases o with ⟨_, h⟩ | ⟨_, _, h⟩ | ⟨_, h⟩ <;> rw [h]
    · exact State.queue_setQueue_other _ hne _
    · exact State.queue_setQueue_other _ hne _
    · rfl

/-- OUTCOMES_READY comes with the first outcome of an empty queue (R94). -/
theorem State.handOutcome_ready {s : State} {o : Outcome} (h : s.queue o.owner = []) :
    ((s.handOutcome o).port o.owner).has .outcomesReady = true := by
  rcases s.handOutcome_cases o with ⟨_, hh⟩ | ⟨hq, _, _⟩ | ⟨hl, _⟩
  · rw [hh, State.postTo, State.port_setPort]
    exact MasterPort.has_withFlag_same _ _
  · exact absurd h hq
  · rw [h] at hl
    exact absurd hl (by decide)

/-- OUTCOME_OVERRUN comes with an outcome that finds 16 waiting (R94). -/
theorem State.handOutcome_overrun {s : State} {o : Outcome} (h : 16 ≤ (s.queue o.owner).length) :
    ((s.handOutcome o).port o.owner).has .outcomeOverrun = true := by
  rcases s.handOutcome_cases o with ⟨hq, _⟩ | ⟨_, hl, _⟩ | ⟨_, hh⟩
  · rw [hq] at h
    exact absurd h (by decide)
  · omega
  · rw [hh, State.postTo, State.port_setPort]
    exact MasterPort.has_withFlag_same _ _

/-- What port `mp` gets of the outcomes of passed marks: the first of them that fit 16, and the flags (R91, R94). -/
theorem passMarks_queue (new : Instant) (mp : Mp) (ms : List Mark) (s : State) (h : (s.queue mp).length ≤ 16) :
    let t := passMarks new ms s
    let gone := s.outcomesLeft new mp ms
    t.queue mp = (s.queue mp ++ gone).take 16 ∧
      (s.queue mp = [] → gone ≠ [] → (t.port mp).has .outcomesReady = true) ∧
      (16 < (s.queue mp ++ gone).length → (t.port mp).has .outcomeOverrun = true) := by
  induction ms generalizing s with
  | nil =>
    refine ⟨?_, fun _ hg => absurd rfl hg, fun hl => ?_⟩
    · simp only [passMarks, State.outcomesLeft, List.filter_nil, List.map_nil, List.append_nil]
      exact (List.take_of_length_le h).symm
    · simp only [State.outcomesLeft, List.filter_nil, List.map_nil, List.append_nil] at hl
      omega
  | cons m rest ih =>
    unfold passMarks
    have hposts := fun t : State => passMarks_onlyPosts new rest t mp
    cases hp : s.passMark new m with
    | mk kept out =>
      cases kept with
      | some m' =>
        have hgone : s.outcomesLeft new mp (m :: rest) = s.outcomesLeft new mp rest := by
          simp [State.outcomesLeft, hp]
        rw [hgone]
        exact ih { s with marks := insertMark m' s.marks } h
      | none =>
        have hl : (s.handOutcome out).lines = s.lines := by rw [State.handOutcome_frame]
        have hout : out.owner = m.owner := by rw [← s.passMark_owner new m, hp]
        have hq := s.queue_handOutcome out mp
        dsimp only
        by_cases hmp : m.owner = mp
        · have hgone : s.outcomesLeft new mp (m :: rest) = out :: s.outcomesLeft new mp rest := by
            simp [State.outcomesLeft, hp, hmp]
          have howner : out.owner = mp := hout.trans hmp
          rw [hgone]
          by_cases hroom : (s.queue mp).length < 16
          · rw [if_pos ⟨howner, hroom⟩] at hq
            obtain ⟨htake, _, hover⟩ := ih (s.handOutcome out) (by rw [hq, List.length_append]; simpa using hroom)
            rw [hq, State.outcomesLeft_congr hl, List.append_assoc] at htake hover
            refine ⟨htake, fun hempty _ => (hposts _).2 _ ?_, hover⟩
            rw [← howner]
            exact State.handOutcome_ready (by rw [howner]; exact hempty)
          · rw [if_neg (fun hc => hroom hc.2)] at hq
            have hfull : (s.queue mp).length = 16 := by omega
            obtain ⟨htake, _, _⟩ := ih (s.handOutcome out) (by rw [hq]; exact h)
            rw [hq, State.outcomesLeft_congr hl] at htake
            refine ⟨?_, fun hempty _ => ?_, fun _ => (hposts _).2 _ ?_⟩
            · rw [htake, List.take_append_of_le_length (by omega), List.take_append_of_le_length (by omega)]
            · rw [hempty] at hfull
              exact absurd hfull (by decide)
            · rw [← howner]
              exact State.handOutcome_overrun (by rw [howner]; omega)
        · have hgone : s.outcomesLeft new mp (m :: rest) = s.outcomesLeft new mp rest := by
            simp [State.outcomesLeft, hmp]
          rw [if_neg (fun hc => hmp (hout.symm.trans hc.1))] at hq
          have hrest := ih (s.handOutcome out) (by rw [hq]; exact h)
          rw [hq, State.outcomesLeft_congr hl] at hrest
          rw [hgone]
          exact hrest

/-- The mark list, the queues and the mailboxes after a step are those that the passing of marks leaves (R90). -/
theorem State.marks_stepTo (s : State) (src : Origin) (new : Instant) (clearFrac : Bool) :
    ∃ u : State, u.lines = s.lines ∧ u.outcomes = s.outcomes ∧
      u.marks = (s.marks.filter fun m => !s.passedBy new m.taking) ∧
      (s.stepTo src new clearFrac).marks = (passMarks new (s.marks.filter fun m => s.passedBy new m.taking) u).marks ∧
      (s.stepTo src new clearFrac).outcomes = (passMarks new (s.marks.filter fun m => s.passedBy new m.taking) u).outcomes ∧
      (s.stepTo src new clearFrac).ports = (passMarks new (s.marks.filter fun m => s.passedBy new m.taking) u).ports := by
  have hunit : (s.stepUnit src new clearFrac).engineOnStep =
      { s with
        ts := (s.stepUnit src new clearFrac).ts
        ports := (s.stepUnit src new clearFrac).ports
        engine := { s.engine with stepNeeded := false } } := by
    rw [State.engineOnStep, State.stepUnit_frame]
    rfl
  have hpass : (s.stepUnit src new clearFrac).engineOnStep.marksOnStep (s.passedBy new) new =
      passMarks new (s.marks.filter fun m => s.passedBy new m.taking)
        { s with
          ts := (s.stepUnit src new clearFrac).ts
          ports := (s.stepUnit src new clearFrac).ports
          engine := { s.engine with stepNeeded := false }
          marks := s.marks.filter fun m => !s.passedBy new m.taking } := by
    rw [hunit]
    rfl
  refine ⟨{ s with
      ts := (s.stepUnit src new clearFrac).ts
      ports := (s.stepUnit src new clearFrac).ports
      engine := { s.engine with stepNeeded := false }
      marks := s.marks.filter fun m => !s.passedBy new m.taking }, rfl, rfl, rfl, ?_, ?_, ?_⟩
  all_goals
    rw [← hpass]
    simp only [State.stepTo, State.noteOvertaken, State.blocksOnStep, State.netOnStep, State.composerOnStep, State.linesOnStep]

/-- One pass more, or one less, of a periodic mark, as R91 counts them (log entry 19). -/
theorem passCount_le_iff {m : Mark} {p : Nat} (comp : Nat) (new : Instant) (hp : 0 < p) (hdue : m.due < Config.nsRange)
    (hrem : ∀ n ∈ m.remaining, 1 ≤ n) {j : Nat} (hj : 1 ≤ j) :
    passCount m p comp new ≤ j ↔
      new + comp < m.due + j * p ∨ Config.nsRange ≤ m.due + j * p ∨ ∃ n ∈ m.remaining, n ≤ j := by
  rw [← passesToClear_le_iff comp new hp hj, ← passesToRange_le_iff hp hdue hj]
  unfold passCount
  dsimp only
  cases hr : m.remaining with
  | none => simp
  | some r =>
    have h1 : 1 ≤ r := hrem r (by rw [hr]; rfl)
    simp only [max_eq_right h1, min_le_iff, Option.mem_def, Option.some.injEq, exists_eq_left', or_assoc]

theorem one_le_passCount (m : Mark) (p comp : Nat) (new : Instant) : 1 ≤ passCount m p comp new := by
  unfold passCount
  dsimp only
  cases m.remaining <;> simp

/-- What a step makes of a periodic mark that it passes: the least number of passes that puts the taking instant after the
step, spends the count or would leave the range (R91; log entry 19). -/
theorem State.passMark_passes {s : State} {m : Mark} {ms p : Nat} (new : Instant) (hm : m.wf) (h : m.period = some ms)
    (hp : p = ms * 1000000) :
    ∃ comp k : Nat,
      (∀ l : LineId, m.lines.getLsbD l.val = true → (s.line l).settings.compensation ≤ comp) ∧
      (∃ l : LineId, m.lines.getLsbD l.val = true ∧ (s.line l).settings.compensation = comp) ∧
      let spent (j : Nat) : Prop := m.remaining = some j ∨ Config.nsRange ≤ m.due + j * p
      1 ≤ k ∧ (spent k ∨ new + comp < m.due + k * p) ∧
        (∀ j, 1 ≤ j → j < k → ¬ spent j ∧ m.due + j * p ≤ new + comp) ∧
        (s.passMark new m).2 = m.spentOutcome p k ∧ (spent k → (s.passMark new m).1 = none) ∧
        (¬ spent k → (s.passMark new m).1 = some (m.rearmed p k comp)) := by
  obtain ⟨_, hlines, hdue, _, hperiod, hremaining, _⟩ := hm
  have hpos : 0 < p := by
    have := (hperiod ms h).1
    omega
  have hrem : ∀ n ∈ m.remaining, 1 ≤ n := fun n hn => (hremaining n hn).1
  obtain ⟨hall, hat⟩ := s.largestCompensation_spec hlines
  have hpass := State.passMark_periodic h s new
  rw [← hp] at hpass
  have hle := fun {j : Nat} (hj : 1 ≤ j) =>
    passCount_le_iff (s.largestCompensation m.lines) new hpos hdue hrem hj
  have hone := one_le_passCount m p (s.largestCompensation m.lines) new
  generalize s.largestCompensation m.lines = comp at *
  generalize passCount m p comp new = k at *
  have hspend : ∀ n ∈ m.remaining, k ≤ n := fun n hn => (hle (hrem n hn)).mpr (.inr (.inr ⟨n, hn, le_rfl⟩))
  have hspent : (m.remaining.map (· - k) = some 0) ↔ m.remaining = some k := by
    cases hr : m.remaining with
    | none => simp
    | some n =>
      have := hspend n hr
      simp only [Option.map_some, Option.some.injEq]
      omega
  simp only [hspent] at hpass
  refine ⟨comp, k, hall, hat, hone, ?_, fun j hj hjk => ?_, by rw [hpass], fun hs => ?_, fun hs => ?_⟩
  · rcases (hle hone).mp le_rfl with hclear | hrange | ⟨n, hn, hnk⟩
    · exact .inr hclear
    · exact .inl (.inr hrange)
    · exact .inl (.inl (by rw [show m.remaining = some n from hn, le_antisymm hnk (hspend n hn)]))
  · have hnot := mt (hle hj).mpr (Nat.not_le.mpr hjk)
    simp only [not_or, not_exists, not_and, not_lt] at hnot
    obtain ⟨hclear, hrange, hcount⟩ := hnot
    refine ⟨fun hs => ?_, hclear⟩
    rcases hs with hs | hs
    · exact hcount j hs le_rfl
    · exact hrange hs
  · rw [hpass]
    exact if_pos hs
  · rw [hpass]
    exact if_neg hs

theorem sat16_eq {n : Nat} (h : n ≤ 65535) : sat16 n = min (n + 1) 65535 := by
  unfold sat16
  split <;> omega

/-- Settles O13. -/
theorem stepAlignsLeapAndPassesMarks : Obligations.StepAlignsLeapAndPassesMarks := by
  intro s src new clearFrac hwf t sec carried
  obtain ⟨_, hpair, hnodup, _, hmarks, hqueues⟩ := hwf
  obtain ⟨u, hlines, houtcomes, humarks, htmarks, htoutcomes, htports⟩ := s.marks_stepTo src new clearFrac
  have hcongr : ∀ m, u.passMark new m = s.passMark new m := State.passMark_congr hlines new
  have huqueue : ∀ mp, u.queue mp = s.queue mp := fun mp => by rw [State.queue, houtcomes, State.queue]
  have hsplit : ((s.marks.filter carried) ++ u.marks).Perm s.marks := by
    rw [humarks]
    exact List.filter_append_perm _ _
  refine ⟨fun r hr hk => State.leap_stepTo_insert hr hk src new clearFrac,
    fun r hr hk => State.leap_stepTo_delete hr hk src new clearFrac, fun hback => ?_, s.passedBy_iff new, ?_, ?_,
    fun mp => ?_, fun m hm => ⟨fun hp => ?_, fun ms hp => ?_⟩⟩
  · have hnone : (s.marks.filter fun m => s.passedBy new m.taking) = [] :=
      List.filter_eq_nil_iff.mpr fun m _ => by simp [State.passedBy_backward hback]
    have hall : (s.marks.filter fun m => !s.passedBy new m.taking) = s.marks :=
      List.filter_eq_self.mpr fun m _ => by simp [State.passedBy_backward hback]
    rw [hnone] at htmarks htoutcomes
    rw [hall] at humarks
    exact ⟨htmarks.trans humarks, htoutcomes.trans houtcomes⟩
  · have hperm := passMarks_perm new (s.marks.filter carried) u
    rw [humarks] at hperm
    simp only [hcongr] at hperm
    rw [show t.marks = _ from htmarks]
    exact hperm
  · rw [show t.marks = _ from htmarks]
    refine List.Pairwise.imp (fun {a b} => (Mark.before_iff a b).mp) (passMarks_pairwise new _ u ?_ ?_)
    · exact ((hsplit.map _).nodup_iff).mpr hnodup
    · rw [humarks]
      exact hpair.filter _
  · have hgone : u.outcomesLeft new mp (s.marks.filter carried) =
        (s.marks.filter fun m => carried m && decide (m.owner = mp) && (s.passMark new m).1.isNone).map
          fun m => (s.passMark new m).2 := by
      simp only [State.outcomesLeft, hcongr, List.filter_filter]
      congr 2
      funext m
      cases carried m <;> simp
    have hq := passMarks_queue new mp (s.marks.filter carried) u (by rw [huqueue]; exact (hqueues mp).1)
    rw [hgone, huqueue] at hq
    obtain ⟨htake, hready, hover⟩ := hq
    have htq : t.queue mp = (passMarks new (s.marks.filter carried) u).queue mp := by
      rw [State.queue, show t.outcomes = _ from htoutcomes, State.queue]
    have htp : t.port mp = (passMarks new (s.marks.filter carried) u).port mp := by
      rw [State.port, show t.ports = _ from htports, State.port]
    rw [htq, htp]
    exact ⟨htake, hready, hover⟩
  · obtain ⟨_, _, _, _, _, _, _, _, _, _, hskipped, _⟩ := hmarks m hm
    rw [State.passMark_oneShot hp, sat16_eq hskipped]
  · exact State.passMark_passes new (hmarks m hm) hp (by norm_num)

end Sys2Proof.Machine
end

section
/-! SUPPORT. The engine's entries into its states, the selection, and the commands of the engine, with the flags that each
sets; RESTART. -/

namespace Sys2Proof.Machine

open Sys2Proof

/-! ### Flags set -/

theorem State.flagsSet_refl (s : State) : s.flagsSet s 0 := fun m => by
  change _ = { s.port m with summary := (s.port m).summary ||| 0#16 }
  rw [BitVec.or_zero]

theorem State.flagsSet.of_ports {s t u : State} {flags : BitVec 16} (h : s.flagsSet t flags) (hp : u.ports = t.ports) :
    s.flagsSet u flags := fun m => by
  rw [← h m, State.port, State.port, hp]

theorem State.flagsSet.post {s t : State} {flags : BitVec 16} (h : s.flagsSet t flags) (e : Event) :
    s.flagsSet (t.post e) (flags ||| e.flag) := fun m => by
  rw [State.port_post, h m, MasterPort.withFlag, BitVec.or_assoc]

theorem State.flagsSet.post_if {s t u : State} {flags : BitVec 16} {e : Event} {p : Prop} [Decidable p]
    (h : s.flagsSet t flags) (hpost : p → u.ports = (t.post e).ports) (hkeep : ¬ p → u.ports = t.ports) :
    s.flagsSet u (flags ||| if p then e.flag else 0) := by
  split
  · rename_i hp
    exact (h.post e).of_ports (hpost hp)
  · rename_i hp
    change State.flagsSet s u (flags ||| 0#16)
    rw [BitVec.or_zero]
    exact h.of_ports (hkeep hp)

/-! ### Slews cancelled (R12) -/

theorem State.cancelSlew_named {s : State} {w : Slew} (h : s.ts.slew = some w) {named : Origin → Bool}
    (hn : named w.origin = true) : s.cancelSlew named = s.endSlew w .cancelled := by
  unfold State.cancelSlew
  simp only [h, hn, if_true]

theorem State.cancelSlew_kept {s : State} {named : Origin → Bool} (h : ∀ w ∈ s.ts.slew, named w.origin = false) :
    s.cancelSlew named = s := by
  rcases s.cancelSlew_cases named with ⟨hc, _⟩ | ⟨w, hw, hn, _⟩
  · exact hc
  · rw [h w hw] at hn
    cases hn

theorem State.engine_cancelSlew (s : State) (named : Origin → Bool) : (s.cancelSlew named).engine = s.engine := by
  rw [State.cancelSlew_frame]

theorem State.run_cancelSlew (s : State) (named : Origin → Bool) : (s.cancelSlew named).run = s.run := by
  rw [State.cancelSlew_frame]
  rfl

/-- The timescale unit after a slew is cancelled, whichever it is (R12). -/
theorem State.ts_cancelSlew_any (s : State) :
    (s.cancelSlew anyOrigin).ts =
      { s.ts with
        slew := none
        lastSlew := match s.ts.slew with
          | none => s.ts.lastSlew
          | some w => some ⟨w.origin, w.requested, w.start, .cancelled, w.residualNs, s.run⟩ } := by
  cases h : s.ts.slew with
  | none =>
    rw [State.cancelSlew_kept (by simp [h])]
    dsimp only
    rw [← h]
  | some w =>
    rw [State.cancelSlew_named h rfl]
    rfl

/-- SLEW_ENDED is posted where a slew is cancelled, and nothing else (R12). -/
theorem State.flagsSet.cancelSlew {s t : State} {flags : BitVec 16} (h : s.flagsSet t flags) (named : Origin → Bool) :
    s.flagsSet (t.cancelSlew named) (flags ||| if t.ts.slew.any (fun w => named w.origin) then 0x0040#16 else 0) := by
  refine h.post_if (e := .slewEnded) (fun hp => ?_) (fun hp => ?_)
  · obtain ⟨w, hw, hn⟩ := (Option.any_eq_true _ _).mp hp
    rw [State.cancelSlew_named hw hn]
    rfl
  · rw [State.cancelSlew_kept fun w hw => ?_]
    by_contra hn
    exact hp ((Option.any_eq_true _ _).mpr ⟨w, hw, by simpa using hn⟩)

/-! ### U and the grade (R69 to R71) -/

theorem State.engine_setUncertainty (s : State) (ps : Nat) :
    (s.setUncertainty ps).engine =
      { s.engine with anchor := some ⟨capPs ps, s.run⟩, announced := gradeOfPs (some (capPs ps)) } := by
  rcases s.setUncertainty_cases ps with ⟨hg, h⟩ | ⟨_, h⟩ <;> rw [h]
  · rw [hg]
    rfl
  · rfl

theorem State.ts_setUncertainty (s : State) (ps : Nat) : (s.setUncertainty ps).ts = s.ts := by
  rcases s.setUncertainty_cases ps with ⟨_, h⟩ | ⟨_, h⟩ <;> rw [h] <;> rfl

/-- GRADE_CHANGED is posted where the grade of U differs from the one taken, and nothing else (R71). -/
theorem State.flagsSet.setUncertainty {s t : State} {flags : BitVec 16} (h : s.flagsSet t flags) (ps : Nat) :
    s.flagsSet (t.setUncertainty ps)
      (flags ||| if gradeOfPs (some (capPs ps)) ≠ t.engine.announced then 0x0004#16 else 0) := by
  refine h.post_if (e := .gradeChanged) (fun hp => ?_) (fun hp => ?_)
  · rcases t.setUncertainty_cases ps with ⟨hg, _⟩ | ⟨_, hu⟩
    · exact absurd hg hp
    · rw [hu]
      rfl
  · rcases t.setUncertainty_cases ps with ⟨_, hu⟩ | ⟨hg, _⟩
    · rw [hu]
      rfl
    · exact absurd hg hp

/-- U is at most its largest value, so that an anchor taken at it holds it (R69). -/
theorem Engine.capPs_uncertaintyAt {e : Engine} {run ps : Nat} (h : e.uncertaintyAt run = some ps) : capPs ps = ps := by
  have hcap : ∀ x, capPs (capPs x) = capPs x := fun x => Nat.min_eq_left (Nat.min_le_right _ _)
  unfold Engine.uncertaintyAt at h
  split at h
  · cases h
  · split at h <;> cases h <;> exact hcap _

/-- A new anchor at the value that U has reached keeps that value, whatever the state and the settings (R69). -/
theorem Engine.uncertaintyAt_reanchored (e : Engine) (run : Nat) (st : EngineState) (settings : EngineSettings) :
    { e with
      state := st
      settings := settings
      anchor := (e.uncertaintyAt run).map fun ps => ⟨ps, run⟩ }.uncertaintyAt run = e.uncertaintyAt run := by
  cases h : e.uncertaintyAt run with
  | none => rfl
  | some ps =>
    have hcap := Engine.capPs_uncertaintyAt h
    unfold Engine.uncertaintyAt
    simp only [Option.map_some, Nat.sub_self, Nat.mul_zero, Nat.zero_div, Nat.add_zero, hcap]
    split <;> rfl

/-! ### Selection (R53) -/

/-- A reference is a candidate: USABLE, and in FREERUN not a PULSE_ONLY one. -/
theorem State.isCandidate_iff (s : State) (r : RefId) :
    s.isCandidate r = true ↔
      (s.ref r).state = .usable ∧ ¬ (s.engine.state = .freerun ∧ (s.ref r).settings.kind = .pulseOnly) := by
  simp [State.isCandidate, or_iff_not_imp_left]

/-- `o` is the best candidate among the references of `rs`: the lowest priority number, then the lowest index (R53). -/
def State.isBestOf (s : State) (rs : List RefId) (o : Option RefId) : Prop :=
  match o with
  | none => ∀ q ∈ rs, ¬ s.isCandidate q = true
  | some r =>
    r ∈ rs ∧ s.isCandidate r = true ∧ ∀ q ∈ rs, s.isCandidate q = true →
      (s.ref r).settings.priority < (s.ref q).settings.priority ∨
        ((s.ref r).settings.priority = (s.ref q).settings.priority ∧ r ≤ q)

/-- One more reference, of a higher index than all before. -/
theorem State.isBestOf_better {s : State} {rs : List RefId} {o : Option RefId} {r : RefId} (h : s.isBestOf rs o)
    (hr : ∀ q ∈ rs, q < r) : s.isBestOf (rs ++ [r]) (s.better o r) := by
  unfold State.better
  by_cases hc : s.isCandidate r = true
  · rw [if_pos hc]
    cases o with
    | none =>
      refine ⟨by simp, hc, fun q hq hcq => ?_⟩
      rcases List.mem_append.mp hq with hq | hq
      · exact absurd hcq (h q hq)
      · rw [List.mem_singleton.mp hq]
        exact .inr ⟨rfl, le_rfl⟩
    | some b =>
      obtain ⟨hb, hcb, hall⟩ := h
      dsimp only
      split <;> rename_i hp
      · refine ⟨by simp, hc, fun q hq hcq => ?_⟩
        rcases List.mem_append.mp hq with hq | hq
        · rcases hall q hq hcq with hlt | ⟨heq, _⟩
          · exact .inl (hp.trans hlt)
          · exact .inl (heq ▸ hp)
        · rw [List.mem_singleton.mp hq]
          exact .inr ⟨rfl, le_rfl⟩
      · refine ⟨List.mem_append_left _ hb, hcb, fun q hq hcq => ?_⟩
        rcases List.mem_append.mp hq with hq | hq
        · exact hall q hq hcq
        · rw [List.mem_singleton.mp hq]
          rcases lt_or_eq_of_le (not_lt.mp hp) with hlt | heq
          · exact .inl hlt
          · exact .inr ⟨heq, le_of_lt (hr b hb)⟩
  · rw [if_neg hc]
    cases o with
    | none =>
      intro q hq
      rcases List.mem_append.mp hq with hq | hq
      · exact h q hq
      · rw [List.mem_singleton.mp hq]
        exact hc
    | some b =>
      obtain ⟨hb, hcb, hall⟩ := h
      refine ⟨List.mem_append_left _ hb, hcb, fun q hq hcq => ?_⟩
      rcases List.mem_append.mp hq with hq | hq
      · exact hall q hq hcq
      · rw [List.mem_singleton.mp hq] at hcq
        exact absurd hcq hc

theorem State.isBestOf_bestCandidate (s : State) : s.isBestOf [0, 1, 2, 3] s.bestCandidate := by
  have h0 : s.isBestOf [] none := fun q hq => by cases hq
  have h1 := State.isBestOf_better h0 (r := 0) (by simp)
  have h2 := State.isBestOf_better h1 (r := 1) (by decide)
  have h3 := State.isBestOf_better h2 (r := 2) (by decide)
  exact State.isBestOf_better h3 (r := 3) (by decide)

theorem mem_refIds (r : RefId) : r ∈ ([0, 1, 2, 3] : List RefId) := by
  fin_cases r <;> decide

/-- No reference is the best candidate exactly when none is one (R53). -/
theorem State.bestCandidate_eq_none_iff (s : State) :
    s.bestCandidate = none ↔ ∀ r, ¬ s.isCandidate r = true := by
  have h := s.isBestOf_bestCandidate
  constructor
  · intro hn r
    rw [hn] at h
    exact h r (mem_refIds r)
  · intro hall
    cases hb : s.bestCandidate with
    | none => rfl
    | some r =>
      rw [hb] at h
      exact absurd h.2.1 (hall r)

/-- The best candidate is the USABLE reference of lowest priority number and then lowest index (R53). -/
theorem State.bestCandidate_eq_some_iff (s : State) (r : RefId) :
    s.bestCandidate = some r ↔
      s.isCandidate r = true ∧ ∀ q, s.isCandidate q = true →
        (s.ref r).settings.priority < (s.ref q).settings.priority ∨
          ((s.ref r).settings.priority = (s.ref q).settings.priority ∧ r ≤ q) := by
  have h := s.isBestOf_bestCandidate
  constructor
  · intro hb
    rw [hb] at h
    exact ⟨h.2.1, fun q => h.2.2 q (mem_refIds q)⟩
  · rintro ⟨hc, hall⟩
    cases hb : s.bestCandidate with
    | none => exact absurd hc (s.bestCandidate_eq_none_iff.mp hb r)
    | some b =>
      rw [hb] at h
      obtain ⟨_, hcb, hbest⟩ := h
      rcases hall b hcb, hbest r (mem_refIds r) hc with ⟨hlt | ⟨heq, hle⟩, hlt' | ⟨heq', hle'⟩⟩
      · exact absurd hlt' (lt_asymm hlt)
      · exact absurd hlt (by rw [heq']; exact lt_irrefl _)
      · exact absurd hlt' (by rw [heq]; exact lt_irrefl _)
      · rw [le_antisymm hle hle']

/-! ### Entries into ACQUIRING and HOLDOVER (R56, R57) -/

/-- The engine after an entry into ACQUIRING. -/
theorem State.engine_enterAcquiring (s : State) :
    s.enterAcquiring.engine =
      { s.engine with
        state := .acquiring
        entryTime := s.run
        goodRun := 0
        stepNeeded := false
        initialStep := decide (s.engine.state = .freerun) || s.engine.initialStep
        anchor := if s.engine.state = .freerun then some ⟨4294967295000, s.run⟩
          else s.uncertainty.map fun ps => ⟨ps, s.run⟩
        announced := if s.engine.state = .freerun then 7 else s.engine.announced } := by
  have hcancel : s.enterAcquiring.engine =
      { s.acquiringUncertainty.clearLockRun.engine with state := .acquiring, entryTime := s.enterAcquiring.run } := by
    simp only [State.enterAcquiring, State.enterState, State.engine_post, State.engine_setEngine, State.engine_cancelSlew]
    rfl
  have hrun : s.enterAcquiring.run = s.run := by
    have hts : s.acquiringUncertainty.ts = s.ts := s.acquiringUncertainty_keepsTime.2.1
    have hmoved : s.enterAcquiring.run = s.acquiringUncertainty.run := State.run_cancelSlew _ _
    rw [hmoved, State.run, hts, State.run]
  rw [hcancel, hrun]
  unfold State.acquiringUncertainty
  by_cases hf : s.engine.state = .freerun
  · simp only [hf, if_true, State.clearLockRun, State.engine_setEngine, State.engine_setUncertainty, decide_true,
      Bool.true_or]
    rfl
  · simp only [hf, if_false, State.clearLockRun, State.engine_setEngine, State.reanchor, decide_false, Bool.false_or]

/-- The timescale unit after an entry into ACQUIRING: a master's slew is cancelled (R56). -/
theorem State.ts_enterAcquiring (s : State) :
    s.enterAcquiring.ts = (s.acquiringUncertainty.clearLockRun.cancelSlew Origin.isMaster).ts := rfl

theorem State.ts_clearLockRun_acquiring (s : State) : s.acquiringUncertainty.clearLockRun.ts = s.ts :=
  (s.acquiringUncertainty_keepsTime.trans (State.clearLockRun_keepsTime _)).2.1

/-- The flags that an entry into ACQUIRING sets (R52, R56, R71). -/
theorem State.flagsSet.enterAcquiring {s t : State} {flags : BitVec 16} (h : s.flagsSet t flags) :
    s.flagsSet t.enterAcquiring
      (flags ||| (if t.engine.state = .freerun ∧ t.engine.announced ≠ 7 then 0x0004#16 else 0) |||
        (if t.ts.slew.any (fun w => w.origin.isMaster) then 0x0040#16 else 0) ||| 0x0002#16) := by
  have hset : s.flagsSet t.acquiringUncertainty.clearLockRun
      (flags ||| if t.engine.state = .freerun ∧ t.engine.announced ≠ 7 then 0x0004#16 else 0) := by
    unfold State.acquiringUncertainty
    by_cases hf : t.engine.state = .freerun
    · have hu := (h.of_ports (u := t.setEngine { t.engine with initialStep := true }) rfl).setUncertainty
        Config.uncertaintyCap
      rw [if_pos hf]
      refine State.flagsSet.of_ports (t := (t.setEngine { t.engine with initialStep := true }).setUncertainty
        Config.uncertaintyCap) ?_ rfl
      convert hu using 3
      rw [State.engine_setEngine]
      simp only [hf, true_and]
      exact ne_comm
    · rw [if_neg hf, if_neg fun hn => hf hn.1]
      change State.flagsSet s _ (flags ||| 0#16)
      rw [BitVec.or_zero]
      exact h.of_ports rfl
  have hcancel := hset.cancelSlew Origin.isMaster
  rw [State.ts_clearLockRun_acquiring] at hcancel
  exact (hcancel.of_ports (u := (State.cancelSlew _ _).setEngine _) rfl).post .stateChanged

theorem State.engine_enterHoldover (s : State) :
    s.enterHoldover.engine =
      { s.engine with
        state := .holdover
        entryTime := s.run
        goodRun := 0
        stepNeeded := false
        anchor := s.uncertainty.map fun ps => ⟨ps, s.run⟩ } := by
  simp only [State.enterHoldover, State.enterState, State.engine_post, State.engine_setEngine, State.engine_cancelSlew,
    State.run_cancelSlew]
  rfl

/-- The flags that an entry into HOLDOVER sets (R52, R57). -/
theorem State.flagsSet.enterHoldover {s t : State} {flags : BitVec 16} (h : s.flagsSet t flags) :
    s.flagsSet t.enterHoldover
      (flags ||| (if t.ts.slew.any (fun w => w.origin.isEngine) then 0x0040#16 else 0) ||| 0x0002#16) := by
  have hcancel := (h.of_ports (u := (t.reanchor.clearLockRun).writeRate t.engine.integral) rfl).cancelSlew Origin.isEngine
  exact (hcancel.of_ports (u := (State.cancelSlew _ _).setEngine _) rfl).post .stateChanged

theorem Origin.isEngine_iff (o : Origin) : o.isEngine = true ↔ o = .engine := by
  cases o <;> simp [Origin.isEngine]

/-! ### Re-evaluation (R54) -/

theorem State.reevaluate_enters {s : State} {r : RefId} (hb : s.bestCandidate = some r) (hp : s.engine.state ≠ .pinned)
    (hsel : s.engine.state.follows → s.engine.selection ≠ some r) : s.reevaluate = (s.select (some r)).enterAcquiring := by
  have hne : s.engine.state.follows → ¬ some r = s.engine.selection := fun hf he => hsel hf he.symm
  unfold State.reevaluate
  rw [hb]
  cases hs : s.engine.state with
  | pinned => exact absurd hs hp
  | freerun => rfl
  | holdover => rfl
  | acquiring => exact if_neg (hne (.inl hs))
  | locked => exact if_neg (hne (.inr hs))

theorem State.reevaluate_leaves {s : State} (hb : s.bestCandidate = none) (hf : s.engine.state.follows)
    (hsel : s.engine.selection ≠ none) : s.reevaluate = (s.select none).enterHoldover := by
  unfold State.reevaluate
  rw [hb]
  rcases hf with hs | hs <;> rw [hs]
  · exact if_neg (Ne.symm hsel)
  · exact if_neg (Ne.symm hsel)

/-- Settles O28. -/
theorem reevaluationFollowsTheBestCandidate : Obligations.ReevaluationFollowsTheBestCandidate := by
  intro s candidate prio t regrades
  have hcand : ∀ r, s.isCandidate r = true ↔ candidate r := s.isCandidate_iff
  refine ⟨fun r => ?_, ?_, fun hp => ?_, fun hb hs => ?_, fun hf hb => ?_, fun r hb hp hsel => ?_, fun hf hb hsel => ?_⟩
  · simp only [← hcand]
    exact s.bestCandidate_eq_some_iff r
  · simp only [← hcand]
    exact s.bestCandidate_eq_none_iff
  · change s.reevaluate = s
    unfold State.reevaluate
    rw [hp]
  · change s.reevaluate = s
    unfold State.reevaluate
    rcases hs with hs | hs <;> rw [hs, hb]
  · change s.reevaluate = s
    unfold State.reevaluate
    rcases hf with hs | hs <;> rw [hs] <;> exact if_pos hb
  · have ht : t = (s.select (some r)).enterAcquiring := State.reevaluate_enters hb hp hsel
    have hslew := State.ts_clearLockRun_acquiring (s.select (some r))
    have hts : t.ts = _ := (congrArg State.ts ht).trans (State.ts_enterAcquiring _)
    refine ⟨?_, ?_, fun w hw hm => ?_, fun hm => ?_, ?_⟩
    · have honly := (s.select_onlyEngine (some r)).trans (State.enterAcquiring_onlyEngine _)
      rw [← ht] at honly
      exact honly.eq
    · rw [ht, State.engine_enterAcquiring]
      have hannounced : (if s.engine.state = .freerun then (7 : Grade) else s.engine.announced) =
          if regrades then 7 else s.engine.announced := by
        by_cases hf : s.engine.state = .freerun
        · by_cases ha : s.engine.announced = 7
          · rw [if_pos hf, if_neg (fun h => h.2 ha), ha]
          · rw [if_pos hf, if_pos ⟨hf, ha⟩]
        · rw [if_neg hf, if_neg (fun h => hf h.1)]
      rw [← hannounced]
      rfl
    · rw [hts, State.cancelSlew_named (w := w) (by rw [hslew]; exact hw) hm]
      simp only [State.endSlew, State.ts_post, State.ts_setTs, State.run, hslew]
      rfl
    · rw [hts, State.cancelSlew_kept (by rw [hslew]; exact hm), hslew]
      rfl
    · have hflags := (((State.flagsSet_refl s).of_ports (u := s.setEngine { s.engine with selection := some r })
        rfl).post .selectionChanged).enterAcquiring
      rw [ht]
      refine (congrArg (State.flagsSet s _) ?_).mpr hflags
      change _ = ((0#16 ||| 0x0008#16 ||| if regrades then 0x0004#16 else 0) |||
        (if s.ts.slew.any (·.origin.isMaster) then 0x0040#16 else 0) ||| 0x0002#16)
      split_ifs <;> decide
  · have ht : t = (s.select none).enterHoldover := State.reevaluate_leaves hb hf hsel
    refine ⟨?_, ?_, fun w hw hm => ?_, fun hm => ?_, ?_⟩
    · have honly := (s.select_onlyEngine none).trans (State.enterHoldover_onlyEngine _)
      rw [← ht] at honly
      exact honly.eq
    · rw [ht, State.engine_enterHoldover]
      rfl
    · rw [ht]
      simp only [State.enterHoldover, State.enterState, State.ts_post, State.ts_setEngine]
      rw [State.cancelSlew_named (w := w) (by exact hw) ((Origin.isEngine_iff _).mpr hm)]
      rfl
    · rw [ht]
      simp only [State.enterHoldover, State.enterState, State.ts_post, State.ts_setEngine]
      rw [State.cancelSlew_kept (by
        intro w hw
        exact Bool.eq_false_iff.mpr (mt (Origin.isEngine_iff _).mp (hm w hw)))]
      rfl
    · have hflags := (((State.flagsSet_refl s).of_ports (u := s.setEngine { s.engine with selection := none })
        rfl).post .selectionChanged).enterHoldover
      have hany : s.ts.slew.any (fun w => w.origin.isEngine) = true ↔ s.ts.slew.map (·.origin) = some .engine := by
        cases s.ts.slew <;> simp [Origin.isEngine_iff]
      rw [ht]
      refine (congrArg (State.flagsSet s _) ?_).mpr hflags
      simp only [State.ts_post, State.ts_setEngine, hany]
      split_ifs <;> decide

/-! ### SET_ENGINE, PIN and UNPIN (R67, R68, R74) -/

/-- SET_ENGINE keeps U: a change of the growth takes a new anchor at the value that U has reached (R69, R74). -/
theorem State.uncertainty_changeEngine (s : State) (new : EngineSettings) (limit : Nat) :
    (s.changeEngine new limit).uncertainty = s.uncertainty := by
  unfold State.changeEngine
  by_cases hg : s.engine.settings.growth = new.growth
  · rw [if_pos hg]
    change { s.engine with settings := new }.uncertaintyAt s.run = s.engine.uncertaintyAt s.run
    simp only [Engine.uncertaintyAt, hg]
  · rw [if_neg hg]
    exact s.engine.uncertaintyAt_reanchored s.run s.engine.state new

theorem State.changeEngine_eq (s : State) (new : EngineSettings) (limit : Nat) :
    s.changeEngine new limit =
      { s with
        ts := { s.ts with slewLimit := limit }
        engine := { s.engine with
          settings := new
          anchor := if new.growth = s.engine.settings.growth then s.engine.anchor
            else s.uncertainty.map fun ps => ⟨ps, s.run⟩ } } := by
  unfold State.changeEngine
  by_cases hg : s.engine.settings.growth = new.growth
  · rw [if_pos hg, if_pos hg.symm]
    rfl
  · rw [if_neg hg, if_neg (Ne.symm hg)]
    rfl

theorem State.ts_deselect (s : State) : s.deselect.ts = s.ts := by
  unfold State.deselect
  split <;> rfl

theorem State.engine_deselect (s : State) : s.deselect.engine = { s.engine with selection := none } := by
  unfold State.deselect
  cases hsel : s.engine.selection with
  | none =>
    dsimp only [Option.isSome]
    rw [if_neg Bool.false_ne_true, ← hsel]
  | some r => rfl

theorem State.deselect_onlyEngine (s : State) : s.onlyEngine s.deselect := by
  unfold State.deselect
  split
  · exact s.select_onlyEngine none
  · exact s.onlyEngine_refl

/-- SELECTION_CHANGED is posted where there was a selection (R54). -/
theorem State.flagsSet_deselect (s : State) :
    s.flagsSet s.deselect (if s.engine.selection = none then 0 else 0x0008#16) := by
  unfold State.deselect
  cases s.engine.selection with
  | none => exact s.flagsSet_refl
  | some r =>
    exact ((State.flagsSet_refl s).of_ports (u := s.setEngine { s.engine with selection := none }) rfl).post
      .selectionChanged

/-- Without a selection and without a slew: the state in which PIN writes the rate and U (R67). -/
def State.unbound (s : State) : State := s.deselect.cancelSlew anyOrigin

theorem State.run_unbound (s : State) : s.unbound.run = s.run := by
  rw [State.unbound, State.run_cancelSlew, State.run, State.ts_deselect, State.run]

theorem State.ts_unbound (s : State) :
    s.unbound.ts =
      { s.ts with
        slew := none
        lastSlew := match s.ts.slew with
          | none => s.ts.lastSlew
          | some w => some ⟨w.origin, w.requested, w.start, .cancelled, w.residualNs, s.run⟩ } := by
  rw [State.unbound, State.ts_cancelSlew_any, State.run, State.ts_deselect]
  rfl

theorem State.engine_unbound (s : State) : s.unbound.engine = { s.engine with selection := none } := by
  rw [State.unbound, State.engine_cancelSlew, State.engine_deselect]

theorem State.unbound_onlyEngine (s : State) : s.onlyEngine s.unbound :=
  s.deselect_onlyEngine.trans (s.deselect.cancelSlew_onlyEngine anyOrigin)

theorem State.flagsSet_unbound (s : State) :
    s.flagsSet s.unbound
      ((if s.engine.selection = none then 0 else 0x0008#16) ||| (if s.ts.slew = none then 0 else 0x0040#16)) := by
  have hslew : (if s.ts.slew.any (fun w => anyOrigin w.origin) then 0x0040#16 else 0) =
      if s.ts.slew = none then 0 else 0x0040#16 := by
    cases s.ts.slew <;> rfl
  have h := s.flagsSet_deselect.cancelSlew anyOrigin
  rw [State.ts_deselect, hslew] at h
  exact h

/-- The rate and U as PIN writes them, before the engine's own record (R67). -/
def State.declaring (s : State) (declared : Nat) : State :=
  (s.unbound.writeRate s.engine.integral).setUncertainty (declared * 1000)

theorem State.ts_declaring (s : State) (declared : Nat) :
    (s.declaring declared).ts = { s.unbound.ts with rate := s.engine.integral } :=
  State.ts_setUncertainty _ _

theorem State.engine_declaring (s : State) (declared : Nat) :
    (s.declaring declared).engine =
      { s.engine with
        selection := none
        anchor := some ⟨capPs (declared * 1000), s.run⟩
        announced := gradeOfPs (some (capPs (declared * 1000))) } := by
  have hrun : (s.unbound.writeRate s.engine.integral).run = s.run := s.run_unbound
  have hengine : (s.unbound.writeRate s.engine.integral).engine = { s.engine with selection := none } := s.engine_unbound
  rw [State.declaring, State.engine_setUncertainty, hrun, hengine]

theorem State.declaring_onlyEngine (s : State) (declared : Nat) : s.onlyEngine (s.declaring declared) :=
  (s.unbound_onlyEngine.trans (State.onlyEngine_setTs _ { s.unbound.ts with rate := s.engine.integral })).trans
    (State.setUncertainty_onlyEngine _ _)

theorem State.flagsSet_declaring (s : State) (declared : Nat) :
    s.flagsSet (s.declaring declared)
      ((if s.engine.selection = none then 0 else 0x0008#16) ||| (if s.ts.slew = none then 0 else 0x0040#16) |||
        if gradeOfPs (some (capPs (declared * 1000))) ≠ s.engine.announced then 0x0004#16 else 0) := by
  have hengine : (s.unbound.writeRate s.engine.integral).engine = { s.engine with selection := none } := s.engine_unbound
  have h := (s.flagsSet_unbound.of_ports (u := s.unbound.writeRate s.engine.integral) rfl).setUncertainty
    (declared * 1000)
  rw [hengine] at h
  exact h

theorem State.pinned_eq (s : State) (declared : Nat) :
    s.pinned declared =
      let u := (s.declaring declared).setEngine
        { (s.declaring declared).engine with initialStep := false, stepNeeded := false, goodRun := 0 }
      if s.engine.state = .pinned then u else u.enterState .pinned := rfl

/-- Everything that PIN leaves (R67). -/
theorem State.pinned_spec (s : State) (declared : Nat) :
    let ps := min 4294967295000 (declared * 1000)
    let regrades := gradeOfPs (some ps) ≠ s.engine.announced
    let t := s.pinned declared
    t = { s with ts := t.ts, engine := t.engine, ports := t.ports } ∧
      t.ts =
        { s.ts with
          rate := s.engine.integral
          slew := none
          lastSlew := match s.ts.slew with
            | none => s.ts.lastSlew
            | some w => some ⟨w.origin, w.requested, w.start, .cancelled, w.residualNs, s.run⟩ } ∧
      t.engine =
        { s.engine with
          state := .pinned
          entryTime := if s.engine.state = .pinned then s.engine.entryTime else s.run
          selection := none
          initialStep := false
          stepNeeded := false
          goodRun := 0
          anchor := some ⟨ps, s.run⟩
          announced := if regrades then gradeOfPs (some ps) else s.engine.announced } ∧
      s.flagsSet t
        ((if s.engine.selection = none then 0 else 0x0008#16) ||| (if s.ts.slew = none then 0 else 0x0040#16) |||
          (if regrades then 0x0004#16 else 0) ||| (if s.engine.state = .pinned then 0 else 0x0002#16)) := by
  intro ps regrades t
  have hps : capPs (declared * 1000) = ps := Nat.min_comm _ _
  have hannounced : (if regrades then gradeOfPs (some ps) else s.engine.announced) = gradeOfPs (some ps) := by
    by_cases hg : regrades
    · exact if_pos hg
    · rw [if_neg hg]
      exact (not_not.mp hg).symm
  have hts := s.ts_declaring declared
  have hengine := s.engine_declaring declared
  have honly := s.declaring_onlyEngine declared
  have hflags := s.flagsSet_declaring declared
  have hrun : (s.declaring declared).run = s.run := by
    rw [State.run, hts]
    exact s.run_unbound
  have ht : t = _ := s.pinned_eq declared
  rw [State.ts_unbound] at hts
  rw [hps] at hengine hflags
  rw [hannounced]
  generalize s.declaring declared = u at *
  by_cases hp : s.engine.state = .pinned
  · rw [ht, if_pos hp, if_pos hp, if_pos hp]
    change _ ∧ _ ∧ _ ∧ State.flagsSet s _ (_ ||| 0#16)
    rw [BitVec.or_zero]
    refine ⟨(honly.trans (State.onlyEngine_setEngine _ _)).eq, hts, ?_, hflags.of_ports rfl⟩
    rw [State.engine_setEngine, hengine, ← hp]
  · rw [ht, if_neg hp, if_neg hp, if_neg hp]
    refine ⟨((honly.trans (State.onlyEngine_setEngine _ _)).trans (State.enterState_onlyEngine _ _)).eq, hts, ?_, ?_⟩
    · simp only [State.enterState, State.engine_post, State.engine_setEngine, hengine]
      rw [← hrun]
      rfl
    · exact (hflags.of_ports (u := (u.setEngine _).setEngine _) rfl).post .stateChanged

/-- Settles O27. -/
theorem engineCommandsSetPinAndUnpin : Obligations.EngineCommandsSetPinAndUnpin := by
  intro s mp ws
  refine ⟨fun hw => ⟨fun hp => next_congr (State.takeCommand_refused hw ?_), fun new limit hp =>
    ⟨_, next_congr (State.takeCommand_taken hw ?_), s.uncertainty_changeEngine new limit, s.changeEngine_eq new limit⟩⟩,
    fun hw => ?_, fun hw => ⟨fun hs => next_congr (State.takeCommand_refused hw ?_), fun hs => ?_⟩⟩
  · rw [setEngineAct, hp]
    rfl
  · rw [setEngineAct, hp]
    rfl
  · exact ⟨_, next_congr (State.takeCommand_taken hw rfl), s.pinned_spec (wordAt ws 0 % 2 ^ 32)⟩
  · exact if_neg hs
  · intro held quiet t
    refine next_congr (State.takeCommand_taken hw ?_)
    have hquiet : ((s.reanchor.clearLockRun).writeRate s.engine.integral).cancelSlew Origin.isEngine = quiet := by
      change State.cancelSlew held Origin.isEngine = quiet
      cases hslew : s.ts.slew with
      | none =>
        rw [State.cancelSlew_kept (by intro w hw; cases hslew.symm.trans hw)]
        simp only [quiet, hslew]
      | some w =>
        by_cases ho : w.origin = .engine
        · rw [State.cancelSlew_named (w := w) (by exact hslew) ((Origin.isEngine_iff _).mpr ho)]
          simp only [quiet, hslew, if_pos ho]
          rfl
        · have hkept : ∀ v ∈ held.ts.slew, v.origin.isEngine = false := fun v hv => by
            cases hslew.symm.trans hv
            exact Bool.eq_false_iff.mpr (mt (Origin.isEngine_iff _).mp ho)
          rw [State.cancelSlew_kept hkept]
          simp only [quiet, hslew, if_neg ho]
    have hrun : quiet.run = s.run := by
      rw [← hquiet]
      exact State.run_cancelSlew _ _
    have ht : s.enterHoldover.reevaluate = t := by
      unfold State.enterHoldover
      rw [hquiet, State.enterState, hrun]
      rfl
    unfold unpinAct
    rw [if_pos hs, ht]
    rfl

end Sys2Proof.Machine
end

section
/-! SUPPORT. RESTART, block by block. -/

namespace Sys2Proof.Machine

open Sys2Proof

/-- What RESTART leaves of the timescale unit: a slew is cancelled, and an engine in control writes I as the rate (R27,
R76). -/
def State.restartTs (s : State) : TimescaleUnit :=
  { s.ts with
    slew := none
    rate := if s.engine.state.follows then s.engine.integral else s.ts.rate
    lastSlew := match s.ts.slew with
      | none => s.ts.lastSlew
      | some w => some ⟨w.origin, w.requested, w.start, .cancelled, w.residualNs, s.run⟩ }

/-- What RESTART leaves of the engine: in control it goes to HOLDOVER without a selection (R76). -/
def State.restartEngine (s : State) : Engine :=
  { s.engine with
    state := if s.engine.state.follows then .holdover else s.engine.state
    entryTime := if s.engine.state.follows then s.run else s.engine.entryTime
    selection := if s.engine.state.follows then none else s.engine.selection
    goodRun := 0
    stepNeeded := false
    anchor := if s.engine.state.follows then s.uncertainty.map fun ps => ⟨ps, s.run⟩ else s.engine.anchor }

theorem State.engineRestarted_of_follows {s : State} (h : s.engine.state.follows) :
    s.engineRestarted =
      { s with
        ts := { s.ts with rate := s.engine.integral }
        engine := { s.engine with
          state := .holdover
          entryTime := s.run
          selection := none
          goodRun := 0
          stepNeeded := false
          anchor := s.uncertainty.map fun ps => ⟨ps, s.run⟩ } } := by
  unfold State.engineRestarted
  rcases h with h | h <;> rw [h] <;> rfl

theorem State.engineRestarted_of_not_follows {s : State} (h : ¬ s.engine.state.follows) :
    s.engineRestarted = { s with engine := { s.engine with goodRun := 0, stepNeeded := false } } := by
  unfold State.engineRestarted
  cases hs : s.engine.state with
  | acquiring => exact absurd (.inl hs) h
  | locked => exact absurd (.inr hs) h
  | freerun | holdover | pinned => rfl

/-- The slew and then the engine at RESTART. -/
theorem State.cancelSlew_engineRestarted (s : State) :
    (s.cancelSlew anyOrigin).engineRestarted =
      { s with
        ts := s.restartTs
        engine := s.restartEngine
        ports := (s.cancelSlew anyOrigin).ports } := by
  have hts := s.ts_cancelSlew_any
  have hrun := s.run_cancelSlew anyOrigin
  have hc : s.cancelSlew anyOrigin =
      { s with ts := (s.cancelSlew anyOrigin).ts, ports := (s.cancelSlew anyOrigin).ports } := by
    conv_lhs => rw [State.cancelSlew_frame]
    rw [hts]
  have hu : (s.cancelSlew anyOrigin).uncertainty = s.uncertainty := by
    rw [State.uncertainty, State.engine_cancelSlew, hrun, State.uncertainty]
  by_cases hf : s.engine.state.follows
  · rw [State.engineRestarted_of_follows (by rw [State.engine_cancelSlew]; exact hf), hrun, hu, State.engine_cancelSlew,
      hts, hc]
    unfold State.restartTs State.restartEngine
    simp only [if_pos hf] <;> rfl
  · rw [State.engineRestarted_of_not_follows (by rw [State.engine_cancelSlew]; exact hf), State.engine_cancelSlew, hc, hts]
    unfold State.restartTs State.restartEngine
    simp only [if_neg hf] <;> rfl

/-- A CODED line takes its copy of the composer's frame by the time and the frame alone. -/
theorem State.enterCoded_congr {s t : State} (hc : t.composer = s.composer) (ht : t.ts.time = s.ts.time) (l : Line) :
    t.enterCoded l = s.enterCoded l := by
  simp only [State.enterCoded, State.hasPassed, State.nowNs, hc, ht]
  rfl

/-- Everything that RESTART leaves, SLEW_ENDED beside RESTARTED where it cancels a slew (R27, R187). -/
theorem State.restart_eq (s : State) :
    s.restart =
      { s with
        ts := s.restartTs
        refs := s.refs.map Reference.restarted
        engine := s.restartEngine
        marks := []
        outcomes := Four.all []
        lines := s.lines.map fun l => s.enterCoded l.restarted
        net := { s.net with ports := s.net.ports.map NetPort.cleared }
        clients := { s.clients with entries := [] }
        ports := s.restart.ports
        claim := none } := by
  have hlines (u : State) (hc : u.composer = s.composer) (ht : u.ts = s.restartTs) :
      (fun l : Line => u.enterCoded l.restarted) = fun l => s.enterCoded l.restarted :=
    funext fun l => State.enterCoded_congr hc (by rw [ht]; rfl) _
  unfold State.restart State.restartBlocks
  simp only [State.cancelSlew_engineRestarted, State.restartLines, State.clearMarks, State.clearNetPorts,
    State.clearClients, State.post]
  conv_lhs => rw [hlines _ (by rfl) (by rfl)]
  split_ifs <;> rfl

theorem State.port_restart (s : State) (m : Mp) :
    s.restart.port m =
      { MasterPort.powerOn with
        mask := (s.port m).mask
        transaction := (s.port m).transaction
        dataOut := (s.port m).dataOut
        summary := if s.ts.slew.isSome then 0x0041#16 else 0x0001#16 } := by
  have hcancel : ((s.cancelSlew anyOrigin).port m).restarted = (s.port m).restarted := by
    rcases s.cancelSlew_cases anyOrigin with ⟨h, _⟩ | ⟨w, _, _, h⟩ <;> rw [h]
    simp only [State.endSlew, State.port_post]
    rfl
  have hports : s.restartBlocks.ports = (s.cancelSlew anyOrigin).ports := by
    unfold State.restartBlocks
    rw [State.cancelSlew_engineRestarted]
    rfl
  have hpart : (s.restartBlocks.ports.map MasterPort.restarted).get m = (s.port m).restarted := by
    rw [hports, Four.get_map]
    exact hcancel
  unfold State.restart
  dsimp only
  split
  · rw [State.port_post]
    change ((s.restartBlocks.ports.map MasterPort.restarted).get m).withFlag .slewEnded = _
    have hflags : MasterPort.powerOn.summary ||| Event.slewEnded.flag = 0x0041#16 := by decide
    rw [hpart, ← hflags]
    rfl
  · exact hpart

/-- U is as it was: an engine in control takes its anchor at the value that U has reached, and the growth stays. -/
theorem State.uncertainty_restart (s : State) : s.restart.uncertainty = s.uncertainty := by
  rw [State.restart_eq]
  change s.restartEngine.uncertaintyAt s.run = s.engine.uncertaintyAt s.run
  by_cases hf : s.engine.state.follows
  · have h := s.engine.uncertaintyAt_reanchored s.run .holdover s.engine.settings
    rw [← h]
    unfold State.restartEngine
    simp only [if_pos hf]
    rfl
  · unfold State.restartEngine
    simp only [if_neg hf]
    rfl

/-- A line at RESTART: a CODED one holds a copy of the composer's frame that is still ahead (R119, R128, R133). -/
theorem State.enterCoded_restarted (s : State) (l : Line) :
    ∃ held, s.enterCoded l.restarted =
        { l with
          state := if l.settings.mode = .off then .off else .running
          emission := .none
          commitments := []
          held := held
          flags := ⟨false, false, false, false, false⟩
          gated := 0
          faults := 0
          emissions := 0
          overtaken := none } ∧
      (l.settings.mode ≠ .coded ∨ s.composer.frame = none → held = none) ∧
      ∀ f, l.settings.mode = .coded → s.composer.frame = some f →
        held = if s.hasPassed (heldFrameOf f l.settings.compensation).slot0 then none
          else some (heldFrameOf f l.settings.compensation) := by
  by_cases hm : l.settings.mode = .coded
  · have hrunning : l.restarted.runningCoded = true := by
      simp [Line.runningCoded, Line.restarted, hm]
    unfold State.enterCoded
    rw [if_pos hrunning]
    cases hf : s.composer.frame with
    | none => exact ⟨none, rfl, fun _ => rfl, fun f _ h => by cases h⟩
    | some f =>
      refine ⟨_, ?_, fun h => ?_, fun g _ hg => by cases hg; rfl⟩
      · by_cases hp : s.hasPassed (heldFrameOf f l.settings.compensation).slot0 = true
        · rw [if_pos hp]
          exact if_pos hp
        · rw [if_neg hp]
          exact if_neg hp
      · rcases h with h | h
        · exact absurd hm h
        · cases h
  · have hidle : l.restarted.runningCoded = false := by
      simp [Line.runningCoded, Line.restarted, hm]
    refine ⟨none, ?_, fun _ => rfl, fun f h => absurd h hm⟩
    unfold State.enterCoded
    rw [if_neg (by rw [hidle]; exact Bool.false_ne_true)]
    rfl

theorem exec_restart {s : State} {mp : Mp} {ws : List Word} (h : s.waits mp .restart ws) :
    exec (.restart mp) s = .next s.restart := by
  obtain ⟨hr, hs, hc⟩ := h
  refine next_congr ((State.unlessHeld_released hr _).trans ?_)
  simp only [hs, if_true]
  unfold State.judgeRestart
  rw [if_neg (fun hn => hn rfl), if_neg fun hn => Bool.false_ne_true (hn.symm.trans (hc rfl))]

/-- Settles O5. -/
theorem restartResetsEveryBlock : Obligations.RestartResetsEveryBlock := by
  intro s mp ws hw
  have heq := s.restart_eq
  have hline (i : LineId) : s.restart.line i = s.enterCoded (s.line i).restarted := by
    rw [heq]
    exact Sixteen.get_map _ _ _
  refine ⟨s.restart, exec_restart hw, ?_, ?_, s.port_restart, ?_, fun r => ?_, ?_, s.uncertainty_restart, ?_, fun m => ?_,
    fun i => ?_, ?_, ?_, fun p => ?_, ?_, ?_⟩
  · rw [heq]
    exact hw.1
  · rw [heq]
  · rw [heq]
    rfl
  · rw [heq]
    exact Four.get_map _ _ _
  · rw [heq]
    rfl
  · rw [heq]
  · rw [heq]
    exact Four.get_all _ _
  · rw [hline i]
    exact s.enterCoded_restarted (s.line i)
  · rw [heq]
  · rw [heq]
  · rw [heq]
    exact Two.get_map _ _ _
  · rw [heq]
  · rw [heq]

end Sys2Proof.Machine
end

section
/-! SUPPORT. What the engine makes of a measurement handed over: the update from its message, the loop update with its
lock test, the steps and the slews. -/

namespace Sys2Proof.Machine

open Sys2Proof

/-! ### The update from a message (R18) -/

/-- While a record is INSERTING, a message changes nothing. -/
theorem State.leapUpdate_inserting {s : State} {old : Leap} (h : s.ts.leap = some old) (hp : old.phase = .inserting)
    (r : RefId) (m : Message) : s.leapUpdate r m = s := by
  unfold State.leapUpdate
  rw [h]
  exact if_pos (decide_eq_true hp)

/-- Otherwise utc_offset is written, a record that it leaves no room for is dropped, and the record is aligned. -/
theorem State.leapUpdate_eq {s : State} (h : ∀ old, s.ts.leap = some old → old.phase ≠ .inserting) (r : RefId)
    (m : Message) :
    s.leapUpdate r m =
      (s.setTs { s.ts with utcOffset := m.utcOffset, leap := s.announced r m.utcOffset m.announcement }
        ).dropLeapWithoutRoom.alignLeap := by
  unfold State.leapUpdate
  rw [if_neg, State.takeAnnouncement_eq]
  rw [Option.any_eq_true]
  rintro ⟨old, hold, hp⟩
  exact h old hold (of_decide_eq_true hp)

theorem State.dropLeapWithoutRoom_none {s : State} (h : s.ts.leap = none) : s.dropLeapWithoutRoom = s := by
  unfold State.dropLeapWithoutRoom
  rw [h]

/-- A record that utc_offset leaves no room for. -/
theorem TimescaleUnit.leapHasNoRoom_iff (ts : TimescaleUnit) (x : Leap) :
    ts.leapHasNoRoom x = true ↔ (x.kind = .insert ∧ ts.utcOffset = 255) ∨ (x.kind = .delete ∧ ts.utcOffset = 0) := by
  unfold TimescaleUnit.leapHasNoRoom
  cases x.kind <;> simp

theorem State.dropLeapWithoutRoom_drops {s : State} {x : Leap} (h : s.ts.leap = some x) (hn : s.ts.leapHasNoRoom x = true) :
    s.dropLeapWithoutRoom = s.setTs { s.ts with leap := none } := by
  unfold State.dropLeapWithoutRoom
  rw [h]
  exact if_pos hn

theorem State.dropLeapWithoutRoom_keeps {s : State} {x : Leap} (h : s.ts.leap = some x)
    (hn : ¬ s.ts.leapHasNoRoom x = true) : s.dropLeapWithoutRoom = s := by
  unfold State.dropLeapWithoutRoom
  rw [h]
  exact if_neg hn

/-- The state `t` differs from `s` in utc_offset, the leap record and the flags of the summaries at most. -/
def State.onlyLeaps (s t : State) : Prop :=
  t = { s with ts := { s.ts with utcOffset := t.ts.utcOffset, leap := t.ts.leap }, ports := t.ports }

theorem State.onlyLeaps_refl (s : State) : s.onlyLeaps s := rfl

theorem State.onlyLeaps.trans {s t u : State} (h : s.onlyLeaps t) (h' : t.onlyLeaps u) : s.onlyLeaps u := by
  unfold State.onlyLeaps at *
  rw [h']
  rw [h]

theorem State.alignLeap_onlyLeaps (s : State) : s.onlyLeaps s.alignLeap := by
  unfold State.onlyLeaps
  conv_lhs => rw [State.alignLeap_frame]

theorem State.dropLeapWithoutRoom_onlyLeaps (s : State) : s.onlyLeaps s.dropLeapWithoutRoom := by
  rw [State.dropLeapWithoutRoom_eq]
  rfl

theorem State.leapUpdate_onlyLeaps (s : State) (r : RefId) (m : Message) : s.onlyLeaps (s.leapUpdate r m) := by
  unfold State.leapUpdate
  split
  · exact s.onlyLeaps_refl
  · rw [State.takeAnnouncement_eq]
    have hset (u : Nat) (leap : Option Leap) : s.onlyLeaps (s.setTs { s.ts with utcOffset := u, leap := leap }) := rfl
    exact ((hset _ _).trans (State.dropLeapWithoutRoom_onlyLeaps _)).trans
      (State.alignLeap_onlyLeaps _)

/-- The state in which the engine corrects by a measurement of `r`: the message, if there is one, has made its update. -/
def State.updatedBy (s : State) (r : RefId) (m : Option Message) : State :=
  match m with
  | some m => s.leapUpdate r m
  | none => s

theorem State.updatedBy_onlyLeaps (s : State) (r : RefId) (m : Option Message) : s.onlyLeaps (s.updatedBy r m) := by
  cases m with
  | none => exact s.onlyLeaps_refl
  | some m => exact s.leapUpdate_onlyLeaps r m

theorem State.onlyLeaps.engine {s t : State} (h : s.onlyLeaps t) : t.engine = s.engine := by rw [h]

theorem State.onlyLeaps.ref {s t : State} (h : s.onlyLeaps t) (r : RefId) : t.ref r = s.ref r := by
  rw [h]
  rfl

theorem State.onlyLeaps.slew {s t : State} (h : s.onlyLeaps t) : t.ts.slew = s.ts.slew := by rw [h]

theorem State.onlyLeaps.time {s t : State} (h : s.onlyLeaps t) : t.ts.time = s.ts.time := by rw [h]

theorem State.onlyLeaps.stepTarget {s t : State} (h : s.onlyLeaps t) (amount : Int) :
    t.stepTarget amount = s.stepTarget amount := by
  simp only [State.stepTarget, State.nowNs, h.time]
  rfl

/-! ### The cases of a correction (R58 to R65) -/

/-- What the engine does not use leaves it as it is. -/
theorem State.useMeasurement_unused {s : State} {r : RefId} (h : ¬ (s.engine.state.follows ∧ s.engine.selection = some r))
    (x : Int) (a : Nat) (m : Option Message) : s.useMeasurement r x a m = s := by
  unfold State.useMeasurement
  rw [if_neg]
  simpa [State.usesMeasurement, EngineState.follows] using h

/-- A used measurement corrects, and is recorded with what the engine did (R58). -/
theorem State.useMeasurement_corrects {s c : State} {r : RefId} {x : Int} {a : Nat} {m : Option Message}
    {act : EngineAction} (hf : s.engine.state.follows) (hs : s.engine.selection = some r)
    (hc : (s.updatedBy r m).correct r x a = (c, act)) :
    s.useMeasurement r x a m = c.recordMeasurement ⟨r, x, a, s.run, act⟩ := by
  have hu : s.usesMeasurement r = true := by
    simpa [State.usesMeasurement, EngineState.follows] using And.intro hf hs
  have huse : s.useMeasurement r x a m =
      ((s.updatedBy r m).correct r x a).1.recordMeasurement ⟨r, x, a, s.run, ((s.updatedBy r m).correct r x a).2⟩ := by
    unfold State.useMeasurement
    rw [if_pos hu]
    cases m <;> rfl
  rw [huse, hc]

theorem offsetSaturated_iff (x : Int) : offsetSaturated x = true ↔ x = -2 ^ 63 ∨ x = 2 ^ 63 - 1 := by
  simp only [offsetSaturated, Bool.or_eq_true, decide_eq_true_eq]

theorem State.correct_saturated {t : State} {x : Int} (hx : x = -2 ^ 63 ∨ x = 2 ^ 63 - 1) (r : RefId) (a : Nat) :
    t.correct r x a = (t, .ignored) :=
  if_pos ((offsetSaturated_iff x).mpr hx)

section
variable {t : State} {r : RefId} {x : Int} {a : Nat}

theorem State.correct_locked (hlo : -2 ^ 63 < x) (hhi : x < 2 ^ 63 - 1) (h : t.engine.state = .locked) :
    t.correct r x a = ((t.loopUpdate x).setUncertainty ((a + x.natAbs) * 1000), .loop) := by
  have hx : ¬ offsetSaturated x = true := mt (offsetSaturated_iff x).mp (by omega)
  exact (if_neg hx).trans (if_pos h)

theorem State.correct_acquiring (hlo : -2 ^ 63 < x) (hhi : x < 2 ^ 63 - 1) (h : t.engine.state = .acquiring) :
    t.correct r x a = t.acquiringCorrection r x a := by
  have hx : ¬ offsetSaturated x = true := mt (offsetSaturated_iff x).mp (by omega)
  exact (if_neg hx).trans (if_neg (by rw [h]; decide))

theorem State.engineSlewPresent_iff (t : State) : t.engineSlewPresent = true ↔ ∃ w ∈ t.ts.slew, w.origin = .engine := by
  simp only [State.engineSlewPresent, Option.any_eq_true, Origin.isEngine_iff]
  rfl

theorem State.acquiringCorrection_ignored
    (h : (∃ w ∈ t.ts.slew, w.origin = .engine) ∨ (t.engine.initialStep = true ∧ (t.ref r).settings.kind = .pulseOnly)) :
    t.acquiringCorrection r x a = (t, .ignored) := by
  refine if_pos ?_
  rw [Bool.or_eq_true, State.engineSlewPresent_iff, Bool.and_eq_true, decide_eq_true_eq]
  exact h

/-- The measurement is not ignored: there is no engine slew, and a PULSE_ONLY reference does not wait for its initial
step. -/
theorem State.acquiringCorrection_used (hslew : ∀ w ∈ t.ts.slew, w.origin ≠ .engine)
    (hinit : t.engine.initialStep = true → (t.ref r).settings.kind ≠ .pulseOnly) :
    ¬ (t.engineSlewPresent || (t.engine.initialStep && decide ((t.ref r).settings.kind = .pulseOnly))) = true := by
  rw [Bool.or_eq_true, State.engineSlewPresent_iff, Bool.and_eq_true, decide_eq_true_eq]
  rintro (⟨w, hw, ho⟩ | ⟨hi, hk⟩)
  · exact hslew w hw ho
  · exact hinit hi hk

theorem State.acquiringCorrection_initial (hslew : ∀ w ∈ t.ts.slew, w.origin ≠ .engine) (hinit : t.engine.initialStep = true)
    (hkind : (t.ref r).settings.kind ≠ .pulseOnly) :
    t.acquiringCorrection r x a = (t.initialStepOn x a, .initialStep) :=
  (if_neg (State.acquiringCorrection_used hslew fun _ => hkind)).trans (if_pos hinit)

/-- With the initial step made, what the offset calls for. -/
theorem State.acquiringCorrection_later (hslew : ∀ w ∈ t.ts.slew, w.origin ≠ .engine)
    (hinit : t.engine.initialStep = false) :
    t.acquiringCorrection r x a =
      if x.natAbs < t.engine.settings.threshold then ((t.loopUpdate x).lockTest x a, .loop)
      else if t.engine.settings.autoStep then (t.autoStepOn x, .autoStep)
      else if x.natAbs ≤ Config.nsPerSec then (t.engineSlewOn x, .slew)
      else (t.needStep, .stepNeeded) :=
  (if_neg (State.acquiringCorrection_used hslew fun h => absurd (hinit.symm.trans h) Bool.false_ne_true)).trans
    (if_neg (by rw [hinit]; exact Bool.false_ne_true))

end

/-! ### The loop update and the lock test (R62, R63) -/

theorem clampInt_eq {lo hi : Int} (h : lo ≤ hi) (x : Int) : clampInt lo hi x = max lo (min hi x) := by
  unfold clampInt
  split_ifs <;> omega

theorem State.loopUpdate_eq {t : State} {e : Engine} (he : t.engine = e) (x : Int) :
    let tc : Int := e.settings.timeConstant
    let i : Int := max (-200000000) (min 200000000 (e.integral - (250 * x).tdiv (tc * tc)))
    t.loopUpdate x =
      { t with
        ts := { t.ts with rate := max (-200000000) (min 200000000 (i - (1000 * x).tdiv tc)) }
        engine := { t.engine with integral := i } } := by
  subst he
  unfold State.loopUpdate loopIntegral loopRate
  simp only [clampInt_eq (show (-200000000 : Int) ≤ 200000000 by norm_num)]
  rfl

theorem State.lockTest_locks {u : State} {x : Int} {run : Nat} (hrun : u.engine.nextRun x = run)
    (hcount : u.engine.settings.lockCount ≤ run) (hwindow : x.natAbs ≤ u.engine.settings.lockWindow) (a : Nat) :
    u.lockTest x a =
      ({ u with engine := { u.engine with goodRun := run, stepNeeded := false } }.setUncertainty
        ((a + x.natAbs) * 1000)).enterState .locked := by
  subst hrun
  exact if_pos ⟨hcount, hwindow⟩

theorem State.lockTest_goes_on {u : State} {x : Int} {run : Nat} (hrun : u.engine.nextRun x = run)
    (h : run < u.engine.settings.lockCount ∨ u.engine.settings.lockWindow < x.natAbs) (a : Nat) :
    u.lockTest x a = { u with engine := { u.engine with goodRun := run } } := by
  subst hrun
  exact if_neg (by omega)

/-- Settles O24. -/
theorem measurementsUpdateTheLoop : Obligations.MeasurementsUpdateTheLoop := by
  constructor
  · intro s r m u sec noRoom kept leaps
    refine ⟨fun ⟨old, hold, hp⟩ => State.leapUpdate_inserting hold hp r m, fun h => ?_⟩
    have heq := State.leapUpdate_eq h r m
    have hkept (leap : Option Leap) (ha : s.announced r u m.announcement = leap) :
        s.leapUpdate r m = (kept leap).dropLeapWithoutRoom.alignLeap := by
      rw [heq, ← ha]
      rfl
    refine ⟨fun ha => ?_, fun x ha => ⟨fun hn => ?_, fun hn hk => ?_, fun hn hk => ?_⟩⟩
    · rw [hkept none ha, State.dropLeapWithoutRoom_none rfl]
      exact State.alignLeap_none rfl
    · rw [hkept _ ha, State.dropLeapWithoutRoom_drops rfl ((TimescaleUnit.leapHasNoRoom_iff _ _).mpr hn)]
      exact State.alignLeap_none rfl
    · rw [hkept _ ha, State.dropLeapWithoutRoom_keeps rfl (mt (TimescaleUnit.leapHasNoRoom_iff _ _).mp hn)]
      exact State.alignLeap_insert (s := kept (some x)) rfl hk
    · rw [hkept _ ha, State.dropLeapWithoutRoom_keeps rfl (mt (TimescaleUnit.leapHasNoRoom_iff _ _).mp hn)]
      exact State.alignLeap_delete (s := kept (some x)) rfl hk
  · intro s r x a m t tc i rate looped run
    refine ⟨fun h => State.useMeasurement_unused h x a m, fun hs hlo hhi => ?_⟩
    have honly : s.onlyLeaps t := s.updatedBy_onlyLeaps r m
    have he : t.engine = s.engine := honly.engine
    have hloop : t.loopUpdate x = looped := State.loopUpdate_eq he x
    refine ⟨fun hl => ?_, fun hacq hinit hslew hx => ?_⟩
    · refine State.useMeasurement_corrects (.inr hl) hs ?_
      rw [← hloop]
      exact State.correct_locked (t := t) hlo hhi (he ▸ hl)
    · have hrun : looped.engine.nextRun x = run := by
        change (if x.natAbs ≤ t.engine.settings.lockWindow then min 64 (t.engine.goodRun + 1) else 0) = run
        rw [he]
      have hsettings : looped.engine.settings = s.engine.settings := by
        rw [← he]
      have hcorrect : t.correct r x a = (looped.lockTest x a, .loop) := by
        rw [State.correct_acquiring hlo hhi (he ▸ hacq), State.acquiringCorrection_later (honly.slew ▸ hslew) (he ▸ hinit),
          if_pos (he ▸ hx), hloop]
      refine ⟨fun hcount hwindow => ?_, fun h => ?_⟩
      · refine State.useMeasurement_corrects (.inl hacq) hs (hcorrect.trans ?_)
        rw [State.lockTest_locks hrun (hsettings ▸ hcount) (hsettings ▸ hwindow)]
      · refine State.useMeasurement_corrects (.inl hacq) hs (hcorrect.trans ?_)
        rw [State.lockTest_goes_on hrun (hsettings ▸ h)]

/-! ### Steps and slews of the engine (R59, R60, R65) -/

theorem State.initialStepOn_some {t : State} {x : Int} {new : Instant} (h : t.stepTarget (-x) = some new) (a : Nat) :
    t.initialStepOn x a =
      let u := (t.stepTo .engine new false).setUncertainty ((a + 1000) * 1000)
      { u with engine := { u.engine with initialStep := false, goodRun := 0 } } := by
  unfold State.initialStepOn
  rw [h]
  rfl

theorem State.initialStepOn_none {t : State} {x : Int} (h : t.stepTarget (-x) = none) (a : Nat) :
    t.initialStepOn x a = t := by
  unfold State.initialStepOn
  rw [h]

theorem State.autoStepOn_some {t : State} {x : Int} {new : Instant} (h : t.stepTarget (-x) = some new) :
    t.autoStepOn x =
      let u := t.stepTo .engine new false
      { u with engine := { u.engine with goodRun := 0 } } := by
  unfold State.autoStepOn
  rw [h]
  rfl

theorem State.autoStepOn_none {t : State} {x : Int} (h : t.stepTarget (-x) = none) : t.autoStepOn x = t := by
  unfold State.autoStepOn
  rw [h]

theorem State.needStep_eq {t : State} {b : Bool} (h : t.engine.stepNeeded = b) :
    t.needStep =
      let u := { t with engine := { t.engine with goodRun := 0, stepNeeded := true } }
      if b then u else u.post .stepNeeded := by
  subst h
  rfl

theorem finePerNs_eq : finePerNs = 2 ^ 32 * 10 ^ 12 := by decide

theorem State.engineSlewOn_begins {t : State} (h : t.ts.slew = none) (x : Int) :
    t.engineSlewOn x =
      { t with
        engine := { t.engine with goodRun := 0 }
        ts := { t.ts with slew := some ⟨.engine, -x, -x * (2 ^ 32 * 10 ^ 12), t.ts.time⟩ } } := by
  unfold State.engineSlewOn
  simp only [State.ts_setEngine, h, State.beginSlew, finePerNs_eq]
  rfl

theorem State.engineSlewOn_discards {t : State} (h : t.ts.slew ≠ none) (x : Int) :
    t.engineSlewOn x = { t with engine := { t.engine with goodRun := 0 } } := by
  obtain ⟨w, hw⟩ := Option.ne_none_iff_exists'.mp h
  unfold State.engineSlewOn
  simp only [State.ts_setEngine, hw]
  rfl

/-- Settles O25. -/
theorem measurementsStepOrSlewInAcquiring : Obligations.MeasurementsStepOrSlewInAcquiring := by
  intro s r x a m t rec0 pulseOnly restarted
  have honly : s.onlyLeaps t := s.updatedBy_onlyLeaps r m
  have he : t.engine = s.engine := honly.engine
  have hkindEq : (t.ref r).settings.kind = (s.ref r).settings.kind := by rw [honly.ref]
  refine ⟨s.stepsWithinRange_holds, fun hs => ⟨fun h => ?_, fun hacq hlo hhi hslew => ?_⟩⟩
  · by_cases hx : x = -2 ^ 63 ∨ x = 2 ^ 63 - 1
    · have hf : s.engine.state.follows := by
        rcases h with h | h
        · exact h.1
        · exact .inl h.1
      exact State.useMeasurement_corrects hf hs (State.correct_saturated hx r a)
    · obtain ⟨hacq, hign⟩ := h.resolve_left fun h => hx h.2
      refine State.useMeasurement_corrects (.inl hacq) hs ?_
      have hsat : ¬ offsetSaturated x = true := mt (offsetSaturated_iff x).mp hx
      refine (if_neg hsat).trans ((if_neg ?_).trans (State.acquiringCorrection_ignored ?_))
      · change ¬ t.engine.state = .locked
        rw [he, hacq]
        decide
      · change (∃ w ∈ t.ts.slew, w.origin = .engine) ∨ (t.engine.initialStep = true ∧ (t.ref r).settings.kind = .pulseOnly)
        rw [honly.slew, he, hkindEq]
        exact hign
  · have hcorrect : t.correct r x a = t.acquiringCorrection r x a := State.correct_acquiring hlo hhi (he ▸ hacq)
    have huse {c : State} {act : EngineAction} (hc : t.acquiringCorrection r x a = (c, act)) :
        s.useMeasurement r x a m = c.recordMeasurement (rec0 act) :=
      State.useMeasurement_corrects (.inl hacq) hs (hcorrect.trans hc)
    have hslew' : ∀ w ∈ t.ts.slew, w.origin ≠ .engine := honly.slew ▸ hslew
    refine ⟨fun hinit hkind => ?_, fun hinit hx => ?_⟩
    · have hc := huse (State.acquiringCorrection_initial (a := a) (x := x) hslew' (he ▸ hinit) (hkindEq ▸ hkind))
      refine ⟨fun hn => ?_, fun new hn => ⟨_, rfl, ?_⟩⟩
      · rw [hc, State.initialStepOn_none ((honly.stepTarget _).trans hn)]
      · rw [hc, State.initialStepOn_some ((honly.stepTarget _).trans hn)]
    · have hlater := State.acquiringCorrection_later (r := r) (x := x) (a := a) hslew' (he ▸ hinit)
      rw [he, if_neg (not_lt.mpr hx)] at hlater
      refine ⟨fun hauto => ?_, fun hauto hbound => ?_, fun hauto hbound => ?_⟩
      · rw [if_pos hauto] at hlater
        refine ⟨fun hn => ?_, fun new hn => ⟨_, rfl, ?_⟩⟩
        · rw [huse hlater, State.autoStepOn_none ((honly.stepTarget _).trans hn)]
        · rw [huse hlater, State.autoStepOn_some ((honly.stepTarget _).trans hn)]
      · rw [if_neg (by rw [hauto]; exact Bool.false_ne_true), if_pos (by exact hbound)] at hlater
        refine ⟨fun hn => ?_, fun hn => ?_⟩
        · rw [huse hlater, State.engineSlewOn_begins (honly.slew.trans hn), honly.time]
        · rw [huse hlater, State.engineSlewOn_discards (honly.slew ▸ hn)]
      · intro u
        rw [if_neg (by rw [hauto]; exact Bool.false_ne_true), if_neg (by exact not_le.mpr hbound)] at hlater
        rw [huse hlater, State.needStep_eq (congrArg Engine.stepNeeded he)]

end Sys2Proof.Machine
end

section
/-! SUPPORT. The packing of fields into words, and the parameters of the commands that carry packed fields. -/

namespace Sys2Proof.Machine

open Sys2Proof

/-! ### Packing (10.2) -/

/-- Between words nothing is left in the current word. -/
def Packing.tidy (p : Packing) : Prop := p.pos = 0 → p.word = 0

/-- Nothing packed so far. -/
def Packing.start : Packing := ⟨[], 0, 0⟩

/-- The same packing after the words `ds`, newest first. -/
def Packing.after (ds : List Nat) (p : Packing) : Packing := { p with done := p.done ++ ds }

theorem Packing.closeWord_tidy {p : Packing} (h : p.tidy) : p.closeWord = ⟨p.closeWord.done, 0, 0⟩ := by
  unfold Packing.closeWord
  split
  · rename_i hp
    have hw := h hp
    cases p
    simp_all
  · rfl

theorem Packing.closeWord_closeWord (p : Packing) : p.closeWord.closeWord = p.closeWord := by
  unfold Packing.closeWord
  split <;> rfl

theorem Packing.place_instant {p : Packing} (h : p.tidy) (v : Nat) :
    p.place (.instant v) = ⟨v % 2 ^ 128 :: p.closeWord.done, 0, 0⟩ := by
  unfold Packing.place
  dsimp only
  rw [Packing.closeWord_tidy h]

theorem Packing.place_bits_fits {p : Packing} {w : Nat} (h : p.pos + w ≤ 128) (v : Nat) :
    p.place (.bits w v) = ⟨p.done, p.word + v % 2 ^ w * 2 ^ p.pos, p.pos + w⟩ := by
  simp only [Packing.place, if_pos h]

theorem Packing.place_bits_full {p : Packing} {w : Nat} (h : ¬ p.pos + w ≤ 128) (v : Nat) :
    p.place (.bits w v) = p.closeWord.place (.bits w v) := by
  simp only [Packing.place, if_neg h, Packing.closeWord_closeWord, ite_self]

theorem Packing.place_tidy {p : Packing} (h : p.tidy) (f : Field) : (p.place f).tidy := by
  have hbits (q : Packing) (hq : q.tidy) (w v : Nat) :
      ({ q with word := q.word + v % 2 ^ w * 2 ^ q.pos, pos := q.pos + w } : Packing).tidy := fun hpos => by
    obtain ⟨hp, hw⟩ := Nat.add_eq_zero_iff.mp hpos
    dsimp only
    rw [hq hp, hw, Nat.pow_zero, Nat.mod_one, Nat.zero_mul]
  have hclose : p.closeWord.tidy := fun _ => by rw [Packing.closeWord_tidy h]
  cases f with
  | bits w v =>
    unfold Packing.place
    dsimp only
    split
    · exact hbits p h w v
    · exact hbits _ hclose w v
  | instant v => exact hclose
  | newWord => exact hclose

theorem Packing.foldl_tidy (fs : List Field) {p : Packing} (h : p.tidy) : (fs.foldl Packing.place p).tidy := by
  induction fs generalizing p with
  | nil => exact h
  | cons f fs ih => exact ih (Packing.place_tidy h f)

theorem Packing.closeWord_after (ds : List Nat) (p : Packing) : (p.after ds).closeWord = p.closeWord.after ds := by
  unfold Packing.closeWord Packing.after
  dsimp only
  split <;> rfl

/-- The words packed before have no part in what is packed next. -/
theorem Packing.place_after (ds : List Nat) (p : Packing) (f : Field) : (p.after ds).place f = (p.place f).after ds := by
  cases f with
  | bits w v =>
    by_cases h : p.pos + w ≤ 128
    · have h' : (p.after ds).pos + w ≤ 128 := h
      simp only [Packing.place, if_pos h, if_pos h']
      rfl
    · have h' : ¬ (p.after ds).pos + w ≤ 128 := h
      simp only [Packing.place, if_neg h, if_neg h', Packing.closeWord_after]
      rfl
  | instant v =>
    simp only [Packing.place, Packing.closeWord_after]
    rfl
  | newWord => exact Packing.closeWord_after ds p

theorem Packing.foldl_after (ds : List Nat) (fs : List Field) (p : Packing) :
    fs.foldl Packing.place (p.after ds) = (fs.foldl Packing.place p).after ds := by
  induction fs generalizing p with
  | nil => rfl
  | cons f fs ih => rw [List.foldl_cons, Packing.place_after, ih, List.foldl_cons]

/-- The words of a finished packing, in their order. -/
def Packing.words (p : Packing) : List Word := (p.closeWord.done.reverse).map (BitVec.ofNat 128)

theorem pack_eq_words (fs : List Field) : pack fs = (fs.foldl Packing.place .start).words := rfl

/-- What follows a closed word is packed as if it stood alone. -/
theorem Packing.words_foldl_closed (ds : List Nat) (fs : List Field) :
    (fs.foldl Packing.place ⟨ds, 0, 0⟩).words = ds.reverse.map (BitVec.ofNat 128) ++ pack fs := by
  have h : (⟨ds, 0, 0⟩ : Packing) = Packing.start.after ds := rfl
  rw [h, Packing.foldl_after, pack_eq_words]
  unfold Packing.words
  rw [Packing.closeWord_after]
  simp only [Packing.after, List.reverse_append, List.map_append]

theorem Packing.foldl_start_tidy (fs : List Field) : (fs.foldl Packing.place .start).tidy :=
  Packing.foldl_tidy fs fun _ => rfl

theorem pack_newWord (before after : List Field) : pack (before ++ .newWord :: after) = pack before ++ pack after := by
  rw [pack_eq_words, List.foldl_append, List.foldl_cons]
  change (after.foldl Packing.place (before.foldl Packing.place .start).closeWord).words = _
  rw [Packing.closeWord_tidy (Packing.foldl_start_tidy before), Packing.words_foldl_closed]
  rfl

theorem pack_instant (before after : List Field) (v : Nat) :
    pack (before ++ .instant v :: after) = pack before ++ BitVec.ofNat 128 v :: pack after := by
  have hv : BitVec.ofNat 128 (v % 2 ^ 128) = BitVec.ofNat 128 v := BitVec.eq_of_toNat_eq (by simp)
  have hplace : (before.foldl Packing.place .start).place (.instant v) =
      ⟨v % 2 ^ 128 :: (before.foldl Packing.place .start).closeWord.done, 0, 0⟩ :=
    Packing.place_instant (Packing.foldl_start_tidy before) v
  rw [pack_eq_words, List.foldl_append, List.foldl_cons, hplace, Packing.words_foldl_closed]
  simp only [List.reverse_cons, List.map_append, List.map_cons, List.map_nil, List.append_assoc, List.singleton_append, hv]
  rfl

/-- The number of a word whose fields have these widths and values, from bit 0 upward. -/
def wordValue (fields : List (Nat × Nat)) : Nat := fields.foldr (fun x above => x.2 % 2 ^ x.1 + 2 ^ x.1 * above) 0

theorem wordOf_eq (fields : List (Nat × Nat)) : wordOf fields = BitVec.ofNat 128 (wordValue fields) := rfl

/-- Fields that fit fill the current word above what stands in it. -/
theorem Packing.foldl_bits (fields : List (Nat × Nat)) {p : Packing} (h : p.pos + (fields.map (·.1)).sum ≤ 128) :
    (fields.map fun x => Field.bits x.1 x.2).foldl Packing.place p =
      ⟨p.done, p.word + 2 ^ p.pos * wordValue fields, p.pos + (fields.map (·.1)).sum⟩ := by
  induction fields generalizing p with
  | nil => simp [wordValue]
  | cons x fields ih =>
    simp only [List.map_cons, List.sum_cons] at h
    rw [List.map_cons, List.foldl_cons, Packing.place_bits_fits (by omega), ih (by dsimp only; omega)]
    simp only [wordValue, List.foldr_cons, List.map_cons, List.sum_cons, Packing.mk.injEq, true_and]
    constructor
    · ring
    · omega

theorem Packing.closeWord_foldl_bits {fields : List (Nat × Nat)} (hpos : 0 < (fields.map (·.1)).sum)
    (hle : (fields.map (·.1)).sum ≤ 128) :
    ((fields.map fun x => Field.bits x.1 x.2).foldl Packing.place .start).closeWord = ⟨[wordValue fields], 0, 0⟩ := by
  have h : Packing.start.pos + (fields.map (·.1)).sum ≤ 128 := by
    change 0 + _ ≤ _
    omega
  rw [Packing.foldl_bits fields h]
  have hne : ¬ Packing.start.pos + (fields.map (·.1)).sum = 0 := by
    change ¬ 0 + _ = 0
    omega
  unfold Packing.closeWord
  rw [if_neg hne]
  simp [Packing.start]

/-- Fields that fit a word fill one. -/
theorem pack_bits {fields : List (Nat × Nat)} (hpos : 0 < (fields.map (·.1)).sum) (hle : (fields.map (·.1)).sum ≤ 128) :
    pack (fields.map fun x => .bits x.1 x.2) = [wordOf fields] := by
  rw [pack_eq_words, Packing.words, Packing.closeWord_foldl_bits hpos hle]
  rfl

/-- A field that does not fit the current word begins the next one. -/
theorem pack_bits_bits {fields : List (Nat × Nat)} (hpos : 0 < (fields.map (·.1)).sum)
    (hle : (fields.map (·.1)).sum ≤ 128) {w : Nat} (hw : 128 < (fields.map (·.1)).sum + w) (v : Nat) (after : List Field) :
    pack ((fields.map fun x => .bits x.1 x.2) ++ .bits w v :: after) = wordOf fields :: pack (.bits w v :: after) := by
  have hclosed := Packing.closeWord_foldl_bits hpos hle
  have hplace : ((fields.map fun x => Field.bits x.1 x.2).foldl Packing.place .start).place (.bits w v) =
      (⟨[wordValue fields], 0, 0⟩ : Packing).place (.bits w v) := by
    have h : Packing.start.pos + (fields.map (·.1)).sum ≤ 128 := by
      change 0 + _ ≤ _
      omega
    have hfull : ¬ ((fields.map fun x => Field.bits x.1 x.2).foldl Packing.place .start).pos + w ≤ 128 := by
      rw [Packing.foldl_bits fields h]
      change ¬ 0 + _ + w ≤ 128
      omega
    rw [Packing.place_bits_full hfull, hclosed]
  rw [pack_eq_words, List.foldl_append, List.foldl_cons, hplace]
  exact Packing.words_foldl_closed [wordValue fields] (.bits w v :: after)

end Sys2Proof.Machine
end

section
/-! SUPPORT. The parameters of the commands that carry packed settings: what each reader answers, bit by bit, and that it
reads back what `pack` has written. -/

namespace Sys2Proof.Machine

open Sys2Proof

/-! ### Bits of parameter words (10.2) -/

theorem bitsAt_lt (ws : List Word) (k lo n : Nat) : bitsAt ws k lo n < 2 ^ n := Nat.mod_lt _ (Nat.two_pow_pos n)

theorem wordValue_lt (fields : List (Nat × Nat)) : wordValue fields < 2 ^ (fields.map (·.1)).sum := by
  induction fields with
  | nil => simp [wordValue]
  | cons x fields ih =>
    rw [List.map_cons, List.sum_cons, Nat.pow_add]
    change x.2 % 2 ^ x.1 + 2 ^ x.1 * wordValue fields < _
    have hx : x.2 % 2 ^ x.1 < 2 ^ x.1 := Nat.mod_lt _ (Nat.two_pow_pos _)
    calc x.2 % 2 ^ x.1 + 2 ^ x.1 * wordValue fields
        < 2 ^ x.1 + 2 ^ x.1 * wordValue fields := by omega
      _ = 2 ^ x.1 * (wordValue fields + 1) := by ring
      _ ≤ 2 ^ x.1 * 2 ^ (fields.map (·.1)).sum := Nat.mul_le_mul_left _ ih

/-- Each field stands above those before it. -/
theorem wordValue_field {fields : List (Nat × Nat)} {i n v : Nat} (h : fields[i]? = some (n, v)) :
    wordValue fields / 2 ^ ((fields.take i).map (·.1)).sum % 2 ^ n = v % 2 ^ n := by
  induction fields generalizing i with
  | nil => cases h
  | cons x fields ih =>
    cases i with
    | zero =>
      cases h
      change (v % 2 ^ n + 2 ^ n * wordValue fields) / 2 ^ 0 % 2 ^ n = _
      rw [Nat.pow_zero, Nat.div_one, Nat.add_mul_mod_self_left, Nat.mod_mod]
    | succ i =>
      rw [List.take_succ_cons, List.map_cons, List.sum_cons, Nat.pow_add, ← Nat.div_div_eq_div_mul]
      change (x.2 % 2 ^ x.1 + 2 ^ x.1 * wordValue fields) / 2 ^ x.1 / _ % _ = _
      rw [Nat.add_mul_div_left _ _ (Nat.two_pow_pos _), Nat.div_eq_of_lt (Nat.mod_lt _ (Nat.two_pow_pos _)), Nat.zero_add]
      exact ih h

/-- A field that fits its width reads back from its word. -/
theorem bitsAt_field {ws : List Word} {k : Nat} {fields : List (Nat × Nat)} (hw : ws.getD k 0 = wordOf fields)
    (hle : (fields.map (·.1)).sum ≤ 128) {i n v : Nat} (h : fields[i]? = some (n, v)) (hv : v < 2 ^ n) :
    bitsAt ws k ((fields.take i).map (·.1)).sum n = v := by
  have hlt : wordValue fields < 2 ^ 128 := lt_of_lt_of_le (wordValue_lt fields) (Nat.pow_le_pow_right (by decide) hle)
  have hword : wordAt ws k = wordValue fields := by
    rw [wordAt, hw, wordOf_eq, BitVec.toNat_ofNat, Nat.mod_eq_of_lt hlt]
  rw [bitsAt, hword, wordValue_field h, Nat.mod_eq_of_lt hv]

/-! ### Readers of single parameters (R192) -/

theorem inRange_iff (lo hi n m : Nat) : inRange lo hi n = some m ↔ n = m ∧ lo ≤ m ∧ m ≤ hi := by
  rw [inRange_eq_some_iff]
  constructor <;> rintro ⟨rfl, h⟩ <;> exact ⟨rfl, h⟩

theorem flagOf_iff (n : Nat) (b : Bool) : flagOf n = some b ↔ n = flagBit b := by
  rw [flagOf_eq_some_iff]
  cases b <;> rfl

theorem optionAt_none (p n : Nat) : optionAt p n none ↔ p = 0 := by
  simp [optionAt]

theorem optionAt_some (p n m : Nat) : optionAt p n (some m) ↔ p = 1 ∧ n = m := by
  simp only [optionAt, reduceCtorEq, and_false, false_or, Option.some.injEq]
  exact and_congr_right fun _ => eq_comm

theorem optionOf_inRange_iff (p lo hi n : Nat) (o : Option Nat) :
    optionOf p (inRange lo hi n) = some o ↔ optionAt p n o ∧ ∀ m, o = some m → lo ≤ m ∧ m ≤ hi := by
  rw [optionOf_eq_some_iff]
  cases o with
  | none => simp [optionAt_none]
  | some m => simp [optionAt_some, inRange_iff, and_assoc]

theorem optionOf_gateOf_iff (p n : Nat) (o : Option Grade) :
    optionOf p (gateOf n) = some o ↔ optionAt p n (o.map (·.val)) ∧ ∀ g, o = some g → g.val ≤ 6 := by
  rw [optionOf_eq_some_iff]
  cases o with
  | none => simp [optionAt_none]
  | some g => simp [optionAt_some, gateOf_eq_some_iff, and_assoc]

theorem bitVec_ofNat_eq_iff {w n : Nat} (h : n < 2 ^ w) (x : BitVec w) : BitVec.ofNat w n = x ↔ n = x.toNat := by
  rw [← BitVec.toNat_inj, BitVec.toNat_ofNat, Nat.mod_eq_of_lt h]

/-! ### The readers of packed parameters -/

theorem setTimeParams_iff (ws : List Word) (t u : Nat) :
    setTimeParams ws = some (t, u) ↔
      bitsAt ws 0 64 64 < 2 ^ 48 ∧ bitsAt ws 0 32 32 < 10 ^ 9 ∧ t = bitsAt ws 0 64 64 * 10 ^ 9 + bitsAt ws 0 32 32 ∧
        u = bitsAt ws 1 0 32 := by
  simp only [setTimeParams, unpack, unpackFrom, if_true, Nat.reduceAdd, Nat.reduceLeDiff, Option.bind_eq_bind,
    Option.bind_eq_some_iff, instantOf_eq_some_iff (wordAt_lt ws 0), Option.some.injEq, Prod.mk.injEq]
  constructor
  · rintro ⟨_, ⟨hsec, hns, rfl⟩, rfl, rfl⟩
    exact ⟨hsec, hns, rfl, rfl⟩
  · rintro ⟨hsec, hns, rfl, rfl⟩
    exact ⟨_, ⟨hsec, hns, rfl⟩, rfl, rfl⟩

theorem senseLineParams_iff (ws : List Word) (i : LineId) (clear : Bool) :
    senseLineParams ws = some (i, clear) ↔ bitsAt ws 0 0 8 = i.val ∧ bitsAt ws 0 8 8 = flagBit clear := by
  simp only [senseLineParams, unpack, unpackFrom, if_true, Nat.reduceAdd, Nat.reduceLeDiff, Option.bind_eq_bind,
    Option.bind_eq_some_iff, lineIdOf_eq_some_iff, flagOf_iff, Option.some.injEq, Prod.mk.injEq]
  constructor
  · rintro ⟨_, hi, _, hc, rfl, rfl⟩
    exact ⟨hi, hc⟩
  · rintro ⟨hi, hc⟩
    exact ⟨_, hi, _, hc, rfl, rfl⟩

theorem setLineParams_iff (ws : List Word) (i : LineId) (x : LineSettings) :
    setLineParams ws = some (i, x) ↔
      x.wf ∧ bitsAt ws 0 0 8 = i.val ∧ bitsAt ws 0 8 8 = x.mode.code ∧ bitsAt ws 0 16 8 = x.polarity.code ∧
        bitsAt ws 0 24 16 = x.compensation ∧ bitsAt ws 0 40 16 = x.period ∧ bitsAt ws 0 56 32 = x.width ∧
        optionAt (bitsAt ws 0 88 8) (bitsAt ws 0 96 8) (x.gate.map (·.val)) := by
  simp only [setLineParams, unpack, unpackFrom, bitsAt, Nat.reduceAdd, Nat.reduceLeDiff, if_true, Option.bind_eq_bind,
    Option.bind_eq_some_iff, lineIdOf_eq_some_iff, lineModeOf_eq_some_iff, linePolarityOf_eq_some_iff,
    inRange_iff, optionOf_gateOf_iff, Option.ite_none_right_eq_some, Option.some.injEq, Prod.mk.injEq,
    List.contains_iff_mem]
  constructor
  · rintro ⟨_, hi, _, hm, _, hpol, _, ⟨rfl, hwidth⟩, _, ⟨hgate, hgrade⟩, ⟨hperiod, hshort⟩, rfl, rfl⟩
    exact ⟨⟨Nat.le_of_lt_succ (bitsAt_lt ws 0 24 16), hperiod, hwidth, hshort, hgrade⟩, hi, hm, hpol, rfl, rfl, rfl, hgate⟩
  · rintro ⟨⟨_, hperiod, hwidth, hshort, hgrade⟩, hi, hm, hpol, hc, hp, hw, hgate⟩
    rw [hc, hp]
    exact ⟨_, hi, _, hm, _, hpol, _, ⟨hw, hwidth⟩, _, ⟨hgate, hgrade⟩, ⟨hperiod, hshort⟩, rfl, rfl⟩

theorem setEngineParams_iff (ws : List Word) (x : EngineSettings) (limit : Nat) :
    setEngineParams ws = some (x, limit) ↔
      x.wf ∧ (1 ≤ limit ∧ limit ≤ 500) ∧ bitsAt ws 0 0 16 = x.timeConstant ∧ bitsAt ws 0 16 32 = x.lockWindow ∧
        bitsAt ws 0 48 8 = x.lockCount ∧ bitsAt ws 0 56 32 = x.threshold ∧ bitsAt ws 0 88 8 = flagBit x.autoStep ∧
        bitsAt ws 0 96 32 = x.growth ∧ bitsAt ws 1 0 16 = limit := by
  have hword : bitsAt ws 1 0 16 = wordAt ws 1 % 2 ^ 16 := wordAt_mod_one ws 1 16
  rw [hword]
  simp only [setEngineParams, unpack, unpackFrom, Nat.reduceAdd, Nat.reduceLeDiff, if_true, if_false, Option.bind_eq_bind,
    Option.bind_eq_some_iff, flagOf_iff, inRange_iff, Option.some.injEq, Prod.mk.injEq]
  constructor
  · rintro ⟨_, ⟨htc, htc'⟩, _, ⟨hwin, hwin'⟩, _, ⟨hcnt, hcnt'⟩, _, ⟨hthr, hthr'⟩, _, hauto, _, ⟨hg, hg'⟩, _, ⟨hlim, hlim'⟩,
      rfl, rfl⟩
    exact ⟨⟨htc', hwin', hcnt', hthr', hg'.2⟩, hlim', htc, hwin, hcnt, hthr, hauto, hg, hlim⟩
  · rintro ⟨⟨htc', hwin', hcnt', hthr', hg'⟩, hlim', htc, hwin, hcnt, hthr, hauto, hg, hlim⟩
    exact ⟨_, ⟨htc, htc'⟩, _, ⟨hwin, hwin'⟩, _, ⟨hcnt, hcnt'⟩, _, ⟨hthr, hthr'⟩, _, hauto, _, ⟨hg, Nat.zero_le _, hg'⟩, _,
      ⟨hlim, hlim'⟩, rfl, rfl⟩

theorem setReferenceParams_iff (ws : List Word) (r : RefId) (x : RefSettings) :
    setReferenceParams ws = some (r, x) ↔
      x.wf ∧ bitsAt ws 0 0 8 = r.val ∧ bitsAt ws 0 8 8 = x.kind.code ∧ bitsAt ws 0 16 8 = x.priority ∧
        bitsAt ws 0 24 16 = x.compensation ∧ bitsAt ws 0 40 8 = Edge.code x.polarity ∧ bitsAt ws 0 48 16 = x.accuracy ∧
        bitsAt ws 0 64 8 = x.qualifyCount ∧ bitsAt ws 0 72 16 = x.holdOff ∧ bitsAt ws 0 88 32 = x.phaseLimit ∧
        bitsAt ws 1 0 32 = x.baud := by
  have hword : bitsAt ws 1 0 32 = wordAt ws 1 % 2 ^ 32 := wordAt_mod_one ws 1 32
  have hbaud (b : Nat) : b ∈ [9600, 19200, 38400, 115200] ↔ b = 9600 ∨ b = 19200 ∨ b = 38400 ∨ b = 115200 := by simp
  rw [hword]
  simp only [setReferenceParams, unpack, unpackFrom, bitsAt, Nat.reduceAdd, Nat.reduceLeDiff, if_true, if_false,
    Option.bind_eq_bind, Option.bind_eq_some_iff, refIdOf_eq_some_iff, refKindOf_eq_some_iff, edgeOf_eq_some_iff,
    inRange_iff, Option.ite_none_right_eq_some, Option.some.injEq, Prod.mk.injEq]
  constructor
  · rintro ⟨_, hr, _, hk, _, ⟨hpr, hpr'⟩, _, hpol, _, ⟨hq, hq'⟩, _, ⟨hh, hh'⟩, _, ⟨hph, hph'⟩, hb, rfl, rfl⟩
    exact ⟨⟨hpr'.2, Nat.le_of_lt_succ (bitsAt_lt ws 0 24 16), Nat.le_of_lt_succ (bitsAt_lt ws 0 48 16), hq', hh', hph',
      (hbaud _).mpr hb⟩, hr, hk, hpr, rfl, hpol, rfl, hq, hh, hph, rfl⟩
  · rintro ⟨⟨hpr', _, _, hq', hh', hph', hb⟩, hr, hk, hpr, hc, hpol, ha, hq, hh, hph, hbd⟩
    rw [hc, ha, hbd]
    exact ⟨_, hr, _, hk, _, ⟨hpr, Nat.zero_le _, hpr'⟩, _, hpol, _, ⟨hq, hq'⟩, _, ⟨hh, hh'⟩, _, ⟨hph, hph'⟩,
      (hbaud _).mp hb, rfl, rfl⟩

theorem setNetworkParams_iff (ws : List Word) (x : NetSettings) :
    setNetworkParams ws = some x ↔
      x.wf ∧ bitsAt ws 0 0 8 = flagBit (x.enable.get .na) ∧ bitsAt ws 0 8 8 = flagBit (x.enable.get .nb) ∧
        bitsAt ws 0 16 48 = x.address.toNat ∧ bitsAt ws 0 64 16 = x.interval ∧ bitsAt ws 0 80 16 = x.spacing ∧
        bitsAt ws 0 96 32 = x.stragglerLimit ∧ bitsAt ws 1 0 8 = x.idleLimit := by
  have hword : bitsAt ws 1 0 8 = wordAt ws 1 % 2 ^ 8 := wordAt_mod_one ws 1 8
  rw [hword, ← bitVec_ofNat_eq_iff (bitsAt_lt ws 0 16 48)]
  simp only [setNetworkParams, unpack, unpackFrom, bitsAt, Nat.reduceAdd, Nat.reduceLeDiff, if_true, if_false,
    Option.bind_eq_bind, Option.bind_eq_some_iff, flagOf_iff, inRange_iff, Option.ite_none_right_eq_some,
    Option.some.injEq, List.contains_iff_mem, Bool.or_eq_true]
  constructor
  · rintro ⟨_, hea, _, heb, _, ⟨hsp, hsp'⟩, _, ⟨hst, hst'⟩, _, ⟨hid, hid'⟩, ⟨hint, hgroup, haddr⟩, rfl⟩
    exact ⟨⟨hgroup, haddr, hint, hsp', hst', hid'⟩, hea, heb, rfl, rfl, hsp, hst, hid⟩
  · rintro ⟨⟨hgroup, haddr, hint, hsp', hst', hid'⟩, hea, heb, ha, hi, hsp, hst, hid⟩
    rw [ha, hi]
    exact ⟨_, hea, _, heb, _, ⟨hsp, hsp'⟩, _, ⟨hst, hst'⟩, _, ⟨hid, hid'⟩, ⟨hint, hgroup, haddr⟩, rfl⟩

theorem addMarkParams_iff (ws : List Word) (p : MarkParams) :
    addMarkParams ws = some p ↔
      p.lines ≠ 0 ∧ (1 ≤ p.width ∧ p.width ≤ 500000) ∧
        (∀ k, p.period = some k → 1 ≤ k ∧ k ≤ 86400000 ∧ p.width < k * 1000) ∧
        (∀ n, p.remaining = some n → 1 ≤ n ∧ n ≤ 65535 ∧ p.period ≠ none) ∧ (∀ g, p.minGrade = some g → g.val ≤ 6) ∧
        bitsAt ws 0 0 16 = p.lines.toNat ∧ bitsAt ws 1 64 64 < 2 ^ 48 ∧ bitsAt ws 1 32 32 < 10 ^ 9 ∧
        p.due = bitsAt ws 1 64 64 * 10 ^ 9 + bitsAt ws 1 32 32 ∧ bitsAt ws 2 0 32 = p.width ∧
        optionAt (bitsAt ws 2 32 8) (bitsAt ws 2 40 32) p.period ∧
        optionAt (bitsAt ws 2 72 8) (bitsAt ws 2 80 16) p.remaining ∧
        optionAt (bitsAt ws 2 96 8) (bitsAt ws 2 104 8) (p.minGrade.map (·.val)) ∧ bitsAt ws 2 112 16 = p.tag := by
  have hlines : bitsAt ws 0 0 16 ≠ 0 ↔ BitVec.ofNat 16 (bitsAt ws 0 0 16) ≠ 0 := by
    rw [ne_eq, ne_eq, bitVec_ofNat_eq_iff (bitsAt_lt ws 0 0 16)]
    rfl
  rw [← bitVec_ofNat_eq_iff (bitsAt_lt ws 0 0 16)]
  simp only [addMarkParams, unpack, unpackFrom, bitsAt, Nat.reduceAdd, Nat.reduceLeDiff, Nat.reduceEqDiff, if_true, if_false,
    Option.bind_eq_bind, Option.bind_eq_some_iff, instantOf_eq_some_iff (wordAt_lt ws 1), inRange_iff,
    optionOf_inRange_iff, optionOf_gateOf_iff, Option.ite_none_right_eq_some, Option.some.injEq]
  constructor
  · rintro ⟨_, ⟨hsec, hns, rfl⟩, _, ⟨hw, hw'⟩, _, ⟨hp, hp'⟩, _, ⟨hr, hr'⟩, _, ⟨hg, hg'⟩, ⟨hl, hshort, hperiodic⟩, rfl⟩
    refine ⟨hlines.mp hl, hw', fun k hk => ⟨(hp' k hk).1, (hp' k hk).2, hshort k hk⟩,
      fun n hn => ⟨(hr' n hn).1, (hr' n hn).2, ?_⟩, hg', rfl, hsec, hns, rfl, hw, hp, hr, hg, rfl⟩
    exact Option.isSome_iff_ne_none.mp (hperiodic (Option.isSome_iff_exists.mpr ⟨n, hn⟩))
  · rintro ⟨hl, hw', hp', hr', hg', hl', hsec, hns, hdue, hw, hp, hr, hg, htag⟩
    refine ⟨_, ⟨hsec, hns, hdue⟩, _, ⟨hw, hw'⟩, _, ⟨hp, fun k hk => ⟨(hp' k hk).1, (hp' k hk).2.1⟩⟩, _,
      ⟨hr, fun n hn => ⟨(hr' n hn).1, (hr' n hn).2.1⟩⟩, _, ⟨hg, hg'⟩,
      ⟨hlines.mpr (hl' ▸ hl), fun k hk => (hp' k hk).2.2, fun hsome => ?_⟩, ?_⟩
    · obtain ⟨n, hn⟩ := Option.isSome_iff_exists.mp hsome
      exact Option.isSome_iff_ne_none.mpr (hr' n hn).2.2
    · rw [hl', htag]

end Sys2Proof.Machine
end

section
/-! SUPPORT. What `pack` writes of the settings reads back as them. -/

namespace Sys2Proof.Machine

open Sys2Proof

theorem toNat_eq_flagBit (b : Bool) : b.toNat = flagBit b := by
  cases b <;> rfl

theorem toNat_lt_byte (b : Bool) : b.toNat < 2 ^ 8 := by
  cases b <;> decide

theorem LineMode.code_lt (m : LineMode) : m.code < 2 ^ 8 := by
  cases m <;> decide

theorem LinePolarity.code_lt (p : LinePolarity) : p.code < 2 ^ 8 := by
  cases p <;> decide

theorem RefKind.code_lt (k : RefKind) : k.code < 2 ^ 8 := by
  cases k <;> decide

theorem Edge.code_lt (e : Edge) : Edge.code e < 2 ^ 8 := by
  cases e <;> decide

/-- An instant's word gives the instant back, whatever its fraction (10.2). -/
theorem instantOf_word {sec ns frac : Nat} (hsec : sec < 2 ^ 48) (hns : ns < 10 ^ 9) (hfrac : frac < 2 ^ 32) :
    instantOf (sec * 2 ^ 64 + ns * 2 ^ 32 + frac) = some (sec * 10 ^ 9 + ns) := by
  have hlow : ns * 2 ^ 32 + frac < 2 ^ 64 := by omega
  have hdiv : (sec * 2 ^ 64 + ns * 2 ^ 32 + frac) / 2 ^ 64 = sec := by omega
  have hmid : (sec * 2 ^ 64 + ns * 2 ^ 32 + frac) / 2 ^ 32 % 2 ^ 32 = ns := by omega
  unfold instantOf
  rw [hdiv, hmid]
  exact if_pos ⟨hsec, hns⟩

/-! ### The settings of a line -/

/-- The word of SET_LINE. -/
def lineWord (i : LineId) (x : LineSettings) : List (Nat × Nat) :=
  [(8, i.val), (8, x.mode.code), (8, x.polarity.code), (16, x.compensation), (16, x.period), (32, x.width),
    (8, flagBit x.gate.isSome), (8, orZero x.gate fun g => g.val)]

theorem pack_lineSettings (i : LineId) (x : LineSettings) : pack (.bits 8 i.val :: x.fields) = [wordOf (lineWord i x)] := by
  have hpack := pack_bits (fields := lineWord i x) (by simp [lineWord]) (by simp [lineWord])
  rw [← hpack]
  unfold LineSettings.fields lineWord
  cases x.gate <;> rfl

theorem setLineParams_pack (i : LineId) {x : LineSettings} (h : x.wf) :
    setLineParams (pack (.bits 8 i.val :: x.fields)) = some (i, x) := by
  obtain ⟨hcomp, hperiod, hwidth, hshort, hgate⟩ := id h
  have hfield {j n v : Nat} (hj : (lineWord i x)[j]? = some (n, v)) :=
    bitsAt_field (ws := [wordOf (lineWord i x)]) (k := 0) rfl (by simp [lineWord]) hj
  have hlong : x.period < 2 ^ 16 := by
    simp only [List.mem_cons, List.not_mem_nil, or_false] at hperiod
    omega
  have hgrade : (orZero x.gate fun g => g.val) < 2 ^ 8 := by
    cases hx : x.gate with
    | none => exact Nat.two_pow_pos 8
    | some g => exact g.isLt.trans (by decide)
  have hpresent : flagBit x.gate.isSome < 2 ^ 8 := by
    rw [← toNat_eq_flagBit]
    exact toNat_lt_byte _
  rw [pack_lineSettings, setLineParams_iff]
  refine ⟨h, hfield (j := 0) rfl (i.isLt.trans (by decide)), hfield (j := 1) rfl x.mode.code_lt,
    hfield (j := 2) rfl x.polarity.code_lt, hfield (j := 3) rfl (Nat.lt_succ_of_le hcomp), hfield (j := 4) rfl hlong,
    hfield (j := 5) rfl (by omega), ?_⟩
  have hp : bitsAt [wordOf (lineWord i x)] 0 88 8 = _ := hfield (j := 6) rfl hpresent
  have hv : bitsAt [wordOf (lineWord i x)] 0 96 8 = _ := hfield (j := 7) rfl hgrade
  rw [hp, hv]
  cases x.gate with
  | none => exact .inl ⟨rfl, rfl⟩
  | some g => exact .inr ⟨rfl, rfl⟩

/-! ### The settings of the engine -/

/-- The first word of SET_ENGINE; the slew rate limit stands in the second. -/
def engineWord (x : EngineSettings) : List (Nat × Nat) :=
  [(16, x.timeConstant), (32, x.lockWindow), (8, x.lockCount), (32, x.threshold), (8, x.autoStep.toNat), (32, x.growth)]

theorem pack_engineSettings (x : EngineSettings) (limit : Nat) :
    pack (x.fields ++ [.bits 16 limit]) = [wordOf (engineWord x), wordOf [(16, limit)]] := by
  have hlast := pack_bits (fields := [(16, limit)]) (by simp) (by simp)
  have hpack := pack_bits_bits (fields := engineWord x) (by simp [engineWord]) (by simp [engineWord]) (w := 16)
    (by simp [engineWord]) limit []
  exact hpack.trans (congrArg _ hlast)

theorem setEngineParams_pack {x : EngineSettings} {limit : Nat} (h : x.wf) (hlo : 1 ≤ limit) (hhi : limit ≤ 500) :
    setEngineParams (pack (x.fields ++ [.bits 16 limit])) = some (x, limit) := by
  obtain ⟨htc, hwin, hcnt, hthr, hgrowth⟩ := id h
  have hfield {j n v : Nat} (hj : (engineWord x)[j]? = some (n, v)) :=
    bitsAt_field (ws := [wordOf (engineWord x), wordOf [(16, limit)]]) (k := 0) rfl (by simp [engineWord]) hj
  rw [pack_engineSettings, setEngineParams_iff]
  exact ⟨h, ⟨hlo, hhi⟩, hfield (j := 0) rfl (by omega), hfield (j := 1) rfl (by omega), hfield (j := 2) rfl (by omega),
    hfield (j := 3) rfl (by omega), (hfield (j := 4) rfl (toNat_lt_byte x.autoStep)).trans (toNat_eq_flagBit _),
    hfield (j := 5) rfl (by omega),
    bitsAt_field (ws := [wordOf (engineWord x), wordOf [(16, limit)]]) (k := 1) (i := 0) rfl (by simp) rfl (by omega)⟩

/-! ### The settings of a reference -/

/-- The first word of SET_REFERENCE; the baud rate stands in the second. -/
def referenceWord (r : RefId) (x : RefSettings) : List (Nat × Nat) :=
  [(8, r.val), (8, x.kind.code), (8, x.priority), (16, x.compensation), (8, Edge.code x.polarity), (16, x.accuracy),
    (8, x.qualifyCount), (16, x.holdOff), (32, x.phaseLimit)]

theorem pack_referenceSettings (r : RefId) (x : RefSettings) :
    pack (.bits 8 r.val :: x.fields) = [wordOf (referenceWord r x), wordOf [(32, x.baud)]] := by
  have hlast := pack_bits (fields := [(32, x.baud)]) (by simp) (by simp)
  have hpack := pack_bits_bits (fields := referenceWord r x) (by simp [referenceWord]) (by simp [referenceWord]) (w := 32)
    (by simp [referenceWord]) x.baud []
  exact hpack.trans (congrArg _ hlast)

theorem setReferenceParams_pack (r : RefId) {x : RefSettings} (h : x.wf) :
    setReferenceParams (pack (.bits 8 r.val :: x.fields)) = some (r, x) := by
  obtain ⟨hpr, hcomp, hacc, hq, hhold, hphase, hbaud⟩ := id h
  have hfield {j n v : Nat} (hj : (referenceWord r x)[j]? = some (n, v)) :=
    bitsAt_field (ws := [wordOf (referenceWord r x), wordOf [(32, x.baud)]]) (k := 0) rfl (by simp [referenceWord]) hj
  have hslow : x.baud < 2 ^ 32 := by
    simp only [List.mem_cons, List.not_mem_nil, or_false] at hbaud
    omega
  rw [pack_referenceSettings, setReferenceParams_iff]
  exact ⟨h, hfield (j := 0) rfl (r.isLt.trans (by decide)), hfield (j := 1) rfl x.kind.code_lt,
    hfield (j := 2) rfl (by omega), hfield (j := 3) rfl (by omega), hfield (j := 4) rfl (Edge.code_lt _),
    hfield (j := 5) rfl (by omega), hfield (j := 6) rfl (by omega), hfield (j := 7) rfl (by omega),
    hfield (j := 8) rfl (by omega),
    bitsAt_field (ws := [wordOf (referenceWord r x), wordOf [(32, x.baud)]]) (k := 1) (i := 0) rfl (by simp) rfl hslow⟩

/-! ### The settings of the network -/

/-- The first word of SET_NETWORK; the idle limit stands in the second. -/
def networkWord (x : NetSettings) : List (Nat × Nat) :=
  [(8, x.enable.na.toNat), (8, x.enable.nb.toNat), (48, x.address.toNat), (16, x.interval), (16, x.spacing),
    (32, x.stragglerLimit)]

theorem pack_networkSettings (x : NetSettings) :
    pack x.fields = [wordOf (networkWord x), wordOf [(8, x.idleLimit)]] := by
  have hlast := pack_bits (fields := [(8, x.idleLimit)]) (by simp) (by simp)
  have hpack := pack_bits_bits (fields := networkWord x) (by simp [networkWord]) (by simp [networkWord]) (w := 8)
    (by simp [networkWord]) x.idleLimit []
  exact hpack.trans (congrArg _ hlast)

theorem setNetworkParams_pack {x : NetSettings} (h : x.wf) : setNetworkParams (pack x.fields) = some x := by
  obtain ⟨hgroup, haddr, hint, hsp, hst, hid⟩ := id h
  have hfield {j n v : Nat} (hj : (networkWord x)[j]? = some (n, v)) :=
    bitsAt_field (ws := [wordOf (networkWord x), wordOf [(8, x.idleLimit)]]) (k := 0) rfl (by simp [networkWord]) hj
  have hlong : x.interval < 2 ^ 16 := by
    simp only [List.mem_cons, List.not_mem_nil, or_false] at hint
    omega
  rw [pack_networkSettings, setNetworkParams_iff]
  exact ⟨h, (hfield (j := 0) rfl (toNat_lt_byte x.enable.na)).trans (toNat_eq_flagBit _),
    (hfield (j := 1) rfl (toNat_lt_byte x.enable.nb)).trans (toNat_eq_flagBit _), hfield (j := 2) rfl x.address.isLt,
    hfield (j := 3) rfl hlong, hfield (j := 4) rfl (by omega), hfield (j := 5) rfl (by omega),
    bitsAt_field (ws := [wordOf (networkWord x), wordOf [(8, x.idleLimit)]]) (k := 1) (i := 0) rfl (by simp) rfl (by omega)⟩

/-- Settles O52. -/
theorem packedParametersReadBack : Obligations.PackedParametersReadBack := by
  refine ⟨fun t hsec hns hfrac => instantOf_word hsec hns hfrac, fun i x h => setLineParams_pack i h,
    fun x limit h hlo hhi => setEngineParams_pack h hlo hhi, fun r x h => setReferenceParams_pack r h,
    fun x h => setNetworkParams_pack h, rfl, rfl, rfl, rfl, rfl, fun _ => rfl, fun _ => rfl, rfl, rfl, rfl, fun _ => rfl,
    rfl, rfl, rfl, rfl, rfl, rfl, rfl, rfl, rfl,
    fun before after v => ⟨pack_newWord before after, pack_instant before after v⟩,
    fun fields hpos hle => ⟨pack_bits hpos hle, fun w v after hw => pack_bits_bits hpos hle hw v after⟩, fun ws => ?_⟩
  exact ⟨setTimeParams_iff ws, senseLineParams_iff ws, setLineParams_iff ws, setEngineParams_iff ws,
    setReferenceParams_iff ws, setNetworkParams_iff ws, addMarkParams_iff ws⟩

end Sys2Proof.Machine
end

section
/-! SUPPORT. The commands that read: READ_TIME, READ_ENGINE, READ_REFERENCE and READ_PORT. -/

namespace Sys2Proof.Machine

open Sys2Proof

/-! ### The groups of fields, each as a list of plain fields (10.2) -/

theorem orZero_some {α : Type} (x : α) (f : α → Nat) : orZero (some x) f = f x := by
  rw [orZero, Option.map_some, Option.getD_some]

theorem fFlag_eq (b : Bool) : fFlag b = .bits 8 (flagBit b) := by
  cases b <;> rfl

theorem selectionFields_eq (sel : Option RefId) :
    selectionFields sel = [.bits 8 (flagBit sel.isSome), .bits 8 (orZero sel fun r => r.val)] := by
  cases sel <;> rfl

theorem uncertaintyFields_eq (u : Option Nat) :
    uncertaintyFields u = [.bits 8 (flagBit u.isSome), .bits 48 (u.getD 0)] := by
  cases u <;> rfl

theorem leapFields_eq (o : Option Leap) :
    fOption o leapShape Leap.fields =
      [.bits 8 (flagBit o.isSome), .bits 8 (orZero o fun x => x.kind.code), .bits 64 (orZero o fun x => signedBits 64 x.dayEnd),
        .bits 8 (orZero o fun x => x.source.code), .bits 8 (orZero o fun x => x.phase.code)] := by
  cases o <;> rfl

theorem Slew.residualNs_eq (w : Slew) : w.residualNs = w.residual.tdiv (2 ^ 32 * 10 ^ 12) := by
  unfold Slew.residualNs
  rw [finePerNs_eq]
  rfl

/-- The number of an instant's field (10.2). -/
def timeNumber (t : TimeValue) : Nat := t.sec * 2 ^ 64 + t.ns * 2 ^ 32 + t.frac

theorem fTime_eq (t : TimeValue) : fTime t = .instant (timeNumber t) := rfl

theorem slewFields_eq (o : Option Slew) :
    fOption o slewShape Slew.fields =
      [.bits 8 (flagBit o.isSome), .bits 8 (orZero o fun w => w.origin.code),
        .bits 32 (orZero o fun w => signedBits 32 w.requested),
        .bits 32 (orZero o fun w => signedBits 32 (w.residual.tdiv (2 ^ 32 * 10 ^ 12))),
        .instant (orZero o fun w => timeNumber w.start)] := by
  cases o with
  | none => rfl
  | some w =>
    rw [fOption_some, Slew.fields, Slew.residualNs_eq]
    rfl

theorem lastSlewFields_eq (o : Option LastSlew) :
    fOption o lastSlewShape LastSlew.fields =
      [.bits 8 (flagBit o.isSome), .bits 8 (orZero o fun w => w.origin.code),
        .bits 32 (orZero o fun w => signedBits 32 w.requested), .instant (orZero o fun w => timeNumber w.start),
        .bits 8 (orZero o fun w => w.outcome.code), .bits 32 (orZero o fun w => signedBits 32 w.residualLeft),
        .bits 48 (orZero o fun w => w.endRun)] := by
  cases o <;> rfl

/-- The number of a step amount's field: a free one where the amount does not fit it (log entry 9). -/
def amountBits (a : Int) : Nat := if -(2 ^ 63) ≤ a ∧ a < 2 ^ 63 then signedBits 64 a else Config.freeAmountBits a

theorem fAmount_eq (a : Int) : fAmount a = .bits 64 (amountBits a) := by
  unfold fAmount amountBits
  split_ifs <;> rfl

theorem lastStepFields_eq (o : Option LastStep) :
    fOption o lastStepShape LastStep.fields =
      [.bits 8 (flagBit o.isSome), .bits 8 (orZero o fun x => x.source.code), .bits 64 (orZero o fun x => amountBits x.amount),
        .instant (orZero o fun x => timeNumber x.before), .instant (orZero o fun x => timeNumber x.after),
        .bits 48 (orZero o fun x => x.run)] := by
  cases o with
  | none =>
    rw [fOption_none, LastStep.fields, fAmount_eq]
    rfl
  | some x =>
    rw [fOption_some, LastStep.fields, fAmount_eq]
    rfl

/-! ### READ_TIME (R19, 10.4) -/

theorem pack_instant_cons (v : Nat) (after : List Field) : pack (.instant v :: after) = BitVec.ofNat 128 v :: pack after :=
  pack_instant [] after v

/-- Fields that fit a word fill one before an instant. -/
theorem pack_bits_instant {fields : List (Nat × Nat)} (hpos : 0 < (fields.map (·.1)).sum)
    (hle : (fields.map (·.1)).sum ≤ 128) (v : Nat) (after : List Field) :
    pack ((fields.map fun x => .bits x.1 x.2) ++ .instant v :: after) =
      wordOf fields :: BitVec.ofNat 128 v :: pack after := by
  rw [pack_instant, pack_bits hpos hle]
  rfl

/-- The step amount that READ_TIME shows. -/
def State.amountShown (s : State) : Nat := orZero s.ts.lastStep fun x => amountBits x.amount

/-- The word of an instant that may be absent. -/
theorem startWord_eq {α : Type} (o : Option α) (f : α → TimeValue) :
    BitVec.ofNat 128 (orZero o fun x => timeNumber (f x)) = ((o.map f).map instantWord).getD 0 := by
  cases o <;> rfl

theorem pack_timeFields (s : State) : pack s.timeFields = s.timeWords s.amountShown := by
  unfold State.timeFields Label.fields
  simp only [leapFields_eq, slewFields_eq, lastSlewFields_eq, lastStepFields_eq, uncertaintyFields_eq, selectionFields_eq,
    fTime_eq]
  unfold State.timeWords
  simp only [← startWord_eq]
  refine (pack_instant_cons _ _).trans (congrArg (List.cons _) ?_)
  refine (pack_bits_bits (fields := [(_, _), (_, _), (_, _), (_, _)]) (by simp) (by simp) (by simp) _ _).trans
    (congrArg (List.cons _) ?_)
  refine (pack_bits_bits (fields := [(_, _), (_, _), (_, _), (_, _), (_, _)]) (by simp) (by simp) (by simp) _ _).trans
    (congrArg (List.cons _) ?_)
  refine (pack_bits_bits (fields := [(_, _), (_, _), (_, _), (_, _), (_, _), (_, _)]) (by simp) (by simp) (by simp) _
    _).trans (congrArg (List.cons _) ?_)
  refine (pack_bits_instant (fields := [(_, _), (_, _)]) (by simp) (by simp) _ _).trans
    (congrArg (fun ws => _ :: _ :: ws) ?_)
  refine (pack_bits_instant (fields := [(_, _), (_, _), (_, _), (_, _)]) (by simp) (by simp) _ _).trans
    (congrArg (fun ws => _ :: _ :: ws) ?_)
  refine (pack_bits_bits (fields := [(_, _), (_, _), (_, _), (_, _), (_, _)]) (by simp) (by simp) (by simp) _ _).trans
    (congrArg (List.cons _) ?_)
  refine (pack_bits_instant (fields := [(_, _)]) (by simp) (by simp) _ _).trans (congrArg (fun ws => _ :: _ :: ws) ?_)
  refine (pack_instant_cons _ _).trans (congrArg (List.cons _) ?_)
  refine (pack_bits_bits (fields := [(_, _), (_, _), (_, _), (_, _), (_, _), (_, _)]) (by simp) (by simp) (by simp) _
    _).trans (congrArg (List.cons _) ?_)
  exact pack_bits (fields := [(_, _)]) (by simp) (by simp)

/-- The label of the timescale while a record is INSERTING (R15, R19). -/
theorem TimescaleUnit.labelNow_inserting {ts : TimescaleUnit} {r : Leap} (h : ts.leap = some r)
    (hp : r.phase = .inserting) : ts.labelNow = { labelOf (r.dayEnd - 1) with secOfDay := 86400 } := by
  unfold TimescaleUnit.labelNow
  rw [h]
  exact if_pos hp

theorem TimescaleUnit.labelNow_plain {ts : TimescaleUnit} (h : ∀ r, ts.leap = some r → r.phase ≠ .inserting) :
    ts.labelNow = labelOf (ts.time.sec - ts.utcOffset) := by
  unfold TimescaleUnit.labelNow
  cases hl : ts.leap with
  | none => rfl
  | some r => exact if_neg (h r hl)

/-! ### READ_ENGINE (R75) -/

theorem lastMeasurementFields_eq (o : Option LastMeasurement) :
    fOption o lastMeasurementShape LastMeasurement.fields =
      [.bits 8 (flagBit o.isSome), .bits 8 (orZero o fun y => y.ref.val), .bits 64 (orZero o fun y => signedBits 64 y.offset),
        .bits 32 (orZero o fun y => y.accuracy), .bits 48 (orZero o fun y => y.run),
        .bits 8 (orZero o fun y => y.action.code)] := by
  cases o <;> rfl

theorem slewSummaryFields_eq (o : Option Slew) :
    fOption o slewShape (fun w => [fCode w.origin.code, fSigned 32 w.residualNs]) =
      [.bits 8 (flagBit o.isSome), .bits 8 (orZero o fun w => w.origin.code),
        .bits 32 (orZero o fun w => signedBits 32 (w.residual.tdiv (2 ^ 32 * 10 ^ 12)))] := by
  simp only [Slew.residualNs_eq]
  cases o <;> rfl

theorem State.engineFields_eq (s : State) : s.engineFields = s.engineValues := by
  unfold State.engineFields EngineSettings.fields
  simp only [selectionFields_eq, uncertaintyFields_eq, lastMeasurementFields_eq, slewSummaryFields_eq, fFlag_eq]
  rfl

/-! ### READ_REFERENCE (R50) -/

theorem State.shownState_eq (s : State) (r : RefId) : s.shownState r = s.stateShown r := by
  unfold State.shownState State.stateShown RefState.shownCode
  cases (s.ref r).state <;> simp only [decide_eq_true_eq]

theorem fInstant_value (t : Instant) : fInstant t = .instant (instantValue t) := fInstant_eq t

theorem captureFields_eq (o : Option Capture) :
    fOption o captureShape Capture.fields =
      [.bits 8 (flagBit o.isSome), .instant (orZero o fun c => instantValue c.value), .bits 64 (orZero o fun c => c.tick),
        .bits 8 (orZero o fun c => flagBit c.badSeen)] := by
  cases o with
  | none => rfl
  | some c =>
    simp only [fOption_some, Capture.fields, fInstant_value, fFlag_eq, orZero_some]
    rfl

theorem messageFields_eq (o : Option Message) :
    fOption o messageShape Message.fields =
      [.bits 8 (flagBit o.isSome), .bits 8 (orZero o fun z => z.kind.code),
        .bits 64 (orZero o fun z => signedBits 64 z.utcCount), .bits 8 (orZero o fun z => z.utcOffset),
        .bits 32 (orZero o fun z => z.accuracy), .bits 8 (orZero o fun z => z.status),
        .bits 8 (orZero o fun z => z.announcement.code), .bits 64 (orZero o fun z => signedBits 64 z.announcement.dayEnd)] := by
  cases o <;> rfl

theorem measurementFields_eq (o : Option Measurement) :
    fOption o measurementShape Measurement.fields =
      [.bits 8 (flagBit o.isSome), .bits 48 (orZero o fun z => z.run), .instant (orZero o fun z => instantValue z.value),
        .bits 64 (orZero o fun z => z.tick), .bits 64 (orZero o fun z => signedBits 64 z.offset),
        .bits 32 (orZero o fun z => z.accuracy), .bits 8 (orZero o fun z => flagBit z.message.isNone)] ++
        fOption (o.bind (·.message)) messageShape Message.fields := by
  cases o with
  | none => rfl
  | some z =>
    have hcause : fCode (if z.message.isSome then 0 else 1) = .bits 8 (flagBit z.message.isNone) := by
      cases z.message <;> rfl
    simp only [fOption_some, Measurement.fields, fInstant_value, Option.bind_some, hcause, orZero_some]
    rfl

theorem lastEdgeFields_eq (o : Option Nat) :
    fOption o 0 (fun t => [.bits 64 t]) = [.bits 8 (flagBit o.isSome), .bits 64 (o.getD 0)] := by
  cases o <;> rfl

theorem comparisonFields_eq (o : Option Int) :
    fOption o 0 (fun c => [fSigned 64 c]) =
      [.bits 8 (flagBit o.isSome), .bits 64 (orZero o fun c => signedBits 64 c)] := by
  cases o <;> rfl

theorem expiryFields_eq (o : Option Nat) :
    fOption o 0 (fun t => [.bits 48 t]) = [.bits 8 (flagBit o.isSome), .bits 48 (o.getD 0)] := by
  cases o <;> rfl

theorem remainingFields_eq (o : Option Nat) (run : Nat) :
    fOption o 0 (fun t => [.bits 48 (t - run)]) = [.bits 8 (flagBit o.isSome), .bits 48 (orZero o fun t => t - run)] := by
  cases o <;> rfl

theorem State.referenceFields_eq (s : State) (r : RefId) : s.referenceFields r = s.referenceValues r := by
  unfold State.referenceFields RefSettings.fields Reference.runFields Reference.counterFields
  simp only [captureFields_eq, lastEdgeFields_eq, comparisonFields_eq, measurementFields_eq, messageFields_eq,
    expiryFields_eq, remainingFields_eq, fFlag_eq, State.shownState_eq]
  rfl

theorem readReferenceParams_none {ws : List Word} (h : 4 ≤ wordAt ws 0 % 2 ^ 8) : readReferenceParams ws = none :=
  Option.eq_none_iff_forall_ne_some.mpr fun r hr => by
    have hval := (refIdOf_eq_some_iff _ r).mp hr
    omega

/-! ### READ_PORT (R151) -/

theorem NetSettings.fields_eq (x : NetSettings) :
    x.fields =
      [.bits 8 (flagBit (x.enable.get .na)), .bits 8 (flagBit (x.enable.get .nb)), .bits 48 x.address.toNat,
        .bits 16 x.interval, .bits 16 x.spacing, .bits 32 x.stragglerLimit, .bits 8 x.idleLimit] := by
  unfold NetSettings.fields
  simp only [fFlag_eq]
  rfl

theorem State.portFields_eq (s : State) (p : NetId) : s.portFields p = s.portValues p := by
  have hwire (w : Wire) : w.code = match w with
      | .idle => 0
      | .beacon _ => 1
      | .answer _ _ => 2 := by
    cases w <;> rfl
  unfold State.portFields
  simp only [NetSettings.fields_eq, fFlag_eq, fInstant_value, hwire]
  rfl

theorem readPortParams_none {ws : List Word} (h : 2 ≤ wordAt ws 0 % 2 ^ 8) : readPortParams ws = none :=
  Option.eq_none_iff_forall_ne_some.mpr fun p hp => by
    have hval := (netIdOf_eq_some_iff _ p).mp hp
    cases p <;> simp only [NetId.code] at hval <;> omega

/-! ### The commands -/

/-- A command that needs no claim is ready as soon as it waits in the slot (R177). -/
theorem State.slotHas.waits {s : State} {mp : Mp} {row : CommandRow} {ws : List Word} (h : s.slotHas mp row ws)
    (hrow : row.claim = false) : s.waits mp row ws :=
  ⟨h.1, h.2, fun hc => absurd (hrow.symm.trans hc) Bool.false_ne_true⟩

/-- Settles O17. -/
theorem readsChangeOnlyTheMailbox : Obligations.ReadsChangeOnlyTheMailbox := by
  intro s mp ws
  refine ⟨fun h => ⟨s.amountShown, ?_, fun hnone => ?_, fun x hx hlo hhi => ?_⟩,
    fun r hr hp => TimescaleUnit.labelNow_inserting hr hp, fun h => TimescaleUnit.labelNow_plain h, fun h => ?_,
    fun h => ⟨fun r hr => ?_, fun hr => ?_⟩, fun h => ⟨fun p hp => ?_, fun hp => ?_⟩⟩
  · refine next_congr (State.takeCommand_taken (State.slotHas.waits h rfl) ?_)
    rw [readTimeAct, pack_timeFields]
  · rw [State.amountShown, hnone]
    rfl
  · rw [State.amountShown, hx]
    exact if_pos ⟨hlo, hhi⟩
  · refine next_congr (State.takeCommand_taken (State.slotHas.waits h rfl) ?_)
    rw [readEngineAct, State.engineFields_eq]
  · refine next_congr (State.takeCommand_taken (State.slotHas.waits h rfl) ?_)
    rw [readReferenceAct, readReferenceParams, (refIdOf_eq_some_iff _ r).mpr hr, ← State.referenceFields_eq]
    rfl
  · refine next_congr (State.takeCommand_refused (State.slotHas.waits h rfl) ?_)
    rw [readReferenceAct, readReferenceParams_none hr]
    rfl
  · refine next_congr (State.takeCommand_taken (State.slotHas.waits h rfl) ?_)
    rw [readPortAct, readPortParams, (netIdOf_eq_some_iff _ p).mpr hp, ← State.portFields_eq]
    rfl
  · refine next_congr (State.takeCommand_refused (State.slotHas.waits h rfl) ?_)
    rw [readPortAct, readPortParams_none hp]
    rfl

end Sys2Proof.Machine
end

section
/-! SUPPORT. Which commands leave the four reference records as they are: all but the events of the reference inputs,
SET_REFERENCE, RESTART and power-on. -/

namespace Sys2Proof.Machine

open Sys2Proof

/-! ### Operations -/

theorem State.onlyEngine.refs {s t : State} (h : s.onlyEngine t) : t.refs = s.refs := by
  obtain ⟨_, _, hr, _⟩ := h
  exact hr

theorem State.onlyLines.refs {s t : State} (h : s.onlyLines t) : t.refs = s.refs := by
  obtain ⟨_, _, _, hr, _⟩ := h
  exact hr

theorem State.onlyNetwork.refs {s t : State} (h : s.onlyNetwork t) : t.refs = s.refs := by
  obtain ⟨_, _, _, hr, _⟩ := h
  exact hr

@[simp] theorem State.refs_reevaluate (s : State) : s.reevaluate.refs = s.refs := s.reevaluate_onlyEngine.refs

@[simp] theorem State.refs_enterHoldover (s : State) : s.enterHoldover.refs = s.refs := s.enterHoldover_onlyEngine.refs

@[simp] theorem State.refs_setUncertainty (s : State) (ps : Nat) : (s.setUncertainty ps).refs = s.refs :=
  (s.setUncertainty_onlyEngine ps).refs

@[simp] theorem State.refs_cancelSlew (s : State) (named : Origin → Bool) : (s.cancelSlew named).refs = s.refs :=
  (s.cancelSlew_onlyEngine named).refs

@[simp] theorem State.refs_alignLeap (s : State) : s.alignLeap.refs = s.refs := by
  rw [State.alignLeap_frame]

@[simp] theorem State.refs_stepTo (s : State) (src : Origin) (new : Instant) (clearFrac : Bool) :
    (s.stepTo src new clearFrac).refs = s.refs := by
  rw [State.stepTo_frame]

@[simp] theorem State.refs_handOutcome (s : State) (o : Outcome) : (s.handOutcome o).refs = s.refs := by
  rw [State.handOutcome_frame]

@[simp] theorem State.refs_beginSlew (s : State) (origin : Origin) (amount : Int) :
    (s.beginSlew origin amount).refs = s.refs := rfl

@[simp] theorem State.refs_endSlew (s : State) (w : Slew) (outcome : SlewOutcome) :
    (s.endSlew w outcome).refs = s.refs := rfl

@[simp] theorem State.refs_applyLeap (s : State) (kind : LeapKind) : (s.applyLeap kind).refs = s.refs := rfl

@[simp] theorem State.refs_setLeapPhase (s : State) (r : Leap) (phase : LeapPhase) :
    (s.setLeapPhase r phase).refs = s.refs := rfl

@[simp] theorem State.refs_updatedBy (s : State) (r : RefId) (m : Option Message) : (s.updatedBy r m).refs = s.refs := by
  rw [s.updatedBy_onlyLeaps r m]

@[simp] theorem State.refs_vouch (s : State) (declared : Nat) : (s.vouch declared).refs = s.refs := by
  unfold State.vouch
  split <;> simp

@[simp] theorem State.refs_changeEngine (s : State) (new : EngineSettings) (limit : Nat) :
    (s.changeEngine new limit).refs = s.refs := by
  rw [State.changeEngine_eq]

@[simp] theorem State.refs_pinned (s : State) (declared : Nat) : (s.pinned declared).refs = s.refs := by
  obtain ⟨h, _⟩ := s.pinned_spec declared
  rw [h]

@[simp] theorem State.refs_loopUpdate (s : State) (x : Int) : (s.loopUpdate x).refs = s.refs := rfl

@[simp] theorem State.refs_lockTest (s : State) (x : Int) (a : Nat) : ((s.loopUpdate x).lockTest x a).refs = s.refs :=
  (s.lockTest_onlyEngine x a).refs

@[simp] theorem State.refs_initialStepOn (s : State) (x : Int) (a : Nat) : (s.initialStepOn x a).refs = s.refs := by
  unfold State.initialStepOn
  split
  · rfl
  · rw [State.refs_setEngine, State.refs_setUncertainty, State.refs_stepTo]

@[simp] theorem State.refs_autoStepOn (s : State) (x : Int) : (s.autoStepOn x).refs = s.refs := by
  unfold State.autoStepOn
  split
  · rfl
  · rw [State.refs_setEngine, State.refs_stepTo]

@[simp] theorem State.refs_engineSlewOn (s : State) (x : Int) : (s.engineSlewOn x).refs = s.refs := by
  unfold State.engineSlewOn
  dsimp only
  split <;> rfl

@[simp] theorem State.refs_needStep (s : State) : s.needStep.refs = s.refs := by
  rw [State.needStep_eq rfl]
  split <;> rfl

/-- Every correction by the engine leaves the records (R59 to R65). -/
@[simp] theorem State.refs_correct (s : State) (r : RefId) (x : Int) (a : Nat) : (s.correct r x a).1.refs = s.refs := by
  unfold State.correct State.acquiringCorrection
  dsimp only
  split_ifs <;> simp

@[simp] theorem State.refs_useMeasurement (s : State) (r : RefId) (x : Int) (a : Nat) (m : Option Message) :
    (s.useMeasurement r x a m).refs = s.refs := by
  by_cases h : s.engine.state.follows ∧ s.engine.selection = some r
  · have hrefs := (State.refs_correct (s.updatedBy r m) r x a).trans (s.refs_updatedBy r m)
    cases hc : (s.updatedBy r m).correct r x a with
    | mk c act =>
      rw [hc] at hrefs
      rw [State.useMeasurement_corrects h.1 h.2 hc]
      exact hrefs
  · rw [State.useMeasurement_unused h]

/-! ### Rules for commands and transactions -/

theorem State.refs_takeCommand {s : State} {mp : Mp} {row : CommandRow} {act : List Word → State → Judged}
    (h : ∀ ws t out, act ws s = .taken t out → t.refs = s.refs) : (s.takeCommand mp row act).refs = s.refs :=
  State.takeCommand_induct (P := fun t => t.refs = s.refs) rfl (fun _ _ _ ht => ht) h

/-- A command whose owner leaves the records, whatever its parameters. -/
theorem State.refs_withParams {α : Type} {s t : State} {params : Option α} {act : α → Judged} {out : List Word}
    (h : withParams params act = .taken t out) (ha : ∀ x u ws, act x = .taken u ws → u.refs = s.refs) :
    t.refs = s.refs := by
  obtain ⟨x, _, hx⟩ := (withParams_eq_taken_iff _ _ _ _).mp h
  exact ha x t out hx

theorem State.refs_endTransaction {s : State} {mp : Mp} {len : Nat} {data : Transaction → List Byte} {fits : Bool}
    {act : Transaction → State → State} (h : ∀ (x : Transaction) (t : State), (act x t).refs = t.refs) :
    (s.endTransaction mp len data fits act).refs = s.refs :=
  State.endTransaction_induct (P := fun t => t.refs = s.refs) rfl (fun _ _ ht => ht) fun x t ht => (h x t).trans ht

theorem State.refs_unlessHeld {s : State} {f : State → State} (h : (f s).refs = s.refs) : (s.unlessHeld f).refs = s.refs :=
  State.unlessHeld_induct (P := fun t => t.refs = s.refs) rfl h

/-! ### The timescale unit and the engine -/

theorem refs_slewCompletionState (s : State) : (slewCompletionState s).refs = s.refs := by
  refine State.refs_unlessHeld ?_
  split
  · rfl
  · split <;> rfl

theorem refs_insertedSecondStartState (s : State) : (insertedSecondStartState s).refs = s.refs := by
  refine State.refs_unlessHeld ?_
  split
  · rfl
  · split <;> rfl

theorem refs_leapInstantState (s : State) : (leapInstantState s).refs = s.refs := by
  refine State.refs_unlessHeld ?_
  split
  · rfl
  · split
    · split <;> rfl
    · split <;> rfl

theorem refs_setTimeState (mp : Mp) (s : State) : (setTimeState mp s).refs = s.refs := by
  refine State.refs_takeCommand fun ws t out h => ?_
  unfold setTimeAct at h
  split at h
  · refine State.refs_withParams h fun x u ws hx => ?_
    cases hx
    simp
  · cases h

theorem refs_stepByState (mp : Mp) (s : State) : (stepByState mp s).refs = s.refs := by
  refine State.refs_takeCommand fun ws t out h => ?_
  unfold stepByAct at h
  split at h
  · refine State.refs_withParams h fun x u ws hx => ?_
    cases hx
    simp
  · cases h

theorem refs_slewByState (mp : Mp) (s : State) : (slewByState mp s).refs = s.refs := by
  refine State.refs_takeCommand fun ws t out h => ?_
  unfold slewByAct at h
  split at h
  · refine State.refs_withParams h fun x u ws hx => ?_
    unfold State.slewOrBusy at hx
    split at hx <;> cases hx
    simp
  · cases h

theorem refs_setLeapState (mp : Mp) (s : State) : (setLeapState mp s).refs = s.refs := by
  refine State.refs_takeCommand fun ws t out h => ?_
  unfold setLeapAct at h
  split at h
  · cases h
  · refine State.refs_withParams h fun x u ws hx => ?_
    dsimp only at hx
    split at hx <;> cases hx
    rfl

theorem refs_clearLeapState (mp : Mp) (s : State) : (clearLeapState mp s).refs = s.refs := by
  refine State.refs_takeCommand fun ws t out h => ?_
  unfold clearLeapAct at h
  split_ifs at h
  cases h
  rfl

theorem refs_setUtcOffsetState (mp : Mp) (s : State) : (setUtcOffsetState mp s).refs = s.refs := by
  refine State.refs_takeCommand fun ws t out h => ?_
  unfold setUtcOffsetAct at h
  dsimp only at h
  split_ifs at h
  cases h
  simp

theorem refs_setLocalOffsetState (mp : Mp) (s : State) : (setLocalOffsetState mp s).refs = s.refs := by
  refine State.refs_takeCommand fun ws t out h => State.refs_withParams h fun x u ws hx => ?_
  cases hx
  rfl

theorem refs_gradeGrowthCrossingState (s : State) : (gradeGrowthCrossingState s).refs = s.refs := by
  refine State.refs_unlessHeld ?_
  split <;> rfl

theorem refs_setEngineState (mp : Mp) (s : State) : (setEngineState mp s).refs = s.refs := by
  refine State.refs_takeCommand fun ws t out h => State.refs_withParams h fun x u ws hx => ?_
  cases hx
  simp

theorem refs_pinState (mp : Mp) (s : State) : (pinState mp s).refs = s.refs := by
  refine State.refs_takeCommand fun ws t out h => ?_
  cases h
  simp

theorem refs_unpinState (mp : Mp) (s : State) : (unpinState mp s).refs = s.refs := by
  refine State.refs_takeCommand fun ws t out h => ?_
  unfold unpinAct at h
  split at h <;> cases h
  simp

/-! ### Reads -/

theorem refs_readReferenceState (mp : Mp) (s : State) : (readReferenceState mp s).refs = s.refs := by
  refine State.refs_takeCommand fun ws t out h => State.refs_withParams h fun x u ws hx => ?_
  cases hx
  rfl

theorem refs_readPortState (mp : Mp) (s : State) : (readPortState mp s).refs = s.refs := by
  refine State.refs_takeCommand fun ws t out h => State.refs_withParams h fun x u ws hx => ?_
  cases hx
  rfl

theorem State.refs_readTable {s t : State} {mp : Mp} {c : Cursor} {out : List Word}
    (h : s.readTable mp c = .taken t out) : t.refs = s.refs := by
  cases h
  rfl

theorem refs_readTableState (mp : Mp) (s : State) : (readTableState mp s).refs = s.refs :=
  State.refs_takeCommand fun _ _ _ h => State.refs_withParams h fun _ _ _ hx => State.refs_readTable hx

theorem refs_readMoreState (mp : Mp) (s : State) : (readMoreState mp s).refs = s.refs := by
  refine State.refs_takeCommand fun ws t out h => ?_
  unfold readMoreAct at h
  split at h
  · cases h
  · exact State.refs_readTable h

/-! ### Marks and lines -/

theorem refs_addMarkState (mp : Mp) (s : State) : (addMarkState mp s).refs = s.refs := by
  refine State.refs_takeCommand fun ws t out h => ?_
  unfold addMarkAct at h
  split at h
  · cases h
  · refine State.refs_withParams h fun x u ws hx => ?_
    unfold State.placeMark at hx
    split_ifs at hx
    split at hx <;> cases hx
    rfl

theorem refs_cancelMarkState (mp : Mp) (s : State) : (cancelMarkState mp s).refs = s.refs := by
  refine State.refs_takeCommand fun ws t out h => State.refs_withParams h fun x u ws hx => ?_
  unfold State.cancelById at hx
  split at hx
  · cases hx
  · split at hx <;> cases hx
    exact State.refs_handOutcome _ _

theorem refs_markTakingState (faulty : BitVec 16) (s : State) : (markTakingState faulty s).refs = s.refs := by
  refine State.refs_unlessHeld ?_
  split
  · exact (s.judgeOvertakenAll_onlyLines _).refs
  · split
    · rw [State.takeMark_frame]
    · exact (s.judgeOvertakenAll_onlyLines _).refs

theorem refs_setLineState (mp : Mp) (s : State) : (setLineState mp s).refs = s.refs := by
  refine State.refs_takeCommand fun ws t out h => State.refs_withParams h fun x u ws hx => ?_
  cases hx
  rfl

theorem refs_lineRestartState (mp : Mp) (s : State) : (lineRestartState mp s).refs = s.refs := by
  refine State.refs_takeCommand fun ws t out h => State.refs_withParams h fun x u ws hx => ?_
  split at hx <;> cases hx
  rfl

theorem refs_senseLineState (mp : Mp) (s : State) : (senseLineState mp s).refs = s.refs := by
  refine State.refs_takeCommand fun ws t out h => State.refs_withParams h fun x u ws hx => ?_
  cases hx
  split <;> rfl

theorem refs_compositionState (s : State) : (compositionState s).refs = s.refs := by
  refine State.refs_unlessHeld ?_
  split
  · unfold State.compose
    dsimp only
    split <;> rfl
  · rfl

theorem refs_frameReleaseState (s : State) : (frameReleaseState s).refs = s.refs := by
  refine State.refs_unlessHeld ?_
  dsimp only
  split
  · rfl
  · split <;> rfl

/-! ### The network ports and the client table -/

theorem refs_setNetworkState (mp : Mp) (s : State) : (setNetworkState mp s).refs = s.refs := by
  refine State.refs_takeCommand fun ws t out h => State.refs_withParams h fun x u ws hx => ?_
  cases hx
  rfl

theorem refs_forgetClientState (mp : Mp) (s : State) : (forgetClientState mp s).refs = s.refs := by
  refine State.refs_takeCommand fun ws t out h => State.refs_withParams h fun x u ws hx => ?_
  unfold State.forgetClient at hx
  split at hx <;> cases hx
  rfl

/-! ### The master ports -/

theorem refs_unknownCommandState (mp : Mp) (s : State) : (unknownCommandState mp s).refs = s.refs := by
  refine State.refs_unlessHeld ?_
  split
  · rfl
  · split <;> rfl

theorem refs_writeParamsState (mp : Mp) (rest : List Byte) (s : State) : (writeParamsState mp rest s).refs = s.refs :=
  State.refs_endTransaction fun _ t => by split <;> rfl

theorem refs_postState (mp : Mp) (rest : List Byte) (s : State) : (postState mp rest s).refs = s.refs :=
  State.refs_endTransaction fun _ t => by split <;> rfl

theorem refs_readResultState (mp : Mp) (len : Nat) (s : State) : (readResultState mp len s).refs = s.refs :=
  State.refs_endTransaction fun _ t => by dsimp only; split <;> rfl

theorem refs_senseState (mp : Mp) (rest : List Byte) (s : State) : (senseState mp rest s).refs = s.refs :=
  State.refs_endTransaction fun _ t => by split <;> rfl

theorem refs_portClearState (mp : Mp) (len : Nat) (s : State) : (portClearState mp len s).refs = s.refs :=
  State.refs_endTransaction fun _ t => by dsimp only; split <;> rfl

theorem refs_unknownTransactionState (mp : Mp) (code : Byte) (s : State) :
    (unknownTransactionState mp code s).refs = s.refs := by
  unfold unknownTransactionState
  split
  · rfl
  · exact State.refs_endTransaction fun _ _ => rfl

theorem refs_claimState (mp : Mp) (s : State) : (claimState mp s).refs = s.refs := by
  refine State.refs_takeCommand fun ws t out h => State.refs_withParams h fun x u ws hx => ?_
  dsimp only at hx
  split at hx
  · cases hx
    rfl
  · split at hx <;> cases hx
    rfl

theorem refs_releaseState (mp : Mp) (s : State) : (releaseState mp s).refs = s.refs := by
  refine State.refs_takeCommand fun ws t out h => ?_
  unfold releaseAct at h
  split at h <;> cases h
  rfl

theorem refs_leaseExpiryState (s : State) : (leaseExpiryState s).refs = s.refs := by
  refine State.refs_unlessHeld ?_
  split
  · rfl
  · split <;> rfl

end Sys2Proof.Machine
end

section
/-! SUPPORT. The operations of the reference inputs case by case: what each makes of the record, said once. -/

namespace Sys2Proof.Machine

open Sys2Proof

variable {s : State} {r : RefId} {x : Reference}

/-! ### Broken expectations (R34, R35, R37, R44) -/

theorem State.refFailed_qualifying (h : x.state = .qualifying) (count : Nat) :
    s.refFailed r x count = s.setRef r x.runBroken := by
  unfold State.refFailed
  rw [h]

theorem State.refFailed_usable (h : x.state = .usable) (count : Nat) :
    s.refFailed r x count = if count = 3 then s.disqualify r x else s.setRef r x := by
  unfold State.refFailed
  rw [h]

theorem State.refFailed_unwindowed (h : ¬ x.state.windowed) (count : Nat) : s.refFailed r x count = s.setRef r x := by
  unfold State.refFailed
  split <;> rename_i hst
  · exact absurd (.inl hst) h
  · exact absurd (.inr hst) h
  all_goals rfl

theorem upTo3_eq_succ {n : Nat} (h : n ≤ 2) : upTo3 n = n + 1 := if_pos (by omega)

/-- A third in a row, and no other, brings a consecutive count to 3. -/
theorem upTo3_ne_three {n : Nat} (h : n < 2) : upTo3 n ≠ 3 := by
  rw [upTo3_eq_succ h.le]
  omega

/-! ### Missing edges (R35) -/

/-- A record that has missed an edge. -/
def Reference.missed (x : Reference) : Reference :=
  { x with missingEdges := sat16 x.missingEdges, missingRun := upTo3 x.missingRun }

theorem State.missEdge_qualifying (h : (s.ref r).state = .qualifying) :
    s.missEdge r =
      if upTo3 (s.ref r).missingRun = 3 then s.refEntered r { (s.ref r).missed.cleared with state := .seeking }
      else s.setRef r (s.ref r).missed.runBroken := by
  unfold State.missEdge
  dsimp only
  split <;> rename_i hst
  · rfl
  all_goals exact nomatch h.symm.trans hst

theorem State.missEdge_usable (h : (s.ref r).state = .usable) :
    s.missEdge r =
      if upTo3 (s.ref r).missingRun = 3 then s.disqualify r (s.ref r).missed else s.setRef r (s.ref r).missed := by
  unfold State.missEdge
  dsimp only
  split <;> rename_i hst
  · exact nomatch h.symm.trans hst
  · rfl
  all_goals exact nomatch h.symm.trans hst

theorem State.missEdge_unwindowed (h : ¬ (s.ref r).state.windowed) : s.missEdge r = s := by
  unfold State.missEdge
  dsimp only
  split <;> rename_i hst
  · exact absurd (.inl hst) h
  · exact absurd (.inr hst) h
  all_goals rfl

theorem State.missingEdgeDue_iff (s : State) (r : RefId) :
    s.missingEdgeDue r = true ↔
      (s.ref r).state.windowed ∧ ∃ e, (s.ref r).lastEdge = some e ∧ (s.ref r).windowCloses e < s.ts.tickCount := by
  unfold State.missingEdgeDue
  dsimp only
  split <;> rename_i h1 h2
  · simp [RefState.windowed, h1, h2]
  · simp [RefState.windowed, h1, h2]
  · simp only [Bool.false_eq_true, false_iff]
    rintro ⟨hq | hu, e, he, _⟩
    · exact h1 e hq he
    · exact h2 e hu he

/-! ### Edges accepted (R31 to R34) -/

/-- A record whose accepted edge has replaced a capture that no message was judged against. -/
def State.replacing (s : State) (x : Reference) : Reference :=
  { s.latched x with messageErrors := sat16 x.messageErrors, badRun := upTo3 x.badRun }

/-- An accepted edge replaces nothing that a message could still have named: the latch is empty or its capture is marked. -/
theorem State.acceptEdge_latches (h : ∀ c ∈ x.latch, c.badSeen = true) :
    s.acceptEdge r x = s.setRef r (s.latched x) := by
  unfold State.acceptEdge
  dsimp only
  split
  · rfl
  · rename_i c hc
    exact if_pos (h c hc)

theorem State.acceptEdge_replaces {c : Capture} (h : x.latch = some c) (hb : c.badSeen = false) :
    s.acceptEdge r x = s.refFailed r (s.replacing x) (upTo3 x.badRun) := by
  unfold State.acceptEdge
  dsimp only
  split <;> rename_i hc
  · exact nomatch h.symm.trans hc
  · cases h.symm.trans hc
    exact if_neg (by rw [hb]; exact Bool.false_ne_true)

theorem State.windowEdge_eq {e : Nat} (h : x.lastEdge = some e) :
    s.windowEdge r x =
      if s.ts.tickCount < x.windowOpens e then s.setRef r { x with glitches := sat16 x.glitches }
      else if s.ts.tickCount ≤ x.windowCloses e then s.acceptEdge r x
      else s := by
  unfold State.windowEdge
  rw [h]

theorem State.windowEdge_none (h : x.lastEdge = none) : s.windowEdge r x = s := by
  unfold State.windowEdge
  rw [h]

theorem State.seeEdge_windowed (h : (s.ref r).state.windowed) : s.seeEdge r = s.windowEdge r (s.ref r) := by
  unfold State.seeEdge
  dsimp only
  rcases h with h | h <;> rw [h]

theorem State.seeEdge_seeking (h : (s.ref r).state = .seeking) : s.seeEdge r = s.firstEdge r (s.ref r) := by
  unfold State.seeEdge
  dsimp only
  rw [h]

theorem State.seeEdge_ignored (h : (s.ref r).state = .off ∨ (s.ref r).state = .heldOff) : s.seeEdge r = s := by
  unfold State.seeEdge
  dsimp only
  rcases h with h | h <;> rw [h]

/-! ### Measurements (R38 to R43, R46) -/

/-- A fit measurement of `offset` is good against the record's comparison offset (R41). -/
def Reference.good (x : Reference) (offset : Int) : Prop :=
  ∀ c ∈ x.comparison, (offset - c).natAbs ≤ x.settings.phaseLimit

theorem State.qualify_good {offset : Int} (h : x.good offset) :
    s.qualify r x offset =
      if x.settings.qualifyCount ≤ x.goodRun + 1 then
        (s.refEntered r
          { x with
            goodRun := x.goodRun + 1
            comparison := some offset
            state := .usable
            missingRun := 0
            badRun := 0
            phaseRun := 0
            disagree := false }).reevaluate
      else s.setRef r { x with goodRun := x.goodRun + 1, comparison := some offset } := by
  unfold State.qualify
  cases hc : x.comparison with
  | none => simp only [if_true, true_and]
  | some c =>
    have hle : decide ((offset - c).natAbs ≤ x.settings.phaseLimit) = true := decide_eq_true (h c hc)
    simp only [hle, if_true, true_and]

theorem State.qualify_far {offset : Int} (h : ¬ x.good offset) :
    s.qualify r x offset = s.setRef r { x with goodRun := 0, comparison := some offset } := by
  unfold State.qualify
  cases hc : x.comparison with
  | none => exact absurd (fun c hm => nomatch hc.symm.trans hm) h
  | some c =>
    have hlt : decide ((offset - c).natAbs ≤ x.settings.phaseLimit) = false := decide_eq_false fun hle => h fun d hd => by
      cases hc.symm.trans hd
      exact hle
    simp only [hlt, Bool.false_eq_true, if_false, false_and]

/-- A fit measurement in USABLE that does not bring the phase-exceed count to 3 sets DISAGREE and goes on to the engine. -/
theorem State.measureUsable_eq (s : State) (r : RefId) (x : Reference) (offset : Int) (accuracy : Nat)
    (m : Option Message) :
    s.measureUsable r x offset accuracy m =
      if s.nextPhaseRun r x offset = 3 then s.disqualify r { x with phaseRun := 3 }
      else
        let t := s.setRef r
          { x with
            phaseRun := s.nextPhaseRun r x offset
            disagree := s.disagrees r x offset }
        (if s.disagrees r x offset = x.disagree then t else t.post .refChanged).useMeasurement r offset accuracy m := by
  unfold State.measureUsable
  dsimp only
  split <;> rename_i h
  · rw [h]
  · rfl

section
variable {c : Capture} {offset : Int} {accuracy : Nat} {m : Option Message}

theorem State.measured_qualifying (h : x.state = .qualifying) (fit : Bool) :
    s.measured r x c offset accuracy m fit =
      let y := x.completed s.run c offset accuracy m
      if fit then s.qualify r y offset else s.setRef r y.runBroken := by
  unfold State.measured
  dsimp only
  split <;> rename_i hst
  · rfl
  all_goals exact nomatch h.symm.trans hst

theorem State.measured_usable (h : x.state = .usable) (fit : Bool) :
    s.measured r x c offset accuracy m fit =
      let y := x.completed s.run c offset accuracy m
      if fit then s.measureUsable r y offset accuracy m else s.disqualify r y := by
  unfold State.measured
  dsimp only
  split <;> rename_i hst
  · exact nomatch h.symm.trans hst
  · rfl
  all_goals exact nomatch h.symm.trans hst

theorem State.measured_unwindowed (h : ¬ x.state.windowed) (fit : Bool) :
    s.measured r x c offset accuracy m fit = s.setRef r (x.completed s.run c offset accuracy m) := by
  unfold State.measured
  dsimp only
  split <;> rename_i hst
  · exact absurd (.inl hst) h
  · exact absurd (.inr hst) h
  all_goals rfl

end

/-! ### Messages (R36, R37, R193) -/

/-- A record that a bad message was judged against. -/
def Reference.withBadMessage (x : Reference) : Reference :=
  { x with
    messageErrors := sat16 x.messageErrors
    badRun := upTo3 x.badRun
    latch := x.latch.map fun c => { c with badSeen := true } }

theorem State.badMessage_eq (s : State) (r : RefId) (x : Reference) :
    s.badMessage r x = s.refFailed r x.withBadMessage (upTo3 x.badRun) := rfl

theorem Reference.judgesMessages_iff (x : Reference) :
    x.judgesMessages = true ↔ x.state.windowed ∧ (x.settings.kind = .receiver ∨ x.settings.kind = .link) := by
  simp only [Reference.judgesMessages, Bool.and_eq_true, Bool.or_eq_true, decide_eq_true_eq]

end Sys2Proof.Machine
end

section
/-! SUPPORT. Each operation of the reference inputs keeps the records legal: first what a change of one part of a record
asks of it, then the operations that are made of such changes (R28 to R50, R193). -/

namespace Sys2Proof.Machine

open Sys2Proof

/-! ### Counts -/

theorem RefSettings.wf.three_le_qualifyCount {x : RefSettings} (h : x.wf) : 3 ≤ x.qualifyCount := by
  obtain ⟨_, _, _, ⟨hq, _⟩, _⟩ := h
  exact hq

theorem sat16_le {n : Nat} (h : n ≤ 65535) : sat16 n ≤ 65535 := by
  rw [sat16_eq h]
  exact min_le_right _ _

theorem upTo3_le {n : Nat} (h : n ≤ 3) : upTo3 n ≤ 3 := by
  unfold upTo3
  split <;> omega

/-- A count that has not reached 3 stands at 2 at most. -/
theorem upTo3_le_two {n : Nat} (h : n ≤ 3) (hne : upTo3 n ≠ 3) : upTo3 n ≤ 2 := by
  have := upTo3_le h
  omega

/-! ### Changes of one part of a record -/

section
variable {x : Reference}

/-- What an entry into SEEKING or HELD_OFF asks of a record: its other parts are cleared. -/
def Reference.canLeave (x : Reference) : Prop :=
  x.settings.wf ∧ x.settings.kind ≠ .off ∧
    (x.glitches ≤ 65535 ∧ x.missingEdges ≤ 65535 ∧ x.messageErrors ≤ 65535 ∧ x.disqualified ≤ 65535)

theorem Reference.wf.canLeave (h : x.wf) (hst : x.state ≠ .off) : x.canLeave := by
  obtain ⟨hset, hoff, _, _, _, _, _, _, _, _, _, _, _, hctr⟩ := h
  exact ⟨hset, mt hoff.mpr hst, hctr⟩

/-- Entry into a state without windows clears all that belongs to them (R29). -/
theorem Reference.wf_cleared {st : RefState} {expiry : Option Nat} {n : Nat} (hset : x.settings.wf)
    (hctr : x.glitches ≤ 65535 ∧ x.missingEdges ≤ 65535 ∧ x.messageErrors ≤ 65535 ∧ n ≤ 65535)
    (hoff : st = .off ↔ x.settings.kind = .off) (hst : ¬ st.windowed) (hexp : expiry.isSome ↔ st = .heldOff) :
    { x.cleared with state := st, holdOffExpiry := expiry, disqualified := n }.wf := by
  refine ⟨hset, hoff, hexp, ⟨nofun, fun h => absurd h hst⟩, nofun, ⟨nofun, fun h => nomatch h.1⟩,
    fun h => absurd rfl h,
    Nat.zero_le _, fun h => absurd rfl h, fun h => absurd (.inl h) hst, ?_, fun h => absurd (.inr h) hst, nofun, hctr⟩
  exact ⟨Nat.zero_le _, Nat.zero_le _, Nat.zero_le _⟩

theorem Reference.canLeave.wf_seeking (h : x.canLeave) : { x.cleared with state := .seeking }.wf := by
  obtain ⟨hset, hkind, hctr⟩ := h
  exact Reference.wf_cleared (expiry := none) (n := x.disqualified) hset hctr ⟨nofun, fun hk => absurd hk hkind⟩
    (by decide) (by decide)

theorem Reference.canLeave.wf_heldOff (h : x.canLeave) (t : Nat) :
    { x.cleared with state := .heldOff, holdOffExpiry := some t, disqualified := sat16 x.disqualified }.wf := by
  obtain ⟨hset, hkind, hg, hm, he, hd⟩ := h
  exact Reference.wf_cleared hset ⟨hg, hm, he, sat16_le hd⟩ ⟨nofun, fun hk => absurd hk hkind⟩ (by decide)
    ⟨fun _ => rfl, fun _ => rfl⟩

theorem Reference.wf_counters {g m e : Nat} (h : x.wf) (hg : g ≤ 65535) (hm : m ≤ 65535) (he : e ≤ 65535) :
    { x with glitches := g, missingEdges := m, messageErrors := e }.wf := by
  obtain ⟨hset, hoff, hhold, hedge, hlatch, hsettle, hgather, hrun, hrunw, hrunq, hcounts, husable, hdis, _, _, _, hd⟩ :=
    h
  exact ⟨hset, hoff, hhold, hedge, hlatch, hsettle, hgather, hrun, hrunw, hrunq, hcounts, husable, hdis, hg, hm, he, hd⟩

theorem Reference.wf_counts {m b p : Nat} (h : x.wf) (hle : m ≤ 3 ∧ b ≤ 3 ∧ p ≤ 3)
    (hu : x.state = .usable → m ≤ 2 ∧ b ≤ 2 ∧ p ≤ 2) :
    { x with missingRun := m, badRun := b, phaseRun := p }.wf := by
  obtain ⟨hset, hoff, hhold, hedge, hlatch, hsettle, hgather, hrun, hrunw, hrunq, _, _, hdis, hctr⟩ := h
  exact ⟨hset, hoff, hhold, hedge, hlatch, hsettle, hgather, hrun, hrunw, hrunq, hle, hu, hdis, hctr⟩

theorem Reference.wf_goodRun {n : Nat} (h : x.wf) (hn : n ≤ x.settings.qualifyCount) (hw : n ≠ 0 → x.state.windowed)
    (hq : x.state = .qualifying → n < x.settings.qualifyCount) (c : Option Int) :
    { x with goodRun := n, comparison := c }.wf := by
  obtain ⟨hset, hoff, hhold, hedge, hlatch, hsettle, hgather, _, _, _, hcounts, husable, hdis, hctr⟩ := h
  exact ⟨hset, hoff, hhold, hedge, hlatch, hsettle, hgather, hn, hw, hq, hcounts, husable, hdis, hctr⟩

theorem Reference.wf_latch {l : Option Capture} {t : Option Nat} (h : x.wf) (hl : l.isSome → x.state.windowed)
    (ht : t.isSome ↔ l.isSome ∧ x.settings.kind = .pulseOnly) : { x with latch := l, settleExpiry := t }.wf := by
  obtain ⟨hset, hoff, hhold, hedge, _, _, hgather, hrun, hrunw, hrunq, hcounts, husable, hdis, hctr⟩ := h
  exact ⟨hset, hoff, hhold, hedge, hl, ht, hgather, hrun, hrunw, hrunq, hcounts, husable, hdis, hctr⟩

theorem Reference.wf_gather {g : Gather} (h : x.wf)
    (hg : g ≠ .hunting → x.judgesMessages ∧ 1 ≤ g.chars.length ∧ g.chars.length ≤ 23) :
    { x with gather := g }.wf := by
  obtain ⟨hset, hoff, hhold, hedge, hlatch, hsettle, _, hrun, hrunw, hrunq, hcounts, husable, hdis, hctr⟩ := h
  exact ⟨hset, hoff, hhold, hedge, hlatch, hsettle, hg, hrun, hrunw, hrunq, hcounts, husable, hdis, hctr⟩

theorem Reference.wf_disagree (h : x.wf) (hu : x.state = .usable) (b : Bool) : { x with disagree := b }.wf := by
  obtain ⟨hset, hoff, hhold, hedge, hlatch, hsettle, hgather, hrun, hrunw, hrunq, hcounts, husable, _, hctr⟩ := h
  exact ⟨hset, hoff, hhold, hedge, hlatch, hsettle, hgather, hrun, hrunw, hrunq, hcounts, husable, fun _ => hu, hctr⟩

theorem Reference.wf_hunting (h : x.wf) : { x with gather := .hunting }.wf :=
  Reference.wf_gather h fun hne => absurd rfl hne

theorem Reference.wf.runBroken (h : x.wf) : x.runBroken.wf := by
  have hqc := h.1.three_le_qualifyCount
  exact Reference.wf_goodRun h (Nat.zero_le _) (fun h0 => absurd rfl h0) (fun _ => by omega) none

/-- An empty latch has no settle expiry (R32, R40). -/
theorem Reference.wf.unlatched (h : x.wf) : { x with latch := none, settleExpiry := none }.wf :=
  Reference.wf_latch h nofun ⟨nofun, fun hl => nomatch hl.1⟩

/-- A bad message marks the capture in the latch and leaves the latch as full as it was (R37). -/
theorem Reference.wf.marked (h : x.wf) (f : Capture → Capture) : { x with latch := x.latch.map f }.wf := by
  obtain ⟨_, _, _, _, hlatch, hsettle, _⟩ := id h
  refine Reference.wf_latch (t := x.settleExpiry) h ?_ ?_
  · rwa [Option.isSome_map]
  · rwa [Option.isSome_map]

theorem State.settleFor_isSome_iff (s : State) (x : Reference) :
    (s.settleFor x).isSome ↔ x.settings.kind = .pulseOnly := by
  unfold State.settleFor
  split <;> simp_all

/-- A record that judges edges takes an accepted one (R33). -/
theorem Reference.wf.latched (h : x.wf) (hw : x.state.windowed) (s : State) : (s.latched x).wf := by
  obtain ⟨hset, hoff, hhold, _, _, _, hgather, hrun, hrunw, hrunq, ⟨_, hb, hp⟩, husable, hdis, hctr⟩ := h
  refine ⟨hset, hoff, hhold, ⟨fun _ => hw, fun _ => rfl⟩, fun _ => hw, ?_, hgather, hrun, hrunw, hrunq,
    ⟨Nat.zero_le _, hb, hp⟩, fun hu => ⟨Nat.zero_le _, (husable hu).2⟩, hdis, hctr⟩
  exact (s.settleFor_isSome_iff x).trans (iff_and_self.mpr fun _ => rfl)

/-- The first edge in SEEKING takes the record to QUALIFYING (R32). -/
theorem Reference.wf.firstEdge (h : x.wf) (hst : x.state = .seeking) (s : State) :
    { s.latched x with state := .qualifying, goodRun := 0, comparison := none, gather := .hunting }.wf := by
  obtain ⟨hset, hoff, hhold, _, _, _, _, _, _, _, ⟨_, hb, hp⟩, _, hdis, hctr⟩ := h
  have hqc := hset.three_le_qualifyCount
  rw [hst] at hoff hhold hdis
  refine ⟨hset, ⟨nofun, fun hk => (nomatch hoff.mpr hk)⟩, ⟨fun he => (nomatch hhold.mp he), nofun⟩,
    ⟨fun _ => .inl rfl, fun _ => rfl⟩, fun _ => .inl rfl, ?_, fun hg => absurd rfl hg, Nat.zero_le _,
    fun h0 => absurd rfl h0, fun _ => ?_, ⟨Nat.zero_le _, hb, hp⟩, nofun, fun hd => (nomatch hdis hd), hctr⟩
  · exact (s.settleFor_isSome_iff x).trans (iff_and_self.mpr fun _ => rfl)
  · change 0 < x.settings.qualifyCount
    omega

/-- A run that reaches the qualify count makes a QUALIFYING record USABLE (R42). -/
theorem Reference.wf.usable (h : x.wf) (hst : x.state = .qualifying) (offset : Option Int) :
    { x with
      goodRun := x.goodRun + 1
      comparison := offset
      state := .usable
      missingRun := 0
      badRun := 0
      phaseRun := 0
      disagree := false }.wf := by
  obtain ⟨hset, hoff, hhold, hedge, hlatch, hsettle, hgather, _, _, hrunq, _, _, _, hctr⟩ := h
  have hw : x.state.windowed := .inl hst
  have hjudges : x.judgesMessages = true →
      (decide (x.settings.kind = .receiver) || decide (x.settings.kind = .link)) = true :=
    fun hj => (Bool.and_eq_true_iff.mp hj).2
  have hrun := hrunq hst
  rw [hst] at hoff hhold
  refine ⟨hset, ⟨nofun, fun hk => (nomatch hoff.mpr hk)⟩, ⟨fun he => (nomatch hhold.mp he), nofun⟩,
    ⟨fun _ => .inr rfl, fun _ => hedge.mpr hw⟩, fun _ => .inr rfl, hsettle, fun hg => ?_, hrun, fun _ => .inr rfl, nofun, ?_,
    fun _ => ?_, nofun, hctr⟩
  · obtain ⟨hj, hlen⟩ := hgather hg
    exact ⟨Bool.and_eq_true_iff.mpr ⟨rfl, hjudges hj⟩, hlen⟩
  · exact ⟨Nat.zero_le _, Nat.zero_le _, Nat.zero_le _⟩
  · exact ⟨Nat.zero_le _, Nat.zero_le _, Nat.zero_le _⟩

end

end Sys2Proof.Machine
end

section
/-! SUPPORT. Each event and each command keeps every reference record legal. -/

namespace Sys2Proof.Machine

open Sys2Proof

/-! ### Operations on the whole part -/

/-- `t` is legal as far as the reference records go where `s` is. -/
def State.refsSafe (s t : State) : Prop := s.refsWf → t.refsWf

theorem State.refsSafe_refl (s : State) : s.refsSafe s := id

theorem State.refsSafe.trans {s t u : State} (h : s.refsSafe t) (k : t.refsSafe u) : s.refsSafe u := k ∘ h

theorem State.refsSafe_of_refs {s t : State} (h : t.refs = s.refs) : s.refsSafe t := fun hw r => by
  rw [State.ref, h]
  exact hw r

theorem State.refsSafe.of_refs {s t u : State} (h : s.refsSafe t) (hu : u.refs = t.refs) : s.refsSafe u :=
  h.trans (State.refsSafe_of_refs hu)

theorem State.setRef_refsSafe {s : State} {r : RefId} {x : Reference} (h : s.refsWf → x.wf) :
    s.refsSafe (s.setRef r x) := fun hw q => by
  by_cases hq : q = r
  · rw [hq, State.ref_setRef]
    exact h hw
  · rw [State.ref_setRef_other s hq]
    exact hw q

theorem State.disqualify_refsSafe {s : State} {r : RefId} {x : Reference} (h : s.refsWf → x.canLeave) :
    s.refsSafe (s.disqualify r x) :=
  (State.setRef_refsSafe fun hw => (h hw).wf_heldOff _).of_refs (s.disqualify_onlyEngine r x).refs

/-- A broken expectation: the record is legal, but for a count at 3 in USABLE, which disqualifies. -/
theorem State.refFailed_refsSafe {s : State} {r : RefId} {x : Reference} {count : Nat}
    (hleave : s.refsWf → x.state = .usable → x.canLeave)
    (h : s.refsWf → (x.state = .usable → count ≠ 3) → x.wf) : s.refsSafe (s.refFailed r x count) := by
  by_cases hwin : x.state.windowed
  · rcases hwin with hst | hst
    · rw [State.refFailed_qualifying hst]
      exact State.setRef_refsSafe fun hw => (h hw fun hu => nomatch hst.symm.trans hu).runBroken
    · rw [State.refFailed_usable hst]
      split <;> rename_i hc
      · exact State.disqualify_refsSafe fun hw => hleave hw hst
      · exact State.setRef_refsSafe fun hw => h hw fun _ => hc
  · rw [State.refFailed_unwindowed hwin]
    exact State.setRef_refsSafe fun hw => h hw fun hu => absurd (.inr hu) hwin

/-! ### Edges (R31 to R35) -/

theorem Reference.canLeave.missed {x : Reference} (h : x.canLeave) : x.missed.canLeave := by
  obtain ⟨hset, hkind, hg, hm, he, hd⟩ := h
  exact ⟨hset, hkind, hg, sat16_le hm, he, hd⟩

/-- A record that has missed an edge, and is not sent away for it. -/
theorem Reference.wf.missed {x : Reference} (h : x.wf) (hu : x.state = .usable → upTo3 x.missingRun ≠ 3) :
    x.missed.wf := by
  obtain ⟨_, _, _, _, _, _, _, _, _, _, ⟨hm, hb, hp⟩, husable, _, hg, hme, he, _⟩ := id h
  have hcounted : { x with missingEdges := sat16 x.missingEdges }.wf := Reference.wf_counters h hg (sat16_le hme) he
  exact Reference.wf_counts hcounted ⟨upTo3_le hm, hb, hp⟩ fun hst => ⟨upTo3_le_two hm (hu hst), (husable hst).2⟩

theorem State.missEdge_refsSafe (s : State) (r : RefId) : s.refsSafe (s.missEdge r) := by
  by_cases hwin : (s.ref r).state.windowed
  · rcases hwin with hst | hst
    · rw [State.missEdge_qualifying hst]
      split
      · exact (State.setRef_refsSafe fun hw =>
          ((hw r).canLeave fun ho => nomatch hst.symm.trans ho).missed.wf_seeking).of_refs rfl
      · exact State.setRef_refsSafe fun hw => ((hw r).missed fun hu => nomatch hst.symm.trans hu).runBroken
    · rw [State.missEdge_usable hst]
      split <;> rename_i hc
      · exact State.disqualify_refsSafe fun hw => ((hw r).canLeave fun ho => nomatch hst.symm.trans ho).missed
      · exact State.setRef_refsSafe fun hw => (hw r).missed fun _ => hc
  · rw [State.missEdge_unwindowed hwin]
    exact s.refsSafe_refl

theorem State.acceptEdge_refsSafe {s : State} {r : RefId} {x : Reference} (hx : s.refsWf → x.wf)
    (hwin : x.state.windowed) : s.refsSafe (s.acceptEdge r x) := by
  have hlatched (hw : s.refsWf) : (s.latched x).wf := (hx hw).latched hwin s
  by_cases hl : ∀ c ∈ x.latch, c.badSeen = true
  · rw [State.acceptEdge_latches hl]
    exact State.setRef_refsSafe hlatched
  · push Not at hl
    obtain ⟨c, hc, hb⟩ := hl
    have hcounted (hw : s.refsWf) : { s.latched x with messageErrors := sat16 x.messageErrors }.wf := by
      obtain ⟨_, _, _, _, _, _, _, _, _, _, _, _, _, hg, hm, he, _⟩ := id (hx hw)
      exact Reference.wf_counters (hlatched hw) hg hm (sat16_le he)
    rw [State.acceptEdge_replaces hc (Bool.eq_false_iff.mpr hb)]
    refine State.refFailed_refsSafe (fun hw hst => (hcounted hw).canLeave fun ho => nomatch hst.symm.trans ho)
      fun hw hu => ?_
    obtain ⟨_, _, _, _, _, _, _, _, _, _, ⟨_, hb, hp⟩, husable, _⟩ := id (hx hw)
    exact Reference.wf_counts (hcounted hw) ⟨Nat.zero_le _, upTo3_le hb, hp⟩ fun hst =>
      ⟨Nat.zero_le _, upTo3_le_two hb (hu hst), (husable hst).2.2⟩

theorem State.windowEdge_refsSafe {s : State} {r : RefId} {x : Reference} (hx : s.refsWf → x.wf)
    (hwin : x.state.windowed) : s.refsSafe (s.windowEdge r x) := by
  cases hle : x.lastEdge with
  | none =>
    rw [State.windowEdge_none hle]
    exact s.refsSafe_refl
  | some e =>
    rw [State.windowEdge_eq hle]
    split_ifs
    · refine State.setRef_refsSafe fun hw => ?_
      obtain ⟨_, _, _, _, _, _, _, _, _, _, _, _, _, hg, hm, he, _⟩ := id (hx hw)
      exact Reference.wf_counters (hx hw) (sat16_le hg) hm he
    · exact State.acceptEdge_refsSafe hx hwin
    · exact s.refsSafe_refl

theorem State.seeEdge_refsSafe (s : State) (r : RefId) : s.refsSafe (s.seeEdge r) := by
  cases hst : (s.ref r).state with
  | off =>
    rw [State.seeEdge_ignored (.inl hst)]
    exact s.refsSafe_refl
  | heldOff =>
    rw [State.seeEdge_ignored (.inr hst)]
    exact s.refsSafe_refl
  | seeking =>
    rw [State.seeEdge_seeking hst]
    exact (State.setRef_refsSafe fun hw => (hw r).firstEdge hst s).of_refs rfl
  | qualifying =>
    rw [State.seeEdge_windowed (.inl hst)]
    exact State.windowEdge_refsSafe (fun hw => hw r) (.inl hst)
  | usable =>
    rw [State.seeEdge_windowed (.inr hst)]
    exact State.windowEdge_refsSafe (fun hw => hw r) (.inr hst)

theorem referenceEdgeState_refsSafe (r : RefId) (e : Edge) (s : State) : s.refsSafe (referenceEdgeState r e s) := by
  refine State.unlessHeld_induct s.refsSafe_refl ?_
  split
  · refine State.refsSafe.trans ?_ (State.seeEdge_refsSafe _ r)
    split
    · exact s.missEdge_refsSafe r
    · exact s.refsSafe_refl
  · exact s.refsSafe_refl

theorem missingEdgeExpiryState_refsSafe (r : RefId) (s : State) : s.refsSafe (missingEdgeExpiryState r s) := by
  refine State.unlessHeld_induct s.refsSafe_refl ?_
  split
  · exact s.missEdge_refsSafe r
  · exact s.refsSafe_refl

/-! ### Measurements (R38 to R43, R46) -/

theorem State.qualify_refsSafe {s : State} {r : RefId} {x : Reference} (hx : s.refsWf → x.wf) (hst : x.state = .qualifying)
    (offset : Int) : s.refsSafe (s.qualify r x offset) := by
  by_cases hg : x.good offset
  · rw [State.qualify_good hg]
    split <;> rename_i hq
    · exact (State.setRef_refsSafe fun hw => (hx hw).usable hst (some offset)).of_refs (State.refs_reevaluate _)
    · have hlt : x.goodRun + 1 < x.settings.qualifyCount := Nat.not_le.mp hq
      exact State.setRef_refsSafe fun hw => Reference.wf_goodRun (hx hw) hlt.le (fun _ => .inl hst) (fun _ => hlt) _
  · rw [State.qualify_far hg]
    refine State.setRef_refsSafe fun hw => ?_
    have hqc := (hx hw).1.three_le_qualifyCount
    exact Reference.wf_goodRun (hx hw) (Nat.zero_le _) (fun h0 => absurd rfl h0) (fun _ => by omega) _

/-- The phase-exceed count stays at 2 where it does not disqualify (R43). -/
theorem State.nextPhaseRun_le (s : State) (r : RefId) {x : Reference} (h : x.phaseRun ≤ 3) (offset : Int) :
    s.nextPhaseRun r x offset ≤ 3 := by
  unfold State.nextPhaseRun
  split
  · exact upTo3_le h
  · exact Nat.zero_le _

theorem State.measureUsable_refsSafe {s : State} {r : RefId} {x : Reference} (hx : s.refsWf → x.wf)
    (hst : x.state = .usable) (offset : Int) (accuracy : Nat) (m : Option Message) :
    s.refsSafe (s.measureUsable r x offset accuracy m) := by
  rw [State.measureUsable_eq]
  split <;> rename_i hc
  · exact State.disqualify_refsSafe fun hw => (hx hw).canLeave fun ho => nomatch hst.symm.trans ho
  · have hset : s.refsSafe (s.setRef r
        { x with phaseRun := s.nextPhaseRun r x offset, disagree := s.disagrees r x offset }) := by
      refine State.setRef_refsSafe fun hw => ?_
      obtain ⟨_, _, _, _, _, _, _, _, _, _, ⟨hm, hb, hp⟩, husable, _⟩ := id (hx hw)
      obtain ⟨hm2, hb2, _⟩ := husable hst
      have hnext := s.nextPhaseRun_le r hp offset
      exact Reference.wf_disagree
        (Reference.wf_counts (hx hw) ⟨hm, hb, hnext⟩ fun _ => ⟨hm2, hb2, by omega⟩) hst _
    refine hset.of_refs ?_
    rw [State.refs_useMeasurement]
    split <;> rfl

theorem State.measured_refsSafe {s : State} {r : RefId} {x : Reference} (hx : s.refsWf → x.wf) (c : Capture) (offset : Int)
    (accuracy : Nat) (m : Option Message) (fit : Bool) : s.refsSafe (s.measured r x c offset accuracy m fit) := by
  have hy (hw : s.refsWf) : (x.completed s.run c offset accuracy m).wf := (hx hw).unlatched
  by_cases hwin : x.state.windowed
  · rcases hwin with hst | hst
    · rw [State.measured_qualifying hst]
      dsimp only
      split
      · exact State.qualify_refsSafe hy hst offset
      · exact State.setRef_refsSafe fun hw => (hy hw).runBroken
    · rw [State.measured_usable hst]
      dsimp only
      split
      · exact State.measureUsable_refsSafe hy hst offset accuracy m
      · exact State.disqualify_refsSafe fun hw => (hy hw).canLeave fun ho => nomatch hst.symm.trans ho
  · rw [State.measured_unwindowed hwin]
    exact State.setRef_refsSafe hy

/-! ### Messages (R36 to R39, R193) -/

theorem Reference.canLeave.withBadMessage {x : Reference} (h : x.canLeave) : x.withBadMessage.canLeave := by
  obtain ⟨hset, hkind, hg, hm, he, hd⟩ := h
  exact ⟨hset, hkind, hg, hm, sat16_le he, hd⟩

/-- A record that a bad message was judged against, and that is not disqualified for it. -/
theorem Reference.wf.withBadMessage {x : Reference} (h : x.wf) (hu : x.state = .usable → upTo3 x.badRun ≠ 3) :
    x.withBadMessage.wf := by
  obtain ⟨_, _, _, _, _, _, _, _, _, _, ⟨hm, hb, hp⟩, husable, _, hg, hme, he, _⟩ := id h
  have hcounted : { x with messageErrors := sat16 x.messageErrors }.wf := Reference.wf_counters h hg hme (sat16_le he)
  exact Reference.wf_counts (hcounted.marked fun c => { c with badSeen := true }) ⟨hm, upTo3_le hb, hp⟩ fun hst =>
    ⟨(husable hst).1, upTo3_le_two hb (hu hst), (husable hst).2.2⟩

theorem State.badMessage_refsSafe {s : State} {r : RefId} {x : Reference} (hx : s.refsWf → x.wf) :
    s.refsSafe (s.badMessage r x) := by
  rw [State.badMessage_eq]
  exact State.refFailed_refsSafe (x := x.withBadMessage)
    (fun hw hst => ((hx hw).canLeave fun ho => nomatch hst.symm.trans ho).withBadMessage)
    fun hw hu => (hx hw).withBadMessage hu

theorem State.judgeMessage_refsSafe {s : State} {r : RefId} {x : Reference} (hx : s.refsWf → x.wf) (m : Message) :
    s.refsSafe (s.judgeMessage r x m) := by
  unfold State.judgeMessage
  split
  · exact State.badMessage_refsSafe hx
  · split
    · refine State.measured_refsSafe (fun hw => ?_) _ _ _ _ _
      obtain ⟨_, _, _, _, _, _, _, _, _, _, ⟨hm, _, hp⟩, husable, _⟩ := id (hx hw)
      exact Reference.wf_counts (hx hw) ⟨hm, Nat.zero_le _, hp⟩ fun hst =>
        ⟨(husable hst).1, Nat.zero_le _, (husable hst).2.2⟩
    · exact State.badMessage_refsSafe hx

theorem State.arriveMessage_refsSafe (s : State) (r : RefId) (m : Option Message) :
    s.refsSafe (s.arriveMessage r m) := by
  have hx (hw : s.refsWf) : { s.ref r with gather := .hunting }.wf := Reference.wf_hunting (hw r)
  unfold State.arriveMessage
  dsimp only
  split
  · exact State.badMessage_refsSafe hx
  · exact State.judgeMessage_refsSafe hx _

/-- A message being gathered holds from 1 to 23 characters (R193). -/
theorem Gather.more_length {g : Gather} {c : Character} {cs : List Byte} (h : g.receive c = .more cs) :
    1 ≤ cs.length ∧ cs.length ≤ 23 := by
  unfold Gather.receive at h
  split at h
  · split at h <;> cases h
    exact ⟨le_refl 1, Nat.le_of_ble_eq_true rfl⟩
  · dsimp only at h
    split_ifs at h with _ _ hlen
    cases h
    rw [List.length_append] at hlen ⊢
    dsimp only [List.length] at hlen ⊢
    omega

theorem messageCharacterState_refsSafe (r : RefId) (c : Character) (s : State) :
    s.refsSafe (messageCharacterState r c s) := by
  refine State.unlessHeld_induct s.refsSafe_refl ?_
  unfold State.receiveCharacter
  dsimp only
  split <;> rename_i hjudges
  · split
    · exact s.refsSafe_refl
    · rename_i cs hcs
      exact State.setRef_refsSafe fun hw => Reference.wf_gather (hw r) fun _ => ⟨hjudges, Gather.more_length hcs⟩
    · exact s.arriveMessage_refsSafe r _
  · exact s.refsSafe_refl

theorem messageArrivalState_refsSafe (r : RefId) (c : Character) (s : State) :
    s.refsSafe (messageArrivalState r c s) := by
  refine State.unlessHeld_induct s.refsSafe_refl ?_
  dsimp only
  split
  · split
    · exact s.refsSafe_refl
    · exact s.refsSafe_refl
    · exact s.arriveMessage_refsSafe r _
  · exact s.refsSafe_refl

/-! ### Expiries, SET_REFERENCE and the resets (R40, R45, R48, R49) -/

theorem settleExpiryState_refsSafe (r : RefId) (s : State) : s.refsSafe (settleExpiryState r s) := by
  refine State.unlessHeld_induct s.refsSafe_refl ?_
  dsimp only
  split
  · split
    · exact State.measured_refsSafe (fun hw => hw r) _ _ _ _ _
    · exact s.refsSafe_refl
  · exact s.refsSafe_refl

theorem holdOffExpiryState_refsSafe (r : RefId) (s : State) : s.refsSafe (holdOffExpiryState r s) := by
  refine State.unlessHeld_induct s.refsSafe_refl ?_
  dsimp only
  split
  · exact s.refsSafe_refl
  · split
    · rename_i hc
      exact (State.setRef_refsSafe fun hw =>
        ((hw r).canLeave fun ho => nomatch hc.1.symm.trans ho).wf_seeking).of_refs rfl
    · exact s.refsSafe_refl

/-- A record under new settings is legal where R48 leaves its state: the kind is kept, and what requalifies too, or the
record is OFF. -/
theorem Reference.wf_settings {x : Reference} {new : RefSettings} (h : x.wf) (hnew : new.wf)
    (hkeep : x.settings.stateAfter new = none) : { x with settings := new }.wf := by
  obtain ⟨_, hoff, hhold, hedge, hlatch, hsettle, hgather, hrun, hrunw, hrunq, hcounts, husable, hdis, hctr⟩ := h
  have hkind : new.kind = x.settings.kind := by
    unfold RefSettings.stateAfter at hkeep
    split_ifs at hkeep with h1 h2 h3
    · exact h1.trans h2.symm
    · exact (not_not.mp h3).symm
  have hcount : x.state.windowed → new.qualifyCount = x.settings.qualifyCount := fun hw => by
    have hnot : new.kind ≠ .off := fun hk => by
      have hst := hoff.mpr (hkind.symm.trans hk)
      rcases hw with hw | hw <;> exact nomatch hst.symm.trans hw
    unfold RefSettings.stateAfter at hkeep
    rw [if_neg hnot, if_neg (not_not.mpr hkind.symm)] at hkeep
    split at hkeep
    · cases hkeep
    · rename_i hr
      simp only [RefSettings.requalifies, Bool.or_eq_true, decide_eq_true_eq, not_or, not_not] at hr
      obtain ⟨⟨⟨_, hcount⟩, _⟩, _⟩ := hr
      exact hcount.symm
  refine ⟨hnew, ?_, hhold, hedge, hlatch, ?_, fun hg => ?_, ?_, hrunw, fun hq => ?_, hcounts, husable, hdis, hctr⟩
  · rw [hoff, ← hkind]
  · rw [hsettle, ← hkind]
  · obtain ⟨hj, hlen⟩ := hgather hg
    refine ⟨?_, hlen⟩
    unfold Reference.judgesMessages at hj ⊢
    dsimp only
    rwa [hkind]
  · by_cases h0 : x.goodRun = 0
    · dsimp only
      omega
    · dsimp only
      rw [hcount (hrunw h0)]
      exact hrun
  · dsimp only
    rw [hcount (.inl hq)]
    exact hrunq hq

theorem State.changeReference_refsSafe (s : State) (r : RefId) {new : RefSettings} (hnew : new.wf) :
    s.refsSafe (s.changeReference r new) := by
  have retold (t : State) (p : Prop) [Decidable p] (h : s.refsSafe t) : s.refsSafe (if p then t.reevaluate else t) := by
    split
    · exact h.of_refs t.refs_reevaluate
    · exact h
  unfold State.changeReference
  dsimp only
  split <;> rename_i hafter
  · rename_i st
    refine retold _ _ (State.refsSafe.of_refs (State.setRef_refsSafe fun hw => ?_) (s.refLeavesFor_onlyEngine r _ st).refs)
    obtain ⟨_, _, _, _, _, _, _, _, _, _, _, _, _, hctr⟩ := hw r
    have hst : (st = .off ∧ new.kind = .off) ∨ (st = .seeking ∧ new.kind ≠ .off) := by
      unfold RefSettings.stateAfter at hafter
      split_ifs at hafter with h1 h2 h3 h4 <;> cases hafter
      · exact .inl ⟨rfl, h1⟩
      · exact .inr ⟨rfl, h1⟩
      · exact .inr ⟨rfl, h1⟩
    refine Reference.wf_cleared (x := { s.ref r with settings := new }) (expiry := none) (n := (s.ref r).disqualified)
      hnew hctr ?_ ?_ ?_
    · rcases hst with ⟨rfl, hk⟩ | ⟨rfl, hk⟩
      · exact ⟨fun _ => hk, fun _ => rfl⟩
      · exact ⟨nofun, fun h => absurd h hk⟩
    · rcases hst with ⟨rfl, _⟩ | ⟨rfl, _⟩ <;> decide
    · rcases hst with ⟨rfl, _⟩ | ⟨rfl, _⟩ <;> decide
  · exact retold _ _ (State.setRef_refsSafe fun hw => Reference.wf_settings (hw r) hnew hafter)

theorem setReferenceState_refsSafe (mp : Mp) (s : State) : s.refsSafe (setReferenceState mp s) := by
  refine State.takeCommand_induct s.refsSafe_refl (fun t _ _ ht => ht.of_refs rfl) fun ws t out h => ?_
  obtain ⟨⟨r, new⟩, hp, hx⟩ := (withParams_eq_taken_iff _ _ _ _).mp h
  cases hx
  exact s.changeReference_refsSafe r ((setReferenceParams_iff ws r new).mp hp).1

/-- A record at RESTART is OFF or SEEKING with its settings (R49). -/
theorem Reference.wf.restarted {x : Reference} (h : x.wf) : x.restarted.wf := by
  obtain ⟨hset, _⟩ := h
  refine Reference.wf_cleared (x := x.restarted) (expiry := none) (n := 0) hset
    ⟨Nat.zero_le _, Nat.zero_le _, Nat.zero_le _, Nat.zero_le _⟩ ?_ ?_ ?_
  all_goals by_cases hk : x.settings.kind = .off
  all_goals simp [Reference.restarted, hk]

theorem restartState_refsSafe (mp : Mp) (s : State) : s.refsSafe (restartState mp s) := by
  refine State.unlessHeld_induct s.refsSafe_refl ?_
  split
  · exact s.refsSafe_refl
  · unfold State.judgeRestart
    split_ifs
    · exact State.refsSafe_of_refs rfl
    · exact State.refsSafe_of_refs rfl
    · intro hw r
      rw [State.restart_eq, State.ref, Four.get_map]
      exact (hw r).restarted
    · exact s.refsSafe_refl

theorem powerOnState_refsSafe (held : Bool) (s : State) : s.refsSafe (powerOnState held s) := fun _ r => by
  rw [show (powerOnState held s).ref r = .powerOn from Four.get_all _ r]
  decide

/-! ### Every command -/

/-- Every command keeps each reference record legal. -/
theorem exec_refsSafe (c : Instr) (s : State) : ∃ t, exec c s = .next t ∧ s.refsSafe t := by
  have keeps {t : State} (he : exec c s = .next t) (hr : t.refs = s.refs) : ∃ t, exec c s = .next t ∧ s.refsSafe t :=
    ⟨t, he, State.refsSafe_of_refs hr⟩
  cases c with
  | referenceEdge r e => exact ⟨_, rfl, referenceEdgeState_refsSafe r e s⟩
  | missingEdgeExpiry r => exact ⟨_, rfl, missingEdgeExpiryState_refsSafe r s⟩
  | messageCharacter r ch => exact ⟨_, rfl, messageCharacterState_refsSafe r ch s⟩
  | messageArrival r ch => exact ⟨_, rfl, messageArrivalState_refsSafe r ch s⟩
  | settleExpiry r => exact ⟨_, rfl, settleExpiryState_refsSafe r s⟩
  | holdOffExpiry r => exact ⟨_, rfl, holdOffExpiryState_refsSafe r s⟩
  | setReference mp => exact ⟨_, rfl, setReferenceState_refsSafe mp s⟩
  | restart mp => exact ⟨_, rfl, restartState_refsSafe mp s⟩
  | powerOn held => exact ⟨_, rfl, powerOnState_refsSafe held s⟩
  | resetRelease => exact keeps rfl rfl
  | slewCompletion => exact keeps rfl (refs_slewCompletionState s)
  | insertedSecondStart => exact keeps rfl (refs_insertedSecondStartState s)
  | leapInstant => exact keeps rfl (refs_leapInstantState s)
  | readTime mp => exact keeps rfl (State.refs_takeCommand fun _ _ _ h => by cases h; rfl)
  | setTime mp => exact keeps rfl (refs_setTimeState mp s)
  | stepBy mp => exact keeps rfl (refs_stepByState mp s)
  | slewBy mp => exact keeps rfl (refs_slewByState mp s)
  | setLeap mp => exact keeps rfl (refs_setLeapState mp s)
  | clearLeap mp => exact keeps rfl (refs_clearLeapState mp s)
  | setUtcOffset mp => exact keeps rfl (refs_setUtcOffsetState mp s)
  | setLocalOffset mp => exact keeps rfl (refs_setLocalOffsetState mp s)
  | readReference mp => exact keeps rfl (refs_readReferenceState mp s)
  | gradeGrowthCrossing => exact keeps rfl (refs_gradeGrowthCrossingState s)
  | setEngine mp => exact keeps rfl (refs_setEngineState mp s)
  | readEngine mp => exact keeps rfl (State.refs_takeCommand fun _ _ _ h => by cases h; rfl)
  | pin mp => exact keeps rfl (refs_pinState mp s)
  | unpin mp => exact keeps rfl (refs_unpinState mp s)
  | addMark mp => exact keeps rfl (refs_addMarkState mp s)
  | cancelMark mp => exact keeps rfl (refs_cancelMarkState mp s)
  | takeOutcomes mp => exact keeps rfl (State.refs_takeCommand fun _ _ _ h => by cases h; rfl)
  | markTaking faulty => exact keeps rfl (refs_markTakingState faulty s)
  | setLine mp => exact keeps rfl (refs_setLineState mp s)
  | changePoint i => exact keeps rfl (changePointState_onlyLines i s).refs
  | pulseStart i load => exact keeps rfl (pulseStartState_onlyLines i load s).refs
  | pulseEnd i => exact keeps rfl (pulseEndState_onlyLines i s).refs
  | commitmentStart i load => exact keeps rfl (commitmentStartState_onlyLines i load s).refs
  | lineRestart mp => exact keeps rfl (refs_lineRestartState mp s)
  | senseLine mp => exact keeps rfl (refs_senseLineState mp s)
  | composition => exact keeps rfl (refs_compositionState s)
  | frameRelease => exact keeps rfl (refs_frameReleaseState s)
  | frameBegin i load => exact keeps rfl (frameBeginState_onlyLines i load s).refs
  | symbolStart i load => exact keeps rfl (symbolStartState_onlyLines i load s).refs
  | symbolEnd i => exact keeps rfl (symbolEndState_onlyLines i s).refs
  | frameEnd i => exact keeps rfl (frameEndState_onlyLines i s).refs
  | linkUp p => exact keeps rfl (linkUpState_onlyNetwork p s).refs
  | linkDown p => exact keeps rfl (linkDownState_onlyNetwork p s).refs
  | beaconDue => exact keeps rfl (beaconDueState_onlyNetwork s).refs
  | transmitEnd p => exact keeps rfl (transmitEndState_onlyNetwork p s).refs
  | askTimingPoint p => exact keeps rfl (askTimingPointState_onlyNetwork p s).refs
  | askArrival p f => exact keeps rfl (askArrivalState_onlyNetwork p f s).refs
  | setNetwork mp => exact keeps rfl (refs_setNetworkState mp s)
  | readPort mp => exact keeps rfl (refs_readPortState mp s)
  | idleCheck => exact keeps rfl (idleCheckState_onlyNetwork s).refs
  | forgetClient mp => exact keeps rfl (refs_forgetClientState mp s)
  | writeParams mp rest => exact keeps rfl (refs_writeParamsState mp rest s)
  | post mp rest => exact keeps rfl (refs_postState mp rest s)
  | readResult mp len => exact keeps rfl (refs_readResultState mp len s)
  | readState mp len => exact keeps rfl (State.refs_endTransaction fun _ _ => rfl)
  | sense mp rest => exact keeps rfl (refs_senseState mp rest s)
  | readErrors mp len => exact keeps rfl (State.refs_endTransaction fun _ _ => rfl)
  | portClear mp len => exact keeps rfl (refs_portClearState mp len s)
  | unknownTransaction mp code => exact keeps rfl (refs_unknownTransactionState mp code s)
  | unknownCommand mp => exact keeps rfl (refs_unknownCommandState mp s)
  | claim mp => exact keeps rfl (refs_claimState mp s)
  | release mp => exact keeps rfl (refs_releaseState mp s)
  | leaseExpiry => exact keeps rfl (refs_leaseExpiryState s)
  | setEventMask mp => exact keeps rfl (State.refs_takeCommand fun _ _ _ h => by cases h; rfl)
  | readTable mp => exact keeps rfl (refs_readTableState mp s)
  | readMore mp => exact keeps rfl (refs_readMoreState mp s)
  | identify mp => exact keeps rfl (State.refs_takeCommand fun _ _ _ h => by cases h; rfl)
  | networkClear mp => exact keeps rfl (State.refs_takeCommand fun _ _ _ h => by cases h; rfl)
  | tick => exact keeps rfl (State.refs_unlessHeld rfl)
  | transactionBegin mp => exact keeps rfl (State.refs_unlessHeld rfl)

/-- Settles O54: a step runs one command, or idles. -/
theorem stepKeepsTheReferences : Obligations.StepKeepsTheReferences := by
  intro s t hw hstep
  unfold step at hstep
  split at hstep
  · cases hstep
    exact hw
  · rename_i c rest _
    obtain ⟨u, hu, hsafe⟩ := exec_refsSafe c { s with pending := rest }
    rw [hu] at hstep
    cases hstep
    exact hsafe hw

end Sys2Proof.Machine
end

section
/-! SUPPORT. The edges and the expiries of a reference, at, before and after the instants at which they are judged. -/

namespace Sys2Proof.Machine

open Sys2Proof

/-! ### Edges (R31 to R35) -/

section
variable {s : State} {r : RefId} {e : Edge} {last : Nat}

theorem referenceEdgeState_opposite (h : (s.ref r).settings.polarity ≠ e) : referenceEdgeState r e s = s :=
  State.unlessHeld_induct (P := fun t => t = s) rfl (if_neg h)

/-- An edge that no missing-edge expiry precedes is seen by the record as it stands. -/
theorem referenceEdgeState_prompt (hr : s.resetHeld = false) (hp : (s.ref r).settings.polarity = e)
    (hdue : ¬ s.missingEdgeDue r = true) : referenceEdgeState r e s = s.seeEdge r := by
  refine (State.unlessHeld_released hr _).trans ((if_pos hp).trans ?_)
  rw [if_neg hdue]

theorem State.not_missingEdgeDue_of_unwindowed (h : ¬ (s.ref r).state.windowed) : ¬ s.missingEdgeDue r = true :=
  fun hd => h ((s.missingEdgeDue_iff r).mp hd).1

theorem State.not_missingEdgeDue_of_le (he : (s.ref r).lastEdge = some last)
    (hle : s.ts.tickCount ≤ (s.ref r).windowCloses last) : ¬ s.missingEdgeDue r = true := fun hd => by
  obtain ⟨_, e', he', hlt⟩ := (s.missingEdgeDue_iff r).mp hd
  cases he.symm.trans he'
  omega

theorem Reference.windowOpens_eq (x : Reference) (last : Nat) :
    x.windowOpens last = last + (x.missingRun + 1) * 250000000 - 62500 := rfl

theorem Reference.windowCloses_eq (x : Reference) (last : Nat) :
    x.windowCloses last = last + (x.missingRun + 1) * 250000000 + 62500 := rfl

theorem Reference.windowOpens_le_windowCloses (x : Reference) (last : Nat) :
    x.windowOpens last ≤ x.windowCloses last := by
  unfold Reference.windowOpens Reference.windowCloses
  omega

/-- Before its window an edge is a glitch (R33). -/
theorem referenceEdgeState_glitch (hr : s.resetHeld = false) (hp : (s.ref r).settings.polarity = e)
    (hwin : (s.ref r).state.windowed) (he : (s.ref r).lastEdge = some last)
    (ht : s.ts.tickCount < (s.ref r).windowOpens last) :
    referenceEdgeState r e s = s.setRef r { s.ref r with glitches := sat16 (s.ref r).glitches } := by
  have hle := ht.le.trans ((s.ref r).windowOpens_le_windowCloses last)
  rw [referenceEdgeState_prompt hr hp (State.not_missingEdgeDue_of_le he hle), State.seeEdge_windowed hwin,
    State.windowEdge_eq he, if_pos ht]

/-- From the opening tick to the closing tick an edge is accepted (R33). -/
theorem referenceEdgeState_accepted (hr : s.resetHeld = false) (hp : (s.ref r).settings.polarity = e)
    (hwin : (s.ref r).state.windowed) (he : (s.ref r).lastEdge = some last)
    (hopen : (s.ref r).windowOpens last ≤ s.ts.tickCount) (hclose : s.ts.tickCount ≤ (s.ref r).windowCloses last) :
    referenceEdgeState r e s = s.acceptEdge r (s.ref r) := by
  rw [referenceEdgeState_prompt hr hp (State.not_missingEdgeDue_of_le he hclose), State.seeEdge_windowed hwin,
    State.windowEdge_eq he, if_neg (Nat.not_lt.mpr hopen), if_pos hclose]

theorem referenceEdgeState_first (hr : s.resetHeld = false) (hp : (s.ref r).settings.polarity = e)
    (hst : (s.ref r).state = .seeking) : referenceEdgeState r e s = s.firstEdge r (s.ref r) := by
  have hwin : ¬ (s.ref r).state.windowed := by rw [hst]; decide
  rw [referenceEdgeState_prompt hr hp (State.not_missingEdgeDue_of_unwindowed hwin), State.seeEdge_seeking hst]

end

/-- Settles O19: in QUALIFYING by the first edge, a later edge is judged by the window that this edge opens. -/
theorem firstEdgeEntersQualifying : Obligations.FirstEdgeEntersQualifying := by
  intro s r e hr hst
  refine ⟨fun hp => next_congr (referenceEdgeState_opposite hp), fun hp => ?_⟩
  intro x
  refine ⟨next_congr (referenceEdgeState_first hr hp hst), fun t ht hx => ?_⟩
  have hpol : (t.ref r).settings.polarity = e := by rw [hx]; exact hp
  have hwin : (t.ref r).state.windowed := by rw [hx]; exact .inl rfl
  have hlast : (t.ref r).lastEdge = some s.ts.tickCount := by rw [hx]
  have hmissed : (t.ref r).missingRun = 0 := by rw [hx]
  have hopen : (t.ref r).windowOpens s.ts.tickCount = s.ts.tickCount + 250000000 - 62500 := by
    rw [Reference.windowOpens_eq, hmissed, Nat.zero_add, Nat.one_mul]
  have hclose : (t.ref r).windowCloses s.ts.tickCount = s.ts.tickCount + 250000000 + 62500 := by
    rw [Reference.windowCloses_eq, hmissed, Nat.zero_add, Nat.one_mul]
  refine ⟨fun hlt => ?_, fun hge hle => ⟨_, rfl, ?_⟩⟩
  · rw [← hx]
    exact next_congr (referenceEdgeState_glitch ht hpol hwin hlast (hopen ▸ hlt))
  · have hlatch : (t.ref r).latch = some ⟨s.nowNs - (s.ref r).settings.compensation, s.ts.tickCount, false⟩ := by
      rw [hx]
    have hqual : (t.replacing (t.ref r)).state = .qualifying := by
      rw [hx]
      rfl
    rw [referenceEdgeState_accepted ht hpol hwin hlast (hopen ▸ hge) (hclose ▸ hle),
      State.acceptEdge_replaces hlatch rfl, State.refFailed_qualifying hqual, State.ref_setRef]
    rfl

/-! ### Edges after the closing tick -/

/-- A QUALIFYING record whose missing-edge run stands at 4, which no step of the part brings about. -/
def fourMissed : Reference := { Reference.powerOn with state := .qualifying, lastEdge := some 0, missingRun := 4 }

/-- The tick after the closing tick of that record's window. -/
def fourMissedState : State :=
  { State.reset with
    ts := { TimescaleUnit.powerOn with tickCount := 1250062501 }
    refs := Four.all fourMissed }

/-- Refutes O20: a missing-edge run of 4 stays at 4 (R30's count stops at 3) and is no third in a row, so the expiry
leaves the record and its window as they are. The edge that the expiry comes before counts one missing edge; sent again
after the expiry it finds the window closed once more and counts a second one. -/
theorem not_windowJudgesEdges : ¬ Obligations.WindowJudgesEdges := by
  intro h
  obtain ⟨_, _, hedge⟩ := h fourMissedState 0 rfl
  obtain ⟨_, _, hlate⟩ := hedge 0 (.inl rfl) rfl
  obtain ⟨t, ht, hagain, _⟩ := hlate (by decide)
  cases ht
  have heq := hagain (.inl (by decide))
  have hcount := Host.Outcome.next.inj heq
  exact absurd (congrArg (fun u : State => (u.ref 0).missingEdges) hcount) (by decide)

end Sys2Proof.Machine
end

section
/-! SUPPORT. What a completed measurement makes of its record, in the words of the statements, and the expiries. -/

namespace Sys2Proof.Machine

open Sys2Proof

/-! ### Fit measurements (R41 to R43, R46) -/

theorem State.qualifiesWith_qualify (s : State) (r : RefId) (y : Reference) (offset : Int) :
    s.qualifiesWith r y offset (.next (s.qualify r y offset)) := by
  refine ⟨fun hg => next_congr (State.qualify_far hg), fun hg hlt => next_congr ?_, fun hg hle => next_congr ?_⟩
  · rw [State.qualify_good hg, if_neg (Nat.not_le.mpr hlt)]
  · rw [State.qualify_good hg, if_pos hle]
    rfl

theorem State.usesWith_measureUsable (s : State) (r : RefId) (y : Reference) (offset : Int) (accuracy : Nat)
    (m : Option Message) : s.usesWith r y offset accuracy m (.next (s.measureUsable r y offset accuracy m)) := by
  have hflag : s.disagrees r y offset =
      decide (s.engine.state = .locked ∧ s.engine.selection ≠ some r ∧ y.settings.phaseLimit < offset.natAbs) := by
    simp only [State.disagrees, Bool.decide_and, Bool.and_assoc]
  have hrun : s.nextPhaseRun r y offset =
      if s.engine.state = .locked ∧ s.engine.selection = some r ∧ y.settings.phaseLimit < offset.natAbs then
        upTo3 y.phaseRun else 0 := rfl
  rw [State.measureUsable_eq, hflag, hrun]
  exact ⟨fun h => next_congr (if_pos h), fun h => next_congr (if_neg h)⟩

/-! ### The missing-edge expiry (R35) -/

theorem Reference.missed_eq {x : Reference} (h : x.missingRun ≤ 2) :
    x.missed = { x with missingEdges := sat16 x.missingEdges, missingRun := x.missingRun + 1 } := by
  rw [Reference.missed, upTo3_eq_succ h]

section
variable {s : State} {r : RefId}

theorem missingEdgeExpiryState_due (hr : s.resetHeld = false) (h : s.missingEdgeDue r = true) :
    missingEdgeExpiryState r s = s.missEdge r :=
  (State.unlessHeld_released hr _).trans (if_pos h)

theorem missingEdgeExpiryState_early (h : ¬ s.missingEdgeDue r = true) : missingEdgeExpiryState r s = s :=
  State.unlessHeld_induct (P := fun t => t = s) rfl (if_neg h)

theorem State.missEdge_goes_on (hm : (s.ref r).missingRun < 2) :
    ((s.ref r).state = .qualifying → s.missEdge r = s.setRef r (s.ref r).missed.runBroken) ∧
      ((s.ref r).state = .usable → s.missEdge r = s.setRef r (s.ref r).missed) := by
  refine ⟨fun h => ?_, fun h => ?_⟩
  · rw [State.missEdge_qualifying h, if_neg (upTo3_ne_three hm)]
  · rw [State.missEdge_usable h, if_neg (upTo3_ne_three hm)]

/-- A third missing edge in a row sends the record away. -/
theorem State.missEdge_third (hm : (s.ref r).missingRun = 2) :
    ((s.ref r).state = .qualifying →
        s.missEdge r = s.refEntered r { (s.ref r).missed.cleared with state := .seeking }) ∧
      ((s.ref r).state = .usable → s.missEdge r = s.disqualify r (s.ref r).missed) := by
  have hthree : upTo3 (s.ref r).missingRun = 3 := by rw [hm]; rfl
  refine ⟨fun h => ?_, fun h => ?_⟩
  · rw [State.missEdge_qualifying h, if_pos hthree]
  · rw [State.missEdge_usable h, if_pos hthree]

/-! ### The hold-off and the settle expiry (R40, R45) -/

theorem holdOffExpiryState_eq {t : Nat} (hr : s.resetHeld = false) (hst : (s.ref r).state = .heldOff)
    (ht : (s.ref r).holdOffExpiry = some t) :
    holdOffExpiryState r s =
      if t ≤ s.run then s.refEntered r { (s.ref r).cleared with state := .seeking } else s := by
  refine (State.unlessHeld_released hr _).trans ?_
  simp only [ht, hst, true_and]

theorem settleExpiryState_eq {t : Nat} {c : Capture} (hr : s.resetHeld = false) (ht : (s.ref r).settleExpiry = some t)
    (hc : (s.ref r).latch = some c) :
    settleExpiryState r s =
      if t ≤ s.ts.tickCount then
        s.measured r (s.ref r) c (offsetFromSecond c) (s.ref r).settings.accuracy none true
      else s := by
  refine (State.unlessHeld_released hr _).trans ?_
  simp only [ht, hc]

end

/-- Settles O21: each expiry, before it is due and from then on. -/
theorem referenceExpiriesActWhenDue : Obligations.ReferenceExpiriesActWhenDue := by
  intro s r hr x y
  refine ⟨fun e hwin he => ⟨fun hle => ?_, fun hlt => ?_⟩, fun t hst ht => ⟨fun hle => ?_, fun hlt => ?_⟩,
    fun t c ht hc => ?_⟩
  · exact next_congr (missingEdgeExpiryState_early (State.not_missingEdgeDue_of_le he hle))
  · have hdue := missingEdgeExpiryState_due hr ((s.missingEdgeDue_iff r).mpr ⟨hwin, e, he, hlt⟩)
    have hy (hm : x.missingRun ≤ 2) : x.missed = y := Reference.missed_eq hm
    refine ⟨fun hm hst => next_congr ?_, fun hm hst => next_congr ?_, fun hm hst => next_congr ?_,
      fun hm hst => next_congr ?_⟩
    · rw [hdue, (State.missEdge_goes_on hm).1 hst, hy hm.le]
      rfl
    · rw [hdue, (State.missEdge_goes_on hm).2 hst, hy hm.le]
    · rw [hdue, (State.missEdge_third hm).1 hst, hy hm.le]
      rfl
    · rw [hdue, (State.missEdge_third hm).2 hst, hy hm.le]
      rfl
  · exact next_congr ((holdOffExpiryState_eq hr hst ht).trans (if_pos hle))
  · exact next_congr ((holdOffExpiryState_eq hr hst ht).trans (if_neg (Nat.not_le.mpr hlt)))
  · intro n off
    have hsettle := settleExpiryState_eq hr ht hc
    refine ⟨fun hlt => next_congr (hsettle.trans (if_neg (Nat.not_le.mpr hlt))), fun hle hst => ?_, fun hle hst => ?_⟩
    · have hexec : exec (.settleExpiry r) s =
          .next (s.qualify r (x.completed s.run c off x.settings.accuracy none) off) :=
        next_congr ((hsettle.trans (if_pos hle)).trans (State.measured_qualifying hst true))
      rw [hexec]
      exact s.qualifiesWith_qualify r _ off
    · have hexec : exec (.settleExpiry r) s =
          .next (s.measureUsable r (x.completed s.run c off x.settings.accuracy none) off x.settings.accuracy none) :=
        next_congr ((hsettle.trans (if_pos hle)).trans (State.measured_usable hst true))
      rw [hexec]
      exact s.usesWith_measureUsable r _ off _ none

end Sys2Proof.Machine
end

section
/-! SUPPORT. The messages of a reference: the reading of a complete one (10.5), the gathering of its characters, and the
judging of what has been gathered (R36 to R39, R193). -/

namespace Sys2Proof.Machine

open Sys2Proof

/-! ### A complete message (10.5) -/

/-- The check byte A over bytes. -/
def checkSumA (bs : List Byte) : Byte := bs.foldl (· + ·) 0

/-- The check byte B: the sum of A's values, one after each byte. -/
def checkSumB (bs : List Byte) : Byte :=
  ((List.range bs.length).map fun k => checkSumA (bs.take (k + 1))).foldl (· + ·) 0

theorem checkSums_eq (bs : List Byte) : checkSums bs = (checkSumA bs, checkSumB bs) := by
  induction bs using List.reverseRecOn with
  | nil => rfl
  | append_singleton bs b ih =>
    have hearlier : (List.range bs.length).map (fun k => checkSumA ((bs ++ [b]).take (k + 1))) =
        (List.range bs.length).map fun k => checkSumA (bs.take (k + 1)) :=
      List.map_congr_left fun k hk => by
        rw [List.take_append_of_le_length (List.mem_range.mp hk)]
    have hA : checkSumA (bs ++ [b]) = checkSumA bs + b := by simp [checkSumA]
    have hB : checkSumB (bs ++ [b]) = checkSumB bs + (checkSumA bs + b) := by
      rw [← hA]
      simp only [checkSumB, List.length_append, List.length_singleton, List.range_succ, List.map_append, List.foldl_append,
        hearlier, List.map_singleton, List.foldl_cons, List.foldl_nil]
      rw [List.take_of_length_le (by simp)]
    rw [hA, hB, checkSums, List.foldl_append, ← checkSums, ih]
    rfl

theorem sourceKindOf_eq_some_iff (n top : Nat) (kind : RefKind) :
    sourceKindOf n = some (kind, top) ↔
      (n = 1 ∧ kind = .receiver ∧ top = 1) ∨ (n = 2 ∧ kind = .link ∧ top = 7) := by
  unfold sourceKindOf
  split
  · simp [eq_comm]
  · simp [eq_comm]
  · simp_all

theorem announcementOf_eq (n day : Nat) :
    announcementOf n day =
      if n ≤ 2 then some (if n = 0 then .none else if n = 1 then .insert day else .delete day) else none := by
  match n with
  | 0 | 1 | 2 => rfl
  | n + 3 => exact (if_neg (by omega)).symm

/-- The check bytes of a message are the sums over its bytes 2 to 21 (10.5). -/
def checksMatch (cs : List Byte) : Prop :=
  cs.getD 22 0 = checkSumA ((cs.drop 2).take 20) ∧ cs.getD 23 0 = checkSumB ((cs.drop 2).take 20)

/-- The message that the bytes of a complete one name, the kind of its source apart. -/
def messageFrom (cs : List Byte) (kind : RefKind) : Message where
  kind := kind
  utcCount := numberAt cs 3 6
  utcOffset := numberAt cs 9 1
  accuracy := numberAt cs 10 4
  status := numberAt cs 14 1
  announcement :=
    if numberAt cs 15 1 = 0 then .none
    else if numberAt cs 15 1 = 1 then .insert (numberAt cs 16 6) else .delete (numberAt cs 16 6)

theorem messageOf_eq_some_iff (cs : List Byte) (m : Message) :
    messageOf cs = some m ↔
      checksMatch cs ∧ numberAt cs 15 1 ≤ 2 ∧
        ((numberAt cs 2 1 = 1 ∧ numberAt cs 14 1 ≤ 1 ∧ messageFrom cs .receiver = m) ∨
          (numberAt cs 2 1 = 2 ∧ numberAt cs 14 1 ≤ 7 ∧ messageFrom cs .link = m)) := by
  have hnum (k n : Nat) : charsAt cs k n = numberAt cs k n := rfl
  unfold messageOf checksMatch
  simp only [checkSums_eq, hnum, Option.ite_none_right_eq_some, Option.bind_eq_bind, Option.bind_eq_some_iff,
    Prod.exists, sourceKindOf_eq_some_iff, announcementOf_eq, Option.some.injEq]
  refine and_congr_right fun _ => ⟨?_, ?_⟩
  · rintro ⟨_, _, ⟨hk, rfl, rfl⟩ | ⟨hk, rfl, rfl⟩, _, ⟨ha, rfl⟩, hs, hm⟩
    · exact ⟨ha, .inl ⟨hk, hs, hm⟩⟩
    · exact ⟨ha, .inr ⟨hk, hs, hm⟩⟩
  · rintro ⟨ha, ⟨hk, hs, hm⟩ | ⟨hk, hs, hm⟩⟩
    · exact ⟨_, _, .inl ⟨hk, rfl, rfl⟩, _, ⟨ha, rfl⟩, hs, hm⟩
    · exact ⟨_, _, .inr ⟨hk, rfl, rfl⟩, _, ⟨ha, rfl⟩, hs, hm⟩

/-- The check byte B of a message, written over prefixes of its bytes. -/
theorem checkSumB_message {cs : List Byte} (h : cs.length = 24) :
    checkSumB ((cs.drop 2).take 20) =
      ((List.range 20).map fun k => checkSumA ((cs.drop 2).take (k + 1))).foldl (· + ·) 0 := by
  have hlen : ((cs.drop 2).take 20).length = 20 := by simp [h]
  rw [checkSumB, hlen]
  congr 1
  refine List.map_congr_left fun k hk => ?_
  have hk20 := List.mem_range.mp hk
  rw [List.take_take, min_eq_left (by omega)]

theorem checksMatch_iff {cs : List Byte} (h : cs.length = 24) :
    checksMatch cs ↔
      cs[22]? = some (checkSumA ((cs.drop 2).take 20)) ∧
        cs[23]? = some (((List.range 20).map fun k => checkSumA ((cs.drop 2).take (k + 1))).foldl (· + ·) 0) := by
  have hget {k : Nat} (hk : k < cs.length) (b : Byte) : cs[k]? = some b ↔ cs.getD k 0 = b := by
    rw [List.getElem?_eq_getElem hk, List.getD_eq_getElem _ _ hk, Option.some.injEq]
  rw [hget (by omega), hget (by omega), ← checkSumB_message h]
  rfl

/-! ### Gathering (R193) -/

section
variable {cs : List Byte} {ch : Character}

theorem Gather.receive_start : Gather.hunting.receive ⟨0xC5#8, true⟩ = .more [0xC5#8] := rfl

theorem Gather.receive_discards (h : ch ≠ ⟨0xC5#8, true⟩) : Gather.hunting.receive ch = .discarded := by
  refine if_neg fun hc => h ?_
  obtain ⟨data, framed⟩ := ch
  obtain ⟨rfl, rfl⟩ := hc
  rfl

/-- A framing error, or a second character that is not 0x3A, rejects the message. -/
theorem Gather.receive_stops (h : ch.framed = false ∨ (cs.length = 1 ∧ ch.data ≠ 0x3A#8)) :
    (Gather.gathering cs).receive ch = .decided none := by
  by_cases hf : ch.framed = false
  · exact if_pos hf
  · refine (if_neg hf).trans (if_pos ?_)
    obtain ⟨h1, h2⟩ := h.resolve_left hf
    exact ⟨by rw [List.length_append, h1]; rfl, h2⟩

theorem Gather.receive_appends (h : ¬ (ch.framed = false ∨ (cs.length = 1 ∧ ch.data ≠ 0x3A#8))) :
    (Gather.gathering cs).receive ch =
      if cs.length < 23 then .more (cs ++ [ch.data]) else .decided (messageOf (cs ++ [ch.data])) := by
  have hsecond : ¬ ((cs ++ [ch.data]).length = 2 ∧ ch.data ≠ 0x3A#8) := fun ⟨h2, hd⟩ =>
    h (.inr ⟨Nat.succ.inj ((List.length_append (as := cs) (bs := [ch.data])).symm.trans h2), hd⟩)
  have hcount : (cs ++ [ch.data]).length < 24 ↔ cs.length < 23 := by
    rw [List.length_append, List.length_singleton]
    omega
  refine (if_neg fun hf => h (.inl hf)).trans ((if_neg hsecond).trans ?_)
  simp only [hcount]

end

/-! ### Characters (R36, R37, R193) -/

section
variable {s : State} {r : RefId} {ch : Character}

theorem character_ignored (h : ¬ (s.ref r).judgesMessages = true) :
    messageCharacterState r ch s = s ∧ messageArrivalState r ch s = s :=
  ⟨State.unlessHeld_induct (P := fun t => t = s) rfl (if_neg h),
    State.unlessHeld_induct (P := fun t => t = s) rfl (if_neg h)⟩

theorem character_discarded (h : (s.ref r).gather.receive ch = .discarded) :
    messageCharacterState r ch s = s ∧ messageArrivalState r ch s = s := by
  constructor
  · refine State.unlessHeld_induct (P := fun t => t = s) rfl ?_
    simp only [State.receiveCharacter, h, ite_self]
  · refine State.unlessHeld_induct (P := fun t => t = s) rfl ?_
    simp only [h, ite_self]

theorem character_gathered {cs : List Byte} (hr : s.resetHeld = false) (hj : (s.ref r).judgesMessages = true)
    (h : (s.ref r).gather.receive ch = .more cs) :
    messageCharacterState r ch s = s.setRef r { s.ref r with gather := .gathering cs } ∧
      messageArrivalState r ch s = s := by
  constructor
  · refine (State.unlessHeld_released hr _).trans ?_
    simp only [State.receiveCharacter, h, if_pos hj]
  · refine (State.unlessHeld_released hr _).trans ?_
    simp only [h, ite_self]

/-- The character that decides a message is the message's arrival, in whichever row it comes (log entry 12). -/
theorem character_decides {m : Option Message} (hr : s.resetHeld = false) (hj : (s.ref r).judgesMessages = true)
    (h : (s.ref r).gather.receive ch = .decided m) :
    messageCharacterState r ch s = s.arriveMessage r m ∧ messageArrivalState r ch s = s.arriveMessage r m := by
  constructor
  · refine (State.unlessHeld_released hr _).trans ?_
    simp only [State.receiveCharacter, h, if_pos hj]
  · refine (State.unlessHeld_released hr _).trans ?_
    simp only [h, if_pos hj]

end

/-! ### Judging (R37 to R39) -/

section
variable {s : State} {r : RefId} {x : Reference}

/-- A bad message by the record's state: a third in a row disqualifies a USABLE one. -/
theorem State.badMessage_cases (s : State) (r : RefId) (x : Reference) :
    (x.state = .qualifying → s.badMessage r x = s.setRef r x.withBadMessage.runBroken) ∧
      (x.state = .usable → x.badRun < 2 → s.badMessage r x = s.setRef r x.withBadMessage) ∧
      (x.state = .usable → x.badRun = 2 → s.badMessage r x = s.putsAside r x.withBadMessage) := by
  rw [State.badMessage_eq]
  refine ⟨fun hst => State.refFailed_qualifying (x := x.withBadMessage) hst _, fun hst hb => ?_, fun hst hb => ?_⟩
  · rw [State.refFailed_usable (x := x.withBadMessage) hst, if_neg (upTo3_ne_three hb)]
  · rw [State.refFailed_usable (x := x.withBadMessage) hst, if_pos (by rw [hb]; rfl)]
    rfl

theorem State.judgeMessage_unlatched (h : x.latch = none) (m : Message) : s.judgeMessage r x m = s.badMessage r x := by
  unfold State.judgeMessage
  rw [h]

theorem State.judgeMessage_latched {c : Capture} (h : x.latch = some c) (m : Message) :
    s.judgeMessage r x m =
      if m.kind = x.settings.kind ∧ s.messageInTime c then
        s.measured r { x with badRun := 0 } c (offsetOf c m) (max m.accuracy x.settings.accuracy) (some m) m.fit
      else s.badMessage r x := by
  unfold State.judgeMessage
  simp only [h]

theorem State.judgeMessage_valid {c : Capture} {m : Message} (h : x.latch = some c)
    (hv : m.kind = x.settings.kind ∧ s.messageInTime c) :
    s.judgeMessage r x m =
      s.measured r { x with badRun := 0 } c (offsetOf c m) (max m.accuracy x.settings.accuracy) (some m) m.fit :=
  (State.judgeMessage_latched h m).trans (if_pos hv)

theorem State.judgeMessage_invalid {c : Capture} {m : Message} (h : x.latch = some c)
    (hv : ¬ (m.kind = x.settings.kind ∧ s.messageInTime c)) : s.judgeMessage r x m = s.badMessage r x :=
  (State.judgeMessage_latched h m).trans (if_neg hv)

theorem State.messageInTime_iff (s : State) (c : Capture) :
    s.messageInTime c = true ↔ c.tick + 12500000 ≤ s.ts.tickCount ∧ s.ts.tickCount ≤ c.tick + 237500000 := by
  simp only [State.messageInTime, Bool.and_eq_true, decide_eq_true_eq]

theorem Message.fit_iff (m : Message) :
    m.fit = true ↔ (m.kind = .receiver ∧ m.status = 0) ∨ (m.kind = .link ∧ m.status < 7) := by
  unfold Message.fit
  split <;> rename_i hk <;> simp [hk]

theorem offsetOf_eq (c : Capture) (m : Message) :
    offsetOf c m =
      max (-2 ^ 63) (min (2 ^ 63 - 1) ((c.value : Int) - ((m.utcCount : Int) + m.utcOffset) * 10 ^ 9)) := by
  rw [offsetOf, saturate64, clampInt_eq (by norm_num), Nat.cast_mul, Nat.cast_add]
  rfl

end

/-- The arrival's outcome is that of a bad message, by the record's state (R37). -/
def State.countsBad (s : State) (r : RefId) (x : Reference) (arrival : Host.Outcome State Fault Refusal) : Prop :=
  (x.state = .qualifying → arrival = .next (s.setRef r x.withBadMessage.runBroken)) ∧
    (x.state = .usable → x.badRun < 2 → arrival = .next (s.setRef r x.withBadMessage)) ∧
    (x.state = .usable → x.badRun = 2 → arrival = .next (s.putsAside r x.withBadMessage))

theorem State.countsBad_badMessage (s : State) (r : RefId) (x : Reference) :
    s.countsBad r x (.next (s.badMessage r x)) := by
  obtain ⟨hqualifying, hgoesOn, hthird⟩ := State.badMessage_cases s r x
  exact ⟨fun h => next_congr (hqualifying h), fun h hb => next_congr (hgoesOn h hb),
    fun h hb => next_congr (hthird h hb)⟩

/-- Settles O22: the reading of a complete message by its check bytes and its fields, then one character by what gathering
makes of it. -/
theorem messagesAreGatheredAndJudged : Obligations.MessagesAreGatheredAndJudged := by
  refine ⟨fun cs hlen => ?_, fun s r ch hr => ?_⟩
  · intro a b kind announced good
    have hgood : good ↔ checksMatch cs ∧ announced ≤ 2 ∧
        ((kind = 1 ∧ numberAt cs 14 1 ≤ 1) ∨ (kind = 2 ∧ numberAt cs 14 1 ≤ 7)) := by
      rw [checksMatch_iff hlen, and_assoc]
      rfl
    refine ⟨fun hbad => Option.eq_none_iff_forall_ne_some.mpr fun m hm => hbad (hgood.mpr ?_), fun hg => ?_⟩
    · obtain ⟨hc, ha, ⟨hk, hs, _⟩ | ⟨hk, hs, _⟩⟩ := (messageOf_eq_some_iff cs m).mp hm
      · exact ⟨hc, ha, .inl ⟨hk, hs⟩⟩
      · exact ⟨hc, ha, .inr ⟨hk, hs⟩⟩
    · obtain ⟨hc, ha, ⟨hk, hs⟩ | ⟨hk, hs⟩⟩ := hgood.mp hg
      · rw [if_pos hk]
        exact (messageOf_eq_some_iff cs _).mpr ⟨hc, ha, .inl ⟨hk, hs, rfl⟩⟩
      · rw [if_neg (by omega)]
        exact (messageOf_eq_some_iff cs _).mpr ⟨hc, ha, .inr ⟨hk, hs, rfl⟩⟩
  · intro x bad arrival isBad
    have hbad (h : messageArrivalState r ch s = s.badMessage r x) : isBad := by
      have hcounts := s.countsBad_badMessage r x
      rw [← h] at hcounts
      exact hcounts
    refine ⟨fun hignores => ?_, fun hwin hkind => ?_⟩
    · obtain ⟨hch, harr⟩ := character_ignored (ch := ch) (mt (s.ref r).judgesMessages_iff.mp hignores)
      exact ⟨next_congr hch, next_congr harr⟩
    have hj : (s.ref r).judgesMessages = true := (s.ref r).judgesMessages_iff.mpr ⟨hwin, hkind⟩
    refine ⟨fun hhunting => ?_, fun cs hcs _ _ => ⟨fun hstops => ?_, fun hgo hlt => ?_, fun hgo hlen => ?_⟩⟩
    · by_cases hsync : ch = ⟨0xC5#8, true⟩
      · have hmore : (s.ref r).gather.receive ch = .more [0xC5#8] := by
          rw [hhunting, hsync]
          exact Gather.receive_start
        obtain ⟨hch, harr⟩ := character_gathered hr hj hmore
        exact ⟨next_congr harr, fun _ => next_congr hch, fun hne => absurd hsync hne⟩
      · have hdiscard : (s.ref r).gather.receive ch = .discarded := by
          rw [hhunting]
          exact Gather.receive_discards hsync
        obtain ⟨hch, harr⟩ := character_discarded hdiscard
        exact ⟨next_congr harr, fun heq => absurd heq hsync, fun _ => next_congr hch⟩
    · have hrejected : (s.ref r).gather.receive ch = .decided none := by
        rw [hcs]
        exact Gather.receive_stops hstops
      obtain ⟨hch, harr⟩ := character_decides hr hj hrejected
      exact ⟨hbad harr, next_congr (hch.trans harr.symm)⟩
    · have hmore : (s.ref r).gather.receive ch = .more (cs ++ [ch.data]) := by
        rw [hcs, Gather.receive_appends hgo, if_pos (by omega)]
      obtain ⟨hch, harr⟩ := character_gathered hr hj hmore
      exact ⟨next_congr harr, next_congr hch⟩
    · have hdecided : (s.ref r).gather.receive ch = .decided (messageOf (cs ++ [ch.data])) := by
        rw [hcs, Gather.receive_appends hgo, if_neg (by omega)]
      obtain ⟨hch, harr⟩ := character_decides hr hj hdecided
      refine ⟨next_congr (hch.trans harr.symm), fun hnone => hbad ?_, fun m hm => ?_⟩
      · rw [harr, hnone]
        rfl
      have hjudge : messageArrivalState r ch s = s.judgeMessage r x m := by
        rw [harr, hm]
        rfl
      refine ⟨fun hlatch => hbad (hjudge.trans (State.judgeMessage_unlatched hlatch m)), fun c hc => ?_⟩
      intro valid raw off acc y fit
      have hvalid : valid ↔ m.kind = x.settings.kind ∧ s.messageInTime c :=
        and_congr_right fun _ => (s.messageInTime_iff c).symm
      have hoff : offsetOf c m = off := offsetOf_eq c m
      have hunfit (hf : ¬ fit) : m.fit = false := Bool.eq_false_iff.mpr (mt m.fit_iff.mp hf)
      have hmeasured (hv : valid) : messageArrivalState r ch s =
          s.measured r { x with badRun := 0 } c off acc (some m) m.fit := by
        rw [hjudge, State.judgeMessage_valid hc (hvalid.mp hv), hoff]
      refine ⟨fun hv => hbad (hjudge.trans (State.judgeMessage_invalid hc (mt hvalid.mpr hv))), fun hv hf hst => ?_,
        fun hv hf hst => ?_, fun hv hf hst => ?_, fun hv hf hst => ?_⟩
      · have harrival : arrival = .next (s.qualify r y off) := next_congr <| by
          rw [hmeasured hv, State.measured_qualifying (x := { x with badRun := 0 }) hst, m.fit_iff.mpr hf]
          rfl
        rw [harrival]
        exact s.qualifiesWith_qualify r y off
      · have harrival : arrival = .next (s.measureUsable r y off acc (some m)) := next_congr <| by
          rw [hmeasured hv, State.measured_usable (x := { x with badRun := 0 }) hst, m.fit_iff.mpr hf]
          rfl
        rw [harrival]
        exact s.usesWith_measureUsable r y off acc (some m)
      · refine next_congr ?_
        rw [hmeasured hv, State.measured_qualifying (x := { x with badRun := 0 }) hst, hunfit hf]
        rfl
      · refine next_congr ?_
        rw [hmeasured hv, State.measured_usable (x := { x with badRun := 0 }) hst, hunfit hf]
        rfl

end Sys2Proof.Machine
end

section
/-! SUPPORT. SET_REFERENCE: the state that a change of settings enters, and what leaves with it (R48). -/

namespace Sys2Proof.Machine

open Sys2Proof

/-! ### The table of R48 -/

section
variable {old new : RefSettings}

/-- The settings that a reference qualifies by differ. -/
def RefSettings.qualifiesOtherwise (old new : RefSettings) : Prop :=
  old.polarity ≠ new.polarity ∨ old.compensation ≠ new.compensation ∨ old.qualifyCount ≠ new.qualifyCount ∨
    old.phaseLimit ≠ new.phaseLimit ∨ old.baud ≠ new.baud

theorem RefSettings.requalifies_iff (old new : RefSettings) :
    old.requalifies new = true ↔ old.qualifiesOtherwise new := by
  simp only [RefSettings.requalifies, RefSettings.qualifiesOtherwise, Bool.or_eq_true, decide_eq_true_eq, or_assoc]

theorem RefSettings.stateAfter_off (hnew : new.kind = .off) (hold : old.kind ≠ .off) :
    old.stateAfter new = some .off :=
  (if_pos hnew).trans (if_neg hold)

theorem RefSettings.stateAfter_seeking (hnew : new.kind ≠ .off)
    (h : old.kind ≠ new.kind ∨ old.qualifiesOtherwise new) : old.stateAfter new = some .seeking := by
  refine (if_neg hnew).trans ?_
  by_cases hkind : old.kind ≠ new.kind
  · exact if_pos hkind
  · exact (if_neg hkind).trans (if_pos ((old.requalifies_iff new).mpr (h.resolve_left hkind)))

theorem RefSettings.stateAfter_stays
    (h : (new.kind = .off ∧ old.kind = .off) ∨
      (new.kind ≠ .off ∧ old.kind = new.kind ∧ ¬ old.qualifiesOtherwise new)) :
    old.stateAfter new = none := by
  obtain ⟨hnew, hold⟩ | ⟨hnew, hkind, hsame⟩ := h
  · exact (if_pos hnew).trans (if_pos hold)
  · exact (if_neg hnew).trans ((if_neg (not_not_intro hkind)).trans (if_neg (mt (old.requalifies_iff new).mp hsame)))

theorem RefSettings.stateAfter_self (x : RefSettings) : x.stateAfter x = none := by
  by_cases h : x.kind = .off
  · exact stateAfter_stays (.inl ⟨h, h⟩)
  · exact stateAfter_stays (.inr ⟨h, rfl, by simp [qualifiesOtherwise]⟩)

end

/-! ### The command (10.6) -/

section
variable {s : State} {r : RefId} {new : RefSettings}

/-- A reference that enters a state: the engine re-evaluates once, for USABLE left or for the priority. -/
theorem State.changeReference_enters {st : RefState} (h : (s.ref r).settings.stateAfter new = some st) :
    s.changeReference r new =
      let t := (s.setRef r ({ s.ref r with settings := new }.entering st)).post .refChanged
      if (s.ref r).state = .usable ∨ (s.ref r).settings.priority ≠ new.priority then t.reevaluate else t := by
  unfold State.changeReference
  simp only [h]
  by_cases husable : (s.ref r).state = .usable
  · exact (if_neg fun hp => hp.2 husable).trans ((if_pos husable).trans (if_pos (.inl husable)).symm)
  · have hleaves : s.refLeavesFor r { s.ref r with settings := new } st =
        (s.setRef r ({ s.ref r with settings := new }.entering st)).post .refChanged := if_neg husable
    simp only [hleaves, husable, not_false_eq_true, and_true, false_or, ne_eq]

theorem State.changeReference_stays (h : (s.ref r).settings.stateAfter new = none) :
    s.changeReference r new =
      let t := s.setRef r { s.ref r with settings := new }
      if (s.ref r).settings.priority ≠ new.priority then t.reevaluate else t := by
  unfold State.changeReference
  simp only [h]

theorem State.setRef_ref (s : State) (r : RefId) : s.setRef r (s.ref r) = s := by
  unfold State.setRef State.ref
  rw [Four.set_get]

theorem State.changeReference_self (s : State) (r : RefId) : s.changeReference r (s.ref r).settings = s := by
  rw [State.changeReference_stays (RefSettings.stateAfter_self _)]
  exact (if_neg fun hne => hne rfl).trans (s.setRef_ref r)

end

/-- Settles O23: the state that the changed settings enter (R48), and what the command leaves for each. -/
theorem setReferenceActsOnWhatChanged : Obligations.SetReferenceActsOnWhatChanged := by
  intro s mp ws hw
  refine ⟨fun hnone => next_congr (State.takeCommand_refused hw ?_), fun r new hsome => ?_⟩
  · rw [setReferenceAct, hnone]
    rfl
  intro x y requalifies leavesWith settled
  have hleaves {t : State} (h : s.changeReference r new = t) : leavesWith t := by
    refine next_congr (State.takeCommand_taken hw ?_)
    rw [setReferenceAct, hsome, ← h]
    rfl
  exact ⟨fun hsame => hleaves (hsame ▸ s.changeReference_self r),
    fun hnew hold => hleaves (State.changeReference_enters (RefSettings.stateAfter_off hnew hold)),
    fun hnew h => hleaves (State.changeReference_enters (RefSettings.stateAfter_seeking hnew h)),
    fun h => hleaves (State.changeReference_stays (RefSettings.stateAfter_stays h))⟩

end Sys2Proof.Machine
end

section
/-! SUPPORT. Table reads: the records of the five tables as their lists of fields (R50, R96, R118, R151, R168), and
READ_TABLE and READ_MORE (R184, R185). -/

namespace Sys2Proof.Machine

open Sys2Proof

/-! ### The parameters -/

theorem Table.code_eq (t : Table) : t.code = tableCode t := by cases t <;> rfl

theorem Table.lastSlot_eq (t : Table) : t.lastSlot = tableEnd t := by cases t <;> rfl

theorem Table.perResult_eq (t : Table) : t.perResult = if t = .references then 2 else 1 := by cases t <;> rfl

theorem readTableParams_iff (ws : List Word) (c : Cursor) :
    readTableParams ws = some c ↔
      bitsAt ws 0 0 8 = tableCode c.table ∧ bitsAt ws 0 8 8 = c.slot ∧ c.slot ≤ tableEnd c.table := by
  obtain ⟨table, slot⟩ := c
  simp only [readTableParams, unpack, unpackFrom, if_true, Nat.reduceAdd, Nat.reduceLeDiff, Option.bind_eq_bind,
    Option.bind_eq_some_iff, tableOf_eq_some_iff, Option.ite_none_right_eq_some, Option.some.injEq, Cursor.mk.injEq,
    ← Table.code_eq, ← Table.lastSlot_eq]
  constructor
  · rintro ⟨_, ht, hle, rfl, rfl⟩
    exact ⟨ht, rfl, hle⟩
  · rintro ⟨ht, hslot, hle⟩
    exact ⟨table, ht, hslot.trans_le hle, rfl, hslot⟩

/-! ### The record of a reference (R50) -/

theorem latestFields_eq (o : Option Measurement) :
    fOption o measurementShape (fun m => [fSigned 64 m.offset, .bits 32 m.accuracy]) =
      [.bits 8 (flagBit o.isSome), .bits 64 (orZero o fun z => signedBits 64 z.offset),
        .bits 32 (orZero o fun z => z.accuracy)] := by
  cases o <;> rfl

theorem State.referenceRecord_eq (s : State) (r : RefId) : s.referenceRecord r = s.referenceShort r := by
  unfold State.referenceRecord Reference.runFields Reference.counterFields
  simp only [latestFields_eq, fFlag_eq, State.shownState_eq]
  rfl

/-! ### The record of a line (R118) -/

theorem gateFields_eq (o : Option Grade) :
    fOption o 0 (fun g => [fCode g.val]) = [.bits 8 (flagBit o.isSome), .bits 8 (orZero o fun g => g.val)] := by
  cases o <;> rfl

theorem LineSettings.fields_eq (x : LineSettings) : x.fields = x.values := by
  unfold LineSettings.fields
  rw [gateFields_eq]
  rfl

theorem pendingFields_eq (o : Option LineSettings) :
    fOption o LineSettings.powerOn LineSettings.fields =
      [.bits 8 (flagBit o.isSome), .bits 8 (orZero o fun y => y.mode.code), .bits 8 (orZero o fun y => y.polarity.code),
        .bits 16 (orZero o fun y => y.compensation), .bits 16 (orZero o fun y => y.period),
        .bits 32 (orZero o fun y => y.width), .bits 8 (orZero o fun y => flagBit y.gate.isSome),
        .bits 8 (orZero o fun y => orZero y.gate fun g => g.val)] := by
  cases o with
  | none => rfl
  | some y =>
    rw [fOption_some, LineSettings.fields_eq]
    rfl

theorem Line.active_eq (l : Line) :
    flagBit l.active = match l.emission with
      | .pulse _ _ | .frame _ _ (some _) => 1
      | .none | .frame _ _ none => 0 := by
  unfold Line.active
  rcases l.emission with _ | _ | ⟨_, _, _ | _⟩ <;> rfl

theorem Line.gatedNow_eq (l : Line) (grade : Grade) :
    flagBit (l.gatedNow grade) =
      if l.state = .running ∧ (l.settings.mode = .pulse ∨ l.settings.mode = .marks) ∧
        gatePasses l.settings.gate grade = false then 1 else 0 := by
  have hiff : l.gatedNow grade = true ↔
      l.state = .running ∧ (l.settings.mode = .pulse ∨ l.settings.mode = .marks) ∧
        gatePasses l.settings.gate grade = false := by
    simp only [Line.gatedNow, Bool.and_eq_true, Bool.or_eq_true, decide_eq_true_eq, Bool.not_eq_true', and_assoc]
  simp only [flagBit, hiff]

theorem slotFields_eq (o : Option Nat) :
    fOption o 0 (fun k => [.bits 8 k]) = [.bits 8 (flagBit o.isSome), .bits 8 (o.getD 0)] := by
  cases o <;> rfl

theorem State.codedSlot_eq (s : State) (l : Line) :
    s.codedSlot l = match l.emission with
      | .frame h _ _ => some (min 49 ((((s.nowNs : Int) - h.slot0) % Config.nsRange).toNat / 20000000))
      | .none | .pulse _ _ => none := by
  unfold State.codedSlot
  cases l.emission <;> rfl

/-- The status word and the three counts of a line are what SENSE_LINE returns (R116). -/
theorem State.statusFields_eq (s : State) (l : Line) : s.statusFields l ++ l.countFields = s.senseValues l := by
  unfold State.statusFields LineFlags.fields
  simp only [slotFields_eq, fFlag_eq, Line.active_eq, Line.gatedNow_eq, State.codedSlot_eq]
  rfl

theorem commitmentFields_eq (cs : List Commitment) :
    fOption cs.head? commitmentShape (fun c => [fInstant c.start, fInstant c.ends]) =
      match cs with
      | [] => [.bits 8 0, .instant 0, .instant 0]
      | c :: _ => [.bits 8 1, .instant (instantValue c.start), .instant (instantValue c.ends)] := by
  cases cs with
  | nil => rfl
  | cons c cs =>
    rw [List.head?_cons, fOption_some, fInstant_value, fInstant_value]
    rfl

theorem State.lineRecord_eq (s : State) (i : LineId) : s.lineRecord i = s.lineValues i := by
  unfold State.lineRecord
  simp only [LineSettings.fields_eq, pendingFields_eq, commitmentFields_eq]
  rw [List.append_assoc _ (s.statusFields _), State.statusFields_eq]
  rfl

/-! ### The record of a mark (R96) -/

theorem periodFields_eq (o : Option Nat) :
    fOption o 0 (fun p => [.bits 32 p]) = [.bits 8 (flagBit o.isSome), .bits 32 (o.getD 0)] := by
  cases o <;> rfl

theorem repeatFields_eq (o : Option Nat) :
    fOption o 0 (fun n => [.bits 16 n]) = [.bits 8 (flagBit o.isSome), .bits 16 (o.getD 0)] := by
  cases o <;> rfl

theorem Mark.record_eq (m : Mark) : m.record = m.values := by
  unfold Mark.record Mark.countFields
  simp only [periodFields_eq, repeatFields_eq, gateFields_eq, fInstant_value]
  rfl

/-! ### The record of a client (R155, R168) -/

theorem subFields_eq (o : Option SubRecord) : fOption o subShape SubRecord.fields = subValues o := by
  cases o with
  | none => rfl
  | some x =>
    rw [fOption_some, SubRecord.fields, fInstant_value]
    rfl

theorem reportFields_eq (o : Option SelfReport) :
    fOption o reportShape SelfReport.fields =
      match o with
      | none => [.bits 8 0, .bits 32 0, .bits 32 0, .bits 8 0, .instant 0, .bits 8 0]
      | some x =>
        [.bits 8 1, .bits 32 (signedBits 32 x.offset), .bits 32 x.pathDelay, .bits 8 x.grade.val,
          .instant (instantValue x.arrival), .bits 8 (NetId.code x.port)] := by
  cases o with
  | none => rfl
  | some x =>
    rw [fOption_some, SelfReport.fields, fInstant_value]
    rfl

theorem Client.record_eq (c : Client) : c.record = c.values := by
  unfold Client.record
  simp only [subFields_eq, reportFields_eq]
  rfl

/-! ### The tables -/

section
variable {s : State}

theorem State.records_references (s : State) :
    s.records .references = (List.finRange 4).map fun r => (r.val, s.referenceShort r) := by
  simp only [State.records, State.referenceRecord_eq]

theorem State.records_lines (s : State) :
    s.records .lines = (List.finRange 16).map fun i => (i.val, s.lineValues i) := by
  simp only [State.records, State.lineRecord_eq, allLines]

theorem State.records_ports (s : State) : s.records .ports = [(0, s.portShort .na), (1, s.portShort .nb)] := rfl

theorem State.records_clients (s : State) :
    s.records .clients = s.clients.entries.map fun c => (c.slot, c.values) := by
  simp only [State.records, Client.record_eq]

theorem State.markWithId_some {id : Nat} {m : Mark} (h : s.markWithId id = some m) : m ∈ s.marks ∧ m.id = id :=
  ⟨List.mem_of_find?_eq_some h, of_decide_eq_true (List.find?_some h :)⟩

theorem State.markWithId_isSome (s : State) (id : Nat) :
    (∃ m, s.markWithId id = some m) ↔ ∃ m ∈ s.marks, m.id = id := by
  rw [← Option.isSome_iff_exists, State.markWithId, List.find?_isSome]
  simp only [decide_eq_true_eq]

theorem State.mem_records_marks {x : Nat × List Field} :
    x ∈ s.records .marks ↔ x.1 < 64 ∧ ∃ m, s.markWithId x.1 = some m ∧ x.2 = m.values := by
  obtain ⟨id, fields⟩ := x
  simp only [State.records, List.mem_filterMap, List.mem_range, Option.map_eq_some_iff, Prod.mk.injEq, Mark.record_eq]
  constructor
  · rintro ⟨_, hlt, m, hm, rfl, rfl⟩
    exact ⟨hlt, m, hm, rfl⟩
  · rintro ⟨hlt, m, hm, rfl⟩
    exact ⟨id, hlt, m, hm, rfl, rfl⟩

/-- The marks are read in increasing identifier: they are looked up by it, from 0 to 63. -/
theorem State.records_marks_increasing (s : State) : ((s.records .marks).map (·.1)).Pairwise (· < ·) := by
  rw [List.pairwise_map]
  refine List.Pairwise.filterMap _ (fun i j hlt x hx y hy => ?_) List.pairwise_lt_range
  obtain ⟨_, _, rfl⟩ := Option.map_eq_some_iff.mp hx
  obtain ⟨_, _, rfl⟩ := Option.map_eq_some_iff.mp hy
  exact hlt

theorem State.id_mem_records_marks (s : State) (id : Nat) :
    id ∈ (s.records .marks).map (·.1) ↔ id < 64 ∧ ∃ m ∈ s.marks, m.id = id := by
  rw [← s.markWithId_isSome, List.mem_map]
  constructor
  · rintro ⟨x, hx, rfl⟩
    obtain ⟨hlt, m, hm, _⟩ := State.mem_records_marks.mp hx
    exact ⟨hlt, m, hm⟩
  · rintro ⟨hlt, m, hm⟩
    exact ⟨(id, m.values), State.mem_records_marks.mpr ⟨hlt, m, hm, rfl⟩, rfl⟩

theorem State.records_clients_increasing (h : s.clientsWf) : ((s.records .clients).map (·.1)).Pairwise (· < ·) := by
  obtain ⟨_, hslots, _⟩ := h
  rw [State.records_clients, List.map_map, List.pairwise_map]
  exact hslots

end

/-! ### READ_TABLE and READ_MORE (R184, R185) -/

section
variable {s : State} {mp : Mp}

theorem readTableAct_none {ws : List Word} (h : readTableParams ws = none) :
    readTableAct mp ws s = .refused .range [] := by
  rw [readTableAct, h]
  rfl

theorem readTableAct_some {ws : List Word} {c : Cursor} (h : readTableParams ws = some c) :
    readTableAct mp ws s = s.readTable mp c := by
  rw [readTableAct, h]
  rfl

theorem readMoreAct_none (h : (s.port mp).cursor = none) (ws : List Word) :
    readMoreAct mp ws s = .refused .state [] := by
  simp only [readMoreAct, h]

theorem readMoreAct_some {c : Cursor} (h : (s.port mp).cursor = some c) (ws : List Word) :
    readMoreAct mp ws s = s.readTable mp c := by
  simp only [readMoreAct, h]

end

/-- Settles O51: the words are those of the read of R184, and the records table by table. -/
theorem tableReadsReturnOccupiedSlots : Obligations.TableReadsReturnOccupiedSlots := by
  refine ⟨readTableParams_iff, fun s mp => ?_⟩
  intro found room got more moved words
  have hread (c : Cursor) : s.readTable mp c = .taken (moved c) (words c) := by
    unfold State.readTable tableResult
    simp only [Table.perResult_eq, Table.code_eq, fFlag_eq]
    rfl
  refine ⟨fun ws h => ⟨fun c hc => ?_, fun hnone => ?_⟩, fun ws h => ⟨fun c hc => ?_, fun hnone => ?_⟩,
    s.records_references, s.records_lines, s.records_ports, s.records_marks_increasing, s.id_mem_records_marks,
    fun x hx => ?_, s.records_clients, State.records_clients_increasing⟩
  · exact next_congr (State.takeCommand_taken (State.slotHas.waits h rfl) ((readTableAct_some hc).trans (hread c)))
  · exact next_congr (State.takeCommand_refused (State.slotHas.waits h rfl) (readTableAct_none hnone))
  · exact next_congr (State.takeCommand_taken (State.slotHas.waits h rfl) ((readMoreAct_some hc ws).trans (hread c)))
  · exact next_congr (State.takeCommand_refused (State.slotHas.waits h rfl) (readMoreAct_none hnone ws))
  · obtain ⟨_, m, hm, hfields⟩ := State.mem_records_marks.mp hx
    obtain ⟨hmem, hid⟩ := State.markWithId_some hm
    exact ⟨m, hmem, hid, hfields⟩

end Sys2Proof.Machine
end

section
/-! SUPPORT. U and the grade: the seven bounds, the growth of U, and the telling of a change of grade (R69 to R71). -/

namespace Sys2Proof.Machine

open Sys2Proof

/-! ### The grade of an uncertainty (R71) -/

/-- The grade is `g` or better up to a bound within `g` that the next picosecond lies beyond. -/
theorem gradeOfPs_le_iff {g : Grade} {bound : Nat} (hin : gradeOfPs (some bound) ≤ g)
    (hout : g < gradeOfPs (some (bound + 1))) (ps : Nat) : gradeOfPs (some ps) ≤ g ↔ ps ≤ bound := by
  refine ⟨fun h => ?_, fun h => (gradeOfPs_mono h).trans hin⟩
  by_contra hlt
  exact absurd (hout.trans_le (gradeOfPs_mono (Nat.lt_of_not_le hlt))) (not_lt_of_ge h)

/-! ### The growth of U (R69) -/

section
variable {e : Engine} {a : Anchor}

theorem Engine.uncertaintyAt_unset (h : e.anchor = none) (run : Nat) : e.uncertaintyAt run = none := by
  unfold Engine.uncertaintyAt
  rw [h]

/-- In ACQUIRING, HOLDOVER and PINNED, U grows from its anchor. -/
theorem Engine.uncertaintyAt_grows (h : e.anchor = some a)
    (hst : e.state = .acquiring ∨ e.state = .holdover ∨ e.state = .pinned) (run : Nat) :
    e.uncertaintyAt run = some (capPs (a.ps + e.settings.growth * (run - a.run) / 1000)) := by
  unfold Engine.uncertaintyAt
  rw [h]
  rcases hst with hst | hst | hst <;> rw [hst]

theorem Engine.uncertaintyAt_stands (h : e.anchor = some a) (hst : e.state = .locked) (run : Nat) :
    e.uncertaintyAt run = some (capPs a.ps) := by
  unfold Engine.uncertaintyAt
  rw [h, hst]

/-- U at the very run time of its anchor has not grown, whatever the state. -/
theorem Engine.uncertaintyAt_anchored {ps run : Nat} (h : e.anchor = some ⟨capPs ps, run⟩) :
    e.uncertaintyAt run = some (capPs ps) := by
  have hcap : capPs (capPs ps) = capPs ps := Nat.min_eq_left (Nat.min_le_right _ _)
  unfold Engine.uncertaintyAt
  rw [h]
  simp only [Nat.sub_self, Nat.mul_zero, Nat.zero_div, Nat.add_zero, hcap]
  split <;> rfl

end

theorem capPs_eq (ps : Nat) : capPs ps = min 4294967295000 ps := Nat.min_comm _ _

/-! ### U set, and the grade told of (R70, R71; log entries 17 and 40) -/

theorem State.uncertainty_setUncertainty (s : State) (ps : Nat) :
    (s.setUncertainty ps).uncertainty = some (capPs ps) := by
  have hrun : (s.setUncertainty ps).run = s.run := by
    rw [State.run, State.ts_setUncertainty, State.run]
  refine Engine.uncertaintyAt_anchored ?_
  rw [hrun, State.engine_setUncertainty]

theorem State.grade_setUncertainty (s : State) (ps : Nat) :
    (s.setUncertainty ps).grade = gradeOfPs (some (capPs ps)) := by
  rw [State.grade, State.uncertainty_setUncertainty]

/-- U just set has its grade noted as the one taken, and told of where it is another than before. -/
theorem State.setUncertainty_tells (s : State) (ps : Nat) :
    (s.setUncertainty ps).engine.announced = (s.setUncertainty ps).grade ∧
      ((s.setUncertainty ps).grade = s.engine.announced → (s.setUncertainty ps).ports = s.ports) ∧
      ((s.setUncertainty ps).grade ≠ s.engine.announced →
        ∀ mp, (s.setUncertainty ps).port mp = (s.port mp).withFlag .gradeChanged) := by
  rw [State.grade_setUncertainty]
  refine ⟨by rw [State.engine_setUncertainty], ?_⟩
  rcases s.setUncertainty_cases ps with ⟨hg, h⟩ | ⟨hg, h⟩ <;> rw [h]
  · exact ⟨fun _ => rfl, fun hne => absurd hg hne⟩
  · exact ⟨fun heq => absurd heq hg, fun _ mp => State.port_post _ _ _⟩

theorem gradeGrowthCrossingState_crosses {s : State} (hr : s.resetHeld = false) (hg : s.grade ≠ s.engine.announced) :
    gradeGrowthCrossingState s =
      ({ s with engine := { s.engine with announced := s.grade } }).post .gradeChanged :=
  (State.unlessHeld_released hr _).trans (if_neg hg)

theorem gradeGrowthCrossingState_idle {s : State} (hr : s.resetHeld = false) (hg : s.grade = s.engine.announced) :
    gradeGrowthCrossingState s = s :=
  (State.unlessHeld_released hr _).trans (if_pos hg)

/-- Settles O26. -/
theorem gradeFollowsUncertainty : Obligations.GradeFollowsUncertainty := by
  refine ⟨⟨rfl, fun ps => ?_⟩, fun s => ⟨fun h => Engine.uncertaintyAt_unset h s.run,
    fun a ha => ⟨fun hst => ?_, fun hst => ?_⟩, rfl, fun ps => ⟨_, rfl, ?_, s.setUncertainty_tells ps⟩,
    fun hr => ⟨fun hg => ?_, fun hg => ?_⟩⟩⟩
  · exact ⟨gradeOfPs_le_iff (by decide) (by decide) ps, gradeOfPs_le_iff (by decide) (by decide) ps,
      gradeOfPs_le_iff (by decide) (by decide) ps, gradeOfPs_le_iff (by decide) (by decide) ps,
      gradeOfPs_le_iff (by decide) (by decide) ps, gradeOfPs_le_iff (by decide) (by decide) ps,
      gradeOfPs_le_iff (by decide) (by decide) ps⟩
  · rw [← capPs_eq]
    exact Engine.uncertaintyAt_grows ha hst s.run
  · rw [← capPs_eq]
    exact Engine.uncertaintyAt_stands ha hst s.run
  · rw [← capPs_eq]
    exact s.uncertainty_setUncertainty ps
  · exact next_congr (gradeGrowthCrossingState_crosses hr hg)
  · exact next_congr (gradeGrowthCrossingState_idle hr hg)

end Sys2Proof.Machine
end

section
/-! SUPPORT. A legal engine: what a change of one part of it asks, and what each operation of the engine makes of it
(R51 to R76). The selection's record is told apart from the rest, since a reference that leaves USABLE breaks that clause
alone, and the re-evaluation that follows makes it good. -/

namespace Sys2Proof.Machine

open Sys2Proof

/-! ### A legal engine apart from its selection's record -/

/-- The engine by itself is legal: `State.engineWf` without the clause on the selected record. -/
def Engine.wf (e : Engine) : Prop :=
  e.settings.wf ∧ (e.selection.isSome ↔ e.state.follows) ∧ (e.anchor.isNone ↔ e.state = .freerun) ∧
    (∀ a ∈ e.anchor, a.ps ≤ Config.uncertaintyCap) ∧ (-200000000 ≤ e.integral ∧ e.integral ≤ 200000000) ∧
    e.goodRun ≤ 64 ∧ (e.goodRun ≠ 0 → e.state.follows) ∧ (e.stepNeeded → e.state = .acquiring) ∧
    (e.initialStep → e.state = .acquiring ∨ e.state = .holdover)

theorem State.engineWf_iff (s : State) :
    s.engineWf ↔ s.engine.wf ∧ ∀ r ∈ s.engine.selection, (s.ref r).state = .usable := by
  constructor
  · rintro ⟨hset, hsel, husable, hanchor⟩
    exact ⟨⟨hset, hsel, hanchor⟩, husable⟩
  · rintro ⟨⟨hset, hsel, hanchor⟩, husable⟩
    exact ⟨hset, hsel, husable, hanchor⟩

/-! ### Changes of one part of the engine -/

section
variable {e : Engine}

theorem Engine.wf.selection_none (h : e.wf) (hf : ¬ e.state.follows) : e.selection = none := by
  obtain ⟨_, hsel, _⟩ := h
  exact Option.not_isSome_iff_eq_none.mp (mt hsel.mp hf)

theorem Engine.wf_settings {x : EngineSettings} (h : e.wf) (hx : x.wf) : { e with settings := x }.wf := by
  obtain ⟨_, h⟩ := h
  exact ⟨hx, h⟩

theorem Engine.wf_integral {i : Int} (h : e.wf) (hi : -200000000 ≤ i ∧ i ≤ 200000000) : { e with integral := i }.wf := by
  obtain ⟨hset, hsel, hanchor, hcap, _, hrest⟩ := h
  exact ⟨hset, hsel, hanchor, hcap, hi, hrest⟩

/-- U is set out of FREERUN alone (R69). -/
theorem Engine.wf_anchor {a : Anchor} (h : e.wf) (hst : e.state ≠ .freerun) (ha : a.ps ≤ Config.uncertaintyCap) :
    { e with anchor := some a }.wf := by
  obtain ⟨hset, hsel, _, _, hrest⟩ := h
  refine ⟨hset, hsel, ⟨nofun, fun hf => absurd hf hst⟩, fun b hb => ?_, hrest⟩
  cases hb
  exact ha

theorem Engine.wf_goodRun {n : Nat} (h : e.wf) (hn : n ≤ 64) (hf : n ≠ 0 → e.state.follows) :
    { e with goodRun := n }.wf := by
  obtain ⟨hset, hsel, hanchor, hcap, hint, _, _, hrest⟩ := h
  exact ⟨hset, hsel, hanchor, hcap, hint, hn, hf, hrest⟩

theorem Engine.wf_noRun (h : e.wf) : { e with goodRun := 0 }.wf :=
  Engine.wf_goodRun h (Nat.zero_le _) fun h0 => absurd rfl h0

theorem Engine.wf_stepNeeded {b : Bool} (h : e.wf) (hb : b → e.state = .acquiring) : { e with stepNeeded := b }.wf := by
  obtain ⟨hset, hsel, hanchor, hcap, hint, hrun, hrunf, _, hinit⟩ := h
  exact ⟨hset, hsel, hanchor, hcap, hint, hrun, hrunf, hb, hinit⟩

theorem Engine.wf_initialStepMade (h : e.wf) : { e with initialStep := false }.wf := by
  obtain ⟨hset, hsel, hanchor, hcap, hint, hrun, hrunf, hneed, _⟩ := h
  exact ⟨hset, hsel, hanchor, hcap, hint, hrun, hrunf, hneed, nofun⟩

/-- LOCKED is entered from ACQUIRING with the initial step made and no step needed (R61, R63). -/
theorem Engine.wf_locked (h : e.wf) (hst : e.state = .acquiring) (hinit : e.initialStep = false)
    (hneed : e.stepNeeded = false) (t : Nat) : { e with state := .locked, entryTime := t }.wf := by
  obtain ⟨hset, hsel, hanchor, hcap, hint, hrun, _⟩ := h
  have hsome : e.selection.isSome := hsel.mpr (.inl hst)
  refine ⟨hset, ⟨fun _ => .inr rfl, fun _ => hsome⟩, ⟨fun hn => ?_, nofun⟩, hcap, hint, hrun, fun _ => .inr rfl,
    fun hb => absurd (hneed.symm.trans hb) Bool.false_ne_true, fun hb => absurd (hinit.symm.trans hb) Bool.false_ne_true⟩
  exact nomatch hst.symm.trans (hanchor.mp hn)

theorem Engine.uncertaintyAt_le {run ps : Nat} (h : e.uncertaintyAt run = some ps) : ps ≤ Config.uncertaintyCap :=
  Engine.capPs_uncertaintyAt h ▸ Nat.min_le_right _ _

theorem Engine.uncertaintyAt_isNone (e : Engine) (run : Nat) : (e.uncertaintyAt run).isNone = e.anchor.isNone := by
  unfold Engine.uncertaintyAt
  cases e.anchor with
  | none => rfl
  | some a => cases e.state <;> rfl

/-- A new anchor at the value that U has reached is set where U is, within the largest value of U (R69). -/
theorem Engine.reanchored_isNone (e : Engine) (run : Nat) :
    ((e.uncertaintyAt run).map fun ps => (⟨ps, run⟩ : Anchor)).isNone = e.anchor.isNone := by
  rw [Option.isNone_map, Engine.uncertaintyAt_isNone]

theorem Engine.reanchored_le {run : Nat} {a : Anchor}
    (h : a ∈ (e.uncertaintyAt run).map fun ps => (⟨ps, run⟩ : Anchor)) : a.ps ≤ Config.uncertaintyCap := by
  obtain ⟨ps, hps, rfl⟩ := Option.map_eq_some_iff.mp h
  exact Engine.uncertaintyAt_le hps

theorem Engine.wf_reanchored (h : e.wf) (run : Nat) :
    { e with anchor := (e.uncertaintyAt run).map fun ps => ⟨ps, run⟩ }.wf := by
  obtain ⟨hset, hsel, hanchor, _, hrest⟩ := h
  refine ⟨hset, hsel, ?_, fun a ha => Engine.reanchored_le ha, hrest⟩
  rw [Engine.reanchored_isNone]
  exact hanchor

/-- HOLDOVER has no selection and no lock run, and U goes on from the value it has reached (R57, R76). -/
theorem Engine.wf_holdover (h : e.wf) (hst : e.state ≠ .freerun) (run : Nat) :
    { e with
      state := .holdover
      entryTime := run
      selection := none
      goodRun := 0
      stepNeeded := false
      anchor := (e.uncertaintyAt run).map fun ps => ⟨ps, run⟩ }.wf := by
  obtain ⟨hset, _, hanchor, _, hint, _⟩ := h
  refine ⟨hset, iff_of_false nofun (by decide : ¬ EngineState.holdover.follows), ⟨fun hn => ?_, nofun⟩,
    fun a ha => Engine.reanchored_le ha, hint, Nat.zero_le _,
    fun h0 => absurd rfl h0, nofun, fun _ => .inr rfl⟩
  rw [Engine.reanchored_isNone] at hn
  exact absurd (hanchor.mp hn) hst

end

/-! ### Entries and the selection (R53, R54, R56, R57) -/

/-- Entry into ACQUIRING on a reference just selected (R54, R56). -/
theorem State.engine_acquires {s : State} (h : s.engine.wf) (r : RefId) : (s.select (some r)).enterAcquiring.engine.wf := by
  obtain ⟨hset, _, hanchor, hcap, hint, _⟩ := h
  rw [State.engine_enterAcquiring]
  refine ⟨hset, ⟨fun _ => .inl rfl, fun _ => rfl⟩, ?_, fun a ha => ?_, hint, Nat.zero_le _, fun h0 => absurd rfl h0, nofun,
    fun _ => .inl rfl⟩
  · refine ⟨fun hn => ?_, nofun⟩
    dsimp only at hn
    split at hn <;> rename_i hf
    · cases hn
    · rw [State.uncertainty, Engine.reanchored_isNone] at hn
      exact absurd (hanchor.mp hn) hf
  · dsimp only at ha
    split at ha
    · cases ha
      exact le_rfl
    · exact Engine.reanchored_le ha

/-- Entry into HOLDOVER as the last candidate goes (R54, R57). -/
theorem State.engine_holdsOver {s : State} (h : s.engine.wf) (hst : s.engine.state ≠ .freerun) :
    (s.select none).enterHoldover.engine.wf := by
  rw [State.engine_enterHoldover]
  exact Engine.wf_holdover h hst s.run

/-- A re-evaluation that changes nothing leaves an engine that follows a reference on the best candidate (R54). -/
theorem State.bestCandidate_of_reevaluate_eq {s : State} {r : RefId} (h : s.reevaluate = s) (hf : s.engine.state.follows)
    (hsel : s.engine.selection = some r) : s.bestCandidate = some r := by
  have hpinned : s.engine.state ≠ .pinned := fun hp => by
    rcases hf with hf | hf <;> exact nomatch hf.symm.trans hp
  by_contra hne
  have hselected : s.reevaluate.engine.selection = s.bestCandidate := by
    cases hb : s.bestCandidate with
    | none =>
      rw [State.reevaluate_leaves hb hf (by rw [hsel]; exact nofun), State.engine_enterHoldover]
      rfl
    | some q =>
      rw [State.reevaluate_enters hb hpinned fun _ hq => hne (hb.trans (hq.symm.trans hsel)), State.engine_enterAcquiring]
      rfl
  rw [h, hsel] at hselected
  exact hne hselected.symm

theorem State.bestCandidate_usable {s : State} {r : RefId} (h : s.bestCandidate = some r) : (s.ref r).state = .usable :=
  ((s.isCandidate_iff r).mp ((s.bestCandidate_eq_some_iff r).mp h).1).1

theorem State.ref_reevaluate (s : State) (r : RefId) : s.reevaluate.ref r = s.ref r := by
  rw [State.ref, State.refs_reevaluate, State.ref]

/-- In FREERUN with no candidate a re-evaluation changes nothing (R54). -/
theorem State.freerun_reevaluate {s : State} (hb : s.bestCandidate = none) (hf : s.engine.state = .freerun) :
    s.reevaluate = s := by
  unfold State.reevaluate
  rw [hf, hb]

/-- The re-evaluation makes the engine legal, whatever has become of the record it had selected (R53, R54). -/
theorem State.reevaluate_engineWf {s : State} (h : s.engine.wf) : s.reevaluate.engineWf := by
  rw [State.engineWf_iff]
  by_cases hkeep : s.reevaluate = s
  · rw [hkeep]
    refine ⟨h, fun r hr => ?_⟩
    have hf : s.engine.state.follows := by
      by_contra hf
      exact nomatch (h.selection_none hf).symm.trans hr
    exact State.bestCandidate_usable (State.bestCandidate_of_reevaluate_eq hkeep hf hr)
  · rcases s.reevaluate_cases with heq | ⟨r, hb, heq⟩ | ⟨hb, heq⟩
    · exact absurd heq hkeep
    · refine ⟨heq ▸ State.engine_acquires h r, fun q hq => ?_⟩
      rw [heq, State.engine_enterAcquiring] at hq
      cases hq
      rw [State.ref_reevaluate]
      exact State.bestCandidate_usable hb
    · refine ⟨heq ▸ State.engine_holdsOver h fun hf => hkeep (State.freerun_reevaluate hb hf), fun q hq => ?_⟩
      rw [heq, State.engine_enterHoldover] at hq
      cases hq

/-! ### Operations that keep the engine legal -/

/-- `t` is legal as far as the engine goes where `s` is. -/
def State.engineSafe (s t : State) : Prop := s.engineWf → t.engineWf

theorem State.engineSafe_refl (s : State) : s.engineSafe s := id

theorem State.engineSafe.trans {s t u : State} (h : s.engineSafe t) (k : t.engineSafe u) : s.engineSafe u := k ∘ h

/-- An operation on the engine that keeps the selection and the records. -/
theorem State.engineSafe_of_wf {s t : State} (hrefs : t.refs = s.refs) (hsel : t.engine.selection = s.engine.selection)
    (h : s.engine.wf → t.engine.wf) : s.engineSafe t := fun hw => by
  obtain ⟨he, husable⟩ := s.engineWf_iff.mp hw
  refine t.engineWf_iff.mpr ⟨h he, fun r hr => ?_⟩
  rw [State.ref, hrefs]
  exact husable r (hsel ▸ hr)

theorem State.engineSafe_of_engine {s t : State} (hrefs : t.refs = s.refs) (he : t.engine = s.engine) : s.engineSafe t :=
  State.engineSafe_of_wf hrefs (by rw [he]) fun h => he ▸ h

theorem State.setEngine_engineSafe {s : State} {e : Engine} (hsel : e.selection = s.engine.selection)
    (h : s.engine.wf → e.wf) : s.engineSafe (s.setEngine e) := State.engineSafe_of_wf rfl hsel h

theorem State.post_engineSafe (s : State) (e : Event) : s.engineSafe (s.post e) := State.engineSafe_of_engine rfl rfl

/-- A change of the records, whatever it is, of which the engine is told at once. -/
theorem State.engineSafe_reevaluate {s t : State} (he : t.engine = s.engine) : s.engineSafe t.reevaluate := fun hw =>
  State.reevaluate_engineWf (he ▸ (s.engineWf_iff.mp hw).1)

/-- A record that does not leave USABLE. -/
theorem State.setRef_engineSafe {s : State} {r : RefId} {x : Reference}
    (h : (s.ref r).state = .usable → x.state = .usable) : s.engineSafe (s.setRef r x) := fun hw => by
  obtain ⟨he, husable⟩ := s.engineWf_iff.mp hw
  refine (s.setRef r x).engineWf_iff.mpr ⟨he, fun q hq => ?_⟩
  by_cases hqr : q = r
  · subst hqr
    rw [State.ref_setRef]
    exact h (husable q hq)
  · rw [State.ref_setRef_other s hqr]
    exact husable q hq

/-! ### U and steps (R59, R69, R70, R73) -/

theorem State.setUncertainty_engineSafe {s : State} (h : s.engine.state ≠ .freerun) (ps : Nat) :
    s.engineSafe (s.setUncertainty ps) := by
  have he := s.engine_setUncertainty ps
  refine State.engineSafe_of_wf (s.refs_setUncertainty ps) (by rw [he]) fun hw => ?_
  rw [he]
  exact Engine.wf_anchor hw h (Nat.min_le_right _ _)

theorem State.stepTo_engineSafe (s : State) (src : Origin) (new : Instant) (clearFrac : Bool) :
    s.engineSafe (s.stepTo src new clearFrac) := by
  have he := s.engine_stepTo src new clearFrac
  refine State.engineSafe_of_wf (s.refs_stepTo src new clearFrac) (by rw [he]) fun hw => ?_
  rw [he]
  exact Engine.wf_stepNeeded hw nofun

/-- What SET_TIME sets besides the step (R21, R73). -/
theorem State.vouch_engineSafe (s : State) (declared : Nat) : s.engineSafe (s.vouch declared) := by
  have hmade (t : State) : t.engineSafe (t.setEngine { t.engine with initialStep := false }) :=
    State.setEngine_engineSafe rfl Engine.wf_initialStepMade
  unfold State.vouch
  dsimp only
  split <;> rename_i hf
  · exact hmade s
  · exact (State.setUncertainty_engineSafe hf _).trans (hmade _)

/-! ### Measurements (R58 to R65) -/

theorem State.loopUpdate_engineSafe (s : State) (x : Int) : s.engineSafe (s.loopUpdate x) :=
  State.engineSafe_of_wf rfl rfl fun h =>
    Engine.wf_integral h (clampInt_within (lo := -200000000) (hi := 200000000) (by norm_num) _)

theorem Engine.nextRun_le (e : Engine) (x : Int) : e.nextRun x ≤ 64 := by
  unfold Engine.nextRun
  split
  · exact Nat.min_le_left _ _
  · exact Nat.zero_le _

section
variable {s : State} {x : Int} {a : Nat}

/-- What a run at the lock count makes of the engine (R63). -/
theorem State.locks_engineSafe (hst : s.engine.state = .acquiring) (hinit : s.engine.initialStep = false) (ps : Nat) :
    s.engineSafe (((s.setEngine { s.engine with stepNeeded := false }).setUncertainty ps).enterState .locked) := by
  have hneed : s.engineSafe (s.setEngine { s.engine with stepNeeded := false }) :=
    State.setEngine_engineSafe rfl fun h => Engine.wf_stepNeeded h nofun
  have hleft : (s.setEngine { s.engine with stepNeeded := false }).engine.state ≠ .freerun := hst ▸ nofun
  refine (hneed.trans (State.setUncertainty_engineSafe hleft ps)).trans ?_
  refine State.engineSafe_of_wf rfl rfl fun h => Engine.wf_locked h ?_ ?_ ?_ _
  all_goals rw [State.engine_setUncertainty]
  · exact hst
  · exact hinit
  · rfl

theorem State.lockTest_engineSafe (hst : s.engine.state = .acquiring) (hinit : s.engine.initialStep = false) :
    s.engineSafe (s.lockTest x a) := by
  have hrun : s.engineSafe (s.setEngine { s.engine with goodRun := s.engine.nextRun x }) :=
    State.setEngine_engineSafe rfl fun h => Engine.wf_goodRun h (s.engine.nextRun_le x) fun _ => .inl hst
  unfold State.lockTest
  dsimp only
  split
  · refine hrun.trans (State.locks_engineSafe ?_ ?_ _)
    · exact hst
    · exact hinit
  · exact hrun

/-- What the initial step sets besides the step (R59). -/
theorem State.initialStepSet_engineSafe (h : s.engine.state ≠ .freerun) (ps : Nat) :
    s.engineSafe ((s.setUncertainty ps).setEngine
      { (s.setUncertainty ps).engine with initialStep := false, goodRun := 0 }) :=
  (State.setUncertainty_engineSafe h ps).trans
    (State.setEngine_engineSafe rfl fun hw => Engine.wf_noRun (Engine.wf_initialStepMade hw))

theorem State.initialStepOn_engineSafe (hst : s.engine.state = .acquiring) : s.engineSafe (s.initialStepOn x a) := by
  unfold State.initialStepOn
  split
  · exact s.engineSafe_refl
  · refine (s.stepTo_engineSafe .engine _ false).trans (State.initialStepSet_engineSafe ?_ _)
    rw [State.engine_stepTo]
    exact hst ▸ nofun

theorem State.autoStepOn_engineSafe (s : State) (x : Int) : s.engineSafe (s.autoStepOn x) := by
  cases hn : s.stepTarget (-x) with
  | none =>
    rw [State.autoStepOn_none hn]
    exact s.engineSafe_refl
  | some new =>
    rw [State.autoStepOn_some hn]
    exact (s.stepTo_engineSafe .engine new false).trans (State.engineSafe_of_wf rfl rfl Engine.wf_noRun)

theorem State.engineSlewOn_engineSafe (s : State) (x : Int) : s.engineSafe (s.engineSlewOn x) := by
  unfold State.engineSlewOn
  dsimp only
  split
  · exact State.engineSafe_of_wf rfl rfl Engine.wf_noRun
  · exact State.engineSafe_of_wf rfl rfl Engine.wf_noRun

theorem State.needStep_engineSafe (hst : s.engine.state = .acquiring) : s.engineSafe s.needStep := by
  have hneed : s.engineSafe (s.setEngine { s.engine with goodRun := 0, stepNeeded := true }) :=
    State.setEngine_engineSafe rfl fun h => Engine.wf_stepNeeded (Engine.wf_noRun h) fun _ => hst
  unfold State.needStep
  dsimp only
  split
  · exact hneed
  · exact hneed.trans (State.post_engineSafe _ _)

theorem State.acquiringCorrection_engineSafe (hst : s.engine.state = .acquiring) (r : RefId) :
    s.engineSafe (s.acquiringCorrection r x a).1 := by
  unfold State.acquiringCorrection
  dsimp only
  split_ifs with hignored hinitial
  · exact s.engineSafe_refl
  · exact State.initialStepOn_engineSafe hst
  · exact (s.loopUpdate_engineSafe x).trans (State.lockTest_engineSafe hst (Bool.eq_false_iff.mpr hinitial))
  · exact s.autoStepOn_engineSafe x
  · exact s.engineSlewOn_engineSafe x
  · exact State.needStep_engineSafe hst

theorem State.correct_engineSafe (hf : s.engine.state.follows) (r : RefId) : s.engineSafe (s.correct r x a).1 := by
  unfold State.correct
  split_ifs with hsat hlocked
  · exact s.engineSafe_refl
  · exact (s.loopUpdate_engineSafe x).trans
      (State.setUncertainty_engineSafe (s := s.loopUpdate x) (fun hn => nomatch hlocked.symm.trans hn) _)
  · exact State.acquiringCorrection_engineSafe (hf.resolve_right hlocked) r

theorem State.useMeasurement_engineSafe (s : State) (r : RefId) (x : Int) (a : Nat) (m : Option Message) :
    s.engineSafe (s.useMeasurement r x a m) := by
  by_cases h : s.engine.state.follows ∧ s.engine.selection = some r
  · have honly := s.updatedBy_onlyLeaps r m
    have hupdated : s.engineSafe (s.updatedBy r m) := State.engineSafe_of_engine (s.refs_updatedBy r m) honly.engine
    have hcorrect := State.correct_engineSafe (x := x) (a := a) (honly.engine.symm ▸ h.1) r
    rw [State.useMeasurement_corrects h.1 h.2 rfl]
    exact (hupdated.trans hcorrect).trans (State.engineSafe_of_wf rfl rfl id)
  · rw [State.useMeasurement_unused h]
    exact s.engineSafe_refl

end

end Sys2Proof.Machine
end

section
/-! SUPPORT. What the operations of the reference inputs make of the engine: a record that leaves USABLE is told to it, and
no other record leaves (R28 to R50). -/

namespace Sys2Proof.Machine

open Sys2Proof

section
variable {s : State} {r : RefId} {x : Reference}

/-! ### Entries of a record into its states (R29, R44) -/

theorem State.refEntered_engineSafe (h : (s.ref r).state = .usable → x.state = .usable) :
    s.engineSafe (s.refEntered r x) := (State.setRef_engineSafe h).trans (State.post_engineSafe _ _)

theorem State.disqualify_engineSafe (s : State) (r : RefId) (x : Reference) : s.engineSafe (s.disqualify r x) :=
  State.engineSafe_reevaluate rfl

theorem State.refLeavesFor_engineSafe (hx : x.state = (s.ref r).state) (st : RefState) :
    s.engineSafe (s.refLeavesFor r x st) := by
  unfold State.refLeavesFor
  dsimp only
  split <;> rename_i hu
  · exact State.engineSafe_reevaluate rfl
  · exact State.refEntered_engineSafe fun h => absurd (hx.trans h) hu

theorem State.refFailed_engineSafe (hx : x.state = (s.ref r).state) (count : Nat) :
    s.engineSafe (s.refFailed r x count) := by
  have hset {y : Reference} (hy : y.state = x.state) : s.engineSafe (s.setRef r y) :=
    State.setRef_engineSafe (hy.trans hx).trans
  by_cases hwin : x.state.windowed
  · rcases hwin with hst | hst
    · rw [State.refFailed_qualifying hst]
      exact hset rfl
    · rw [State.refFailed_usable hst]
      split
      · exact s.disqualify_engineSafe r x
      · exact hset rfl
  · rw [State.refFailed_unwindowed hwin]
    exact hset rfl

/-! ### Edges (R31 to R35) -/

theorem State.missEdge_engineSafe (s : State) (r : RefId) : s.engineSafe (s.missEdge r) := by
  by_cases hwin : (s.ref r).state.windowed
  · rcases hwin with hst | hst
    · have hnot : (s.ref r).state ≠ .usable := hst ▸ nofun
      rw [State.missEdge_qualifying hst]
      split
      · exact State.refEntered_engineSafe fun h => absurd h hnot
      · exact State.setRef_engineSafe fun h => absurd h hnot
    · rw [State.missEdge_usable hst]
      split
      · exact s.disqualify_engineSafe r _
      · exact State.setRef_engineSafe id
  · rw [State.missEdge_unwindowed hwin]
    exact s.engineSafe_refl

theorem State.acceptEdge_engineSafe (hx : x.state = (s.ref r).state) : s.engineSafe (s.acceptEdge r x) := by
  by_cases hl : ∀ c ∈ x.latch, c.badSeen = true
  · rw [State.acceptEdge_latches hl]
    exact State.setRef_engineSafe hx.trans
  · push Not at hl
    obtain ⟨c, hc, hb⟩ := hl
    rw [State.acceptEdge_replaces hc (Bool.eq_false_iff.mpr hb)]
    exact State.refFailed_engineSafe (x := s.replacing x) hx _

theorem State.windowEdge_engineSafe (hx : x.state = (s.ref r).state) : s.engineSafe (s.windowEdge r x) := by
  cases he : x.lastEdge with
  | none =>
    rw [State.windowEdge_none he]
    exact s.engineSafe_refl
  | some e =>
    rw [State.windowEdge_eq he]
    split_ifs
    · exact State.setRef_engineSafe hx.trans
    · exact State.acceptEdge_engineSafe hx
    · exact s.engineSafe_refl

theorem State.seeEdge_engineSafe (s : State) (r : RefId) : s.engineSafe (s.seeEdge r) := by
  cases hst : (s.ref r).state with
  | off =>
    rw [State.seeEdge_ignored (.inl hst)]
    exact s.engineSafe_refl
  | heldOff =>
    rw [State.seeEdge_ignored (.inr hst)]
    exact s.engineSafe_refl
  | seeking =>
    rw [State.seeEdge_seeking hst]
    exact State.refEntered_engineSafe fun h => nomatch hst.symm.trans h
  | qualifying =>
    rw [State.seeEdge_windowed (.inl hst)]
    exact State.windowEdge_engineSafe rfl
  | usable =>
    rw [State.seeEdge_windowed (.inr hst)]
    exact State.windowEdge_engineSafe rfl

/-! ### Measurements and messages (R36 to R43, R46) -/

theorem State.qualify_engineSafe (hx : x.state = (s.ref r).state) (offset : Int) :
    s.engineSafe (s.qualify r x offset) := by
  by_cases hg : x.good offset
  · rw [State.qualify_good hg]
    split
    · exact State.engineSafe_reevaluate rfl
    · exact State.setRef_engineSafe hx.trans
  · rw [State.qualify_far hg]
    exact State.setRef_engineSafe hx.trans

theorem State.measureUsable_engineSafe (hx : x.state = (s.ref r).state) (offset : Int) (accuracy : Nat)
    (m : Option Message) : s.engineSafe (s.measureUsable r x offset accuracy m) := by
  rw [State.measureUsable_eq]
  split
  · exact s.disqualify_engineSafe r _
  · have hset : s.engineSafe
        (s.setRef r { x with phaseRun := s.nextPhaseRun r x offset, disagree := s.disagrees r x offset }) :=
      State.setRef_engineSafe hx.trans
    refine State.engineSafe.trans ?_ (State.useMeasurement_engineSafe _ r offset accuracy m)
    split
    · exact hset
    · exact hset.trans (State.post_engineSafe _ _)

theorem State.measured_engineSafe (hx : x.state = (s.ref r).state) (c : Capture) (offset : Int) (accuracy : Nat)
    (m : Option Message) (fit : Bool) : s.engineSafe (s.measured r x c offset accuracy m fit) := by
  have hy : (x.completed s.run c offset accuracy m).state = (s.ref r).state := hx
  by_cases hwin : x.state.windowed
  · rcases hwin with hst | hst
    · rw [State.measured_qualifying hst]
      dsimp only
      split
      · exact State.qualify_engineSafe hy offset
      · exact State.setRef_engineSafe hx.trans
    · rw [State.measured_usable hst]
      dsimp only
      split
      · exact State.measureUsable_engineSafe hy offset accuracy m
      · exact s.disqualify_engineSafe r _
  · rw [State.measured_unwindowed hwin]
    exact State.setRef_engineSafe hx.trans

theorem State.badMessage_engineSafe (hx : x.state = (s.ref r).state) : s.engineSafe (s.badMessage r x) := by
  rw [State.badMessage_eq]
  exact State.refFailed_engineSafe (x := x.withBadMessage) hx _

theorem State.judgeMessage_engineSafe (hx : x.state = (s.ref r).state) (m : Message) :
    s.engineSafe (s.judgeMessage r x m) := by
  unfold State.judgeMessage
  split
  · exact State.badMessage_engineSafe hx
  · split
    · exact State.measured_engineSafe (x := { x with badRun := 0 }) hx _ _ _ _ _
    · exact State.badMessage_engineSafe hx

theorem State.arriveMessage_engineSafe (s : State) (r : RefId) (m : Option Message) :
    s.engineSafe (s.arriveMessage r m) := by
  have hx : { s.ref r with gather := .hunting }.state = (s.ref r).state := rfl
  unfold State.arriveMessage
  dsimp only
  split
  · exact State.badMessage_engineSafe hx
  · exact State.judgeMessage_engineSafe hx _

/-! ### SET_REFERENCE (R48) -/

theorem State.changeReference_engineSafe (s : State) (r : RefId) (new : RefSettings) :
    s.engineSafe (s.changeReference r new) := by
  have retold (t : State) (p : Prop) [Decidable p] (h : s.engineSafe t) :
      s.engineSafe (if p then t.reevaluate else t) := by
    split
    · exact h.trans (State.engineSafe_reevaluate rfl)
    · exact h
  unfold State.changeReference
  dsimp only
  split
  · exact retold _ _ (State.refLeavesFor_engineSafe (x := { s.ref r with settings := new }) rfl _)
  · exact retold _ _ (State.setRef_engineSafe id)

end

/-! ### The events (R31, R35, R37, R40, R45, R193) -/

theorem referenceEdgeState_engineSafe (r : RefId) (e : Edge) (s : State) : s.engineSafe (referenceEdgeState r e s) := by
  refine State.unlessHeld_induct s.engineSafe_refl ?_
  split
  · refine State.engineSafe.trans ?_ (State.seeEdge_engineSafe _ r)
    split
    · exact s.missEdge_engineSafe r
    · exact s.engineSafe_refl
  · exact s.engineSafe_refl

theorem missingEdgeExpiryState_engineSafe (r : RefId) (s : State) : s.engineSafe (missingEdgeExpiryState r s) := by
  refine State.unlessHeld_induct s.engineSafe_refl ?_
  split
  · exact s.missEdge_engineSafe r
  · exact s.engineSafe_refl

theorem messageCharacterState_engineSafe (r : RefId) (c : Character) (s : State) :
    s.engineSafe (messageCharacterState r c s) := by
  refine State.unlessHeld_induct s.engineSafe_refl ?_
  unfold State.receiveCharacter
  dsimp only
  split
  · split
    · exact s.engineSafe_refl
    · exact State.setRef_engineSafe id
    · exact s.arriveMessage_engineSafe r _
  · exact s.engineSafe_refl

theorem messageArrivalState_engineSafe (r : RefId) (c : Character) (s : State) :
    s.engineSafe (messageArrivalState r c s) := by
  refine State.unlessHeld_induct s.engineSafe_refl ?_
  dsimp only
  split
  · split
    · exact s.engineSafe_refl
    · exact s.engineSafe_refl
    · exact s.arriveMessage_engineSafe r _
  · exact s.engineSafe_refl

theorem settleExpiryState_engineSafe (r : RefId) (s : State) : s.engineSafe (settleExpiryState r s) := by
  refine State.unlessHeld_induct s.engineSafe_refl ?_
  dsimp only
  split
  · split
    · exact State.measured_engineSafe rfl _ _ _ _ _
    · exact s.engineSafe_refl
  · exact s.engineSafe_refl

theorem holdOffExpiryState_engineSafe (r : RefId) (s : State) : s.engineSafe (holdOffExpiryState r s) := by
  refine State.unlessHeld_induct s.engineSafe_refl ?_
  dsimp only
  split
  · exact s.engineSafe_refl
  · split <;> rename_i hc
    · exact State.refEntered_engineSafe fun h => nomatch hc.1.symm.trans h
    · exact s.engineSafe_refl

end Sys2Proof.Machine
end

section
/-! SUPPORT. Each command keeps the engine legal: those of the timescale unit, of the references and of the engine, the
resets, and all others, which leave the engine as it is. -/

namespace Sys2Proof.Machine

open Sys2Proof

/-! ### Rules for commands and transactions -/

/-- The state that an owner's judgement of a command leaves: the one it was made in, where the command is refused. -/
def Judged.leaves (s : State) : Judged → State
  | .refused _ _ => s
  | .taken t _ => t

theorem State.takeCommand_leaves {P : State → Prop} {s : State} {mp : Mp} {row : CommandRow}
    {act : List Word → State → Judged} (hs : P s) (hfinish : ∀ t code ws, P t → P (t.finish mp code ws))
    (h : ∀ ws, P ((act ws s).leaves s)) : P (s.takeCommand mp row act) :=
  State.takeCommand_induct hs hfinish fun ws t out ht => by
    have hleft := h ws
    rwa [ht] at hleft

theorem State.takeCommand_engineSafe {s : State} {mp : Mp} {row : CommandRow} {act : List Word → State → Judged}
    (h : ∀ ws, s.engineSafe ((act ws s).leaves s)) : s.engineSafe (s.takeCommand mp row act) :=
  State.takeCommand_leaves s.engineSafe_refl (fun _ _ _ ht => ht.trans (State.engineSafe_of_engine rfl rfl)) h

theorem Judged.withParams_engineSafe {α : Type} {s : State} {params : Option α} {act : α → Judged}
    (h : ∀ x, params = some x → s.engineSafe ((act x).leaves s)) : s.engineSafe ((withParams params act).leaves s) := by
  cases params with
  | none => exact s.engineSafe_refl
  | some x => exact h x rfl

theorem State.engine_takeCommand {s : State} {mp : Mp} {row : CommandRow} {act : List Word → State → Judged}
    (h : ∀ ws, ((act ws s).leaves s).engine = s.engine) : (s.takeCommand mp row act).engine = s.engine :=
  State.takeCommand_leaves (P := fun t => t.engine = s.engine) rfl (fun _ _ _ ht => ht) h

theorem Judged.engine_withParams {α : Type} {s : State} {params : Option α} {act : α → Judged}
    (h : ∀ x, ((act x).leaves s).engine = s.engine) : ((withParams params act).leaves s).engine = s.engine := by
  cases params with
  | none => rfl
  | some x => exact h x

theorem State.engine_endTransaction {s : State} {mp : Mp} {len : Nat} {data : Transaction → List Byte} {fits : Bool}
    {act : Transaction → State → State} (h : ∀ (x : Transaction) (t : State), (act x t).engine = t.engine) :
    (s.endTransaction mp len data fits act).engine = s.engine :=
  State.endTransaction_induct (P := fun t => t.engine = s.engine) rfl (fun _ _ ht => ht) fun x t ht => (h x t).trans ht

theorem State.engine_unlessHeld {s : State} {f : State → State} (h : (f s).engine = s.engine) :
    (s.unlessHeld f).engine = s.engine :=
  State.unlessHeld_induct (P := fun t => t.engine = s.engine) rfl h

/-! ### The timescale unit, which leaves the engine but for a step (R73) -/

theorem setTimeState_engineSafe (mp : Mp) (s : State) : s.engineSafe (setTimeState mp s) := by
  refine State.takeCommand_engineSafe fun ws => ?_
  unfold setTimeAct
  split
  · exact Judged.withParams_engineSafe fun _ _ =>
      (s.stepTo_engineSafe _ _ _).trans (State.vouch_engineSafe _ _)
  · exact s.engineSafe_refl

theorem stepByState_engineSafe (mp : Mp) (s : State) : s.engineSafe (stepByState mp s) := by
  refine State.takeCommand_engineSafe fun ws => ?_
  unfold stepByAct
  split
  · exact Judged.withParams_engineSafe fun _ _ => s.stepTo_engineSafe _ _ _
  · exact s.engineSafe_refl

theorem State.engine_alignLeap (s : State) : s.alignLeap.engine = s.engine := by
  rw [State.alignLeap_frame]

theorem engine_slewCompletionState (s : State) : (slewCompletionState s).engine = s.engine := by
  refine State.engine_unlessHeld ?_
  split
  · rfl
  · split <;> rfl

theorem engine_insertedSecondStartState (s : State) : (insertedSecondStartState s).engine = s.engine := by
  refine State.engine_unlessHeld ?_
  split
  · rfl
  · split <;> rfl

theorem engine_leapInstantState (s : State) : (leapInstantState s).engine = s.engine := by
  refine State.engine_unlessHeld ?_
  split
  · rfl
  · split
    · split <;> rfl
    · split <;> rfl

theorem engine_slewByState (mp : Mp) (s : State) : (slewByState mp s).engine = s.engine := by
  refine State.engine_takeCommand fun ws => ?_
  unfold slewByAct
  split
  · refine Judged.engine_withParams fun a => ?_
    unfold State.slewOrBusy
    split <;> rfl
  · rfl

theorem engine_setLeapState (mp : Mp) (s : State) : (setLeapState mp s).engine = s.engine := by
  refine State.engine_takeCommand fun ws => ?_
  unfold setLeapAct
  split
  · rfl
  · refine Judged.engine_withParams fun x => ?_
    dsimp only
    split <;> rfl

theorem engine_clearLeapState (mp : Mp) (s : State) : (clearLeapState mp s).engine = s.engine := by
  refine State.engine_takeCommand fun ws => ?_
  unfold clearLeapAct
  split_ifs <;> rfl

theorem engine_setUtcOffsetState (mp : Mp) (s : State) : (setUtcOffsetState mp s).engine = s.engine := by
  refine State.engine_takeCommand fun ws => ?_
  unfold setUtcOffsetAct
  dsimp only
  split_ifs
  · rfl
  · rfl
  · exact State.engine_alignLeap _

/-! ### The engine (R67, R68, R71, R74) and the references -/

theorem setReferenceState_engineSafe (mp : Mp) (s : State) : s.engineSafe (setReferenceState mp s) :=
  State.takeCommand_engineSafe fun _ => Judged.withParams_engineSafe fun x _ => s.changeReference_engineSafe x.1 x.2

theorem gradeGrowthCrossingState_engineSafe (s : State) : s.engineSafe (gradeGrowthCrossingState s) := by
  refine State.unlessHeld_induct s.engineSafe_refl ?_
  split
  · exact s.engineSafe_refl
  · exact State.engineSafe_of_wf rfl rfl id

/-- New settings in range, with U going on from its value where the growth changes (R69, R74). -/
theorem State.changeEngine_engineSafe (s : State) {new : EngineSettings} (hnew : new.wf) (limit : Nat) :
    s.engineSafe (s.changeEngine new limit) := by
  refine State.engineSafe_of_wf (s.refs_changeEngine new limit) (by rw [State.changeEngine_eq]) fun h => ?_
  rw [State.changeEngine_eq]
  dsimp only
  split
  · exact Engine.wf_settings h hnew
  · exact Engine.wf_settings (Engine.wf_reanchored h s.run) hnew

theorem setEngineState_engineSafe (mp : Mp) (s : State) : s.engineSafe (setEngineState mp s) :=
  State.takeCommand_engineSafe fun ws => Judged.withParams_engineSafe fun x hx =>
    s.changeEngine_engineSafe ((setEngineParams_iff ws x.1 x.2).mp hx).1 x.2

/-- PINNED has no selection, no lock run and U as it is declared (R67). -/
theorem State.pinned_engineSafe (s : State) (declared : Nat) : s.engineSafe (s.pinned declared) := fun hw => by
  obtain ⟨_, _, hengine, _⟩ := s.pinned_spec declared
  obtain ⟨⟨hset, _, _, _, hint, _⟩, _⟩ := s.engineWf_iff.mp hw
  rw [State.engineWf_iff, hengine]
  refine ⟨⟨hset, iff_of_false nofun (by decide : ¬ EngineState.pinned.follows), ⟨nofun, nofun⟩, fun a ha => ?_, hint,
    Nat.zero_le _, fun h0 => absurd rfl h0, nofun, nofun⟩, nofun⟩
  cases ha
  exact Nat.min_le_left _ _

/-- UNPIN goes to HOLDOVER and on by a re-evaluation (R68). -/
theorem State.unpinned_engineSafe {s : State} (hst : s.engine.state = .pinned) :
    s.engineSafe s.enterHoldover.reevaluate := fun hw => by
  have he := (s.engineWf_iff.mp hw).1
  have hsel : s.engine.selection = none := he.selection_none (by rw [hst]; decide)
  have hheld := Engine.wf_holdover he (hst ▸ nofun) s.run
  refine State.reevaluate_engineWf ?_
  rw [State.engine_enterHoldover]
  rwa [← hsel] at hheld

theorem unpinState_engineSafe (mp : Mp) (s : State) : s.engineSafe (unpinState mp s) := by
  refine State.takeCommand_engineSafe fun ws => ?_
  unfold unpinAct
  split <;> rename_i hst
  · exact State.unpinned_engineSafe hst
  · exact s.engineSafe_refl

/-! ### The resets (R76, R187, R190) -/

/-- RESTART leaves no selection: an engine that followed a reference is in HOLDOVER (R76). -/
theorem State.restartEngine_wf {s : State} (h : s.engine.wf) :
    s.restartEngine.wf ∧ s.restartEngine.selection = none := by
  unfold State.restartEngine
  by_cases hf : s.engine.state.follows
  · have hleft : s.engine.state ≠ .freerun := fun hn => by
      rcases hf with hf | hf <;> exact nomatch hf.symm.trans hn
    simp only [if_pos hf]
    exact ⟨Engine.wf_holdover h hleft s.run, trivial⟩
  · simp only [if_neg hf]
    exact ⟨Engine.wf_stepNeeded (Engine.wf_noRun h) nofun, h.selection_none hf⟩

theorem restartState_engineSafe (mp : Mp) (s : State) : s.engineSafe (restartState mp s) := by
  refine State.unlessHeld_induct s.engineSafe_refl ?_
  split
  · exact s.engineSafe_refl
  · unfold State.judgeRestart
    split_ifs
    · exact State.engineSafe_of_engine rfl rfl
    · exact State.engineSafe_of_engine rfl rfl
    · intro hw
      obtain ⟨he, hsel⟩ := State.restartEngine_wf (s.engineWf_iff.mp hw).1
      rw [State.engineWf_iff, State.restart_eq]
      exact ⟨he, fun r hr => nomatch hsel.symm.trans hr⟩
    · exact s.engineSafe_refl

theorem Engine.wf_powerOn : Engine.powerOn.wf := by
  refine ⟨by decide, by decide, by decide, nofun, by decide, by decide, by decide, nofun, nofun⟩

theorem powerOnState_engineSafe (held : Bool) (s : State) : s.engineSafe (powerOnState held s) := fun _ =>
  (State.engineWf_iff _).mpr ⟨Engine.wf_powerOn, nofun⟩

/-! ### Marks and lines -/

theorem engine_addMarkState (mp : Mp) (s : State) : (addMarkState mp s).engine = s.engine := by
  refine State.engine_takeCommand fun ws => ?_
  unfold addMarkAct
  split
  · rfl
  · refine Judged.engine_withParams fun x => ?_
    unfold State.placeMark
    split_ifs
    · rfl
    · rfl
    · rfl
    · split <;> rfl

theorem State.engine_handOutcome (s : State) (o : Outcome) : (s.handOutcome o).engine = s.engine := by
  rw [State.handOutcome_frame]

theorem engine_cancelMarkState (mp : Mp) (s : State) : (cancelMarkState mp s).engine = s.engine := by
  refine State.engine_takeCommand fun ws => Judged.engine_withParams fun x => ?_
  unfold State.cancelById
  split
  · rfl
  · split
    · exact State.engine_handOutcome _ _
    · rfl

theorem State.onlyLines.engine {s t : State} (h : s.onlyLines t) : t.engine = s.engine := by rw [h.eq]

theorem engine_markTakingState (faulty : BitVec 16) (s : State) : (markTakingState faulty s).engine = s.engine := by
  refine State.engine_unlessHeld ?_
  split
  · exact (s.judgeOvertakenAll_onlyLines _).engine
  · split
    · rw [State.takeMark_frame]
    · exact (s.judgeOvertakenAll_onlyLines _).engine

theorem engine_lineRestartState (mp : Mp) (s : State) : (lineRestartState mp s).engine = s.engine := by
  refine State.engine_takeCommand fun ws => Judged.engine_withParams fun i => ?_
  split <;> rfl

theorem engine_senseLineState (mp : Mp) (s : State) : (senseLineState mp s).engine = s.engine := by
  refine State.engine_takeCommand fun ws => Judged.engine_withParams fun x => ?_
  dsimp only [Judged.leaves]
  split <;> rfl

theorem engine_compositionState (s : State) : (compositionState s).engine = s.engine := by
  refine State.engine_unlessHeld ?_
  split
  · unfold State.compose
    dsimp only
    split <;> rfl
  · rfl

theorem engine_frameReleaseState (s : State) : (frameReleaseState s).engine = s.engine := by
  refine State.engine_unlessHeld ?_
  dsimp only
  split
  · rfl
  · split <;> rfl

/-! ### The network ports, the client table and the master ports -/

theorem State.onlyNetwork.engine {s t : State} (h : s.onlyNetwork t) : t.engine = s.engine := by
  obtain ⟨_, _, _, _, he, _⟩ := h
  exact he

theorem engine_forgetClientState (mp : Mp) (s : State) : (forgetClientState mp s).engine = s.engine := by
  refine State.engine_takeCommand fun ws => Judged.engine_withParams fun a => ?_
  unfold State.forgetClient
  split <;> rfl

theorem engine_unknownCommandState (mp : Mp) (s : State) : (unknownCommandState mp s).engine = s.engine := by
  refine State.engine_unlessHeld ?_
  split
  · rfl
  · split <;> rfl

theorem engine_unknownTransactionState (mp : Mp) (code : Byte) (s : State) :
    (unknownTransactionState mp code s).engine = s.engine := by
  unfold unknownTransactionState
  split
  · rfl
  · exact State.engine_endTransaction fun _ _ => rfl

theorem engine_claimState (mp : Mp) (s : State) : (claimState mp s).engine = s.engine := by
  refine State.engine_takeCommand fun ws => Judged.engine_withParams fun lease => ?_
  dsimp only
  split
  · rfl
  · split <;> rfl

theorem engine_releaseState (mp : Mp) (s : State) : (releaseState mp s).engine = s.engine := by
  refine State.engine_takeCommand fun ws => ?_
  unfold releaseAct
  split <;> rfl

theorem engine_leaseExpiryState (s : State) : (leaseExpiryState s).engine = s.engine := by
  refine State.engine_unlessHeld ?_
  split
  · rfl
  · split <;> rfl

theorem engine_readMoreState (mp : Mp) (s : State) : (readMoreState mp s).engine = s.engine := by
  refine State.engine_takeCommand fun ws => ?_
  unfold readMoreAct
  split <;> rfl

/-! ### Every command -/

/-- Every command keeps the engine legal. -/
theorem exec_engineSafe (c : Instr) (s : State) : ∃ t, exec c s = .next t ∧ s.engineSafe t := by
  have keeps {t : State} (hx : exec c s = .next t) (hr : t.refs = s.refs) (he : t.engine = s.engine) :
      ∃ t, exec c s = .next t ∧ s.engineSafe t := ⟨t, hx, State.engineSafe_of_engine hr he⟩
  have lines {t : State} (hx : exec c s = .next t) (h : s.onlyLines t) : ∃ t, exec c s = .next t ∧ s.engineSafe t :=
    keeps hx h.refs h.engine
  have network {t : State} (hx : exec c s = .next t) (h : s.onlyNetwork t) : ∃ t, exec c s = .next t ∧ s.engineSafe t :=
    keeps hx h.refs h.engine
  cases c with
  | powerOn held => exact ⟨_, rfl, powerOnState_engineSafe held s⟩
  | restart mp => exact ⟨_, rfl, restartState_engineSafe mp s⟩
  | setTime mp => exact ⟨_, rfl, setTimeState_engineSafe mp s⟩
  | stepBy mp => exact ⟨_, rfl, stepByState_engineSafe mp s⟩
  | referenceEdge r e => exact ⟨_, rfl, referenceEdgeState_engineSafe r e s⟩
  | missingEdgeExpiry r => exact ⟨_, rfl, missingEdgeExpiryState_engineSafe r s⟩
  | messageCharacter r ch => exact ⟨_, rfl, messageCharacterState_engineSafe r ch s⟩
  | messageArrival r ch => exact ⟨_, rfl, messageArrivalState_engineSafe r ch s⟩
  | settleExpiry r => exact ⟨_, rfl, settleExpiryState_engineSafe r s⟩
  | holdOffExpiry r => exact ⟨_, rfl, holdOffExpiryState_engineSafe r s⟩
  | setReference mp => exact ⟨_, rfl, setReferenceState_engineSafe mp s⟩
  | gradeGrowthCrossing => exact ⟨_, rfl, gradeGrowthCrossingState_engineSafe s⟩
  | setEngine mp => exact ⟨_, rfl, setEngineState_engineSafe mp s⟩
  | pin mp => exact ⟨_, rfl, State.takeCommand_engineSafe fun _ => s.pinned_engineSafe _⟩
  | unpin mp => exact ⟨_, rfl, unpinState_engineSafe mp s⟩
  | resetRelease => exact keeps rfl rfl rfl
  | tick => exact keeps rfl (State.refs_unlessHeld rfl) (State.engine_unlessHeld rfl)
  | slewCompletion => exact keeps rfl (refs_slewCompletionState s) (engine_slewCompletionState s)
  | insertedSecondStart => exact keeps rfl (refs_insertedSecondStartState s) (engine_insertedSecondStartState s)
  | leapInstant => exact keeps rfl (refs_leapInstantState s) (engine_leapInstantState s)
  | slewBy mp => exact keeps rfl (refs_slewByState mp s) (engine_slewByState mp s)
  | setLeap mp => exact keeps rfl (refs_setLeapState mp s) (engine_setLeapState mp s)
  | clearLeap mp => exact keeps rfl (refs_clearLeapState mp s) (engine_clearLeapState mp s)
  | setUtcOffset mp => exact keeps rfl (refs_setUtcOffsetState mp s) (engine_setUtcOffsetState mp s)
  | setLocalOffset mp =>
    exact keeps rfl (refs_setLocalOffsetState mp s)
      (State.engine_takeCommand fun _ => Judged.engine_withParams fun _ => rfl)
  | readTime mp | readEngine mp | identify mp | takeOutcomes mp | setEventMask mp | networkClear mp =>
    exact keeps rfl (State.refs_takeCommand fun _ _ _ h => by cases h; rfl) (State.engine_takeCommand fun _ => rfl)
  | readReference mp =>
    exact keeps rfl (refs_readReferenceState mp s)
      (State.engine_takeCommand fun _ => Judged.engine_withParams fun _ => rfl)
  | readPort mp =>
    exact keeps rfl (refs_readPortState mp s) (State.engine_takeCommand fun _ => Judged.engine_withParams fun _ => rfl)
  | readTable mp =>
    exact keeps rfl (refs_readTableState mp s) (State.engine_takeCommand fun _ => Judged.engine_withParams fun _ => rfl)
  | readMore mp => exact keeps rfl (refs_readMoreState mp s) (engine_readMoreState mp s)
  | addMark mp => exact keeps rfl (refs_addMarkState mp s) (engine_addMarkState mp s)
  | cancelMark mp => exact keeps rfl (refs_cancelMarkState mp s) (engine_cancelMarkState mp s)
  | markTaking faulty => exact keeps rfl (refs_markTakingState faulty s) (engine_markTakingState faulty s)
  | setLine mp =>
    exact keeps rfl (refs_setLineState mp s) (State.engine_takeCommand fun _ => Judged.engine_withParams fun _ => rfl)
  | lineRestart mp => exact keeps rfl (refs_lineRestartState mp s) (engine_lineRestartState mp s)
  | senseLine mp => exact keeps rfl (refs_senseLineState mp s) (engine_senseLineState mp s)
  | changePoint i => exact lines rfl (changePointState_onlyLines i s)
  | pulseStart i load => exact lines rfl (pulseStartState_onlyLines i load s)
  | pulseEnd i => exact lines rfl (pulseEndState_onlyLines i s)
  | commitmentStart i load => exact lines rfl (commitmentStartState_onlyLines i load s)
  | frameBegin i load => exact lines rfl (frameBeginState_onlyLines i load s)
  | symbolStart i load => exact lines rfl (symbolStartState_onlyLines i load s)
  | symbolEnd i => exact lines rfl (symbolEndState_onlyLines i s)
  | frameEnd i => exact lines rfl (frameEndState_onlyLines i s)
  | composition => exact keeps rfl (refs_compositionState s) (engine_compositionState s)
  | frameRelease => exact keeps rfl (refs_frameReleaseState s) (engine_frameReleaseState s)
  | linkUp p => exact network rfl (linkUpState_onlyNetwork p s)
  | linkDown p => exact network rfl (linkDownState_onlyNetwork p s)
  | beaconDue => exact network rfl (beaconDueState_onlyNetwork s)
  | transmitEnd p => exact network rfl (transmitEndState_onlyNetwork p s)
  | askTimingPoint p => exact network rfl (askTimingPointState_onlyNetwork p s)
  | askArrival p f => exact network rfl (askArrivalState_onlyNetwork p f s)
  | idleCheck => exact network rfl (idleCheckState_onlyNetwork s)
  | setNetwork mp =>
    exact keeps rfl (refs_setNetworkState mp s)
      (State.engine_takeCommand fun _ => Judged.engine_withParams fun _ => rfl)
  | forgetClient mp => exact keeps rfl (refs_forgetClientState mp s) (engine_forgetClientState mp s)
  | writeParams mp rest =>
    exact keeps rfl (refs_writeParamsState mp rest s) (State.engine_endTransaction fun _ _ => by split <;> rfl)
  | post mp rest =>
    exact keeps rfl (refs_postState mp rest s) (State.engine_endTransaction fun _ _ => by split <;> rfl)
  | readResult mp len =>
    exact keeps rfl (refs_readResultState mp len s)
      (State.engine_endTransaction fun _ _ => by dsimp only; split <;> rfl)
  | sense mp rest =>
    exact keeps rfl (refs_senseState mp rest s) (State.engine_endTransaction fun _ _ => by split <;> rfl)
  | portClear mp len =>
    exact keeps rfl (refs_portClearState mp len s)
      (State.engine_endTransaction fun _ _ => by dsimp only; split <;> rfl)
  | readState mp len | readErrors mp len =>
    exact keeps rfl (State.refs_endTransaction fun _ _ => rfl) (State.engine_endTransaction fun _ _ => rfl)
  | unknownTransaction mp code =>
    exact keeps rfl (refs_unknownTransactionState mp code s) (engine_unknownTransactionState mp code s)
  | transactionBegin mp => exact keeps rfl (State.refs_unlessHeld rfl) (State.engine_unlessHeld rfl)
  | unknownCommand mp => exact keeps rfl (refs_unknownCommandState mp s) (engine_unknownCommandState mp s)
  | claim mp => exact keeps rfl (refs_claimState mp s) (engine_claimState mp s)
  | release mp => exact keeps rfl (refs_releaseState mp s) (engine_releaseState mp s)
  | leaseExpiry => exact keeps rfl (refs_leaseExpiryState s) (engine_leaseExpiryState s)

/-- Settles O55: a step runs one command, or idles. -/
theorem stepKeepsTheEngine : Obligations.StepKeepsTheEngine := by
  intro s t hw hstep
  unfold step at hstep
  split at hstep
  · cases hstep
    exact hw
  · rename_i c rest _
    obtain ⟨u, hu, hsafe⟩ := exec_engineSafe c { s with pending := rest }
    rw [hu] at hstep
    cases hstep
    exact hsafe hw

end Sys2Proof.Machine
end

section
/-! SUPPORT. The driven blocks: the mark scheduler, the output lines, the frame composer, the network ports and the client
table. A command of the timescale unit, of the references, of the engine or of a mailbox reaches them by a step alone. -/

namespace Sys2Proof.Machine

open Sys2Proof

/-- What the state holds of the driven blocks. -/
def State.driven (s : State) : List Mark × Four (List Outcome) × Sixteen Line × Composer × Network × ClientTable :=
  (s.marks, s.outcomes, s.lines, s.composer, s.net, s.clients)

/-- A relation between a state and what an operation makes of it: it composes, it does not look beyond the driven blocks,
and it holds of every step. -/
structure DrivenRule (R : State → State → Prop) : Prop where
  trans : ∀ {s t u : State}, R s t → R t u → R s u
  keeps : ∀ {s t : State}, t.driven = s.driven → R s t
  step : ∀ (s : State) (src : Origin) (new : Instant) (clearFrac : Bool), R s (s.stepTo src new clearFrac)

/-- The commands that reach the driven blocks by a step alone. -/
def reachesByStepAlone : Instr → Bool
  | .powerOn _ | .restart _ | .addMark _ | .cancelMark _ | .takeOutcomes _ | .markTaking _ | .setLine _ | .changePoint _
  | .pulseStart _ _ | .pulseEnd _ | .commitmentStart _ _ | .lineRestart _ | .senseLine _ | .composition | .frameRelease
  | .frameBegin _ _ | .symbolStart _ _ | .symbolEnd _ | .frameEnd _ | .linkUp _ | .linkDown _ | .beaconDue
  | .transmitEnd _ | .askTimingPoint _ | .askArrival _ _ | .setNetwork _ | .idleCheck | .forgetClient _
  | .portClear _ _ | .networkClear _ => false
  | _ => true

/-! ### Operations that leave the driven blocks -/

theorem State.onlyEngine.driven {s t : State} (h : s.onlyEngine t) : t.driven = s.driven := by
  rw [h.eq]
  rfl

theorem State.driven_setEngine (s : State) (e : Engine) : (s.setEngine e).driven = s.driven := rfl

theorem State.driven_reevaluate (s : State) : s.reevaluate.driven = s.driven := s.reevaluate_onlyEngine.driven

theorem State.driven_setUncertainty (s : State) (ps : Nat) : (s.setUncertainty ps).driven = s.driven :=
  (s.setUncertainty_onlyEngine ps).driven

theorem State.driven_alignLeap (s : State) : s.alignLeap.driven = s.driven := by
  rw [State.alignLeap_frame]
  rfl

theorem State.driven_updatedBy (s : State) (r : RefId) (m : Option Message) : (s.updatedBy r m).driven = s.driven := by
  rw [s.updatedBy_onlyLeaps r m]
  rfl

theorem State.driven_vouch (s : State) (declared : Nat) : (s.vouch declared).driven = s.driven := by
  unfold State.vouch
  split
  · rfl
  · exact s.driven_setUncertainty _

theorem State.driven_changeEngine (s : State) (new : EngineSettings) (limit : Nat) :
    (s.changeEngine new limit).driven = s.driven := by
  rw [State.changeEngine_eq]
  rfl

theorem State.driven_pinned (s : State) (declared : Nat) : (s.pinned declared).driven = s.driven := by
  obtain ⟨h, _⟩ := s.pinned_spec declared
  rw [h]
  rfl

section
variable {R : State → State → Prop} (hR : DrivenRule R) {s : State}
include hR

theorem DrivenRule.refl (s : State) : R s s := hR.keeps rfl

/-! ### Rules for commands and transactions -/

theorem DrivenRule.unlessHeld {f : State → State} (h : R s (f s)) : R s (s.unlessHeld f) :=
  State.unlessHeld_induct (hR.refl s) h

theorem DrivenRule.takeCommand {mp : Mp} {row : CommandRow} {act : List Word → State → Judged}
    (h : ∀ ws, R s ((act ws s).leaves s)) : R s (s.takeCommand mp row act) :=
  State.takeCommand_leaves (hR.refl s) (fun _ _ _ ht => hR.trans ht (hR.keeps rfl)) h

theorem DrivenRule.withParams {α : Type} {params : Option α} {act : α → Judged}
    (h : ∀ x, R s ((act x).leaves s)) : R s ((withParams params act).leaves s) := by
  cases params with
  | none => exact hR.refl s
  | some x => exact h x

theorem DrivenRule.endTransaction {mp : Mp} {len : Nat} {data : Transaction → List Byte} {fits : Bool}
    {act : Transaction → State → State} (h : ∀ (x : Transaction) (t : State), (act x t).driven = t.driven) :
    R s (s.endTransaction mp len data fits act) :=
  State.endTransaction_induct (hR.refl s) (fun _ _ ht => hR.trans ht (hR.keeps rfl))
    fun x t ht => hR.trans ht (hR.keeps (h x t))

/-! ### Measurements (R58 to R65) -/

theorem DrivenRule.correct (r : RefId) (x : Int) (a : Nat) : R s (s.correct r x a).1 := by
  have initial : R s (s.initialStepOn x a) := by
    unfold State.initialStepOn
    split
    · exact hR.refl s
    · exact hR.trans (hR.step s _ _ _)
        (hR.keeps ((State.driven_setEngine _ _).trans (State.driven_setUncertainty _ _)))
  have auto : R s (s.autoStepOn x) := by
    unfold State.autoStepOn
    split
    · exact hR.refl s
    · exact hR.trans (hR.step s _ _ _) (hR.keeps rfl)
  have slewed : (s.engineSlewOn x).driven = s.driven := by
    unfold State.engineSlewOn
    dsimp only
    split <;> rfl
  have needed : s.needStep.driven = s.driven := by
    rw [State.needStep_eq rfl]
    split <;> rfl
  unfold State.correct State.acquiringCorrection
  dsimp only
  split_ifs
  · exact hR.refl s
  · exact hR.keeps (State.driven_setUncertainty _ _)
  · exact hR.refl s
  · exact initial
  · exact hR.keeps (s.lockTest_onlyEngine x a).driven
  · exact auto
  · exact hR.keeps slewed
  · exact hR.keeps needed

theorem DrivenRule.useMeasurement (r : RefId) (x : Int) (a : Nat) (m : Option Message) : R s (s.useMeasurement r x a m) := by
  by_cases h : s.engine.state.follows ∧ s.engine.selection = some r
  · cases hc : (s.updatedBy r m).correct r x a with
    | mk c act =>
      have hcorrect := DrivenRule.correct hR (s := s.updatedBy r m) r x a
      rw [hc] at hcorrect
      rw [State.useMeasurement_corrects h.1 h.2 hc]
      exact hR.trans (hR.keeps (s.driven_updatedBy r m)) (hR.trans hcorrect (hR.keeps rfl))
  · rw [State.useMeasurement_unused h]
    exact hR.refl s

end

/-! ### The reference inputs (R28 to R50) -/

theorem State.driven_disqualify (s : State) (r : RefId) (x : Reference) : (s.disqualify r x).driven = s.driven :=
  State.driven_reevaluate _

theorem State.driven_refFailed (s : State) (r : RefId) (x : Reference) (count : Nat) :
    (s.refFailed r x count).driven = s.driven := by
  unfold State.refFailed
  split
  · rfl
  · split
    · exact s.driven_disqualify r x
    · rfl
  · rfl
  · rfl
  · rfl

theorem State.driven_missEdge (s : State) (r : RefId) : (s.missEdge r).driven = s.driven := by
  unfold State.missEdge
  dsimp only
  split
  · split <;> rfl
  · split
    · exact s.driven_disqualify r _
    · rfl
  · rfl
  · rfl
  · rfl

theorem State.driven_windowEdge (s : State) (r : RefId) (x : Reference) : (s.windowEdge r x).driven = s.driven := by
  unfold State.windowEdge State.acceptEdge
  split
  · rfl
  · split_ifs
    · rfl
    · dsimp only
      split
      · rfl
      · split
        · rfl
        · exact s.driven_refFailed r _ _
    · rfl

theorem State.driven_seeEdge (s : State) (r : RefId) : (s.seeEdge r).driven = s.driven := by
  unfold State.seeEdge
  dsimp only
  split
  · rfl
  · rfl
  · rfl
  · exact s.driven_windowEdge r _
  · exact s.driven_windowEdge r _

theorem State.driven_qualify (s : State) (r : RefId) (x : Reference) (offset : Int) :
    (s.qualify r x offset).driven = s.driven := by
  by_cases hg : x.good offset
  · rw [State.qualify_good hg]
    split
    · exact State.driven_reevaluate _
    · rfl
  · rw [State.qualify_far hg]
    rfl

theorem State.driven_badMessage (s : State) (r : RefId) (x : Reference) : (s.badMessage r x).driven = s.driven :=
  s.driven_refFailed r _ _

theorem State.driven_changeReference (s : State) (r : RefId) (new : RefSettings) :
    (s.changeReference r new).driven = s.driven := by
  have retold (t : State) (p : Prop) [Decidable p] (h : t.driven = s.driven) :
      (if p then t.reevaluate else t).driven = s.driven := by
    split
    · exact t.driven_reevaluate.trans h
    · exact h
  unfold State.changeReference
  dsimp only
  split
  · exact retold _ _ (State.refLeavesFor_onlyEngine _ _ _ _).driven
  · exact retold _ _ rfl

section
variable {R : State → State → Prop} (hR : DrivenRule R) {s : State}
include hR

theorem DrivenRule.measured (r : RefId) (x : Reference) (c : Capture) (offset : Int) (accuracy : Nat)
    (m : Option Message) (fit : Bool) : R s (s.measured r x c offset accuracy m fit) := by
  unfold State.measured
  dsimp only
  split
  · split
    · exact hR.keeps (s.driven_qualify r _ offset)
    · exact hR.keeps rfl
  · split
    · rw [State.measureUsable_eq]
      split
      · exact hR.keeps (s.driven_disqualify r _)
      · refine hR.trans (hR.keeps ?_) (DrivenRule.useMeasurement hR r offset accuracy m)
        split <;> rfl
    · exact hR.keeps (s.driven_disqualify r _)
  · exact hR.keeps rfl
  · exact hR.keeps rfl
  · exact hR.keeps rfl

theorem DrivenRule.arriveMessage (r : RefId) (m : Option Message) : R s (s.arriveMessage r m) := by
  unfold State.arriveMessage State.judgeMessage
  dsimp only
  split
  · exact hR.keeps (s.driven_badMessage r _)
  · split
    · exact hR.keeps (s.driven_badMessage r _)
    · split
      · exact DrivenRule.measured hR r _ _ _ _ _ _
      · exact hR.keeps (s.driven_badMessage r _)

end

/-! ### Commands that leave the driven blocks, whatever they find -/

theorem State.driven_unlessHeld {s : State} {f : State → State} (h : (f s).driven = s.driven) :
    (s.unlessHeld f).driven = s.driven :=
  State.unlessHeld_induct (P := fun t => t.driven = s.driven) rfl h

theorem driven_slewCompletionState (s : State) : (slewCompletionState s).driven = s.driven := by
  refine State.driven_unlessHeld ?_
  split
  · rfl
  · split <;> rfl

theorem driven_insertedSecondStartState (s : State) : (insertedSecondStartState s).driven = s.driven := by
  refine State.driven_unlessHeld ?_
  split
  · rfl
  · split <;> rfl

theorem driven_leapInstantState (s : State) : (leapInstantState s).driven = s.driven := by
  refine State.driven_unlessHeld ?_
  split
  · rfl
  · split
    · split <;> rfl
    · split <;> rfl

theorem driven_gradeGrowthCrossingState (s : State) : (gradeGrowthCrossingState s).driven = s.driven := by
  refine State.driven_unlessHeld ?_
  split <;> rfl

theorem driven_missingEdgeExpiryState (r : RefId) (s : State) : (missingEdgeExpiryState r s).driven = s.driven := by
  refine State.driven_unlessHeld ?_
  split
  · exact s.driven_missEdge r
  · rfl

theorem driven_referenceEdgeState (r : RefId) (e : Edge) (s : State) : (referenceEdgeState r e s).driven = s.driven := by
  refine State.driven_unlessHeld ?_
  split
  · refine (State.driven_seeEdge _ r).trans ?_
    split
    · exact s.driven_missEdge r
    · rfl
  · rfl

theorem driven_holdOffExpiryState (r : RefId) (s : State) : (holdOffExpiryState r s).driven = s.driven := by
  refine State.driven_unlessHeld ?_
  dsimp only
  split
  · rfl
  · split <;> rfl

theorem driven_unknownCommandState (mp : Mp) (s : State) : (unknownCommandState mp s).driven = s.driven := by
  refine State.driven_unlessHeld ?_
  split
  · rfl
  · split <;> rfl

theorem driven_leaseExpiryState (s : State) : (leaseExpiryState s).driven = s.driven := by
  refine State.driven_unlessHeld ?_
  split
  · rfl
  · split <;> rfl

/-- What the owner of a command leaves of the driven blocks, whether it refuses the command or takes it. -/
theorem Judged.driven_withParams {α : Type} {s : State} {params : Option α} {act : α → Judged}
    (h : ∀ x, ((act x).leaves s).driven = s.driven) : ((withParams params act).leaves s).driven = s.driven := by
  cases params with
  | none => rfl
  | some x => exact h x

theorem driven_slewByAct (mp : Mp) (ws : List Word) (s : State) : ((slewByAct mp ws s).leaves s).driven = s.driven := by
  unfold slewByAct
  split
  · refine Judged.driven_withParams fun a => ?_
    unfold State.slewOrBusy
    split <;> rfl
  · rfl

theorem driven_setLeapAct (mp : Mp) (ws : List Word) (s : State) : ((setLeapAct mp ws s).leaves s).driven = s.driven := by
  unfold setLeapAct
  split
  · rfl
  · refine Judged.driven_withParams fun x => ?_
    dsimp only
    split <;> rfl

theorem driven_clearLeapAct (ws : List Word) (s : State) : ((clearLeapAct ws s).leaves s).driven = s.driven := by
  unfold clearLeapAct
  split_ifs <;> rfl

theorem driven_setUtcOffsetAct (ws : List Word) (s : State) : ((setUtcOffsetAct ws s).leaves s).driven = s.driven := by
  unfold setUtcOffsetAct
  dsimp only
  split_ifs
  · rfl
  · rfl
  · exact State.driven_alignLeap _

theorem driven_unpinAct (ws : List Word) (s : State) : ((unpinAct ws s).leaves s).driven = s.driven := by
  unfold unpinAct
  split
  · exact (State.driven_reevaluate _).trans s.enterHoldover_onlyEngine.driven
  · rfl

theorem driven_claimAct (mp : Mp) (ws : List Word) (s : State) : ((claimAct mp ws s).leaves s).driven = s.driven := by
  refine Judged.driven_withParams fun lease => ?_
  dsimp only
  split
  · rfl
  · split <;> rfl

theorem driven_releaseAct (mp : Mp) (ws : List Word) (s : State) : ((releaseAct mp ws s).leaves s).driven = s.driven := by
  unfold releaseAct
  split <;> rfl

theorem driven_readMoreAct (mp : Mp) (ws : List Word) (s : State) : ((readMoreAct mp ws s).leaves s).driven = s.driven := by
  unfold readMoreAct
  split <;> rfl

/-! ### Every command that reaches the driven blocks by a step alone -/

section
variable {R : State → State → Prop} (hR : DrivenRule R) {s : State}
include hR

theorem DrivenRule.setTimeState (mp : Mp) : R s (setTimeState mp s) := by
  refine hR.takeCommand fun ws => ?_
  unfold setTimeAct
  split
  · exact hR.withParams fun x => hR.trans (hR.step s _ _ _) (hR.keeps (State.driven_vouch _ _))
  · exact hR.refl s

theorem DrivenRule.stepByState (mp : Mp) : R s (stepByState mp s) := by
  refine hR.takeCommand fun ws => ?_
  unfold stepByAct
  split
  · exact hR.withParams fun x => hR.step s _ _ _
  · exact hR.refl s

theorem DrivenRule.messageCharacterState (r : RefId) (c : Character) : R s (messageCharacterState r c s) := by
  refine hR.unlessHeld ?_
  unfold State.receiveCharacter
  dsimp only
  split
  · split
    · exact hR.refl s
    · exact hR.keeps rfl
    · exact hR.arriveMessage r _
  · exact hR.refl s

theorem DrivenRule.messageArrivalState (r : RefId) (c : Character) : R s (messageArrivalState r c s) := by
  refine hR.unlessHeld ?_
  dsimp only
  split
  · split
    · exact hR.refl s
    · exact hR.refl s
    · exact hR.arriveMessage r _
  · exact hR.refl s

theorem DrivenRule.settleExpiryState (r : RefId) : R s (settleExpiryState r s) := by
  refine hR.unlessHeld ?_
  dsimp only
  split
  · split
    · exact hR.measured r _ _ _ _ _ _
    · exact hR.refl s
  · exact hR.refl s

/-- Such a command is in the relation, since a step is. -/
theorem DrivenRule.exec {c : Instr} (hc : reachesByStepAlone c = true) : ∃ t, exec c s = .next t ∧ R s t := by
  have keeps {t : State} (hx : Sys2Proof.Machine.exec c s = .next t) (h : t.driven = s.driven) :
      ∃ t, Sys2Proof.Machine.exec c s = .next t ∧ R s t := ⟨t, hx, hR.keeps h⟩
  have command {mp : Mp} {row : CommandRow} {act : List Word → State → Judged}
      (hx : Sys2Proof.Machine.exec c s = .next (s.takeCommand mp row act))
      (h : ∀ ws, ((act ws s).leaves s).driven = s.driven) : ∃ t, Sys2Proof.Machine.exec c s = .next t ∧ R s t :=
    ⟨_, hx, hR.takeCommand fun ws => hR.keeps (h ws)⟩
  cases c with
  | setTime mp => exact ⟨_, rfl, hR.setTimeState mp⟩
  | stepBy mp => exact ⟨_, rfl, hR.stepByState mp⟩
  | messageCharacter r ch => exact ⟨_, rfl, hR.messageCharacterState r ch⟩
  | messageArrival r ch => exact ⟨_, rfl, hR.messageArrivalState r ch⟩
  | settleExpiry r => exact ⟨_, rfl, hR.settleExpiryState r⟩
  | resetRelease => exact keeps rfl rfl
  | tick => exact keeps rfl (State.driven_unlessHeld rfl)
  | slewCompletion => exact keeps rfl (driven_slewCompletionState s)
  | insertedSecondStart => exact keeps rfl (driven_insertedSecondStartState s)
  | leapInstant => exact keeps rfl (driven_leapInstantState s)
  | gradeGrowthCrossing => exact keeps rfl (driven_gradeGrowthCrossingState s)
  | referenceEdge r e => exact keeps rfl (driven_referenceEdgeState r e s)
  | missingEdgeExpiry r => exact keeps rfl (driven_missingEdgeExpiryState r s)
  | holdOffExpiry r => exact keeps rfl (driven_holdOffExpiryState r s)
  | slewBy mp => exact command rfl fun ws => driven_slewByAct mp ws s
  | setLeap mp => exact command rfl fun ws => driven_setLeapAct mp ws s
  | clearLeap mp => exact command rfl fun ws => driven_clearLeapAct ws s
  | setUtcOffset mp => exact command rfl fun ws => driven_setUtcOffsetAct ws s
  | setLocalOffset mp => exact command rfl fun _ => Judged.driven_withParams fun _ => rfl
  | setReference mp => exact command rfl fun _ => Judged.driven_withParams fun _ => s.driven_changeReference _ _
  | setEngine mp => exact command rfl fun _ => Judged.driven_withParams fun _ => s.driven_changeEngine _ _
  | pin mp => exact command rfl fun _ => s.driven_pinned _
  | unpin mp => exact command rfl fun ws => driven_unpinAct ws s
  | readTime mp | readEngine mp | identify mp | setEventMask mp => exact command rfl fun _ => rfl
  | readReference mp => exact command rfl fun _ => Judged.driven_withParams fun _ => rfl
  | readPort mp => exact command rfl fun _ => Judged.driven_withParams fun _ => rfl
  | readTable mp => exact command rfl fun _ => Judged.driven_withParams fun _ => rfl
  | readMore mp => exact command rfl fun ws => driven_readMoreAct mp ws s
  | claim mp => exact command rfl fun ws => driven_claimAct mp ws s
  | release mp => exact command rfl fun ws => driven_releaseAct mp ws s
  | leaseExpiry => exact keeps rfl (driven_leaseExpiryState s)
  | unknownCommand mp => exact keeps rfl (driven_unknownCommandState mp s)
  | transactionBegin mp => exact keeps rfl (State.driven_unlessHeld rfl)
  | writeParams mp rest | post mp rest | sense mp rest =>
    exact ⟨_, rfl, hR.endTransaction fun _ _ => by split <;> rfl⟩
  | readResult mp len => exact ⟨_, rfl, hR.endTransaction fun _ _ => by dsimp only; split <;> rfl⟩
  | readState mp len | readErrors mp len => exact ⟨_, rfl, hR.endTransaction fun _ _ => rfl⟩
  | unknownTransaction mp code =>
    refine ⟨_, rfl, ?_⟩
    unfold unknownTransactionState
    split
    · exact hR.refl s
    · exact hR.endTransaction fun _ _ => rfl
  | _ => cases hc

end

end Sys2Proof.Machine
end

section
/-! SUPPORT. A legal mark list and legal outcome queues: what each operation of the mark scheduler makes of them, and that
every command keeps them (R77, R78, R94). -/

namespace Sys2Proof.Machine

open Sys2Proof

/-! ### Lists within the limits of R78 -/

/-- Marks within the limits of R78, their order apart: at most 64, of ids apart, at most 24 of one owner, each legal. -/
def marksWithin (ms : List Mark) : Prop :=
  ms.length ≤ 64 ∧ (ms.map (·.id)).Nodup ∧ (∀ mp : Mp, ms.countP (fun m => decide (m.owner = mp)) ≤ 24) ∧ ∀ m ∈ ms, m.wf

section
variable {m m' : Mark} {ms ms' : List Mark}

theorem marksWithin.perm (h : marksWithin ms) (hp : ms'.Perm ms) : marksWithin ms' := by
  obtain ⟨hlen, hids, howned, hwf⟩ := h
  exact ⟨hp.length_eq ▸ hlen, ((hp.map _).nodup_iff).mpr hids, fun mp => hp.countP_eq _ ▸ howned mp,
    fun m hm => hwf m (hp.subset hm)⟩

theorem marksWithin.sublist (h : marksWithin ms) (hs : ms'.Sublist ms) : marksWithin ms' := by
  obtain ⟨hlen, hids, howned, hwf⟩ := h
  exact ⟨hs.length_le.trans hlen, hids.sublist (hs.map _), fun mp => (hs.countP_le).trans (howned mp),
    fun m hm => hwf m (hs.subset hm)⟩

/-- A mark gives its place to another of its id and its owner. -/
theorem marksWithin.replace (h : marksWithin (m :: ms)) (hid : m'.id = m.id) (howner : m'.owner = m.owner)
    (hwf' : m'.wf) : marksWithin (m' :: ms) := by
  obtain ⟨hlen, hids, howned, hwf⟩ := h
  refine ⟨hlen, ?_, fun mp => ?_, fun x hx => ?_⟩
  · rwa [List.map_cons, hid, ← List.map_cons]
  · have := howned mp
    rwa [List.countP_cons, howner, ← List.countP_cons]
  · rcases List.mem_cons.mp hx with rfl | hx
    · exact hwf'
    · exact hwf x (List.mem_cons_of_mem m hx)

theorem marksWithin.head (h : marksWithin (m :: ms)) : m.wf := by
  obtain ⟨_, _, _, hwf⟩ := h
  exact hwf m List.mem_cons_self

theorem marksWithin.id_ne (h : marksWithin (m :: ms)) : ∀ x ∈ ms, x.id ≠ m.id := by
  obtain ⟨_, hids, _⟩ := h
  exact fun x hx he => (List.nodup_cons.mp hids).1 (List.mem_map.mpr ⟨x, hx, he⟩)

end

theorem State.marksWf_iff (s : State) :
    s.marksWf ↔ marksWithin s.marks ∧ s.marks.Pairwise (fun a b => a.before b) ∧
      ∀ mp : Mp, (s.queue mp).length ≤ 16 ∧ ∀ o ∈ s.queue mp, o.owner = mp := by
  constructor
  · rintro ⟨hlen, hpair, hids, howned, hwf, hq⟩
    exact ⟨⟨hlen, hids, howned, hwf⟩, hpair, hq⟩
  · rintro ⟨⟨hlen, hids, howned, hwf⟩, hpair, hq⟩
    exact ⟨hlen, hpair, hids, howned, hwf, hq⟩

/-! ### Legal marks (R77) -/

theorem sat16By_le (n k : Nat) : sat16By n k ≤ 65535 := min_le_right _ _

/-- A remaining count that `k` passes have not used up is in range. -/
theorem remaining_within {o : Option Nat} {k : Nat} (h : ∀ n ∈ o, 1 ≤ n ∧ n ≤ 65535) (hleft : o.map (· - k) ≠ some 0) :
    ∀ n ∈ o.map (· - k), 1 ≤ n ∧ n ≤ 65535 := by
  intro n hn
  obtain ⟨r, hr, rfl⟩ := Option.map_eq_some_iff.mp hn
  have hnot : r - k ≠ 0 := fun h0 => hleft (by rw [hr, Option.map_some, h0])
  exact ⟨Nat.one_le_iff_ne_zero.mpr hnot, (Nat.sub_le r k).trans (h r hr).2⟩

/-- A mark re-armed by a step has a due instant in range and a count left (R91). -/
theorem Mark.wf.rearmed {m : Mark} {p k comp : Nat} (h : m.wf) (hnot : ¬ Config.nsRange ≤ m.due + k * p)
    (hleft : m.remaining.map (· - k) ≠ some 0) : (m.rearmed p k comp).wf := by
  obtain ⟨hid, hlines, _, hwidth, hperiod, hrem, hboth, htag, hfired, hwithheld, _, hpartial⟩ := h
  have hdue : m.due + k * p < Config.nsRange := not_le.mp hnot
  unfold Mark.rearmed
  exact ⟨hid, hlines, hdue, hwidth, hperiod, remaining_within hrem hleft, fun hs => hboth (by simpa using hs), htag,
    hfired, hwithheld, sat16By_le _ _, hpartial⟩

/-- A step re-arms a mark as the same mark of the same owner (R91). -/
theorem Mark.rearmed_kept {m : Mark} {p k comp : Nat} (h : m.wf) (hnot : ¬ Config.nsRange ≤ m.due + k * p)
    (hleft : m.remaining.map (· - k) ≠ some 0) :
    (m.rearmed p k comp).id = m.id ∧ (m.rearmed p k comp).owner = m.owner ∧ (m.rearmed p k comp).wf :=
  ⟨rfl, rfl, h.rearmed hnot hleft⟩

/-- What becomes of a mark that a step passes, where it stays in the list (R91). -/
theorem State.passMark_kept {s : State} {new : Instant} {m m' : Mark} (h : m.wf) (hk : (s.passMark new m).1 = some m') :
    m'.id = m.id ∧ m'.owner = m.owner ∧ m'.wf := by
  cases hp : m.period with
  | none =>
    rw [State.passMark_oneShot hp] at hk
    cases hk
  | some ms =>
    simp only [State.passMark_periodic hp, Option.ite_none_left_eq_some, not_or, Option.some.injEq] at hk
    obtain ⟨⟨hleft, hdue⟩, hm⟩ := hk
    subst hm
    exact Mark.rearmed_kept h hdue hleft

/-- A mark with a next due instant has another take left, and the instant is in range (R87). -/
theorem Mark.nextDue_some {m : Mark} {due : Instant} (h : m.nextDue = some due) :
    m.remaining ≠ some 1 ∧ due < Config.nsRange := by
  unfold Mark.nextDue at h
  split at h
  · cases h
  · dsimp only at h
    split at h <;> rename_i hc
    · cases h
    · cases h
      exact ⟨fun he => hc (.inl he), Nat.lt_of_not_le fun he => hc (.inr he)⟩

/-- A mark re-armed after its taking (R87). -/
theorem Mark.wf.retimed {s : State} {m : Mark} {due : Instant} (h : m.wf) (hn : m.nextDue = some due) :
    (s.retime { m with due := due, remaining := m.remaining.map (· - 1) }).wf := by
  obtain ⟨hid, hlines, _, hwidth, hperiod, hrem, hboth, hlast⟩ := h
  obtain ⟨hne, hdue⟩ := Mark.nextDue_some hn
  have hleft : m.remaining.map (· - 1) ≠ some 0 := fun h0 => by
    obtain ⟨r, hr, hr0⟩ := Option.map_eq_some_iff.mp h0
    have hleast := (hrem r hr).1
    exact hne (hr.trans (congrArg some (by omega)))
  unfold State.retime
  exact ⟨hid, hlines, hdue, hwidth, hperiod, remaining_within hrem hleft, fun hs => hboth (by simpa using hs), hlast⟩

theorem Mark.wf.withheldOnce {m : Mark} (h : m.wf) : { m with withheld := sat16 m.withheld }.wf := by
  obtain ⟨hid, hlines, hdue, hwidth, hperiod, hrem, hboth, htag, hfired, hwithheld, hskipped, hpartial⟩ := h
  exact ⟨hid, hlines, hdue, hwidth, hperiod, hrem, hboth, htag, hfired, sat16_le hwithheld, hskipped, hpartial⟩

theorem Mark.wf.counted {m : Mark} (h : m.wf) (yes no : Nat) : (m.counted yes no).wf := by
  unfold Mark.counted
  split
  · exact h.withheldOnce
  · obtain ⟨hid, hlines, hdue, hwidth, hperiod, hrem, hboth, htag, hfired, hwithheld, hskipped, hpartial⟩ := h
    refine ⟨hid, hlines, hdue, hwidth, hperiod, hrem, hboth, htag, sat16_le hfired, hwithheld, hskipped, ?_⟩
    dsimp only
    split
    · exact hpartial
    · exact sat16_le hpartial

theorem Mark.counted_id (m : Mark) (yes no : Nat) : (m.counted yes no).id = m.id := by
  unfold Mark.counted
  split <;> rfl

theorem Mark.counted_owner (m : Mark) (yes no : Nat) : (m.counted yes no).owner = m.owner := by
  unfold Mark.counted
  split <;> rfl

/-! ### Operations on the list and the queues -/

/-- `t` has a legal mark list and legal queues where `s` has. -/
def State.marksSafe (s t : State) : Prop := s.marksWf → t.marksWf

theorem State.marksSafe_refl (s : State) : s.marksSafe s := id

theorem State.marksSafe.trans {s t u : State} (h : s.marksSafe t) (k : t.marksSafe u) : s.marksSafe u := k ∘ h

/-- What the state holds of the mark scheduler: the list and the outcome queues. -/
def State.scheduler (s : State) : List Mark × Four (List Outcome) := (s.marks, s.outcomes)

theorem State.marksSafe_of_scheduler {s t : State} (h : t.scheduler = s.scheduler) : s.marksSafe t := by
  obtain ⟨hm, ho⟩ := Prod.ext_iff.mp h
  have hm : t.marks = s.marks := hm
  have ho : t.outcomes = s.outcomes := ho
  intro hw
  rw [State.marksWf_iff] at hw ⊢
  unfold State.queue at hw ⊢
  rwa [hm, ho]

theorem State.scheduler_of_driven {s t : State} (h : t.driven = s.driven) : t.scheduler = s.scheduler := by
  unfold State.driven at h
  simp only [Prod.mk.injEq] at h
  exact Prod.ext h.1 h.2.1

theorem State.marks_sublist_marksSafe {s : State} {ms : List Mark} (h : ms.Sublist s.marks) :
    s.marksSafe { s with marks := ms } := fun hw => by
  obtain ⟨hin, hpair, hq⟩ := s.marksWf_iff.mp hw
  exact (State.marksWf_iff _).mpr ⟨hin.sublist h, hpair.sublist h, hq⟩

/-- A mark joins the list at its place (R78). -/
theorem State.insertMark_marksSafe {s : State} {m : Mark} (h : marksWithin (m :: s.marks)) :
    s.marksSafe { s with marks := insertMark m s.marks } := fun hw => by
  obtain ⟨_, hpair, hq⟩ := s.marksWf_iff.mp hw
  exact (State.marksWf_iff _).mpr ⟨h.perm (insertMark_perm m s.marks), insertMark_pairwise h.id_ne hpair, hq⟩

theorem State.setQueue_marksSafe {s : State} {mp : Mp} {q : List Outcome}
    (h : s.marksWf → q.length ≤ 16 ∧ ∀ o ∈ q, o.owner = mp) : s.marksSafe (s.setQueue mp q) := fun hw => by
  obtain ⟨hin, hpair, hq⟩ := s.marksWf_iff.mp hw
  refine (State.marksWf_iff _).mpr ⟨hin, hpair, fun m => ?_⟩
  by_cases hm : m = mp
  · rw [hm, State.queue_setQueue]
    exact h hw
  · rw [State.queue_setQueue_other s hm]
    exact hq m

/-- An outcome joins its owner's queue where there is room (R94). -/
theorem State.handOutcome_marksSafe (s : State) (o : Outcome) : s.marksSafe (s.handOutcome o) := by
  have hqueue (hlen : (s.queue o.owner).length < 16) : s.marksSafe (s.setQueue o.owner (s.queue o.owner ++ [o])) := by
    refine State.setQueue_marksSafe fun hw => ?_
    obtain ⟨_, _, hq⟩ := s.marksWf_iff.mp hw
    refine ⟨by rw [List.length_append, List.length_singleton]; omega, fun x hx => ?_⟩
    rcases List.mem_append.mp hx with hx | hx
    · exact (hq o.owner).2 x hx
    · rw [List.mem_singleton.mp hx]
  rcases s.handOutcome_cases o with ⟨hnil, h⟩ | ⟨_, hlen, h⟩ | ⟨_, h⟩ <;> rw [h]
  · rw [hnil] at hqueue
    exact (hqueue (by decide)).trans (State.marksSafe_of_scheduler rfl)
  · exact hqueue hlen
  · exact State.marksSafe_of_scheduler rfl

theorem State.marks_handOutcome (s : State) (o : Outcome) : (s.handOutcome o).marks = s.marks := by
  rw [State.handOutcome_frame]

/-! ### Steps (R90, R91) -/

theorem passMarks_marksSafe (new : Instant) (ms : List Mark) (s : State) (h : marksWithin (ms ++ s.marks)) :
    s.marksSafe (passMarks new ms s) := by
  induction ms generalizing s with
  | nil => exact s.marksSafe_refl
  | cons m rest ih =>
    unfold passMarks
    cases hp : s.passMark new m with
    | mk kept out =>
      cases kept with
      | some m' =>
        obtain ⟨hid, howner, hwf⟩ := State.passMark_kept (s := s) (new := new) h.head (by rw [hp])
        have hjoin : marksWithin (m' :: (rest ++ s.marks)) := h.replace hid howner hwf
        have hrest : marksWithin (rest ++ insertMark m' s.marks) :=
          hjoin.perm (((insertMark_perm m' s.marks).append_left rest).trans List.perm_middle)
        exact (State.insertMark_marksSafe (hjoin.sublist ((List.sublist_append_right rest s.marks).cons_cons m'))).trans
          (ih _ hrest)
      | none =>
        refine (s.handOutcome_marksSafe out).trans (ih _ ?_)
        rw [State.marks_handOutcome]
        exact h.sublist (List.sublist_cons_self m _)

theorem State.stepTo_marksSafe (s : State) (src : Origin) (new : Instant) (clearFrac : Bool) :
    s.marksSafe (s.stepTo src new clearFrac) := fun hw => by
  obtain ⟨u, _, houtcomes, humarks, htmarks, htoutcomes, _⟩ := s.marks_stepTo src new clearFrac
  obtain ⟨hin, _⟩ := s.marksWf_iff.mp hw
  have hleft : s.marksSafe { s with marks := u.marks } := State.marks_sublist_marksSafe (humarks ▸ List.filter_sublist)
  have hu : { s with marks := u.marks }.marksSafe u := State.marksSafe_of_scheduler (Prod.ext rfl houtcomes)
  have hsplit : ((s.marks.filter fun m => s.passedBy new m.taking) ++ u.marks).Perm s.marks := by
    rw [humarks]
    exact List.filter_append_perm _ _
  have ht := State.marksSafe_of_scheduler (s := passMarks new (s.marks.filter fun m => s.passedBy new m.taking) u)
    (Prod.ext htmarks htoutcomes)
  exact (((hleft.trans hu).trans (passMarks_marksSafe new _ u (hin.perm hsplit))).trans ht) hw

theorem State.marksSafe_drivenRule : DrivenRule State.marksSafe where
  trans := State.marksSafe.trans
  keeps h := State.marksSafe_of_scheduler (State.scheduler_of_driven h)
  step := State.stepTo_marksSafe

/-! ### The taking of a mark (R83 to R87) -/

theorem State.onlyLines.scheduler {s t : State} (h : s.onlyLines t) : t.scheduler = s.scheduler := by
  rw [h.eq]
  rfl

theorem State.onlyNetwork.scheduler {s t : State} (h : s.onlyNetwork t) : t.scheduler = s.scheduler := by
  obtain ⟨_, _, _, _, _, hm, ho, _⟩ := h
  exact Prod.ext hm ho

/-- A mark out of the list comes back re-armed, or leaves with its outcome (R87). -/
theorem State.retireOrRearm_marksSafe {s : State} {m : Mark} (h : marksWithin (m :: s.marks)) :
    s.marksSafe (s.retireOrRearm m) := by
  unfold State.retireOrRearm
  cases hn : m.nextDue with
  | none => exact s.handOutcome_marksSafe _
  | some due => exact State.insertMark_marksSafe (h.replace rfl rfl (h.head.retimed hn))

theorem State.takeMark_marksSafe {s : State} {m : Mark} (h : marksWithin (m :: s.marks)) (faulty : BitVec 16) :
    s.marksSafe (s.takeMark m faulty) := by
  unfold State.takeMark
  split
  · exact State.retireOrRearm_marksSafe (h.replace rfl rfl h.head.withheldOnce)
  · dsimp only
    have hoffer : (offerLines m faulty allLines (s, 0, 0)).1.scheduler = s.scheduler :=
      (offerLines_onlyLines m faulty allLines (s, 0, 0)).scheduler
    generalize offerLines m faulty allLines (s, 0, 0) = r at hoffer ⊢
    obtain ⟨t, yes, no⟩ := r
    have hmarks : t.marks = s.marks := (Prod.ext_iff.mp hoffer).1
    refine (State.marksSafe_of_scheduler hoffer).trans (State.retireOrRearm_marksSafe ?_)
    rw [hmarks]
    exact h.replace (m.counted_id yes no) (m.counted_owner yes no) (h.head.counted yes no)

theorem markTakingState_marksSafe (faulty : BitVec 16) (s : State) : s.marksSafe (markTakingState faulty s) := by
  have hnone := State.marksSafe_of_scheduler (s.judgeOvertakenAll_onlyLines faulty).scheduler
  refine State.unlessHeld_induct s.marksSafe_refl ?_
  split
  · exact hnone
  · rename_i m rest hmarks
    split
    · intro hw
      obtain ⟨hin, _⟩ := s.marksWf_iff.mp hw
      rw [hmarks] at hin
      have hrest : s.marksSafe { s with marks := rest } :=
        State.marks_sublist_marksSafe (hmarks ▸ List.sublist_cons_self m rest)
      exact hrest.trans (State.takeMark_marksSafe (s := { s with marks := rest }) hin faulty) hw
    · exact hnone

/-! ### ADD_MARK, CANCEL_MARK, TAKE_OUTCOMES and the clearing of marks (R81, R89, R95, R98, R99) -/

theorem State.takeCommand_marksSafe {s : State} {mp : Mp} {row : CommandRow} {act : List Word → State → Judged}
    (h : ∀ ws, s.marksSafe ((act ws s).leaves s)) : s.marksSafe (s.takeCommand mp row act) :=
  State.takeCommand_leaves s.marksSafe_refl (fun _ _ _ ht => ht.trans (State.marksSafe_of_scheduler rfl)) h

theorem Judged.withParams_marksSafe {α : Type} {s : State} {params : Option α} {act : α → Judged}
    (h : ∀ x, params = some x → s.marksSafe ((act x).leaves s)) : s.marksSafe ((withParams params act).leaves s) := by
  cases params with
  | none => exact s.marksSafe_refl
  | some x => exact h x rfl

/-- The mark of an ADD_MARK is legal, by the checks on its parameters (R80). -/
theorem State.newMark_wf {ws : List Word} {p : MarkParams} (hp : addMarkParams ws = some p) {id : Nat} (hid : id < 64)
    (s : State) (mp : Mp) : (s.newMark mp id p).wf := by
  obtain ⟨hlines, hwidth, hperiod, hrem, _, _, hsec, hns, hdue, _, _, _, _, htag⟩ := (addMarkParams_iff ws p).mp hp
  refine ⟨hid, hlines, ?_, hwidth, fun k hk => hperiod k hk, fun n hn => ?_, fun hs => ?_, ?_, ?_⟩
  · change p.due < Config.nsRange
    rw [hdue]
    simp only [Instant, Config.nsRange, Config.secRange, Config.nsPerSec]
    omega
  · exact ⟨(hrem n hn).1, (hrem n hn).2.1⟩
  · obtain ⟨n, hn⟩ := Option.isSome_iff_exists.mp hs
    exact Option.isSome_iff_ne_none.mpr (hrem n hn).2.2
  · have hlt : p.tag < 2 ^ 16 := htag ▸ bitsAt_lt ws 2 112 16
    exact Nat.le_of_lt_succ hlt
  · exact ⟨Nat.zero_le _, Nat.zero_le _, Nat.zero_le _, Nat.zero_le _⟩

theorem addMarkState_marksSafe (mp : Mp) (s : State) : s.marksSafe (addMarkState mp s) := by
  refine State.takeCommand_marksSafe fun ws => ?_
  unfold addMarkAct
  split
  · exact s.marksSafe_refl
  · refine Judged.withParams_marksSafe fun p hp => ?_
    unfold State.placeMark
    split_ifs with hquota hfull
    · exact s.marksSafe_refl
    · exact s.marksSafe_refl
    · exact s.marksSafe_refl
    · cases hfree : s.freeMarkId with
      | none => exact s.marksSafe_refl
      | some id =>
        obtain ⟨hid, hunused, _⟩ := (lowestFree_eq_some_iff _ _ _).mp hfree
        intro hw
        obtain ⟨⟨hlen, hids, howned, hwf⟩, _⟩ := s.marksWf_iff.mp hw
        refine State.insertMark_marksSafe (s := s) (m := s.newMark mp id p) ⟨?_, ?_, fun m => ?_, fun x hx => ?_⟩ hw
        · rw [List.length_cons]
          omega
        · exact List.nodup_cons.mpr ⟨hunused, hids⟩
        · rw [List.countP_cons]
          split <;> rename_i hm
          · have howner : mp = m := of_decide_eq_true hm
            have : s.marks.countP (fun x => decide (x.owner = m)) = s.markNumber mp := by rw [howner]; rfl
            omega
          · exact howned m
        · rcases List.mem_cons.mp hx with rfl | hx
          · exact State.newMark_wf hp hid s mp
          · exact hwf x hx

theorem cancelMarkState_marksSafe (mp : Mp) (s : State) : s.marksSafe (cancelMarkState mp s) := by
  refine State.takeCommand_marksSafe fun ws => Judged.withParams_marksSafe fun id _ => ?_
  unfold State.cancelById
  split
  · exact s.marksSafe_refl
  · split
    · exact (State.marks_sublist_marksSafe List.filter_sublist).trans (State.handOutcome_marksSafe _ _)
    · exact s.marksSafe_refl

theorem takeOutcomesState_marksSafe (mp : Mp) (s : State) : s.marksSafe (takeOutcomesState mp s) := by
  refine State.takeCommand_marksSafe fun _ => State.setQueue_marksSafe fun hw => ?_
  obtain ⟨_, _, hq⟩ := s.marksWf_iff.mp hw
  obtain ⟨hlen, howner⟩ := hq mp
  exact ⟨(List.length_drop ▸ Nat.sub_le _ _).trans hlen, fun o ho => howner o (List.mem_of_mem_drop ho)⟩

theorem State.clearMarksOf_marksSafe (s : State) (mp : Mp) : s.marksSafe (s.clearMarksOf mp) :=
  (State.marks_sublist_marksSafe List.filter_sublist).trans (State.setQueue_marksSafe fun _ => ⟨Nat.zero_le _, nofun⟩)

theorem portClearState_marksSafe (mp : Mp) (len : Nat) (s : State) : s.marksSafe (portClearState mp len s) := by
  refine State.endTransaction_induct s.marksSafe_refl
    (fun t x ht => ht.trans (State.marksSafe_of_scheduler rfl)) fun x t ht => ht.trans ?_
  have hclear : t.marksSafe ((t.setPort mp (t.port mp).portCleared).clearMarksOf mp) :=
    (State.marksSafe_of_scheduler rfl).trans (State.clearMarksOf_marksSafe _ mp)
  dsimp only
  split
  · exact hclear.trans (State.marksSafe_of_scheduler rfl)
  · exact hclear

/-- With no mark and no outcome the scheduler is legal. -/
theorem State.marksWf_of_empty {s : State} (h : s.scheduler = ([], Four.all [])) : s.marksWf := by
  obtain ⟨hm, ho⟩ := Prod.ext_iff.mp h
  have hm : s.marks = [] := hm
  have ho : s.outcomes = Four.all [] := ho
  rw [State.marksWf_iff]
  unfold State.queue
  rw [hm, ho]
  refine ⟨⟨Nat.zero_le _, List.nodup_nil, fun _ => Nat.zero_le _, nofun⟩, List.Pairwise.nil, fun mp => ?_⟩
  rw [Four.get_all]
  exact ⟨Nat.zero_le _, nofun⟩

theorem restartState_marksSafe (mp : Mp) (s : State) : s.marksSafe (restartState mp s) := by
  refine State.unlessHeld_induct s.marksSafe_refl ?_
  split
  · exact s.marksSafe_refl
  · unfold State.judgeRestart
    split_ifs
    · exact State.marksSafe_of_scheduler rfl
    · exact State.marksSafe_of_scheduler rfl
    · refine fun _ => State.marksWf_of_empty ?_
      rw [State.restart_eq]
      rfl
    · exact s.marksSafe_refl

/-! ### Every command -/

theorem State.scheduler_unlessHeld {s : State} {f : State → State} (h : (f s).scheduler = s.scheduler) :
    (s.unlessHeld f).scheduler = s.scheduler :=
  State.unlessHeld_induct (P := fun t => t.scheduler = s.scheduler) rfl h

theorem scheduler_compositionState (s : State) : (compositionState s).scheduler = s.scheduler := by
  refine State.scheduler_unlessHeld ?_
  split
  · unfold State.compose
    dsimp only
    split <;> rfl
  · rfl

theorem scheduler_frameReleaseState (s : State) : (frameReleaseState s).scheduler = s.scheduler := by
  refine State.scheduler_unlessHeld ?_
  dsimp only
  split
  · rfl
  · split <;> rfl

theorem lineRestartState_marksSafe (mp : Mp) (s : State) : s.marksSafe (lineRestartState mp s) := by
  refine State.takeCommand_marksSafe fun ws => Judged.withParams_marksSafe fun i _ => State.marksSafe_of_scheduler ?_
  split <;> rfl

theorem senseLineState_marksSafe (mp : Mp) (s : State) : s.marksSafe (senseLineState mp s) := by
  refine State.takeCommand_marksSafe fun ws => Judged.withParams_marksSafe fun x _ => State.marksSafe_of_scheduler ?_
  dsimp only [Judged.leaves]
  split <;> rfl

theorem forgetClientState_marksSafe (mp : Mp) (s : State) : s.marksSafe (forgetClientState mp s) := by
  refine State.takeCommand_marksSafe fun ws => Judged.withParams_marksSafe fun a _ => State.marksSafe_of_scheduler ?_
  unfold State.forgetClient
  split <;> rfl

/-- Every command keeps the mark list and the outcome queues legal. -/
theorem exec_marksSafe (c : Instr) (s : State) : ∃ t, exec c s = .next t ∧ s.marksSafe t := by
  have keeps {t : State} (hx : exec c s = .next t) (h : t.scheduler = s.scheduler) :
      ∃ t, exec c s = .next t ∧ s.marksSafe t := ⟨t, hx, State.marksSafe_of_scheduler h⟩
  cases c with
  | addMark mp => exact ⟨_, rfl, addMarkState_marksSafe mp s⟩
  | cancelMark mp => exact ⟨_, rfl, cancelMarkState_marksSafe mp s⟩
  | takeOutcomes mp => exact ⟨_, rfl, takeOutcomesState_marksSafe mp s⟩
  | markTaking faulty => exact ⟨_, rfl, markTakingState_marksSafe faulty s⟩
  | portClear mp len => exact ⟨_, rfl, portClearState_marksSafe mp len s⟩
  | restart mp => exact ⟨_, rfl, restartState_marksSafe mp s⟩
  | powerOn held => exact ⟨_, rfl, fun _ => State.marksWf_of_empty rfl⟩
  | changePoint i => exact keeps rfl (changePointState_onlyLines i s).scheduler
  | pulseStart i load => exact keeps rfl (pulseStartState_onlyLines i load s).scheduler
  | pulseEnd i => exact keeps rfl (pulseEndState_onlyLines i s).scheduler
  | commitmentStart i load => exact keeps rfl (commitmentStartState_onlyLines i load s).scheduler
  | frameBegin i load => exact keeps rfl (frameBeginState_onlyLines i load s).scheduler
  | symbolStart i load => exact keeps rfl (symbolStartState_onlyLines i load s).scheduler
  | symbolEnd i => exact keeps rfl (symbolEndState_onlyLines i s).scheduler
  | frameEnd i => exact keeps rfl (frameEndState_onlyLines i s).scheduler
  | composition => exact keeps rfl (scheduler_compositionState s)
  | frameRelease => exact keeps rfl (scheduler_frameReleaseState s)
  | linkUp p => exact keeps rfl (linkUpState_onlyNetwork p s).scheduler
  | linkDown p => exact keeps rfl (linkDownState_onlyNetwork p s).scheduler
  | beaconDue => exact keeps rfl (beaconDueState_onlyNetwork s).scheduler
  | transmitEnd p => exact keeps rfl (transmitEndState_onlyNetwork p s).scheduler
  | askTimingPoint p => exact keeps rfl (askTimingPointState_onlyNetwork p s).scheduler
  | askArrival p f => exact keeps rfl (askArrivalState_onlyNetwork p f s).scheduler
  | idleCheck => exact keeps rfl (idleCheckState_onlyNetwork s).scheduler
  | setLine mp | setNetwork mp =>
    exact ⟨_, rfl, State.takeCommand_marksSafe fun _ => Judged.withParams_marksSafe fun _ _ =>
      State.marksSafe_of_scheduler rfl⟩
  | lineRestart mp => exact ⟨_, rfl, lineRestartState_marksSafe mp s⟩
  | senseLine mp => exact ⟨_, rfl, senseLineState_marksSafe mp s⟩
  | forgetClient mp => exact ⟨_, rfl, forgetClientState_marksSafe mp s⟩
  | networkClear mp => exact ⟨_, rfl, State.takeCommand_marksSafe fun _ => State.marksSafe_of_scheduler rfl⟩
  | _ => exact State.marksSafe_drivenRule.exec rfl

/-- Settles O56: a step runs one command, or idles. -/
theorem stepKeepsTheMarks : Obligations.StepKeepsTheMarks := by
  intro s t hw hstep
  unfold step at hstep
  split at hstep
  · cases hstep
    exact hw
  · rename_i c rest _
    obtain ⟨u, hu, hsafe⟩ := exec_marksSafe c { s with pending := rest }
    rw [hu] at hstep
    cases hstep
    exact hsafe hw

end Sys2Proof.Machine
end

section
/-! SUPPORT. PORT_CLEAR: what the removal of a master's marks and outcomes, the end of the claim and the clearing of a
mailbox each leave, and the transaction itself (R99, R180, R188). -/

namespace Sys2Proof.Machine

open Sys2Proof

/-! ### What the parts of PORT_CLEAR leave -/

/-- Of two writes of one mailbox the second counts. -/
theorem State.setPort_setPort (s : State) (mp : Mp) (x y : MasterPort) :
    (s.setPort mp x).setPort mp y = s.setPort mp y := by
  have hset : (s.ports.set mp x).set mp y = s.ports.set mp y := by fin_cases mp <;> rfl
  simp only [State.setPort, hset]

@[simp] theorem State.queue_clearMarksOf (s : State) (mp : Mp) : (s.clearMarksOf mp).queue mp = [] :=
  State.queue_setQueue _ mp []

theorem State.queue_clearMarksOf_other (s : State) {mp m : Mp} (h : m ≠ mp) :
    (s.clearMarksOf mp).queue m = s.queue m :=
  State.queue_setQueue_other _ h []

theorem State.markNumber_clearMarksOf (s : State) (mp : Mp) : (s.clearMarksOf mp).markNumber mp = 0 :=
  List.countP_eq_zero.mpr fun m hm => by
    have howner := (List.mem_filter.mp hm).2
    simpa using howner

@[simp] theorem State.port_endClaim (s : State) (m : Mp) : s.endClaim.port m = (s.port m).withFlag .claimEnded :=
  State.port_post _ _ m

/-- The state that a PORT_CLEAR of one byte leaves before it looks at the claim. -/
def State.mailboxCleared (s : State) (mp : Mp) (x : Transaction) : State :=
  (s.setPort mp { (s.port mp).portCleared with dataOut := [x.header] }).clearMarksOf mp

@[simp] theorem State.port_mailboxCleared (s : State) (mp : Mp) (x : Transaction) :
    (s.mailboxCleared mp x).port mp = { (s.port mp).portCleared with dataOut := [x.header] } :=
  State.port_setPort _ _ _

theorem State.port_mailboxCleared_other (s : State) {mp m : Mp} (h : m ≠ mp) (x : Transaction) :
    (s.mailboxCleared mp x).port m = s.port m :=
  State.port_setPort_other _ h _

/-- A PORT_CLEAR of one byte clears the mailbox, and ends the claim where the port holds it. -/
theorem exec_portClear {s : State} {mp : Mp} {x : Transaction} (hr : s.resetHeld = false)
    (hx : (s.port mp).transaction = some x) :
    exec (.portClear mp 1) s =
      .next (if s.holdsClaim mp then (s.mailboxCleared mp x).endClaim else s.mailboxCleared mp x) := by
  have hfits : portClearState mp 1 s = _ := State.endTransaction_fits hr hx 1 noData _
  have hclears : ((s.setPort mp { s.port mp with transaction := none, dataOut := [x.header] }).setPort mp
      ({ s.port mp with transaction := none, dataOut := [x.header] } : MasterPort).portCleared).clearMarksOf mp =
        s.mailboxCleared mp x := by
    rw [State.setPort_setPort]
    rfl
  show Host.Outcome.next (portClearState mp 1 s) = _
  rw [hfits]
  simp only [State.port_setPort, noData, List.take_succ_cons, List.take_zero, hclears]
  rfl

/-- Settles O6: the claim is held by the port, or it is not. -/
theorem portClearClearsItsPortAlone : Obligations.PortClearClearsItsPortAlone := by
  intro s mp x hr hx
  refine ⟨_, exec_portClear hr hx, ?_⟩
  cases hclaim : s.holdsClaim mp with
  | true =>
    refine ⟨?_, fun m hm => ?_, rfl, rfl, State.queue_clearMarksOf _ mp, fun m hm => ?_,
      State.markNumber_clearMarksOf _ mp, rfl⟩
    · show (s.mailboxCleared mp x).endClaim.port mp = _
      rw [State.port_endClaim, State.port_mailboxCleared]
      simp [MasterPort.withFlag, MasterPort.portCleared]
    · show (s.mailboxCleared mp x).endClaim.port m = _
      rw [State.port_endClaim, State.port_mailboxCleared_other s hm]
      rfl
    · exact State.queue_clearMarksOf_other _ hm
  | false =>
    exact ⟨State.port_mailboxCleared s mp x, fun m hm => State.port_mailboxCleared_other s hm x, rfl, rfl,
      State.queue_clearMarksOf _ mp, fun m hm => State.queue_clearMarksOf_other _ hm,
      State.markNumber_clearMarksOf _ mp, rfl⟩

end Sys2Proof.Machine
end

section
/-! SUPPORT. ADD_MARK: the free id, the taking instant, and the checks in their order (R78 to R81). -/

namespace Sys2Proof.Machine

open Sys2Proof

/-! ### The mark that ADD_MARK makes -/

/-- Fewer numbers in use than the bound leave one below it free. -/
theorem exists_lowestFree {used : List Nat} {bound : Nat} (h : used.length < bound) : ∃ k, lowestFree used bound = some k := by
  cases hk : lowestFree used bound with
  | some k => exact ⟨k, rfl⟩
  | none =>
    have hall := (lowestFree_eq_none_iff used bound).mp hk
    have hle : bound ≤ used.length := by
      simpa using
        (List.subperm_of_subset List.nodup_range fun k hk => hall k (List.mem_range.mp hk)).length_le
    exact absurd h (not_lt.mpr hle)

theorem State.exists_freeMarkId {s : State} (h : s.marks.length < 64) :
    ∃ id, s.freeMarkId = some id ∧ id < 64 ∧ (∀ x ∈ s.marks, x.id ≠ id) ∧ ∀ k < id, ∃ x ∈ s.marks, x.id = k := by
  obtain ⟨id, hid⟩ := exists_lowestFree (used := s.marks.map (·.id)) (by rwa [List.length_map])
  obtain ⟨hlt, hfree, hbelow⟩ := (lowestFree_eq_some_iff _ _ _).mp hid
  exact ⟨id, hid, hlt, fun x hx he => hfree (List.mem_map.mpr ⟨x, hx, he⟩), fun k hk => List.mem_map.mp (hbelow k hk)⟩

theorem State.tooLate_iff (s : State) (taking : Int) :
    s.tooLate taking = true ↔
      taking < (s.nowNs : Int) + 10 ^ 6 ∨ (taking = (s.nowNs : Int) + 10 ^ 6 ∧ 0 < s.ts.time.frac) := by
  simp [State.tooLate]

theorem State.newMark_taking (s : State) (mp : Mp) (id : Nat) (p : MarkParams) :
    (s.newMark mp id p).taking = p.due - s.largestCompensation p.lines :=
  Int.toNat_sub p.due _

/-! ### The checks in their order -/

section
variable {s : State} {mp : Mp} {p : MarkParams}

theorem State.placeMark_quota (h : 24 ≤ s.markNumber mp) : s.placeMark mp p = .refused .quota [] := if_pos h

theorem State.placeMark_full (h : s.markNumber mp < 24) (hfull : 64 ≤ s.marks.length) :
    s.placeMark mp p = .refused .full [] := by
  rw [State.placeMark, if_neg (not_le.mpr h), if_pos hfull]

theorem State.placeMark_tooLate (h : s.markNumber mp < 24) (hroom : s.marks.length < 64)
    (hlate : s.tooLate (s.takingOf p) = true) : s.placeMark mp p = .refused .tooLate [] := by
  rw [State.placeMark, if_neg (not_le.mpr h), if_neg (not_le.mpr hroom), if_pos hlate]

theorem State.placeMark_taken {id : Nat} (h : s.markNumber mp < 24) (hroom : s.marks.length < 64)
    (hlate : ¬ s.tooLate (s.takingOf p) = true) (hid : s.freeMarkId = some id) :
    s.placeMark mp p = .taken { s with marks := insertMark (s.newMark mp id p) s.marks }
      (pack [fCode id, fInstant (s.newMark mp id p).taking]) := by
  rw [State.placeMark, if_neg (not_le.mpr h), if_neg (not_le.mpr hroom), if_neg hlate]
  simp only [hid]

theorem State.addMarkAct_freerun {ws : List Word} (h : s.engine.state = .freerun) :
    addMarkAct mp ws s = .refused .state [] := if_pos h

theorem State.addMarkAct_range {ws : List Word} (h : s.engine.state ≠ .freerun) (hp : addMarkParams ws = none) :
    addMarkAct mp ws s = .refused .range [] := by
  rw [addMarkAct, if_neg h, hp]
  rfl

theorem State.addMarkAct_placed {ws : List Word} (h : s.engine.state ≠ .freerun) (hp : addMarkParams ws = some p) :
    addMarkAct mp ws s = s.placeMark mp p := by
  rw [addMarkAct, if_neg h, hp]
  rfl

end

/-- The new mark is one more of its owner's. -/
theorem countP_insertMark (m : Mark) (ms : List Mark) :
    (insertMark m ms).countP (fun x => decide (x.owner = m.owner)) =
      ms.countP (fun x => decide (x.owner = m.owner)) + 1 := by
  rw [(insertMark_perm m ms).countP_eq, List.countP_cons_of_pos (by simp)]

/-- Settles O29: the checks are taken in their order, and a list of fewer than 64 marks leaves an id free. -/
theorem addMarkPlacesTheMark : Obligations.AddMarkPlacesTheMark := by
  intro s mp ws hw hwf
  have refuse : ∀ {code}, addMarkAct mp ws s = .refused code [] → exec (.addMark mp) s = .next (s.finish mp code []) :=
    fun ha => next_congr (State.takeCommand_refused hw ha)
  refine ⟨fun hf => refuse (State.addMarkAct_freerun hf), fun hf =>
    ⟨fun hp => refuse (State.addMarkAct_range hf hp), fun p hp => ?_⟩⟩
  have hact := State.addMarkAct_placed (mp := mp) hf hp
  obtain ⟨hlines, _⟩ := (addMarkParams_iff ws p).mp hp
  obtain ⟨hbound, hmost⟩ := s.largestCompensation_spec hlines
  have hlate := s.tooLate_iff (s.takingOf p)
  refine ⟨s.largestCompensation p.lines, hbound, hmost, fun h => refuse (hact.trans (State.placeMark_quota h)),
    fun h hfull => refuse (hact.trans (State.placeMark_full h hfull.ge)),
    fun h hroom hl => refuse (hact.trans (State.placeMark_tooLate h hroom (hlate.mpr hl))), fun h hroom hl => ?_⟩
  obtain ⟨id, hid, hlt, hfree, hbelow⟩ := State.exists_freeMarkId hroom
  have htaking := s.newMark_taking mp id p
  obtain ⟨_, hsorted, _⟩ := hwf
  refine ⟨id, s.newMark mp id p, insertMark (s.newMark mp id p) s.marks, ?_, hlt, hfree, hbelow, ?_,
    insertMark_perm _ _, ?_, countP_insertMark (s.newMark mp id p) s.marks⟩
  · rw [← htaking]
    exact next_congr (State.takeCommand_taken hw
      (hact.trans (State.placeMark_taken h hroom (fun hx => hl (hlate.mp hx)) hid)))
  · rw [← htaking]
    rfl
  · exact (insertMark_pairwise hfree hsorted).imp fun hab => (Mark.before_iff _ _).mp hab

end Sys2Proof.Machine
end

section
/-! SUPPORT. CANCEL_MARK and TAKE_OUTCOMES: the mark an id names, and the layout of a result of outcomes (R89, R94, R95,
10.4). -/

namespace Sys2Proof.Machine

open Sys2Proof

/-! ### CANCEL_MARK (R89) -/

section
variable {s : State} {m : Mark} {id : Nat}

theorem State.markWithId_none (h : ∀ m ∈ s.marks, m.id ≠ id) : s.markWithId id = none :=
  List.find?_eq_none.mpr fun m hm => by simpa using h m hm

/-- Of a list of ids apart an id names the one mark that holds it. -/
theorem State.markWithId_mem (hids : (s.marks.map (·.id)).Nodup) (hm : m ∈ s.marks) : s.markWithId m.id = some m := by
  obtain ⟨m', hm'⟩ := (s.markWithId_isSome m.id).mpr ⟨m, hm, rfl⟩
  obtain ⟨hmem, hsame⟩ := State.markWithId_some hm'
  rw [hm', List.inj_on_of_nodup_map hids hmem hm hsame]

theorem State.cancelById_none (h : s.markWithId id = none) (mp : Mp) : s.cancelById mp id = .refused .notFound [] := by
  simp only [State.cancelById, h]

theorem State.cancelById_other (h : s.markWithId id = some m) {mp : Mp} (howner : m.owner ≠ mp) :
    s.cancelById mp id = .refused .notOwner [] := by
  simp only [State.cancelById, h, if_neg howner]

theorem State.cancelById_own (h : s.markWithId id = some m) {mp : Mp} (howner : m.owner = mp) :
    s.cancelById mp id = .taken (s.cancelMark m) (pack (.bits 16 m.tag :: m.countFields)) := by
  simp only [State.cancelById, h, if_pos howner]

theorem cancelMarkAct_range {mp : Mp} {ws : List Word} (h : 64 ≤ wordAt ws 0 % 2 ^ 8) :
    cancelMarkAct mp ws s = .refused .range [] := by
  have hnone : cancelMarkParams ws = none := if_neg fun hin => absurd hin.2 (by omega)
  rw [cancelMarkAct, hnone]
  rfl

theorem cancelMarkAct_inRange {mp : Mp} {ws : List Word} (h : wordAt ws 0 % 2 ^ 8 < 64) :
    cancelMarkAct mp ws s = s.cancelById mp (wordAt ws 0 % 2 ^ 8) := by
  have hsome : cancelMarkParams ws = some (wordAt ws 0 % 2 ^ 8) := (inRange_iff _ _ _ _).mpr ⟨rfl, by omega, by omega⟩
  rw [cancelMarkAct, hsome]
  rfl

end

/-! ### The layout of a result of outcomes (10.4) -/

/-- The fields of an outcome after its new word. -/
def Outcome.body (o : Outcome) : List Field :=
  [fCode o.id, .bits 16 o.tag, fCode o.owner.val, fCode o.outcome.code, fInstant o.lastDue, .bits 16 o.fired,
    .bits 16 o.withheld, .bits 16 o.skipped, .bits 16 o.partialTakes]

theorem Outcome.fields_eq (o : Outcome) : o.fields = .newWord :: o.body := rfl

theorem pack_outcomeBody (o : Outcome) : pack o.body = o.words := by
  have hcounts := pack_bits (fields := [(16, o.fired), (16, o.withheld), (16, o.skipped), (16, o.partialTakes)])
    (by simp) (by simp)
  unfold Outcome.body
  rw [fInstant_value]
  refine (pack_bits_instant (fields := [(8, o.id), (16, o.tag), (8, o.owner.val), (8, o.outcome.code)]) (by simp)
    (by simp) _ _).trans ?_
  exact congrArg (fun ws => _ :: _ :: ws) hcounts

theorem pack_code (n : Nat) : pack [fCode n] = [wordOf [(8, n)]] := pack_bits (fields := [(8, n)]) (by simp) (by simp)

/-- Each outcome fills the words that its fields begin, whatever stands before. -/
theorem pack_outcomes (os : List Outcome) (before : List Field) (n : Nat) :
    pack (before ++ os.flatMap Outcome.fields ++ [.newWord, fCode n]) =
      pack before ++ os.flatMap Outcome.words ++ [wordOf [(8, n)]] := by
  induction os generalizing before with
  | nil =>
    simp only [List.flatMap_nil, List.append_nil]
    rw [pack_newWord, pack_code]
  | cons o os ih =>
    simp only [List.flatMap_cons, Outcome.fields_eq, List.cons_append, List.append_assoc]
    rw [pack_newWord]
    have hrest := ih o.body
    simp only [List.append_assoc] at hrest
    rw [hrest, pack_outcomeBody]
    rfl

/-- TAKE_OUTCOMES takes up to four outcomes, and its result has the layout of 10.4. -/
theorem takeOutcomesAct_eq (mp : Mp) (ws : List Word) (s : State) :
    takeOutcomesAct mp ws s = .taken (s.setQueue mp ((s.queue mp).drop 4))
      (wordOf [(8, min 4 (s.queue mp).length)] :: ((s.queue mp).take 4).flatMap Outcome.words
        ++ [wordOf [(8, (s.queue mp).length - 4)]]) := by
  have hpack := pack_outcomes ((s.queue mp).take 4) [fCode ((s.queue mp).take 4).length] ((s.queue mp).drop 4).length
  rw [pack_code, List.length_take, List.length_drop] at hpack
  unfold takeOutcomesAct
  simp only [List.length_take, List.length_drop]
  exact congrArg _ hpack

/-- Settles O30: the three ways of an outcome, the mark that the id names, and the layout of the outcomes taken. -/
theorem marksAreCancelledAndOutcomesTaken : Obligations.MarksAreCancelledAndOutcomesTaken := by
  refine ⟨fun s o => ?_, fun s mp ws hw hwf => ?_, fun s mp ws hw => ?_⟩
  · rcases s.handOutcome_cases o with ⟨hq, h⟩ | ⟨hq, hl, h⟩ | ⟨hl, h⟩
    · exact ⟨fun _ => h, fun hn => absurd hq hn, fun hl => absurd hl (by rw [hq]; decide)⟩
    · exact ⟨fun he => absurd he hq, fun _ _ => h, fun hn => absurd hl (not_lt.mpr hn)⟩
    · exact ⟨fun he => absurd hl (by rw [he]; decide), fun _ hn => absurd hn (not_lt.mpr hl), fun _ => h⟩
  · obtain ⟨_, _, hids, _, hmarks, _⟩ := hwf
    refine ⟨fun hid => next_congr (State.takeCommand_refused hw (cancelMarkAct_range hid)), fun hid hno => ?_,
      fun m hm hmid => ?_⟩
    · exact next_congr (State.takeCommand_refused hw
        ((cancelMarkAct_inRange hid).trans (State.cancelById_none (State.markWithId_none hno) mp)))
    · obtain ⟨hlt, _⟩ := hmarks m hm
      have hnamed := State.markWithId_mem hids hm
      rw [hmid] at hlt hnamed
      have hact := cancelMarkAct_inRange (s := s) (mp := mp) hlt
      refine ⟨fun howner => ?_, fun howner => ?_⟩
      · exact next_congr (State.takeCommand_refused hw (hact.trans (State.cancelById_other hnamed howner)))
      · have hown := State.takeCommand_taken hw (hact.trans (State.cancelById_own hnamed howner))
        rw [← hmid, ← howner]
        rw [← howner] at hown
        exact next_congr hown
  · exact next_congr (State.takeCommand_taken hw (takeOutcomesAct_eq mp ws s))

end Sys2Proof.Machine
end

section
/-! SUPPORT. What an event that acts on the output lines one after another leaves, line by line, and a taking that finds no
mark due (R83, R114). -/

namespace Sys2Proof.Machine

open Sys2Proof

/-! ### The lines, one after another -/

/-- `u` is `t` with the lines `is` become the records `new`; a load fault on any of them is posted. -/
structure State.linesBecome (t : State) (new : LineId → Line) (fault : LineId → Prop) (is : List LineId) (u : State) : Prop where
  only : t.onlyLines u
  line : ∀ i ∈ is, u.line i = new i
  others : ∀ i, i ∉ is → u.line i = t.line i
  quiet : (∀ i ∈ is, ¬ fault i) → u.ports = t.ports
  posted : (∃ i ∈ is, fault i) → ∀ mp, u.port mp = (t.port mp).withFlag .lineFault

/-- To post an event twice is to post it once. -/
theorem MasterPort.withFlag_withFlag (p : MasterPort) (e : Event) : (p.withFlag e).withFlag e = p.withFlag e := by
  simp [MasterPort.withFlag, BitVec.or_assoc]

@[simp] theorem State.line_post (s : State) (e : Event) (i : LineId) : (s.post e).line i = s.line i := rfl

section
variable {s t u v : State} {new : LineId → Line} {fault : LineId → Prop} {i : LineId} {is : List LineId}

theorem State.linesBecome.nil : t.linesBecome new fault [] t where
  only := t.onlyLines_refl
  line _ h := nomatch h
  others _ _ := rfl
  quiet _ := rfl
  posted := fun ⟨_, h, _⟩ => nomatch h

theorem State.linesBecome.setLine {l : Line} (hl : l = new i) (hf : ¬ fault i) :
    t.linesBecome new fault [i] (t.setLine i l) where
  only := t.onlyLines_setLine i l
  line j hj := by
    rw [List.mem_singleton.mp hj, State.line_setLine, hl]
  others j hj := State.line_setLine_other _ (fun he => hj (List.mem_singleton.mpr he)) _
  quiet _ := rfl
  posted := fun ⟨j, hj, hfault⟩ => absurd (List.mem_singleton.mp hj ▸ hfault) hf

theorem State.linesBecome.kept (hl : t.line i = new i) (hf : ¬ fault i) : t.linesBecome new fault [i] t where
  only := t.onlyLines_refl
  line j hj := by rw [List.mem_singleton.mp hj, hl]
  others _ _ := rfl
  quiet _ := rfl
  posted := fun ⟨j, hj, hfault⟩ => absurd (List.mem_singleton.mp hj ▸ hfault) hf

theorem State.linesBecome.faulted {l : Line} (hl : l = new i) (hf : fault i) :
    t.linesBecome new fault [i] ((t.setLine i l).post .lineFault) where
  only := (t.onlyLines_setLine i l).trans (State.onlyLines_post _ _)
  line j hj := by rw [List.mem_singleton.mp hj, State.line_post, State.line_setLine, hl]
  others j hj := State.line_setLine_other _ (fun he => hj (List.mem_singleton.mpr he)) _
  quiet hno := absurd hf (hno i List.mem_cons_self)
  posted _ mp := State.port_post _ _ mp

/-- What the line was before does not matter. -/
theorem State.linesBecome.of_setLine {l : Line} (h : (t.setLine i l).linesBecome new fault [i] u) :
    t.linesBecome new fault [i] u where
  only := (t.onlyLines_setLine i l).trans h.only
  line := h.line
  others j hj := (h.others j hj).trans (State.line_setLine_other _ (fun he => hj (List.mem_singleton.mpr he)) _)
  quiet := h.quiet
  posted := h.posted

/-- One line, then the rest. -/
theorem State.linesBecome.cons (hi : i ∉ is) (h : t.linesBecome new fault [i] v) (hr : v.linesBecome new fault is u) :
    t.linesBecome new fault (i :: is) u where
  only := h.only.trans hr.only
  line j hj := by
    rcases List.mem_cons.mp hj with rfl | hj
    · exact (hr.others j hi).trans (h.line j List.mem_cons_self)
    · exact hr.line j hj
  others j hj := by
    obtain ⟨hne, hj⟩ := not_or.mp (fun he => hj (List.mem_cons.mpr he))
    exact (hr.others j hj).trans (h.others j fun he => hne (List.mem_singleton.mp he))
  quiet hno := (hr.quiet fun j hj => hno j (List.mem_cons_of_mem i hj)).trans
    (h.quiet fun j hj => hno j (List.mem_singleton.mp hj ▸ List.mem_cons_self))
  posted := by
    rintro hsome mp
    by_cases hrest : ∃ j ∈ is, fault j
    · rw [hr.posted hrest]
      by_cases hfi : fault i
      · rw [h.posted ⟨i, List.mem_cons_self, hfi⟩, MasterPort.withFlag_withFlag]
      · rw [State.port, h.quiet fun j hj => List.mem_singleton.mp hj ▸ hfi]
        rfl
    · have hfi : fault i := by
        obtain ⟨j, hj, hf⟩ := hsome
        rcases List.mem_cons.mp hj with rfl | hj
        · exact hf
        · exact absurd ⟨j, hj, hf⟩ hrest
      rw [State.port, hr.quiet fun j hj hf => hrest ⟨j, hj, hf⟩]
      exact h.posted ⟨i, List.mem_cons_self, hfi⟩ mp

/-- Lines acted on one after another, what becomes of each as its own record and the state of the other blocks say. -/
theorem State.linesBecome.foldl {act : State → LineId → State}
    (hact : ∀ t i, s.onlyLines t → t.line i = s.line i → t.linesBecome new fault [i] (act t i)) (hnodup : is.Nodup)
    (ht : s.onlyLines t) (hsame : ∀ i ∈ is, t.line i = s.line i) : t.linesBecome new fault is (is.foldl act t) := by
  induction is generalizing t with
  | nil => exact .nil
  | cons i is ih =>
    obtain ⟨hi, hnodup⟩ := List.nodup_cons.mp hnodup
    have hone := hact t i ht (hsame i List.mem_cons_self)
    refine .cons hi hone (ih hnodup (ht.trans hone.only) fun j hj => ?_)
    have hne : j ∉ [i] := fun he => hi (List.mem_singleton.mp he ▸ hj)
    exact (hone.others j hne).trans (hsame j (List.mem_cons_of_mem i hj))

/-- All the lines, one after another. -/
theorem State.linesBecome.foldl_allLines {act : State → LineId → State}
    (hact : ∀ t i, s.onlyLines t → t.line i = s.line i → t.linesBecome new fault [i] (act t i)) :
    s.linesBecome new fault allLines (allLines.foldl act s) :=
  .foldl hact (List.nodup_finRange 16) s.onlyLines_refl fun _ _ => rfl

end

theorem mem_allLines (i : LineId) : i ∈ allLines := List.mem_finRange i

/-! ### Load faults -/

theorem State.loadFault_eq (s : State) (i : LineId) (l : Line) :
    s.loadFault i l = (s.setLine i l.faulted).post .lineFault := by
  unfold Line.faulted
  cases he : l.emission <;> simp only [State.loadFault, he]

theorem State.line_loadFault (s : State) (i : LineId) (l : Line) : (s.loadFault i l).line i = l.faulted := by
  rw [State.loadFault_eq, State.line_post, State.line_setLine]

theorem loadIn_ne_good {faulty : BitVec 16} {i : LineId} : loadIn faulty i ≠ .good ↔ inSet faulty i = true := by
  unfold loadIn
  split <;> simp_all

theorem State.onlyLines.ts {s t : State} (h : s.onlyLines t) : t.ts = s.ts := by rw [h.eq]

/-! ### No mark is due -/

/-- A taking overtaken by a step brings a load fault to line `i`. -/
abbrev State.overtakenFault (s : State) (faulty : BitVec 16) (i : LineId) : Prop :=
  inSet faulty i = true ∧ s.overtakenIn i .marks

theorem State.judgeOvertakenAll_linesBecome (s : State) (faulty : BitVec 16) :
    s.linesBecome (fun i => if s.overtakenFault faulty i then (s.line i).faulted else s.line i) (s.overtakenFault faulty)
      allLines (s.judgeOvertakenAll faulty) := by
  refine State.linesBecome.foldl_allLines fun t i ht hi => ?_
  by_cases hf : s.overtakenFault faulty i
  · have hover : t.overtakenIn i .marks := by
      obtain ⟨_, hover⟩ := hf
      unfold State.overtakenIn at hover ⊢
      rwa [hi, ht.ts]
    rw [State.judgeOvertaken_fault hover (loadIn_ne_good.mpr hf.1), State.loadFault_eq]
    exact .faulted (by rw [if_pos hf, hi]) hf
  · have hnone : t.judgeOvertaken i .marks (loadIn faulty i) = t := by
      rcases t.judgeOvertaken_cases i .marks (loadIn faulty i) with h | ⟨hload, hover⟩
      · exact h
      · obtain ⟨hstate, hmode, hat, _⟩ := hover
        rw [hi] at hstate hmode hat
        rw [ht.ts] at hat
        exact absurd ⟨loadIn_ne_good.mp hload, hstate, hmode, hat⟩ hf
    rw [hnone]
    exact .kept (by rw [if_neg hf, hi]) hf

/-- A taking with no mark due judges the starts that a step took away. -/
theorem exec_markTaking_notDue {s : State} (hr : s.resetHeld = false)
    (hdue : ∀ m ∈ s.marks.head?, s.hasReached m.taking = false) (faulty : BitVec 16) :
    exec (.markTaking faulty) s = .next (s.judgeOvertakenAll faulty) := by
  refine next_congr ?_
  unfold markTakingState
  rw [State.unlessHeld_released hr]
  cases hm : s.marks with
  | nil => rfl
  | cons m rest =>
    have hnot : s.hasReached m.taking = false := hdue m (by rw [hm]; rfl)
    simp only [hnot, Bool.false_eq_true, if_false]

/-- A taking with the head of the list due takes it. -/
theorem exec_markTaking_due {s : State} {m : Mark} {rest : List Mark} (hr : s.resetHeld = false) (hm : s.marks = m :: rest)
    (hdue : s.hasReached m.taking = true) (faulty : BitVec 16) :
    exec (.markTaking faulty) s = .next ({ s with marks := rest }.takeMark m faulty) := by
  refine next_congr ?_
  unfold markTakingState
  rw [State.unlessHeld_released hr]
  simp only [hm, hdue, if_true]

end Sys2Proof.Machine
end

section
/-! SUPPORT. The taking of a mark: what becomes of a line that gets its commitment, of the lines of the mark's set, and of
the mark (R84 to R87, R109, R110, R114). -/

namespace Sys2Proof.Machine

open Sys2Proof

/-! ### One start (R110, R114) -/

/-- The record of a line that acts on a commitment: the pulse in flight takes it in, or a pulse starts, and ends at once
on a load fault. -/
def Line.started (l : Line) (c : Commitment) (load : Load) : Line :=
  match l.emission with
  | .pulse kind ends =>
    { l with emission := .pulse kind (laterOf ends c.ends), flags := { l.flags with markMerged := true } }
  | _ => if load = .good then l.startPulse .mark c.ends else (l.startPulse .mark c.ends).faulted

/-- No pulse is in flight on the line. -/
def Line.idle (l : Line) : Prop := ∀ kind ends, l.emission ≠ .pulse kind ends

theorem Line.started_pulse {l : Line} {kind : PulseKind} {ends : Instant} (h : l.emission = .pulse kind ends)
    (c : Commitment) (load : Load) :
    l.started c load =
      { l with emission := .pulse kind (laterOf ends c.ends), flags := { l.flags with markMerged := true } } := by
  simp only [Line.started, h]

theorem Line.started_idle {l : Line} (h : l.idle) (c : Commitment) (load : Load) :
    l.started c load = if load = .good then l.startPulse .mark c.ends else (l.startPulse .mark c.ends).faulted := by
  unfold Line.started
  split
  · rename_i kind ends he
    exact absurd he (h kind ends)
  · rfl

section
variable {s t : State} {new : LineId → Line} {fault : LineId → Prop} {i : LineId} {c : Commitment} {load : Load}

theorem State.startCommitment_linesBecome (hnew : new i = (t.line i).started c load)
    (hfault : fault i ↔ (t.line i).idle ∧ load ≠ .good) :
    t.linesBecome new fault [i] (t.startCommitment i c load) := by
  rcases t.startCommitment_cases i c load with ⟨kind, ends, he, h⟩ | ⟨hidle, h⟩ <;> rw [h]
  · exact .setLine (hnew.trans (Line.started_pulse he c load)).symm fun hf => (hfault.mp hf).1 kind ends he
  · rw [Line.started_idle hidle] at hnew
    rcases State.judgeLoad_cases (t.setLine i ((t.line i).startPulse .mark c.ends)) i load with
      ⟨hload, hj⟩ | ⟨hload, hj⟩ <;> rw [hj]
    · exact .setLine (by rw [hnew, if_pos hload]) fun hf => (hfault.mp hf).2 hload
    · rw [State.line_setLine]
      exact .of_setLine (.faulted (by rw [hnew, if_neg hload]) (hfault.mpr ⟨hidle, hload⟩))

/-! ### A commitment accepted (R109, R110) -/

/-- The line's record once a commitment acted on at once has left its list again. -/
def Line.joinedLess (l : Line) (c : Commitment) : Line :=
  { l.joinCommitment c with commitments := (l.joinCommitment c).commitments.erase c }

theorem Line.emission_joinCommitment (l : Line) (c : Commitment) : (l.joinCommitment c).emission = l.emission := by
  unfold Line.joinCommitment
  dsimp only
  split <;> rfl

/-- A commitment accepted is acted on at once where its start is reached and it is not the one dropped. -/
abbrev State.atOnce (s : State) (l : Line) (c : Commitment) : Prop :=
  s.hasReached c.start = true ∧ c ∈ (l.joinCommitment c).commitments

theorem State.commit_linesBecome
    (hwaits : ¬ t.atOnce (t.line i) c → new i = (t.line i).joinCommitment c)
    (hacted : t.atOnce (t.line i) c → new i = ((t.line i).joinedLess c).started c load)
    (hfault : fault i ↔ t.atOnce (t.line i) c ∧ (t.line i).idle ∧ load ≠ .good) :
    t.linesBecome new fault [i] (t.commit i c load) := by
  rcases t.commit_cases i c load with ⟨hat, h⟩ | ⟨hat, h⟩ <;> rw [h]
  · exact .setLine (hwaits hat).symm fun hf => hat (hfault.mp hf).1
  · have hidle : ((t.line i).joinedLess c).idle ↔ (t.line i).idle := by
      unfold Line.idle Line.joinedLess
      rw [Line.emission_joinCommitment]
    refine .of_setLine (.of_setLine (State.startCommitment_linesBecome ?_ ?_)) <;> rw [State.line_setLine]
    · exact hacted hat
    · exact hfault.trans ((and_iff_right hat).trans (and_congr_left' hidle.symm))

end

/-! ### The lines of a mark's set (R85) -/

/-- The mark gets a commitment on line `i`. -/
abbrev State.fires (s : State) (m : Mark) (i : LineId) : Prop := inSet m.lines i = true ∧ s.accepts m (s.line i) = true

/-- The mark does not, though the line is of its set. -/
abbrev State.refuses (s : State) (m : Mark) (i : LineId) : Prop := inSet m.lines i = true ∧ ¬ s.accepts m (s.line i) = true

/-- What is done on line `i` when a mark is offered to it. -/
def State.offer (m : Mark) (faulty : BitVec 16) (s : State) (i : LineId) : State :=
  if s.fires m i then s.commit i (m.commitmentFor (s.line i)) (loadIn faulty i) else s

/-- The line's record after the offer. -/
def State.offeredLine (s : State) (m : Mark) (faulty : BitVec 16) (i : LineId) : Line :=
  let c := m.commitmentFor (s.line i)
  if s.fires m i then
    if s.atOnce (s.line i) c then ((s.line i).joinedLess c).started c (loadIn faulty i) else (s.line i).joinCommitment c
  else s.line i

/-- The offer brings a load fault to the line. -/
def State.offerFaults (s : State) (m : Mark) (faulty : BitVec 16) (i : LineId) : Prop :=
  s.fires m i ∧ s.atOnce (s.line i) (m.commitmentFor (s.line i)) ∧ (s.line i).idle ∧ inSet faulty i = true

section
variable {s t : State} {m : Mark} {faulty : BitVec 16} {i : LineId} {is : List LineId} {yes no : Nat}

theorem State.onlyLines.accepts (h : s.onlyLines t) (m : Mark) (l : Line) : t.accepts m l = s.accepts m l := by
  rw [h.eq]
  rfl

theorem State.onlyLines.hasReached (h : s.onlyLines t) (x : Instant) : t.hasReached x = s.hasReached x := by
  rw [h.eq]
  rfl

/-- Whether a line gets a commitment rests on its own record alone. -/
theorem State.onlyLines.fires_iff (h : s.onlyLines t) (hi : t.line i = s.line i) (m : Mark) :
    t.fires m i ↔ s.fires m i := by
  simp only [State.fires, h.accepts, hi]

theorem State.onlyLines.refuses_iff (h : s.onlyLines t) (hi : t.line i = s.line i) (m : Mark) :
    t.refuses m i ↔ s.refuses m i := by
  simp only [State.refuses, h.accepts, hi]

theorem State.offer_linesBecome (h : s.onlyLines t) (hi : t.line i = s.line i) (m : Mark) (faulty : BitVec 16) :
    t.linesBecome (s.offeredLine m faulty) (s.offerFaults m faulty) [i] (t.offer m faulty i) := by
  have hsame : ∀ c, t.atOnce (t.line i) c ↔ s.atOnce (s.line i) c := fun c => by
    simp only [State.atOnce, h.hasReached, hi]
  unfold State.offer
  by_cases hf : s.fires m i
  · rw [if_pos ((h.fires_iff hi m).mpr hf)]
    refine State.commit_linesBecome (fun hat => ?_) (fun hat => ?_) ?_
    · rw [hsame, hi] at hat
      rw [State.offeredLine, if_pos hf, if_neg hat, hi]
    · rw [hsame, hi] at hat
      rw [State.offeredLine, if_pos hf, if_pos hat, hi]
    · rw [State.offerFaults, hsame, hi, loadIn_ne_good, and_iff_right hf]
  · rw [if_neg fun hx => hf ((h.fires_iff hi m).mp hx)]
    exact .kept (by rw [State.offeredLine, if_neg hf, hi]) fun hx => hf hx.1

/-- One line of the offers, and what it adds to the counts. -/
theorem offerLines_cons (m : Mark) (faulty : BitVec 16) (i : LineId) (is : List LineId) (t : State) (yes no : Nat) :
    offerLines m faulty (i :: is) (t, yes, no) =
      offerLines m faulty is
        (t.offer m faulty i, yes + (if t.fires m i then 1 else 0), no + (if t.refuses m i then 1 else 0)) := by
  rw [offerLines, State.offer]
  by_cases hset : inSet m.lines i = true
  · by_cases hacc : t.accepts m (t.line i) = true
    · simp only [State.fires, State.refuses, hset, hacc, if_true, not_true, and_self, and_false, if_false, Nat.add_zero]
    · simp only [State.fires, State.refuses, hset, hacc, if_true, not_false_eq_true, and_self, and_false, if_false,
        Nat.add_zero, Bool.false_eq_true]
  · simp only [State.fires, State.refuses, hset, false_and, if_false, Nat.add_zero, Bool.false_eq_true]

/-- The offers and their counts, line after line: each line acts as its own record says. -/
theorem offerLines_eq (hnodup : is.Nodup) (ht : s.onlyLines t) (hsame : ∀ i ∈ is, t.line i = s.line i) (yes no : Nat) :
    offerLines m faulty is (t, yes, no) =
      (is.foldl (State.offer m faulty) t, yes + is.countP (fun i => decide (s.fires m i)),
        no + is.countP (fun i => decide (s.refuses m i))) := by
  induction is generalizing t yes no with
  | nil => rfl
  | cons i is ih =>
    obtain ⟨hi, hnodup⟩ := List.nodup_cons.mp hnodup
    have hline := hsame i List.mem_cons_self
    have hone := State.offer_linesBecome ht hline m faulty
    have hrest : ∀ j ∈ is, (t.offer m faulty i).line j = s.line j := fun j hj =>
      (hone.others j fun he => hi (List.mem_singleton.mp he ▸ hj)).trans (hsame j (List.mem_cons_of_mem i hj))
    rw [offerLines_cons, ih hnodup (ht.trans hone.only) hrest, List.foldl_cons, List.countP_cons, List.countP_cons]
    simp only [ht.fires_iff hline m, ht.refuses_iff hline m, decide_eq_true_eq]
    congr 2 <;> omega

theorem nodup_allLines : allLines.Nodup := List.nodup_finRange 16

/-- The offers to all the lines. -/
theorem offerLines_allLines (s : State) (m : Mark) (faulty : BitVec 16) :
    offerLines m faulty allLines (s, 0, 0) =
      (allLines.foldl (State.offer m faulty) s, allLines.countP (fun i => decide (s.fires m i)),
        allLines.countP (fun i => decide (s.refuses m i))) := by
  rw [offerLines_eq nodup_allLines s.onlyLines_refl (fun _ _ => rfl), Nat.zero_add, Nat.zero_add]

/-- Where no line of the set accepts, nothing is done but to count. -/
theorem State.foldl_offer_none (h : ∀ i, ¬ s.fires m i) (is : List LineId) : is.foldl (State.offer m faulty) s = s := by
  induction is with
  | nil => rfl
  | cons i is ih => rw [List.foldl_cons, State.offer, if_neg (h i), ih]

theorem State.offeredLine_waits (hf : s.fires m i) (hat : ¬ s.atOnce (s.line i) (m.commitmentFor (s.line i))) :
    s.offeredLine m faulty i = (s.line i).joinCommitment (m.commitmentFor (s.line i)) := by
  rw [State.offeredLine, if_pos hf, if_neg hat]

theorem State.offeredLine_starts (hf : s.fires m i) (hat : s.atOnce (s.line i) (m.commitmentFor (s.line i))) :
    s.offeredLine m faulty i =
      ((s.line i).joinedLess (m.commitmentFor (s.line i))).started (m.commitmentFor (s.line i)) (loadIn faulty i) := by
  rw [State.offeredLine, if_pos hf, if_pos hat]

end

theorem Line.emission_joinedLess (l : Line) (c : Commitment) : (l.joinedLess c).emission = l.emission :=
  l.emission_joinCommitment c

theorem Line.started_good {l : Line} (h : l.idle) {faulty : BitVec 16} {i : LineId} (hload : inSet faulty i = false)
    (c : Commitment) : l.started c (loadIn faulty i) = l.startPulse .mark c.ends := by
  rw [Line.started_idle h, if_pos (of_not_not fun hn => by simp [loadIn_ne_good.mp hn] at hload)]

theorem Line.started_faulty {l : Line} (h : l.idle) {faulty : BitVec 16} {i : LineId} (hload : inSet faulty i = true)
    (c : Commitment) : l.started c (loadIn faulty i) = (l.startPulse .mark c.ends).faulted := by
  rw [Line.started_idle h, if_neg (loadIn_ne_good.mpr hload)]

/-! ### The mark (R86, R87) -/

section
variable {s : State} {m : Mark} {faulty : BitVec 16}

theorem State.accepts_iff (s : State) (m : Mark) (l : Line) :
    s.accepts m l = true ↔ l.state = .running ∧ l.settings.mode = .marks ∧
      gatePasses l.settings.gate s.engine.announced = true ∧ m.taking + l.settings.compensation ≤ m.due := by
  simp only [State.accepts, State.gradeTaken, Bool.and_eq_true, decide_eq_true_eq, and_assoc]

theorem State.withholds_iff (s : State) (m : Mark) :
    s.withholds m = true ↔ gatePasses m.minGrade s.engine.announced = false := by
  simp only [State.withholds, State.gradeTaken, Bool.not_eq_true']

/-- A taking that is withheld, by the grade or since no line accepts, leaves the lines alone (R84, R86). -/
theorem State.takeMark_withheld (h : s.withholds m = true ∨ ∀ i, ¬ s.fires m i) :
    s.takeMark m faulty = s.retireOrRearm { m with withheld := sat16 m.withheld } := by
  unfold State.takeMark
  by_cases hgrade : s.withholds m = true
  · rw [if_pos hgrade]
  · have hnone := h.resolve_left hgrade
    have hcount : allLines.countP (fun i => decide (s.fires m i)) = 0 :=
      List.countP_eq_zero.mpr fun i _ => by rw [decide_eq_true_eq]; exact hnone i
    rw [if_neg hgrade, offerLines_allLines,
      State.foldl_offer_none hnone, hcount]
    rfl

/-- A taking that fires: the offers, line after line, and the mark counts a firing, and a partial one where a line
refused (R86). -/
theorem State.takeMark_fires (hgrade : ¬ s.withholds m = true) {i : LineId} (hi : s.fires m i) :
    s.takeMark m faulty =
      (allLines.foldl (State.offer m faulty) s).retireOrRearm
        { m with
          fired := sat16 m.fired
          partialTakes := if ∃ i, s.refuses m i then sat16 m.partialTakes else m.partialTakes } := by
  have hyes : allLines.countP (fun i => decide (s.fires m i)) ≠ 0 := fun h0 =>
    List.countP_eq_zero.mp h0 i (mem_allLines i) (decide_eq_true hi)
  have hno : allLines.countP (fun i => decide (s.refuses m i)) = 0 ↔ ¬ ∃ i, s.refuses m i := by
    rw [List.countP_eq_zero, not_exists]
    exact ⟨fun h i hr => h i (mem_allLines i) (decide_eq_true hr), fun h i _ hr => h i (of_decide_eq_true hr)⟩
  unfold State.takeMark
  rw [if_neg hgrade, offerLines_allLines]
  simp only [Mark.counted, hyes, hno, if_false, ite_not]

end

/-! ### The shape of the records (R109) -/

/-- A commitment joins behind those that start no later; of 65 the last is dropped. -/
theorem Line.joinCommitment_eq (l : Line) (c : Commitment) :
    let joined := l.commitments.takeWhile (fun x => decide (x.start ≤ c.start)) ++
      c :: l.commitments.dropWhile (fun x => decide (x.start ≤ c.start))
    l.joinCommitment c =
      { l with
        commitments := joined.take 64
        flags := { l.flags with pulseDropped := l.flags.pulseDropped || decide (64 < joined.length) } } := by
  unfold Line.joinCommitment
  rw [insertBy_start]
  dsimp only
  split <;> rename_i hlen
  · rw [List.take_of_length_le hlen, decide_eq_false (not_lt.mpr hlen), Bool.or_false]
  · rw [decide_eq_true (not_le.mp hlen), Bool.or_true]

/-- Settles O31: each line acts as its own record says, so the offers come apart line by line. -/
theorem markTakingFiresAndRearms : Obligations.MarkTakingFiresAndRearms := by
  refine ⟨fun s faulty hr hdue => ?_, fun s m rest faulty hr hm => ?_⟩
  · intro faults
    have hall := s.judgeOvertakenAll_linesBecome faulty
    refine ⟨_, exec_markTaking_notDue hr hdue faulty, hall.only.eq, fun i => ⟨fun hf => ?_, fun hf => ?_⟩,
      fun hno => hall.quiet fun i _ => hno i, fun ⟨i, hf⟩ => hall.posted ⟨i, mem_allLines i, hf⟩⟩
    · exact ((hall.line i (mem_allLines i)).trans (if_pos hf)).trans (s.line_loadFault i _).symm
    · exact (hall.line i (mem_allLines i)).trans (if_neg hf)
  · intro s0 comp accepts ended none'
    have hended : ∀ t x, ended t x = t.retireOrRearm x := fun t x => by
      simp only [ended, State.retireOrRearm]
      cases x.nextDue <;> rfl
    have haccepts : ∀ i, accepts i ↔ s0.accepts m (s0.line i) = true := fun i => (s0.accepts_iff m (s0.line i)).symm
    have hnone : none' ↔ s0.withholds m = true ∨ ∀ i, ¬ s0.fires m i := by
      simp only [none', haccepts, s0.withholds_iff, State.fires, not_and]
      exact Iff.rfl
    refine ⟨fun x => ?_, fun hdue hno => ?_, fun hdue hsome => ?_⟩
    · unfold Mark.nextDue
      cases x.period <;> rfl
    · rw [exec_markTaking_due hr hm hdue, hended, State.takeMark_withheld (hnone.mp hno)]
    · intro fires start offered joined waiting atOnce left begun inFlight faults
      obtain ⟨hgrade, hfires⟩ := not_or.mp fun h => hsome (hnone.mpr h)
      obtain ⟨i₀, hi₀⟩ := not_forall_not.mp hfires
      have hfires : ∀ i, fires i ↔ s0.fires m i := fun i => and_congr_right' (haccepts i)
      have hwaiting : ∀ i, waiting i = (s0.line i).joinCommitment (m.commitmentFor (s0.line i)) := fun i =>
        (Line.joinCommitment_eq (s0.line i) (m.commitmentFor (s0.line i))).symm
      have hatOnce : ∀ i, atOnce i ↔ s0.atOnce (s0.line i) (m.commitmentFor (s0.line i)) := fun i => by
        rw [State.atOnce, ← hwaiting]
        exact Iff.rfl
      have hleft : ∀ i, left i = (s0.line i).joinedLess (m.commitmentFor (s0.line i)) := fun i => by
        rw [Line.joinedLess, ← hwaiting]
        rfl
      have hidle : ∀ i, ¬ inFlight i → (left i).idle := fun i hno kind ends he => by
        rw [hleft, Line.emission_joinedLess] at he
        exact hno ⟨kind, ends, he⟩
      have hfaults : ∀ i, faults i ↔ s0.offerFaults m faulty i := fun i => by
        have hflight : ¬ inFlight i ↔ (s0.line i).idle :=
          ⟨fun h kind ends he => h ⟨kind, ends, he⟩, fun h ⟨kind, ends, he⟩ => h kind ends he⟩
        exact and_congr (hfires i) (and_congr (hatOnce i) (and_congr_left' hflight))
      have hall := State.linesBecome.foldl_allLines fun t i ht hi => State.offer_linesBecome (s := s0) ht hi m faulty
      have hline := fun i => hall.line i (mem_allLines i)
      refine ⟨allLines.foldl (State.offer m faulty) s0,
        { m with
          fired := sat16 m.fired
          partialTakes := if ∃ i, s0.refuses m i then sat16 m.partialTakes else m.partialTakes },
        ?_, rfl, fun ⟨i, hset, hno⟩ => ?_, fun hyes => ?_, hall.only.eq, fun hno => ?_, fun ⟨i, hf⟩ => ?_, fun i =>
        ⟨fun hno => ?_, fun hf hno => ?_, fun hf hat => ?_⟩⟩
      · rw [exec_markTaking_due hr hm hdue, hended, State.takeMark_fires hgrade hi₀]
      · exact if_pos ⟨i, hset, fun h => hno ((haccepts i).mpr h)⟩
      · exact if_neg fun ⟨i, hset, hno⟩ => hno ((haccepts i).mp (hyes i hset))
      · exact hall.quiet fun i _ hf => hno i ((hfaults i).mpr hf)
      · exact hall.posted ⟨i, mem_allLines i, (hfaults i).mp hf⟩
      · exact (hline i).trans (if_neg fun h => hno ((hfires i).mpr h))
      · rw [hline, hwaiting]
        exact State.offeredLine_waits ((hfires i).mp hf) fun h => hno ((hatOnce i).mpr h)
      · have hstarts := (hline i).trans (State.offeredLine_starts ((hfires i).mp hf) ((hatOnce i).mp hat))
        rw [← hleft] at hstarts
        refine ⟨fun kind ends he => ?_, fun hno hload => ?_, fun hno hload => ?_⟩
        · exact hstarts.trans (Line.started_pulse (l := left i) he _ _)
        · exact hstarts.trans (Line.started_good (hidle i hno) hload _)
        · rw [State.line_loadFault]
          exact hstarts.trans (Line.started_faulty (hidle i hno) hload _)

end Sys2Proof.Machine
end

section
/-! SUPPORT. A legal line: what a change of one part of it asks, and what each operation of the output lines makes of it
(R100 to R103, R109, R110, R112 to R115, R119, R123, R128). -/

namespace Sys2Proof.Machine

open Sys2Proof

/-! ### Changes of one part of a line -/

theorem Emission.suits_pulse (kind : PulseKind) (ends : Instant) (mode : LineMode) :
    (Emission.pulse kind ends).suits mode = true ↔ mode = .pulse ∨ mode = .marks := decide_eq_true_iff

theorem Emission.suits_frame (h : HeldFrame) (slot : Nat) (ends : Option Instant) (mode : LineMode) :
    (Emission.frame h slot ends).suits mode = true ↔ mode = .coded ∧ 1 ≤ slot ∧ slot ≤ 50 := decide_eq_true_iff

section
variable {l : Line}

theorem Line.wf.withEmission {e : Emission} (h : l.wf) (hr : e ≠ .none → l.state = .running)
    (hs : e.suits l.settings.mode = true) : { l with emission := e }.wf := by
  obtain ⟨hset, hpend, hoff, hrun, hfault, _, _, hcom, hlen, hord, hheld, hcounts⟩ := h
  exact ⟨hset, hpend, hoff, hrun, hfault, hr, hs, hcom, hlen, hord, hheld, hcounts⟩

theorem Line.wf.withoutEmission (h : l.wf) : { l with emission := .none }.wf :=
  h.withEmission (absurd rfl) rfl

/-- The latched flags but FAULT are free. -/
theorem Line.wf.withFlags {f : LineFlags} (h : l.wf) (hf : f.fault = l.flags.fault) : { l with flags := f }.wf := by
  obtain ⟨hset, hpend, hoff, hrun, hfault, hrest⟩ := h
  exact ⟨hset, hpend, hoff, hrun, hf ▸ hfault, hrest⟩

theorem Line.wf.withCommitments {cs : List Commitment} (h : l.wf)
    (hc : cs ≠ [] → l.state = .running ∧ l.settings.mode = .marks) (hlen : cs.length ≤ 64)
    (hord : cs.Pairwise (fun a b => a.start ≤ b.start)) : { l with commitments := cs }.wf := by
  obtain ⟨hset, hpend, hoff, hrun, hfault, hemit, hsuits, _, _, _, hheld, hcounts⟩ := h
  exact ⟨hset, hpend, hoff, hrun, hfault, hemit, hsuits, hc, hlen, hord, hheld, hcounts⟩

/-- Commitments may leave the list. -/
theorem Line.wf.withSublist {cs : List Commitment} (h : l.wf) (hs : cs.Sublist l.commitments) :
    { l with commitments := cs }.wf := by
  obtain ⟨_, _, _, _, _, _, _, hcom, hlen, hord, _, _⟩ := id h
  refine h.withCommitments (fun hne => hcom fun hnil => hne ?_) (hs.length_le.trans hlen) (hord.sublist hs)
  exact List.sublist_nil.mp (hnil ▸ hs)

theorem Line.wf.withHeld {o : Option HeldFrame} (h : l.wf) (ho : o.isSome = true → l.runningCoded = true) :
    { l with held := o }.wf := by
  obtain ⟨hset, hpend, hoff, hrun, hfault, hemit, hsuits, hcom, hlen, hord, _, hcounts⟩ := h
  exact ⟨hset, hpend, hoff, hrun, hfault, hemit, hsuits, hcom, hlen, hord, ho, hcounts⟩

theorem Line.wf.withPending {o : Option LineSettings} (h : l.wf) (ho : ∀ p ∈ o, p.wf ∧ p ≠ l.settings) :
    { l with pending := o }.wf := by
  obtain ⟨hset, _, hrest⟩ := h
  exact ⟨hset, ho, hrest⟩

theorem Line.wf.withGated (h : l.wf) : { l with gated := sat16 l.gated }.wf := by
  obtain ⟨hset, hpend, hoff, hrun, hfault, hemit, hsuits, hcom, hlen, hord, hheld, hg, hcounts⟩ := h
  exact ⟨hset, hpend, hoff, hrun, hfault, hemit, hsuits, hcom, hlen, hord, hheld, sat16_le hg, hcounts⟩

theorem wrap32_lt (n k : Nat) : wrap32 n k < 2 ^ 32 := Nat.mod_lt _ (Nat.two_pow_pos 32)

theorem Line.wf.withEmissions (h : l.wf) : { l with emissions := wrap32 l.emissions 1 }.wf := by
  obtain ⟨hset, hpend, hoff, hrun, hfault, hemit, hsuits, hcom, hlen, hord, hheld, hg, hf, _⟩ := h
  exact ⟨hset, hpend, hoff, hrun, hfault, hemit, hsuits, hcom, hlen, hord, hheld, hg, hf, wrap32_lt _ _⟩

/-! ### Cuts, faults and steps (R112 to R114, R129) -/

/-- A FAULTED line has nothing in flight and nothing waiting. -/
theorem Line.wf.faulted (h : l.wf) : l.faulted.wf := by
  obtain ⟨hset, hpend, _, _, _, _, _, _, _, _, _, hg, hf, he⟩ := h
  exact ⟨hset, hpend, nofun, nofun, iff_of_true rfl rfl, absurd rfl, rfl, absurd rfl, Nat.zero_le _, .nil, nofun, hg,
    sat16_le hf, he⟩

theorem Line.wf.cutEmission (h : l.wf) : l.cutEmission.wf := by
  unfold Line.cutEmission
  split
  · exact h
  · exact h.withoutEmission.withFlags rfl
  · exact h.withoutEmission.withFlags rfl

theorem Line.wf.cutHeld (h : l.wf) : l.cutHeld.wf := by
  rw [Line.cutHeld_eq]
  exact Line.wf.withFlags (h.withHeld (o := none) nofun) rfl

theorem Line.wf.dropCommitments (h : l.wf) (gone : Commitment → Bool) : (l.dropCommitments gone).wf := by
  rw [Line.dropCommitments_eq]
  exact (h.withSublist List.filter_sublist).withFlags rfl

theorem Line.wf.onStep (h : l.wf) (passed : Instant → Bool) : (l.onStep passed).wf :=
  h.cutEmission.cutHeld.dropCommitments _

/-! ### Starts (R105, R109, R110) -/

theorem Line.state_cutEmission (l : Line) : l.cutEmission.state = l.state := by
  rw [Line.cutEmission_eq]

theorem Line.settings_cutEmission (l : Line) : l.cutEmission.settings = l.settings := by
  rw [Line.cutEmission_eq]

theorem Line.wf.startPulse (h : l.wf) (hr : l.state = .running) (hm : l.settings.mode = .pulse ∨ l.settings.mode = .marks)
    (kind : PulseKind) (ends : Instant) : (l.startPulse kind ends).wf :=
  (h.withEmission (fun _ => hr) ((Emission.suits_pulse _ _ _).mpr hm)).withEmissions

theorem Line.wf.joinCommitment (h : l.wf) (hr : l.state = .running) (hm : l.settings.mode = .marks) (c : Commitment) :
    (l.joinCommitment c).wf := by
  obtain ⟨_, _, _, _, _, _, _, _, _, hord, _, _⟩ := id h
  have hlist := l.joinCommitment_wf c hord
  rw [Line.joinCommitment_eq] at hlist ⊢
  exact (h.withCommitments (fun _ => ⟨hr, hm⟩) hlist.2 hlist.1).withFlags rfl

theorem Line.state_joinCommitment (l : Line) (c : Commitment) : (l.joinCommitment c).state = l.state := by
  rw [Line.joinCommitment_eq]

theorem Line.settings_joinCommitment (l : Line) (c : Commitment) : (l.joinCommitment c).settings = l.settings := by
  rw [Line.joinCommitment_eq]

theorem Line.wf.joinedLess (h : l.wf) (hr : l.state = .running) (hm : l.settings.mode = .marks) (c : Commitment) :
    (l.joinedLess c).wf :=
  (h.joinCommitment hr hm c).withSublist List.erase_sublist

theorem Line.wf.started (h : l.wf) (hr : l.state = .running) (hm : l.settings.mode = .marks) (c : Commitment) (load : Load) :
    (l.started c load).wf := by
  have hstart := h.startPulse hr (.inr hm) .mark c.ends
  unfold Line.started
  split
  · exact (h.withEmission (fun _ => hr) ((Emission.suits_pulse _ _ _).mpr (.inr hm))).withFlags rfl
  · split
    · exact hstart
    · exact hstart.faulted

end

/-! ### The change point and entry into CODED mode (R102, R128) -/

theorem Line.runningCoded_iff (l : Line) : l.runningCoded = true ↔ l.state = .running ∧ l.settings.mode = .coded := by
  simp only [Line.runningCoded, Bool.and_eq_true, decide_eq_true_eq]

/-- The held frame alone changes as a line enters CODED mode: a copy of the composer's frame is kept while its slot 0 is
still ahead. -/
theorem State.enterCoded_cases (s : State) (l : Line) :
    ∃ held, s.enterCoded l = { l with held := held } ∧
      (l.runningCoded = false ∨ s.composer.frame = none → held = l.held) ∧
      ∀ f, l.runningCoded = true → s.composer.frame = some f →
        held = if s.hasPassed (heldFrameOf f l.settings.compensation).slot0 then l.held
          else some (heldFrameOf f l.settings.compensation) := by
  unfold State.enterCoded
  by_cases hc : l.runningCoded = true
  · rw [if_pos hc]
    cases hf : s.composer.frame with
    | none => exact ⟨l.held, rfl, fun _ => rfl, nofun⟩
    | some f =>
      refine ⟨_, ?_, fun h => ?_, fun g _ hg => by cases hg; rfl⟩
      · dsimp only
        split <;> rfl
      · rcases h with h | h
        · rw [hc] at h
          cases h
        · cases h
  · rw [if_neg hc]
    exact ⟨l.held, rfl, fun _ => rfl, fun f h => absurd h hc⟩

theorem State.enterCoded_wf {s : State} {l : Line} (h : l.wf) : (s.enterCoded l).wf := by
  obtain ⟨held, heq, hkept, _⟩ := s.enterCoded_cases l
  rw [heq]
  by_cases hc : l.runningCoded = true
  · exact h.withHeld fun _ => hc
  · rw [hkept (.inl (Bool.eq_false_iff.mpr hc))]
    exact h

theorem LineSettings.changesShape_iff (old new : LineSettings) :
    old.changesShape new = true ↔ new.mode ≠ old.mode ∨ new.polarity ≠ old.polarity := by
  simp only [LineSettings.changesShape, Bool.or_eq_true, decide_eq_true_eq, ne_comm]

theorem LineState.follow_eq (st : LineState) (mode : LineMode) :
    st.follow mode = if st = .faulted then .faulted else if mode = .off then .off else .running := by
  cases st <;> rfl

theorem LineState.follow_spec (st : LineState) (mode : LineMode) :
    (st.follow mode = .off → mode = .off) ∧ (st.follow mode = .running → mode ≠ .off) ∧
      (st.follow mode = .faulted ↔ st = .faulted) := by
  rw [LineState.follow_eq]
  split_ifs <;> simp_all

/-- Every field of a line that has applied its pending record. -/
theorem Line.applyPending_eq (l : Line) (p : LineSettings) (tick : Nat) :
    l.applyPending p tick =
      { l with
        settings := p
        pending := none
        state := l.state.follow p.mode
        emission := if l.settings.changesShape p then .none else l.emission
        commitments := if l.settings.mode = .marks ∧ p.mode ≠ .marks then [] else l.commitments
        held := if l.settings.changesShape p then none else l.held
        flags := { l.flags with
          pulseCut := if l.settings.changesShape p then l.cutEmission.flags.pulseCut else l.flags.pulseCut
          pulseDropped := l.flags.pulseDropped ||
            (decide (l.settings.mode = .marks ∧ p.mode ≠ .marks) && l.commitments.any fun _ => true)
          frameCut :=
            if l.settings.changesShape p then l.cutEmission.flags.frameCut || l.held.isSome else l.flags.frameCut }
        startAt := if l.settings.beginsTrain p then some tick else l.startAt
        changeAt := some tick } := by
  have hcut : l.cutEmission.cutHeld =
      { l with
        emission := .none
        held := none
        flags := { l.flags with
          pulseCut := l.cutEmission.flags.pulseCut
          frameCut := l.cutEmission.flags.frameCut || l.held.isSome } } := by
    rw [Line.cutHeld_eq, Line.cutEmission_eq]
  unfold Line.applyPending
  by_cases hs : l.settings.changesShape p = true <;>
    by_cases hl : l.settings.mode = .marks ∧ p.mode ≠ .marks <;>
    simp [hs, hl, hcut, Line.dropCommitments_eq]

theorem Line.wf.applyPending {l : Line} {p : LineSettings} (h : l.wf) (hp : p.wf) (tick : Nat) :
    (l.applyPending p tick).wf := by
  obtain ⟨_, _, _, hrun, hfault, hemit, hsuits, hcom, hlen, hord, hheld, hcounts⟩ := h
  have hsame (hs : ¬ l.settings.changesShape p = true) : p.mode = l.settings.mode :=
    of_not_not fun hne => hs ((LineSettings.changesShape_iff _ _).mpr (.inl hne))
  have hruns {mode : LineMode} (hr : l.state = .running) (hmode : mode ≠ .off) : l.state.follow mode = .running := by
    rw [hr]
    exact if_neg hmode
  rw [Line.applyPending_eq]
  obtain ⟨hoff, hrunning, hfaulted⟩ := l.state.follow_spec p.mode
  refine ⟨hp, nofun, hoff, hrunning, hfault.trans hfaulted.symm, fun hne => ?_, ?_, fun hne => ?_, ?_, ?_, fun hs => ?_,
    hcounts⟩
  · dsimp only at hne ⊢
    split at hne
    · exact absurd rfl hne
    · rename_i hs
      have hr := hemit hne
      exact hruns hr (hsame hs ▸ hrun hr)
  · dsimp only
    split
    · rfl
    · rename_i hs
      rw [hsame hs]
      exact hsuits
  · dsimp only at hne ⊢
    split at hne
    · exact absurd rfl hne
    · rename_i hl
      obtain ⟨hr, hm⟩ := hcom hne
      have hmarks : p.mode = .marks := of_not_not fun hp => hl ⟨hm, hp⟩
      exact ⟨hruns hr (by rw [hmarks]; decide), hmarks⟩
  · dsimp only
    split
    · exact Nat.zero_le _
    · exact hlen
  · dsimp only
    split
    · exact .nil
    · exact hord
  · dsimp only at hs
    split at hs
    · cases hs
    · rename_i hno
      obtain ⟨hr, hm⟩ := l.runningCoded_iff.mp (hheld hs)
      have hcoded : p.mode = .coded := (hsame hno).trans hm
      exact (Line.runningCoded_iff _).mpr ⟨hruns hr (by rw [hcoded]; decide), hcoded⟩

end Sys2Proof.Machine
end

section
/-! SUPPORT. Each event and each command keeps every line legal (R100 to R103, R109, R123). -/

namespace Sys2Proof.Machine

open Sys2Proof

/-! ### Operations that keep the lines legal -/

/-- `t` has legal lines where `s` has. -/
def State.linesSafe (s t : State) : Prop := s.linesWf → t.linesWf

theorem State.linesSafe_refl (s : State) : s.linesSafe s := id

theorem State.linesSafe.trans {s t u : State} (h : s.linesSafe t) (k : t.linesSafe u) : s.linesSafe u := k ∘ h

/-- Each line may be judged from its own record. -/
theorem State.linesSafe_of_each {s t : State} (h : ∀ i, (s.line i).wf → (t.line i).wf) : s.linesSafe t :=
  fun hw i => h i (hw i)

theorem State.linesSafe_of_lines {s t : State} (h : t.lines = s.lines) : s.linesSafe t :=
  State.linesSafe_of_each fun i hi => by rwa [State.line, h]

theorem State.linesSafe_of_driven {s t : State} (h : t.driven = s.driven) : s.linesSafe t := by
  unfold State.driven at h
  simp only [Prod.mk.injEq] at h
  obtain ⟨_, _, hlines, _⟩ := h
  exact State.linesSafe_of_lines hlines

theorem State.setLine_linesSafe {s : State} {i : LineId} {x : Line} (h : (s.line i).wf → x.wf) :
    s.linesSafe (s.setLine i x) := fun hw j => by
  by_cases hj : j = i
  · rw [hj, State.line_setLine]
    exact h (hw i)
  · rw [State.line_setLine_other s hj]
    exact hw j

theorem State.map_linesSafe {s : State} {f : Line → Line} (h : ∀ l : Line, l.wf → (f l).wf) :
    s.linesSafe { s with lines := s.lines.map f } := State.linesSafe_of_each fun i hi => by
  rw [State.line, Sixteen.get_map]
  exact h _ hi

theorem State.stepTo_linesSafe (s : State) (src : Origin) (new : Instant) (clearFrac : Bool) :
    s.linesSafe (s.stepTo src new clearFrac) := State.linesSafe_of_each fun i hi => by
  rw [State.line_stepTo]
  exact hi.onStep (s.passedBy new)

theorem State.linesSafe_drivenRule : DrivenRule State.linesSafe where
  trans := State.linesSafe.trans
  keeps := State.linesSafe_of_driven
  step := State.stepTo_linesSafe

/-! ### Load faults (R114) -/

theorem State.fault_linesSafe (s : State) (i : LineId) : s.linesSafe ((s.setLine i (s.line i).faulted).post .lineFault) :=
  (State.setLine_linesSafe Line.wf.faulted).trans (State.linesSafe_of_lines rfl)

theorem State.judgeLoad_linesSafe (s : State) (i : LineId) (load : Load) : s.linesSafe (s.judgeLoad i load) := by
  rcases s.judgeLoad_cases i load with ⟨_, h⟩ | ⟨_, h⟩ <;> rw [h]
  · exact s.linesSafe_refl
  · exact s.fault_linesSafe i

theorem State.judgeOvertaken_linesSafe (s : State) (i : LineId) (mode : LineMode) (load : Load) :
    s.linesSafe (s.judgeOvertaken i mode load) := by
  rcases s.judgeOvertaken_cases i mode load with h | ⟨_, _, _, _, h⟩ <;> rw [h]
  · exact s.linesSafe_refl
  · exact s.fault_linesSafe i

theorem State.judgeOvertakenAll_linesSafe (s : State) (faulty : BitVec 16) : s.linesSafe (s.judgeOvertakenAll faulty) :=
  State.linesSafe_of_each fun i hi => by
    rw [(s.judgeOvertakenAll_linesBecome faulty).line i (mem_allLines i)]
    split
    · exact hi.faulted
    · exact hi

/-! ### Pulses (R105 to R110) -/

theorem State.trainStartDue_iff (s : State) (l : Line) (t : Int) :
    s.trainStartDue l = some t ↔
      l.state = .running ∧ l.settings.mode = .pulse ∧ l.startAt ≠ some s.ts.tickCount ∧ s.pulseStartNow l = some t := by
  unfold State.trainStartDue
  simp only [Option.ite_none_right_eq_some, and_assoc]

theorem State.startTrainPulse_linesSafe {s : State} {i : LineId} (hr : (s.line i).state = .running)
    (hm : (s.line i).settings.mode = .pulse) (t : Int) (load : Load) : s.linesSafe (s.startTrainPulse i t load) := by
  unfold State.startTrainPulse
  dsimp only
  split
  · refine (State.setLine_linesSafe fun hw => ?_).trans (State.judgeLoad_linesSafe _ i load)
    have htried : { s.line i with startAt := some s.ts.tickCount }.wf := hw
    refine htried.cutEmission.startPulse ?_ (.inl ?_) _ _
    · rw [Line.state_cutEmission]
      exact hr
    · rw [Line.settings_cutEmission]
      exact hm
  · exact State.setLine_linesSafe fun hw => hw.withGated

theorem pulseStartState_linesSafe (i : LineId) (load : Load) (s : State) : s.linesSafe (pulseStartState i load s) := by
  refine State.unlessHeld_induct s.linesSafe_refl ?_
  split
  · exact s.judgeOvertaken_linesSafe i _ load
  · rename_i t hdue
    obtain ⟨hr, hm, _, _⟩ := (s.trainStartDue_iff _ _).mp hdue
    exact State.startTrainPulse_linesSafe hr hm t load

theorem pulseEndState_linesSafe (i : LineId) (s : State) : s.linesSafe (pulseEndState i s) := by
  rcases pulseEndState_cases i s with h | ⟨_, _, _, _, _, h⟩ <;> rw [h]
  · exact s.linesSafe_refl
  · exact State.setLine_linesSafe Line.wf.withoutEmission

/-- A commitment out of the list of a line RUNNING in MARKS mode is acted on. -/
theorem State.startCommitment_linesSafe {s : State} {i : LineId} (hr : (s.line i).state = .running)
    (hm : (s.line i).settings.mode = .marks) (c : Commitment) (load : Load) :
    s.linesSafe (s.startCommitment i c load) := by
  rcases s.startCommitment_cases i c load with ⟨kind, ends, _, h⟩ | ⟨_, h⟩ <;> rw [h]
  · refine State.setLine_linesSafe fun hw => ?_
    exact (hw.withEmission (fun _ => hr) ((Emission.suits_pulse _ _ _).mpr (.inr hm))).withFlags rfl
  · exact (State.setLine_linesSafe fun hw => hw.startPulse hr (.inr hm) _ _).trans (State.judgeLoad_linesSafe _ i load)

theorem commitmentStartState_linesSafe (i : LineId) (load : Load) (s : State) :
    s.linesSafe (commitmentStartState i load s) := by
  refine State.unlessHeld_induct s.linesSafe_refl ?_
  dsimp only
  split
  · exact s.judgeOvertaken_linesSafe i _ load
  · rename_i c rest hc
    split
    · rename_i h
      obtain ⟨hr, hm, _⟩ := h
      refine (State.setLine_linesSafe fun hw => hw.withSublist (hc ▸ List.sublist_cons_self c rest)).trans
        (State.startCommitment_linesSafe ?_ ?_ c load) <;> rw [State.line_setLine]
      · exact hr
      · exact hm
    · exact s.judgeOvertaken_linesSafe i _ load

/-! ### The taking of a mark (R83 to R87) -/

theorem State.offeredLine_wf {s : State} {i : LineId} (h : (s.line i).wf) (m : Mark) (faulty : BitVec 16) :
    (s.offeredLine m faulty i).wf := by
  unfold State.offeredLine
  dsimp only
  split
  · rename_i hfires
    obtain ⟨hr, hm, _, _⟩ := (s.accepts_iff m (s.line i)).mp hfires.2
    split
    · refine (h.joinedLess hr hm _).started ?_ ?_ _ _ <;> unfold Line.joinedLess <;> dsimp only
      · rw [Line.state_joinCommitment]
        exact hr
      · rw [Line.settings_joinCommitment]
        exact hm
    · exact h.joinCommitment hr hm _
  · exact h

theorem State.offers_linesSafe (s : State) (m : Mark) (faulty : BitVec 16) :
    s.linesSafe (allLines.foldl (State.offer m faulty) s) := State.linesSafe_of_each fun i hi => by
  have hall := State.linesBecome.foldl_allLines fun t i ht hi => State.offer_linesBecome (s := s) ht hi m faulty
  rw [hall.line i (mem_allLines i)]
  exact State.offeredLine_wf hi m faulty

theorem State.retireOrRearm_linesSafe (s : State) (m : Mark) : s.linesSafe (s.retireOrRearm m) :=
  State.linesSafe_of_lines (by rw [State.retireOrRearm_frame])

theorem State.takeMark_linesSafe (s : State) (m : Mark) (faulty : BitVec 16) : s.linesSafe (s.takeMark m faulty) := by
  unfold State.takeMark
  split
  · exact s.retireOrRearm_linesSafe _
  · rw [offerLines_allLines]
    exact (s.offers_linesSafe m faulty).trans (State.retireOrRearm_linesSafe _ _)

theorem markTakingState_linesSafe (faulty : BitVec 16) (s : State) : s.linesSafe (markTakingState faulty s) := by
  refine State.unlessHeld_induct s.linesSafe_refl ?_
  split
  · exact s.judgeOvertakenAll_linesSafe faulty
  · rename_i m rest _
    split
    · exact (State.linesSafe_of_lines (t := { s with marks := rest }) rfl).trans (State.takeMark_linesSafe _ m faulty)
    · exact s.judgeOvertakenAll_linesSafe faulty

/-! ### Frames (R120, R123, R127, R128) -/

theorem State.startSymbol_linesSafe {s : State} {i : LineId} (hr : (s.line i).state = .running)
    (hm : (s.line i).settings.mode = .coded) (h : HeldFrame) {slot : Nat} (hslot : slot < 50) (load : Load) :
    s.linesSafe (s.startSymbol i h slot load) := by
  refine (State.setLine_linesSafe fun hw => ?_).trans (State.judgeLoad_linesSafe _ i load)
  exact hw.withEmission (fun _ => hr) ((Emission.suits_frame _ _ _ _).mpr ⟨hm, Nat.succ_pos slot, hslot⟩)

theorem frameBeginState_linesSafe (i : LineId) (load : Load) (s : State) : s.linesSafe (frameBeginState i load s) := by
  refine State.unlessHeld_induct s.linesSafe_refl ?_
  dsimp only
  split
  · exact s.judgeOvertaken_linesSafe i _ load
  · rename_i h _
    split
    · rename_i hc
      obtain ⟨hr, hm⟩ := (Line.runningCoded_iff _).mp hc.1
      refine (State.setLine_linesSafe fun hw => Line.wf.withEmissions (hw.withHeld (o := none) nofun)).trans
        (State.startSymbol_linesSafe ?_ ?_ h (by decide) load) <;> rw [State.line_setLine]
      · exact hr
      · exact hm
    · exact s.judgeOvertaken_linesSafe i _ load

theorem symbolStartState_linesSafe (i : LineId) (load : Load) (s : State) : s.linesSafe (symbolStartState i load s) := by
  refine State.unlessHeld_induct s.linesSafe_refl ?_
  split
  · rename_i h slot ends he
    split
    · rename_i hdue
      intro hw
      obtain ⟨_, _, _, _, _, hemit, hsuits, _⟩ := hw i
      rw [he] at hemit hsuits
      obtain ⟨hm, _⟩ := (Emission.suits_frame _ _ _ _).mp hsuits
      simp only [State.slotDue, Bool.and_eq_true, decide_eq_true_eq] at hdue
      exact State.startSymbol_linesSafe (hemit nofun) hm h hdue.1 load hw
    · exact s.judgeOvertaken_linesSafe i _ load
  · exact s.judgeOvertaken_linesSafe i _ load

theorem symbolEndState_linesSafe (i : LineId) (s : State) : s.linesSafe (symbolEndState i s) := by
  refine State.unlessHeld_induct s.linesSafe_refl ?_
  dsimp only
  split
  · rename_i h slot ends he
    split
    · refine State.setLine_linesSafe fun hw => ?_
      obtain ⟨_, _, _, _, _, hemit, hsuits, _⟩ := id hw
      rw [he] at hemit hsuits
      exact hw.withEmission (fun _ => hemit nofun) hsuits
    · exact s.linesSafe_refl
  · exact s.linesSafe_refl

theorem frameEndState_linesSafe (i : LineId) (s : State) : s.linesSafe (frameEndState i s) := by
  refine State.unlessHeld_induct s.linesSafe_refl ?_
  dsimp only
  split
  · split
    · exact State.setLine_linesSafe Line.wf.withoutEmission
    · exact s.linesSafe_refl
  · exact s.linesSafe_refl

theorem Line.takeFrame_wf {l : Line} (h : l.wf) (f : Frame) : (l.takeFrame f).wf := by
  unfold Line.takeFrame
  split
  · rename_i hc
    exact h.withHeld fun _ => hc
  · exact h

theorem compositionState_linesSafe (s : State) : s.linesSafe (compositionState s) := by
  refine State.unlessHeld_induct s.linesSafe_refl ?_
  split
  · have hmade (c : Composer) : s.linesSafe { s with composer := c } := State.linesSafe_of_lines rfl
    unfold State.compose
    dsimp only
    split
    · exact hmade _
    · rename_i f _
      exact (hmade _).trans (State.map_linesSafe fun l hl => Line.takeFrame_wf hl f)
  · exact s.linesSafe_refl

theorem frameReleaseState_linesSafe (s : State) : s.linesSafe (frameReleaseState s) := by
  refine State.unlessHeld_induct s.linesSafe_refl ?_
  dsimp only
  split
  · exact s.linesSafe_refl
  · split
    · exact State.linesSafe_of_lines rfl
    · exact s.linesSafe_refl

theorem changePointState_linesSafe (i : LineId) (s : State) : s.linesSafe (changePointState i s) := by
  refine State.unlessHeld_induct s.linesSafe_refl ?_
  dsimp only
  split
  · exact s.linesSafe_refl
  · rename_i p hp
    split
    · refine State.setLine_linesSafe fun hw => ?_
      obtain ⟨_, hpending, _⟩ := id hw
      have happlied := hw.applyPending (hpending p hp).1 s.ts.tickCount
      split
      · exact happlied
      · exact State.enterCoded_wf happlied
    · exact s.linesSafe_refl

/-! ### The commands of the lines and the resets (R101, R115, R117, R119, R190) -/

theorem State.takeCommand_linesSafe {s : State} {mp : Mp} {row : CommandRow} {act : List Word → State → Judged}
    (h : ∀ ws, s.linesSafe ((act ws s).leaves s)) : s.linesSafe (s.takeCommand mp row act) :=
  State.takeCommand_leaves s.linesSafe_refl (fun _ _ _ ht => ht.trans (State.linesSafe_of_lines rfl)) h

theorem Judged.withParams_linesSafe {α : Type} {s : State} {params : Option α} {act : α → Judged}
    (h : ∀ x, params = some x → s.linesSafe ((act x).leaves s)) : s.linesSafe ((withParams params act).leaves s) := by
  cases params with
  | none => exact s.linesSafe_refl
  | some x => exact h x rfl

theorem setLineState_linesSafe (mp : Mp) (s : State) : s.linesSafe (setLineState mp s) := by
  refine State.takeCommand_linesSafe fun ws => Judged.withParams_linesSafe fun ⟨i, new⟩ hx => ?_
  obtain ⟨hnew, _⟩ := (setLineParams_iff ws i new).mp hx
  refine State.setLine_linesSafe fun hw => hw.withPending fun p hp => ?_
  split at hp
  · cases hp
  · rename_i hne
    cases hp
    exact ⟨hnew, hne⟩

/-- A line out of FAULTED is legal with FAULT cleared: nothing was in flight or waiting (R115). -/
theorem Line.wf.restartedAlone {l : Line} (h : l.wf) (hf : l.state = .faulted) :
    Line.wf
      { l with
        state := if l.settings.mode = .off then .off else .running
        flags := { l.flags with fault := false } } := by
  obtain ⟨hset, hpend, _, _, _, hemit, hsuits, hcom, hlen, hord, hheld, hcounts⟩ := h
  obtain ⟨hoff, hrun, hfaulted⟩ := LineState.off.follow_spec l.settings.mode
  have hnot {P : Prop} (hr : l.state = .running) : P := by rw [hf] at hr; cases hr
  exact ⟨hset, hpend, hoff, hrun, iff_of_false Bool.false_ne_true fun hst => (nomatch hfaulted.mp hst),
    fun hne => hnot (hemit hne), hsuits, fun hne => hnot (hcom hne).1, hlen, hord,
    fun hs => hnot (l.runningCoded_iff.mp (hheld hs)).1, hcounts⟩

theorem lineRestartState_linesSafe (mp : Mp) (s : State) : s.linesSafe (lineRestartState mp s) := by
  refine State.takeCommand_linesSafe fun ws => Judged.withParams_linesSafe fun i _ => ?_
  split
  · rename_i hf
    exact State.setLine_linesSafe fun hw => State.enterCoded_wf (hw.restartedAlone hf)
  · exact s.linesSafe_refl

theorem senseLineState_linesSafe (mp : Mp) (s : State) : s.linesSafe (senseLineState mp s) := by
  refine State.takeCommand_linesSafe fun ws => Judged.withParams_linesSafe fun ⟨i, clear⟩ _ => ?_
  dsimp only [Judged.leaves]
  split
  · exact State.setLine_linesSafe fun hw => hw.withFlags rfl
  · exact s.linesSafe_refl

theorem Line.wf.restarted {l : Line} (h : l.wf) : l.restarted.wf := by
  obtain ⟨hset, hpend, _⟩ := h
  obtain ⟨hoff, hrun, hfaulted⟩ := LineState.off.follow_spec l.settings.mode
  exact ⟨hset, hpend, hoff, hrun, iff_of_false Bool.false_ne_true fun hst => (nomatch hfaulted.mp hst), absurd rfl, rfl,
    absurd rfl, Nat.zero_le _, .nil, nofun, Nat.zero_le _, Nat.zero_le _, Nat.two_pow_pos 32⟩

theorem restartState_linesSafe (mp : Mp) (s : State) : s.linesSafe (restartState mp s) := by
  refine State.unlessHeld_induct s.linesSafe_refl ?_
  split
  · exact s.linesSafe_refl
  · unfold State.judgeRestart
    split_ifs
    · exact State.linesSafe_of_lines rfl
    · exact State.linesSafe_of_lines rfl
    · rw [State.restart_eq]
      exact (State.map_linesSafe fun l hl => State.enterCoded_wf hl.restarted).trans (State.linesSafe_of_lines rfl)
    · exact s.linesSafe_refl

theorem powerOnState_linesSafe (held : Bool) (s : State) : s.linesSafe (powerOnState held s) := fun _ i => by
  obtain ⟨_, _, _, _, hlines, _⟩ := resetStateIsLegal
  exact hlines i

/-! ### Commands that leave the lines -/

theorem State.lines_handOutcome (s : State) (o : Outcome) : (s.handOutcome o).lines = s.lines := by
  rw [State.handOutcome_frame]

theorem State.onlyNetwork.linesSafe {s t : State} (h : s.onlyNetwork t) : s.linesSafe t := by
  obtain ⟨_, _, _, _, _, _, _, hlines, _⟩ := h
  exact State.linesSafe_of_lines hlines

theorem addMarkState_linesSafe (mp : Mp) (s : State) : s.linesSafe (addMarkState mp s) := by
  refine State.takeCommand_linesSafe fun ws => ?_
  unfold addMarkAct
  split
  · exact s.linesSafe_refl
  · refine Judged.withParams_linesSafe fun p _ => State.linesSafe_of_lines ?_
    unfold State.placeMark
    split_ifs
    · rfl
    · rfl
    · rfl
    · split <;> rfl

theorem cancelMarkState_linesSafe (mp : Mp) (s : State) : s.linesSafe (cancelMarkState mp s) := by
  refine State.takeCommand_linesSafe fun ws => Judged.withParams_linesSafe fun id _ => State.linesSafe_of_lines ?_
  unfold State.cancelById
  split
  · rfl
  · split
    · exact State.lines_handOutcome _ _
    · rfl

theorem forgetClientState_linesSafe (mp : Mp) (s : State) : s.linesSafe (forgetClientState mp s) := by
  refine State.takeCommand_linesSafe fun ws => Judged.withParams_linesSafe fun a _ => State.linesSafe_of_lines ?_
  unfold State.forgetClient
  split <;> rfl

theorem portClearState_linesSafe (mp : Mp) (len : Nat) (s : State) : s.linesSafe (portClearState mp len s) := by
  refine State.endTransaction_induct s.linesSafe_refl (fun t x ht => ht.trans (State.linesSafe_of_lines rfl))
    fun x t ht => ht.trans (State.linesSafe_of_lines ?_)
  dsimp only
  split <;> rfl

/-! ### Every command -/

/-- Every command keeps the lines legal. -/
theorem exec_linesSafe (c : Instr) (s : State) : ∃ t, exec c s = .next t ∧ s.linesSafe t := by
  cases c with
  | setLine mp => exact ⟨_, rfl, setLineState_linesSafe mp s⟩
  | lineRestart mp => exact ⟨_, rfl, lineRestartState_linesSafe mp s⟩
  | senseLine mp => exact ⟨_, rfl, senseLineState_linesSafe mp s⟩
  | changePoint i => exact ⟨_, rfl, changePointState_linesSafe i s⟩
  | pulseStart i load => exact ⟨_, rfl, pulseStartState_linesSafe i load s⟩
  | pulseEnd i => exact ⟨_, rfl, pulseEndState_linesSafe i s⟩
  | commitmentStart i load => exact ⟨_, rfl, commitmentStartState_linesSafe i load s⟩
  | markTaking faulty => exact ⟨_, rfl, markTakingState_linesSafe faulty s⟩
  | composition => exact ⟨_, rfl, compositionState_linesSafe s⟩
  | frameRelease => exact ⟨_, rfl, frameReleaseState_linesSafe s⟩
  | frameBegin i load => exact ⟨_, rfl, frameBeginState_linesSafe i load s⟩
  | symbolStart i load => exact ⟨_, rfl, symbolStartState_linesSafe i load s⟩
  | symbolEnd i => exact ⟨_, rfl, symbolEndState_linesSafe i s⟩
  | frameEnd i => exact ⟨_, rfl, frameEndState_linesSafe i s⟩
  | restart mp => exact ⟨_, rfl, restartState_linesSafe mp s⟩
  | powerOn held => exact ⟨_, rfl, powerOnState_linesSafe held s⟩
  | addMark mp => exact ⟨_, rfl, addMarkState_linesSafe mp s⟩
  | cancelMark mp => exact ⟨_, rfl, cancelMarkState_linesSafe mp s⟩
  | takeOutcomes mp | networkClear mp =>
    exact ⟨_, rfl, State.takeCommand_linesSafe fun _ => State.linesSafe_of_lines rfl⟩
  | setNetwork mp =>
    exact ⟨_, rfl, State.takeCommand_linesSafe fun _ => Judged.withParams_linesSafe fun _ _ =>
      State.linesSafe_of_lines rfl⟩
  | forgetClient mp => exact ⟨_, rfl, forgetClientState_linesSafe mp s⟩
  | portClear mp len => exact ⟨_, rfl, portClearState_linesSafe mp len s⟩
  | linkUp p => exact ⟨_, rfl, (linkUpState_onlyNetwork p s).linesSafe⟩
  | linkDown p => exact ⟨_, rfl, (linkDownState_onlyNetwork p s).linesSafe⟩
  | beaconDue => exact ⟨_, rfl, (beaconDueState_onlyNetwork s).linesSafe⟩
  | transmitEnd p => exact ⟨_, rfl, (transmitEndState_onlyNetwork p s).linesSafe⟩
  | askTimingPoint p => exact ⟨_, rfl, (askTimingPointState_onlyNetwork p s).linesSafe⟩
  | askArrival p f => exact ⟨_, rfl, (askArrivalState_onlyNetwork p f s).linesSafe⟩
  | idleCheck => exact ⟨_, rfl, (idleCheckState_onlyNetwork s).linesSafe⟩
  | _ => exact State.linesSafe_drivenRule.exec rfl

/-- Settles O57: a step runs one command, or idles. -/
theorem stepKeepsTheLines : Obligations.StepKeepsTheLines := by
  intro s t hw hstep
  unfold step at hstep
  split at hstep
  · cases hstep
    exact hw
  · rename_i c rest _
    obtain ⟨u, hu, hsafe⟩ := exec_linesSafe c { s with pending := rest }
    rw [hu] at hstep
    cases hstep
    exact hsafe hw

end Sys2Proof.Machine
end

section
/-! SUPPORT. SET_LINE, LINE_RESTART and SENSE_LINE: the pending record, the way out of FAULTED, and the status word (R101,
R115 to R117). -/

namespace Sys2Proof.Machine

open Sys2Proof

section
variable {s : State} {ws : List Word} {i : LineId}

/-! ### SET_LINE (R101) -/

/-- The effective settings withdraw the pending record. -/
theorem setLineAct_same (h : setLineParams ws = some (i, (s.line i).settings)) :
    setLineAct ws s = .taken (s.setLine i { s.line i with pending := none }) (pack [.bits 8 0]) := by
  simp only [setLineAct, h, withParams, Line.withPending, if_true]
  rfl

/-- Other settings become the pending record. -/
theorem setLineAct_new {new : LineSettings} (h : setLineParams ws = some (i, new)) (hne : new ≠ (s.line i).settings) :
    setLineAct ws s = .taken (s.setLine i { s.line i with pending := some new }) (pack [.bits 8 1]) := by
  simp only [setLineAct, h, withParams, Line.withPending, if_neg hne]
  rfl

/-! ### LINE_RESTART (R115) -/

theorem lineRestartParams_none (h : 16 ≤ wordAt ws 0 % 2 ^ 8) : lineRestartParams ws = none :=
  dif_neg (not_lt.mpr h)

theorem lineRestartParams_some (h : wordAt ws 0 % 2 ^ 8 = i.val) : lineRestartParams ws = some i :=
  (lineIdOf_eq_some_iff _ i).mpr h

theorem lineRestartAct_refused (h : wordAt ws 0 % 2 ^ 8 = i.val) (hf : (s.line i).state ≠ .faulted) :
    lineRestartAct ws s = .refused .state [] := by
  rw [lineRestartAct, lineRestartParams_some h]
  exact if_neg hf

theorem lineRestartAct_taken (h : wordAt ws 0 % 2 ^ 8 = i.val) (hf : (s.line i).state = .faulted) :
    lineRestartAct ws s =
      .taken (s.setLine i (s.restartLine (s.line i))) (pack [.bits 8 (s.restartLine (s.line i)).state.code]) := by
  rw [lineRestartAct, lineRestartParams_some h]
  exact if_pos hf

/-- A line that leaves FAULTED is RUNNING in CODED mode exactly with that mode. -/
theorem Line.runningCoded_restarts (l : Line) (flags : LineFlags) :
    Line.runningCoded { l with state := if l.settings.mode = .off then .off else .running, flags := flags } =
      decide (l.settings.mode = .coded) := by
  unfold Line.runningCoded
  cases l.settings.mode <;> rfl

/-- What a line becomes out of FAULTED: a CODED one takes its copy of the composer's frame (R115, R128). -/
theorem State.restartLine_cases (s : State) (l : Line) :
    ∃ held, s.restartLine l =
        { l with
          state := if l.settings.mode = .off then .off else .running
          flags := { l.flags with fault := false }
          held := held } ∧
      (l.settings.mode ≠ .coded ∨ s.composer.frame = none → held = l.held) ∧
      ∀ f, l.settings.mode = .coded → s.composer.frame = some f →
        held = if s.hasPassed (heldFrameOf f l.settings.compensation).slot0 then l.held
          else some (heldFrameOf f l.settings.compensation) := by
  obtain ⟨held, heq, hkept, hcopied⟩ := s.enterCoded_cases
    { l with
      state := if l.settings.mode = .off then .off else .running
      flags := { l.flags with fault := false } }
  rw [Line.runningCoded_restarts] at hkept hcopied
  exact ⟨held, heq, fun h => hkept (h.imp_left decide_eq_false), fun f hm hf => hcopied f (decide_eq_true hm) hf⟩

/-! ### SENSE_LINE (R116, R117) -/

theorem senseLineAct_eq {clear : Bool} (h : senseLineParams ws = some (i, clear)) :
    senseLineAct ws s =
      .taken
        (if clear then
          s.setLine i { s.line i with flags := ⟨(s.line i).flags.fault, false, false, false, false⟩ }
        else s)
        (pack (s.senseValues (s.line i))) := by
  simp only [senseLineAct, h, withParams, State.statusFields_eq]
  rfl

end

/-- Settles O32. -/
theorem lineCommandsWriteRestartAndSense : Obligations.LineCommandsWriteRestartAndSense := by
  intro s mp ws
  refine ⟨fun hw => ⟨fun hnone => ?_, fun i new hsome => ⟨fun hsame => ?_, fun hne => ?_⟩⟩,
    fun hw => ⟨fun hrange => ?_, fun i hi => ⟨fun hf => ?_, fun hf => ?_⟩⟩,
    fun hw => ⟨fun hnone => ?_, fun i clear hsome => ?_⟩⟩
  · exact next_congr (State.takeCommand_refused hw (by rw [setLineAct, hnone]; rfl))
  · exact next_congr (State.takeCommand_taken hw (setLineAct_same (hsame ▸ hsome)))
  · exact next_congr (State.takeCommand_taken hw (setLineAct_new hsome hne))
  · exact next_congr (State.takeCommand_refused hw (by rw [lineRestartAct, lineRestartParams_none hrange]; rfl))
  · exact next_congr (State.takeCommand_refused hw (lineRestartAct_refused hi hf))
  · obtain ⟨held, heq, hheld⟩ := s.restartLine_cases (s.line i)
    refine ⟨held, next_congr ((State.takeCommand_taken hw (lineRestartAct_taken hi hf)).trans ?_), hheld⟩
    rw [heq]
  · exact next_congr (State.takeCommand_refused hw (by rw [senseLineAct, hnone]; rfl))
  · exact next_congr (State.takeCommand_taken hw (senseLineAct_eq hsome))

end Sys2Proof.Machine
end

section
/-! SUPPORT. The change point: what a line that applies its pending record becomes (R102, R108, R128, R131). -/

namespace Sys2Proof.Machine

open Sys2Proof

/-! ### The record that is applied (R102) -/

theorem LineSettings.beginsTrain_iff (old new : LineSettings) :
    old.beginsTrain new = true ↔
      (old.mode ≠ .pulse ∧ new.mode = .pulse) ∨ old.period ≠ new.period ∨ old.width ≠ new.width := by
  simp only [LineSettings.beginsTrain, Bool.or_eq_true, decide_eq_true_eq, or_assoc]

/-- The flags that a change point sets: PULSE_CUT and FRAME_CUT by a change of mode or polarity, PULSE_DROPPED by leaving
MARKS. -/
theorem Line.applyPending_flags (l : Line) (p : LineSettings) (tick : Nat) :
    let shape := p.mode ≠ l.settings.mode ∨ p.polarity ≠ l.settings.polarity
    let leaves := l.settings.mode = .marks ∧ p.mode ≠ .marks
    let flags := (l.applyPending p tick).flags
    (flags.pulseCut = true ↔ l.flags.pulseCut = true ∨ (shape ∧ ∃ k e, l.emission = .pulse k e)) ∧
      (flags.frameCut = true ↔
        l.flags.frameCut = true ∨ (shape ∧ (l.held.isSome = true ∨ ∃ h n e, l.emission = .frame h n e))) ∧
      (flags.pulseDropped = true ↔ l.flags.pulseDropped = true ∨ (leaves ∧ l.commitments ≠ [])) := by
  intro shape leaves flags
  have hshape : l.settings.changesShape p = true ↔ shape := LineSettings.changesShape_iff _ _
  obtain ⟨hpulse, hframe⟩ := l.cutEmission_flags
  have hany : (l.commitments.any fun _ => true) = true ↔ l.commitments ≠ [] := by
    cases l.commitments <;> simp
  simp only [flags, Line.applyPending_eq, hshape, Bool.or_eq_true, Bool.and_eq_true, decide_eq_true_eq, hany]
  by_cases hs : shape
  · simp only [hs, if_true, true_and, hpulse, Bool.or_eq_true, hframe, or_assoc]
    exact ⟨or_congr_right or_comm, Iff.rfl⟩
  · simp only [hs, if_false, false_and, or_false]
    exact ⟨trivial, trivial, Iff.rfl⟩

/-- A line in CODED mode after its change point runs where it was not FAULTED. -/
theorem Line.runningCoded_applyPending (l : Line) (p : LineSettings) (tick : Nat) :
    (l.applyPending p tick).runningCoded = true ↔ p.mode = .coded ∧ l.state ≠ .faulted := by
  rw [Line.runningCoded_iff, Line.applyPending_eq, LineState.follow_eq]
  dsimp only
  split_ifs with hf hoff
  · simp [hf]
  · simp [hoff]
  · simp [hf]

/-! ### The change point (R102, R128) -/

/-- What a change point makes of the line `l` that holds the pending record `p`. -/
def State.changedLine (s : State) (l : Line) (p : LineSettings) : Line :=
  if l.runningCoded then l.applyPending p s.ts.tickCount else s.enterCoded (l.applyPending p s.ts.tickCount)

/-- Beside the record applied, a line that enters CODED mode takes its copy of the composer's frame. -/
theorem State.changedLine_cases (s : State) {l : Line} (hw : l.wf) (p : LineSettings) :
    ∃ held, s.changedLine l p = { l.applyPending p s.ts.tickCount with held := held } ∧
      (l.settings.mode = .coded ∨ p.mode ≠ .coded ∨ l.state = .faulted ∨ s.composer.frame = none →
        held = (l.applyPending p s.ts.tickCount).held) ∧
      ∀ f, l.settings.mode ≠ .coded → p.mode = .coded → l.state ≠ .faulted → s.composer.frame = some f →
        held = if s.hasPassed (heldFrameOf f p.compensation).slot0 then (l.applyPending p s.ts.tickCount).held
          else some (heldFrameOf f p.compensation) := by
  have henters := l.runningCoded_applyPending p s.ts.tickCount
  unfold State.changedLine
  by_cases hc : l.runningCoded = true
  · rw [if_pos hc]
    exact ⟨_, rfl, fun _ => rfl, fun f hm => absurd ((l.runningCoded_iff.mp hc).2) hm⟩
  · rw [if_neg hc]
    obtain ⟨held, heq, hkept, hcopied⟩ := s.enterCoded_cases (l.applyPending p s.ts.tickCount)
    refine ⟨held, heq, fun h => hkept ?_, fun f _ hm hf hframe => ?_⟩
    · obtain ⟨_, _, hoff, _⟩ := hw
      have hfaulted (hm : l.settings.mode = .coded) : l.state = .faulted := by
        cases hst : l.state with
        | off => rw [hoff hst] at hm; cases hm
        | running => exact absurd (l.runningCoded_iff.mpr ⟨hst, hm⟩) hc
        | faulted => rfl
      have hnot (h : p.mode ≠ .coded ∨ l.state = .faulted) : (l.applyPending p s.ts.tickCount).runningCoded = false :=
        Bool.eq_false_iff.mpr fun hr => h.elim (fun hne => hne (henters.mp hr).1) (henters.mp hr).2
      rcases h with h | h | h | h
      · exact .inl (hnot (.inr (hfaulted h)))
      · exact .inl (hnot (.inl h))
      · exact .inl (hnot (.inr h))
      · exact .inr h
    · rw [hcopied f (henters.mpr ⟨hm, hf⟩) hframe, Line.applyPending_eq]

section
variable {s : State} {i : LineId}

theorem exec_changePoint_none (hr : s.resetHeld = false) (h : (s.line i).pending = none) :
    exec (.changePoint i) s = .next s := by
  refine next_congr ((State.unlessHeld_released hr _).trans ?_)
  simp only [h]

theorem exec_changePoint_some {p : LineSettings} (hr : s.resetHeld = false) (h : (s.line i).pending = some p) :
    exec (.changePoint i) s =
      .next (if s.reachedNow (s.latestMultiple (10 ^ 9) 0) = true ∧ (s.line i).changeAt ≠ some s.ts.tickCount then
          s.setLine i (s.changedLine (s.line i) p)
        else s) := by
  refine next_congr ((State.unlessHeld_released hr _).trans ?_)
  simp only [h]
  rfl

end

/-- Settles O33: every field of the line by the record applied, its held frame by the entry into CODED mode. -/
theorem changePointAppliesThePendingRecord : Obligations.ChangePointAppliesThePendingRecord := by
  intro s i hr hw l
  refine ⟨exec_changePoint_none hr, fun p hp => ⟨fun hstays => ?_, fun hreached hfirst => ?_⟩⟩
  · rw [exec_changePoint_some hr hp, if_neg]
    rintro ⟨hreached, hfirst⟩
    rcases hstays with hno | hdone
    · exact Bool.false_ne_true (hno.symm.trans hreached)
    · exact hfirst hdone
  intro shape leaves
  obtain ⟨held, heq, hkept, hcopied⟩ := s.changedLine_cases hw p
  obtain ⟨hpulse, hframe, hdropped⟩ := l.applyPending_flags p s.ts.tickCount
  have hshape : l.settings.changesShape p = true ↔ shape := LineSettings.changesShape_iff _ _
  have hnone (hs : shape) : (l.applyPending p s.ts.tickCount).held = none := by
    rw [Line.applyPending_eq]
    exact if_pos (hshape.mpr hs)
  refine ⟨s.changedLine l p, ?_, ?_⟩
  · rw [exec_changePoint_some hr hp, if_pos ⟨hreached, hfirst⟩]
  rw [heq]
  refine ⟨?_, fun hf => ?_, fun hf => ?_, fun hs => ?_, fun hs => ?_, hpulse, hframe, fun hl => ?_, fun hl => ?_, hdropped,
    fun hs => ?_, fun hs hno => (hkept hno).trans (hnone hs), fun f hm hcoded hf hf' => ?_⟩
  · simp only [Line.applyPending_eq, LineSettings.beginsTrain_iff]
    rfl
  · rw [Line.applyPending_eq]
    exact (l.state.follow_spec p.mode).2.2.mpr hf
  · rw [Line.applyPending_eq]
    exact (l.state.follow_eq p.mode).trans (if_neg hf)
  · rw [Line.applyPending_eq]
    exact if_pos (hshape.mpr hs)
  · rw [Line.applyPending_eq]
    exact if_neg (mt hshape.mp hs)
  · rw [Line.applyPending_eq]
    exact if_pos hl
  · rw [Line.applyPending_eq]
    exact if_neg hl
  · have hsame : p.mode = l.settings.mode := of_not_not fun hne => hs (.inl hne)
    refine (hkept ?_).trans ?_
    · by_cases hm : l.settings.mode = .coded
      · exact .inl hm
      · exact .inr (.inl (hsame ▸ hm))
    · rw [Line.applyPending_eq]
      exact if_neg (mt hshape.mp hs)
  · have hs : shape := .inl fun he => hm (he.symm.trans hcoded)
    rw [hcopied f hm hcoded hf hf', hnone hs]

end Sys2Proof.Machine
end

section
/-! SUPPORT. Starts on a line, as the statements write them: a start judged, and a row that finds nothing to start (R110,
R114; log entry 37). -/

namespace Sys2Proof.Machine

open Sys2Proof

/-! ### A line written twice -/

theorem Four.set_set {α : Type} (q : Four α) (i : Fin 4) (x y : α) : (q.set i x).set i y = q.set i y := by
  fin_cases i <;> rfl

theorem Sixteen.set_set {α : Type} (q : Sixteen α) (i : LineId) (x y : α) : (q.set i x).set i y = q.set i y := by
  simp [Sixteen.set, Four.set_set]

@[simp] theorem State.setLine_setLine (s : State) (i : LineId) (x y : Line) :
    (s.setLine i x).setLine i y = s.setLine i y := by
  simp [State.setLine, Sixteen.set_set]

/-! ### Starts judged -/

theorem State.loadFault_setLine (s : State) (i : LineId) (x y : Line) : (s.setLine i x).loadFault i y = s.loadFault i y := by
  simp only [State.loadFault_eq, State.setLine_setLine]

/-- A start whose load is at fault leaves what the fault makes of the line as started. -/
theorem State.judgeLoad_setLine (s : State) (i : LineId) (x : Line) {load : Load} (h : load ≠ .good) :
    (s.setLine i x).judgeLoad i load = s.loadFault i x := by
  rw [State.judgeLoad_fault _ i h, State.line_setLine, State.loadFault_setLine]

/-- A row of a start that does no more than judge an overtaken one finds nothing to start. -/
theorem State.findsNoStart_of_judgeOvertaken {s : State} {i : LineId} {mode : LineMode} {load : Load} {c : Instr}
    (h : exec c s = .next (s.judgeOvertaken i mode load)) : s.findsNoStart i mode load (exec c s) := by
  rw [h]
  refine ⟨fun hno => next_congr ?_, fun hload hover => next_congr (State.judgeOvertaken_fault hover hload)⟩
  rcases s.judgeOvertaken_cases i mode load with hj | ⟨hload, hr, hm, ho, _⟩
  · exact hj
  · rcases hno with hgood | hnot
    · exact absurd hgood hload
    · exact absurd ⟨hr, hm, ho⟩ hnot

end Sys2Proof.Machine
end

section
/-! SUPPORT. The emission of a frame: its slots, the starts and ends of its symbols, and its end (R103, R116, R120, R127,
R132). -/

namespace Sys2Proof.Machine

open Sys2Proof

/-! ### Slots and symbols (R116, R120) -/

theorem wrapInstant_natCast (n : Nat) : wrapInstant (n : Int) = n % Config.nsRange := by
  unfold wrapInstant
  rw [← Int.natCast_emod, Int.toNat_natCast]

theorem HeldFrame.slotStart_eq (h : HeldFrame) (k : Nat) : h.slotStart k = (h.slot0 + k * 20000000) % Config.nsRange :=
  wrapInstant_natCast _

/-- The emission of a frame whose slot `k` has just begun: that slot's symbol, until its width is over. -/
def HeldFrame.inSlot (h : HeldFrame) (k : Nat) : Emission :=
  .frame h (k + 1) (some (wrapInstant (h.slotStart k + (h.frame.symbols.getD k .zero).width : Nat)))

theorem State.startSymbol_eq (s : State) (i : LineId) (h : HeldFrame) (k : Nat) (load : Load) :
    s.startSymbol i h k load = (s.setLine i { s.line i with emission := h.inSlot k }).judgeLoad i load := rfl

theorem Line.level_eq (l : Line) : l.level = (l.active == decide (l.settings.polarity = .activeHigh)) := by
  unfold Line.level
  cases l.settings.polarity <;> simp

theorem State.outputLevel_released {s : State} (hr : s.resetHeld = false) (i : LineId) :
    s.outputLevel i = (s.line i).level := by
  simp [State.outputLevel, hr]

/-- The slot whose span contains the timescale. -/
theorem State.codedSlot_frame {s : State} {l : Line} {h : HeldFrame} {k n : Nat} {ends : Option Instant}
    (he : l.emission = .frame h k ends) (hn : n < 50)
    (hlo : (n * 20000000 : Nat) ≤ ((s.nowNs : Int) - h.slot0) % Config.nsRange)
    (hhi : ((s.nowNs : Int) - h.slot0) % Config.nsRange < ((n + 1) * 20000000 : Nat)) : s.codedSlot l = some n := by
  simp only [State.codedSlot_eq, he]
  generalize ((s.nowNs : Int) - h.slot0) % Config.nsRange = x at hlo hhi
  exact congrArg some (by omega)

/-- A line in CODED mode has reached a start: of its held frame, or of the next slot of the one in flight. -/
theorem State.startDue_coded {s : State} {i : LineId} (hm : (s.line i).settings.mode = .coded) :
    s.startDue i = true ↔ (s.line i).state = .running ∧
      ((∃ h, (s.line i).held = some h ∧ s.hasPassed h.slot0 = true) ∨
        ∃ h k ends, (s.line i).emission = .frame h k ends ∧ k < 50 ∧ s.hasPassed (h.slotStart k) = true) := by
  simp only [State.startDue, hm, State.symbolDue, Bool.and_eq_true, Bool.or_eq_true, Line.runningCoded_iff, and_true,
    Option.any_eq_true]
  refine and_congr_right fun _ => or_congr_right ?_
  cases he : (s.line i).emission with
  | none => simp
  | pulse kind ends => simp
  | frame h k ends =>
    simp only [State.slotDue, Bool.and_eq_true, decide_eq_true_eq, Emission.frame.injEq]
    constructor
    · exact fun hdue => ⟨h, k, ends, ⟨rfl, rfl, rfl⟩, hdue⟩
    · rintro ⟨_, _, _, ⟨rfl, rfl, rfl⟩, hdue⟩
      exact hdue

section
variable {s : State} {i : LineId} {load : Load} {h : HeldFrame} {k : Nat} {ends : Option Instant}

/-! ### The beginning of a frame (R127) -/

theorem exec_frameBegin_due (hr : s.resetHeld = false) (hh : (s.line i).held = some h)
    (hrun : (s.line i).state = .running) (hm : (s.line i).settings.mode = .coded) (hp : s.hasPassed h.slot0 = true) :
    exec (.frameBegin i load) s =
      .next ((s.setLine i
        { s.line i with
          held := none
          emission := h.inSlot 0
          emissions := wrap32 (s.line i).emissions 1 }).judgeLoad i load) := by
  refine next_congr ((State.unlessHeld_released hr _).trans ?_)
  simp only [hh, (Line.runningCoded_iff _).mpr ⟨hrun, hm⟩, hp, true_and, if_true, State.startSymbol_eq, State.line_setLine,
    State.setLine_setLine]

theorem exec_frameBegin_notDue (hr : s.resetHeld = false)
    (hno : ∀ h, (s.line i).held = some h →
      ¬ ((s.line i).state = .running ∧ (s.line i).settings.mode = .coded ∧ s.hasPassed h.slot0 = true)) :
    exec (.frameBegin i load) s = .next (s.judgeOvertaken i .coded load) := by
  refine next_congr ((State.unlessHeld_released hr _).trans ?_)
  cases hh : (s.line i).held with
  | none => simp only [hh]
  | some h =>
    simp only [hh]
    refine if_neg fun ⟨hc, hp⟩ => hno h hh ?_
    obtain ⟨hrun, hm⟩ := (Line.runningCoded_iff _).mp hc
    exact ⟨hrun, hm, hp⟩

/-! ### The symbols and the end of a frame (R120, R127) -/

theorem exec_symbolStart_frame (hr : s.resetHeld = false) (he : (s.line i).emission = .frame h k ends) :
    exec (.symbolStart i load) s =
      .next (if k < 50 ∧ s.hasPassed (h.slotStart k) = true then
          (s.setLine i { s.line i with emission := h.inSlot k }).judgeLoad i load
        else s.judgeOvertaken i .coded load) := by
  refine next_congr ((State.unlessHeld_released hr _).trans ?_)
  simp only [he, State.slotDue, Bool.and_eq_true, decide_eq_true_eq, State.startSymbol_eq]

theorem exec_symbolStart_none (hr : s.resetHeld = false) (he : ∀ h k ends, (s.line i).emission ≠ .frame h k ends) :
    exec (.symbolStart i load) s = .next (s.judgeOvertaken i .coded load) := by
  refine next_congr ((State.unlessHeld_released hr _).trans ?_)
  cases hem : (s.line i).emission with
  | none => rfl
  | pulse kind ends => rfl
  | frame h k ends => exact absurd hem (he h k ends)

theorem exec_symbolEnd_some {e : Instant} (hr : s.resetHeld = false) (he : (s.line i).emission = .frame h k (some e)) :
    exec (.symbolEnd i) s =
      .next (if s.hasPassed e = true then s.setLine i { s.line i with emission := .frame h k none } else s) := by
  refine next_congr ((State.unlessHeld_released hr _).trans ?_)
  simp only [he]

theorem exec_symbolEnd_none (hr : s.resetHeld = false) (he : (s.line i).emission = .frame h k none) :
    exec (.symbolEnd i) s = .next s := by
  refine next_congr ((State.unlessHeld_released hr _).trans ?_)
  simp only [he]

theorem exec_frameEnd_frame (hr : s.resetHeld = false) (he : (s.line i).emission = .frame h k ends) :
    exec (.frameEnd i) s =
      .next (if s.hasPassed (h.slotStart 50) = true then s.setLine i { s.line i with emission := .none } else s) := by
  refine next_congr ((State.unlessHeld_released hr _).trans ?_)
  simp only [he]

end

/-- Settles O36. -/
theorem framesAreEmittedSlotBySlot : Obligations.FramesAreEmittedSlotBySlot := by
  intro s i hr l width slotAt inSlot faulted
  have hslot (h : HeldFrame) (k : Nat) : slotAt h k = h.slotStart k := (h.slotStart_eq k).symm
  have hwidth (x : Symbol) : width x = x.width := by cases x <;> rfl
  have hin (h : HeldFrame) (k : Nat) : inSlot h k = h.inSlot k := by
    simp only [inSlot, HeldFrame.inSlot, hslot, hwidth, wrapInstant_natCast]
  simp only [hslot, hin]
  refine ⟨State.startDue_coded, fun load hh => ?_, fun load he => ?_, fun h load hh => ⟨fun hno => ?_, fun hrun hm hp => ?_⟩,
    fun he => ?_, fun h k ends he => ⟨?_, fun n hn hlo hhi => State.codedSlot_frame he hn hlo hhi, fun load hk hp => ?_,
      fun load hno => ?_, ?_, ?_, fun hp => ?_, fun hp => ?_⟩⟩
  · exact State.findsNoStart_of_judgeOvertaken (exec_frameBegin_notDue hr fun h hs => by rw [hh] at hs; cases hs)
  · exact State.findsNoStart_of_judgeOvertaken (exec_symbolStart_none hr he)
  · refine State.findsNoStart_of_judgeOvertaken (exec_frameBegin_notDue hr fun h' hs => ?_)
    cases hh.symm.trans hs
    exact hno
  · exact ⟨exec_frameBegin_due hr hh hrun hm hp,
      fun hload => (exec_frameBegin_due hr hh hrun hm hp).trans (next_congr (s.judgeLoad_setLine i _ hload))⟩
  · rw [State.codedSlot_eq]
    cases hem : l.emission with
    | none => rfl
    | pulse kind ends => rfl
    | frame h k ends => exact absurd hem (he h k ends)
  · rw [State.outputLevel_released hr, Line.level_eq, Line.active, he]
  · have hstart (load : Load) := exec_symbolStart_frame (load := load) hr he
    simp only [hk, hp, and_self, if_true] at hstart
    exact ⟨hstart .good, fun hload => (hstart load).trans (next_congr (s.judgeLoad_setLine i _ hload))⟩
  · refine State.findsNoStart_of_judgeOvertaken ((exec_symbolStart_frame hr he).trans (next_congr (if_neg ?_)))
    rintro ⟨hk, hp⟩
    rcases hno with hge | hnot
    · exact absurd hk (not_lt.mpr hge)
    · exact Bool.false_ne_true (hnot.symm.trans hp)
  · rintro e rfl
    have hend := exec_symbolEnd_some hr he
    exact ⟨fun hp => hend.trans (next_congr (if_pos hp)),
      fun hp => hend.trans (next_congr (if_neg (Bool.eq_false_iff.mp hp)))⟩
  · rintro rfl
    exact exec_symbolEnd_none hr he
  · exact (exec_frameEnd_frame hr he).trans (next_congr (if_pos hp))
  · exact (exec_frameEnd_frame hr he).trans (next_congr (if_neg (Bool.eq_false_iff.mp hp)))

end Sys2Proof.Machine
end

section
/-! SUPPORT. Pulses: the output level and GATED, the starts of PULSE mode, commitments, and the starts that a pulse's end
waits for (R103 to R110, R114). -/

namespace Sys2Proof.Machine

open Sys2Proof

/-! ### The gate and the level (R103, R107) -/

theorem gatePasses_iff (gate : Option Grade) (grade : Grade) :
    gatePasses gate grade = true ↔ ∀ g, gate = some g → grade ≤ g := by
  cases gate <;> simp [gatePasses]

theorem gatePasses_false_iff (gate : Option Grade) (grade : Grade) :
    gatePasses gate grade = false ↔ ∃ g, gate = some g ∧ g < grade := by
  cases gate <;> simp [gatePasses]

theorem Line.gatedNow_iff (l : Line) (grade : Grade) :
    l.gatedNow grade = true ↔
      l.state = .running ∧ (l.settings.mode = .pulse ∨ l.settings.mode = .marks) ∧
        ∃ g, l.settings.gate = some g ∧ g < grade := by
  simp only [Line.gatedNow, Bool.and_eq_true, Bool.or_eq_true, decide_eq_true_eq, Bool.not_eq_true',
    gatePasses_false_iff, and_assoc]

/-- The level while the output is active. -/
theorem Line.level_active {l : Line} (h : l.active = true) : l.level = !decide (l.settings.polarity = .activeLow) := by
  rw [Line.level_eq, h]
  cases l.settings.polarity <;> rfl

/-- The level while it is not. -/
theorem Line.level_inactive {l : Line} (h : l.active = false) : l.level = decide (l.settings.polarity = .activeLow) := by
  rw [Line.level_eq, h]
  cases l.settings.polarity <;> rfl

theorem Line.active_pulse {l : Line} {kind : PulseKind} {ends : Instant} (h : l.emission = .pulse kind ends) :
    l.active = true := by
  rw [Line.active, h]

theorem Line.active_none {l : Line} (h : l.emission = .none) : l.active = false := by
  rw [Line.active, h]

/-- A line that is not RUNNING has nothing in flight (R103). -/
theorem Line.wf.emission_none {l : Line} (h : l.wf) (hr : l.state ≠ .running) : l.emission = .none := by
  obtain ⟨_, _, _, _, _, hemit, _⟩ := h
  exact of_not_not (mt hemit hr)

/-! ### Instants round the return to 0 (R1; log entry 28) -/

theorem notAfter_iff (a b : Nat) :
    notAfter a b = true ↔ (b + Config.nsRange - a % Config.nsRange) % Config.nsRange < Config.nsRange / 2 :=
  decide_eq_true_iff

theorem notAfter_of_le {a b : Nat} (hle : a ≤ b) (hnear : b - a < Config.nsRange / 2) :
    notAfter a b = true := by
  rw [notAfter_iff]
  simp only [Config.nsRange, Config.secRange, Config.nsPerSec] at *
  omega

theorem not_notAfter_of_lt {a b : Nat} (hb : b < Config.nsRange) (hlt : a < b) (hnear : b - a ≤ Config.nsRange / 2) :
    notAfter b a = false := by
  rw [← Bool.not_eq_true, notAfter_iff]
  simp only [Config.nsRange, Config.secRange, Config.nsPerSec] at *
  omega

/-- Of two instants, less than half the range apart as numbers, the greater is the later. -/
theorem laterOf_of_le {a b : Nat} (hb : b < Config.nsRange) (hle : a ≤ b) (hnear : b - a < Config.nsRange / 2) :
    laterOf a b = b ∧ laterOf b a = b := by
  unfold laterOf
  rw [notAfter_of_le hle hnear, if_pos rfl]
  refine ⟨?_, rfl⟩
  rcases Nat.eq_or_lt_of_le hle with rfl | hlt
  · exact ite_self _
  · rw [not_notAfter_of_lt hb hlt hnear.le]
    rfl

/-! ### The starts of PULSE mode (R105, R106) -/

theorem State.le_of_reachedNow {s : State} {t : Int} (h : s.reachedNow t = true) : t ≤ s.nowNs := by
  unfold State.reachedNow at h
  split at h
  · cases h
  · exact (of_decide_eq_true h).2

/-- The start reached at this tick of a train with one start in every `span` nanoseconds. -/
theorem State.reached_latestMultiple_iff (s : State) {span : Nat} (early : Nat) (hs : 0 < span) (t : Int) :
    (s.reachedNow (s.latestMultiple span early) = true ∧ s.latestMultiple span early = t) ↔
      s.reachedNow t = true ∧ (t + early) % (span : Int) = 0 ∧ (s.nowNs : Int) < t + span := by
  constructor
  · rintro ⟨hreached, rfl⟩
    obtain ⟨hmult, _, hlast⟩ := (s.latestMultiple_iff early hs _).mp rfl
    exact ⟨hreached, hmult, hlast⟩
  · rintro ⟨hreached, hmult, hlast⟩
    have ht := (s.latestMultiple_iff early hs t).mpr ⟨hmult, State.le_of_reachedNow hreached, hlast⟩
    exact ⟨ht ▸ hreached, ht.symm⟩

theorem State.pulseStartNow_short (s : State) {l : Line} (hpos : 1 ≤ l.settings.period) (hlt : l.settings.period < 1000)
    (t : Int) :
    s.pulseStartNow l = some t ↔
      s.reachedNow t = true ∧ (t + l.settings.compensation) % ((l.settings.period : Int) * 10 ^ 6) = 0 ∧
        (s.nowNs : Int) < t + (l.settings.period : Int) * 10 ^ 6 := by
  have hspan : ((l.settings.period * 1000000 : Nat) : Int) = (l.settings.period : Int) * 10 ^ 6 := by push_cast; norm_num
  rw [← hspan, ← s.reached_latestMultiple_iff _ (by omega)]
  simp only [State.pulseStartNow, if_pos hlt, Option.ite_none_right_eq_some, Option.some.injEq]

/-- The second that a start serves is one of the train's: its label divided by the period, the inserted second in a train
of 1 s alone (R105, R106). -/
def State.servesSecond (s : State) (l : Line) (t : Int) : Prop :=
  let x := s.ts.labelAhead (wrapInstant (t + l.settings.compensation) / 10 ^ 9)
  if x.inserted then l.settings.period = 1000 else x.label.secOfDay % (l.settings.period / 1000) = 0

theorem State.pulseStartNow_long (s : State) {l : Line} (hge : 1000 ≤ l.settings.period) (t : Int) :
    s.pulseStartNow l = some t ↔
      (s.reachedNow t = true ∧ (t + l.settings.compensation) % (10 ^ 9 : Int) = 0 ∧ (s.nowNs : Int) < t + 10 ^ 9) ∧
        s.servesSecond l t := by
  have hspan : ((10 ^ 9 : Nat) : Int) = 10 ^ 9 := by norm_num
  rw [← hspan, ← s.reached_latestMultiple_iff _ (by decide), State.servesSecond, and_assoc, and_comm (a := _ = t)]
  simp only [State.pulseStartNow, if_neg (not_lt.mpr hge), Option.ite_none_right_eq_some, Option.some.injEq,
    Bool.and_eq_true, and_assoc, show Config.nsPerSec = 10 ^ 9 from rfl]
  refine and_congr_right fun _ => and_congr_left fun ht => ?_
  rw [ht]
  split <;> exact decide_eq_true_iff

/-! ### Starts in PULSE mode (R105 to R108, R114) -/

/-- A pulse that begins where no frame is in flight: one still running is cut, with PULSE_CUT. -/
theorem Line.startPulse_cutEmission {l : Line} (h : ∀ f n e, l.emission ≠ .frame f n e) (kind : PulseKind) (ends : Instant) :
    l.cutEmission.startPulse kind ends =
      { l with
        emission := .pulse kind ends
        emissions := wrap32 l.emissions 1
        flags := { l.flags with pulseCut := l.flags.pulseCut || decide (l.emission ≠ .none) } } := by
  unfold Line.cutEmission
  cases he : l.emission with
  | none => simp [Line.startPulse]
  | pulse kind ends => simp [Line.startPulse]
  | frame f n e => exact absurd he (h f n e)

section
variable {s : State} {i : LineId} {load : Load} {t : Int}

theorem exec_pulseStart_due (hr : s.resetHeld = false) (hrun : (s.line i).state = .running)
    (hm : (s.line i).settings.mode = .pulse) (hfirst : (s.line i).startAt ≠ some s.ts.tickCount)
    (ht : s.pulseStartNow (s.line i) = some t) : exec (.pulseStart i load) s = .next (s.startTrainPulse i t load) := by
  refine next_congr ((State.unlessHeld_released hr _).trans ?_)
  simp only [(s.trainStartDue_iff _ _).mpr ⟨hrun, hm, hfirst, ht⟩]

theorem exec_pulseStart_notDue (hr : s.resetHeld = false)
    (hno : (s.line i).state ≠ .running ∨ (s.line i).settings.mode ≠ .pulse ∨ (s.line i).startAt = some s.ts.tickCount ∨
      s.pulseStartNow (s.line i) = none) :
    exec (.pulseStart i load) s = .next (s.judgeOvertaken i .pulse load) := by
  have hnone : s.trainStartDue (s.line i) = none := by
    refine Option.eq_none_iff_forall_ne_some.mpr fun t ht => ?_
    obtain ⟨hrun, hm, hfirst, hnow⟩ := (s.trainStartDue_iff _ _).mp ht
    rcases hno with h | h | h | h
    · exact h hrun
    · exact h hm
    · exact hfirst h
    · rw [h] at hnow
      cases hnow
  refine next_congr ((State.unlessHeld_released hr _).trans ?_)
  simp only [hnone]

/-- A start that the gate suppresses is counted as gated (R107). -/
theorem State.startTrainPulse_gated (hg : gatePasses (s.line i).settings.gate s.engine.announced = false) :
    s.startTrainPulse i t load =
      s.setLine i { s.line i with startAt := some s.ts.tickCount, gated := sat16 (s.line i).gated } := by
  refine if_neg ?_
  exact Bool.eq_false_iff.mp hg

/-- A start that the gate lets pass begins its pulse, and its load is judged (R105, R108, R114). -/
theorem State.startTrainPulse_passed (hg : gatePasses (s.line i).settings.gate s.engine.announced = true)
    (hf : ∀ f n e, (s.line i).emission ≠ .frame f n e) :
    s.startTrainPulse i t load =
      (s.setLine i
        { s.line i with
          startAt := some s.ts.tickCount
          emission := .pulse .pulse (pulseEndOf t (s.line i).settings.width)
          emissions := wrap32 (s.line i).emissions 1
          flags := { (s.line i).flags with
            pulseCut := (s.line i).flags.pulseCut || decide ((s.line i).emission ≠ .none) } }).judgeLoad i load := by
  refine (if_pos hg).trans ?_
  rw [Line.startPulse_cutEmission (l := { s.line i with startAt := some s.ts.tickCount }) hf]

theorem State.startDue_pulse (hm : (s.line i).settings.mode = .pulse) :
    s.startDue i = true ↔
      (s.line i).state = .running ∧ (s.line i).startAt ≠ some s.ts.tickCount ∧
        (∃ t, s.pulseStartNow (s.line i) = some t) ∧
          gatePasses (s.line i).settings.gate s.engine.announced = true := by
  simp only [State.startDue, hm, State.trainPulseDue, Bool.and_eq_true, Option.isSome_iff_exists, State.trainStartDue_iff,
    true_and, exists_and_left, and_assoc]
  rfl

/-! ### Starts that wait (R109, R110; log entry 33) -/

/-- A start such as `such` waits for line `i`, RUNNING in MARKS mode: that of its first commitment, or one that a mark due
and not yet taken is to offer. -/
def State.startWaits (s : State) (i : LineId) (such : Instant → Prop) : Prop :=
  let l := s.line i
  l.state = .running ∧ l.settings.mode = .marks ∧
    ((∃ c rest, l.commitments = c :: rest ∧ s.hasReached c.start = true ∧ such c.start) ∨
      ∃ m ∈ s.marks, s.hasReached m.taking = true ∧ gatePasses m.minGrade s.engine.announced = true ∧
        m.lines.getLsbD i.val = true ∧ gatePasses l.settings.gate s.engine.announced = true ∧
        m.taking + l.settings.compensation ≤ m.due ∧ s.hasReached (m.due - l.settings.compensation) = true ∧
        such (m.due - l.settings.compensation))

theorem State.markOffersNow_iff (s : State) (i : LineId) (m : Mark) :
    s.markOffersNow i m = true ↔
      (s.line i).state = .running ∧ (s.line i).settings.mode = .marks ∧ s.hasReached m.taking = true ∧
        gatePasses m.minGrade s.engine.announced = true ∧ m.lines.getLsbD i.val = true ∧
        gatePasses (s.line i).settings.gate s.engine.announced = true ∧
        m.taking + (s.line i).settings.compensation ≤ m.due ∧
        s.hasReached (m.due - (s.line i).settings.compensation) = true := by
  simp only [State.markOffersNow, Bool.and_eq_true, Bool.not_eq_true', State.accepts_iff, inSet, Mark.commitmentFor]
  rw [← Bool.not_eq_true, State.withholds_iff, Bool.not_eq_false]
  tauto

theorem any_head?_iff {α : Type} (xs : List α) (p : α → Bool) :
    xs.head?.any p = true ↔ ∃ x rest, xs = x :: rest ∧ p x = true := by
  cases xs <;> simp

/-- On a line RUNNING in MARKS mode such a start waits at the head of the list, or in a mark that offers it now. -/
theorem State.startWaits_iff (hrun : (s.line i).state = .running) (hm : (s.line i).settings.mode = .marks)
    (such : Instant → Prop) :
    s.startWaits i such ↔
      (∃ c rest, (s.line i).commitments = c :: rest ∧ s.hasReached c.start = true ∧ such c.start) ∨
        ∃ m ∈ s.marks, s.markOffersNow i m = true ∧ such (m.commitmentFor (s.line i)).start := by
  simp only [State.startWaits, State.markOffersNow_iff, hrun, hm, true_and, and_assoc]
  rfl

/-- The end of a pulse waits for the starts at or before it. -/
theorem State.mergeComesFirst_iff (s : State) (i : LineId) (ends : Instant) :
    s.mergeComesFirst i ends = true ↔ s.startWaits i fun start => notAfter start ends = true := by
  by_cases h : (s.line i).state = .running ∧ (s.line i).settings.mode = .marks
  · rw [State.startWaits_iff h.1 h.2]
    simp only [State.mergeComesFirst, State.commitmentStartsBy, State.startsBy, State.markStartsBy, h, and_self,
      decide_true, Bool.true_and, Bool.or_eq_true, Bool.and_eq_true, List.any_eq_true, any_head?_iff]
  · refine iff_of_false (fun hmerge => ?_) fun ⟨hrun, hm, _⟩ => h ⟨hrun, hm⟩
    simp only [State.mergeComesFirst, State.commitmentStartsBy, State.markStartsBy, h, decide_false, Bool.false_and,
      Bool.false_or, List.any_eq_true, Bool.and_eq_true, State.markOffersNow_iff] at hmerge
    obtain ⟨m, _, ⟨hrun, hm, _⟩, _⟩ := hmerge
    exact h ⟨hrun, hm⟩

theorem State.startDue_marks (hm : (s.line i).settings.mode = .marks) :
    s.startDue i = true ↔ (s.line i).idle ∧ s.startWaits i fun _ => True := by
  have hdue (hidle : (s.line i).idle) : s.commitmentDue i = true ↔ s.startWaits i fun _ => True := by
    by_cases hrun : (s.line i).state = .running
    · rw [State.startWaits_iff hrun hm]
      unfold State.commitmentDue
      dsimp only
      split
      · rename_i kind ends he
        exact absurd he (hidle kind ends)
      · simp only [hrun, decide_true, Bool.true_and, Bool.or_eq_true, List.any_eq_true, any_head?_iff, and_true]
    · refine iff_of_false (fun h => ?_) fun ⟨h, _⟩ => hrun h
      unfold State.commitmentDue at h
      dsimp only at h
      split at h
      · cases h
      · simp [hrun] at h
  simp only [State.startDue, hm]
  constructor
  · intro h
    have hidle : (s.line i).idle := fun kind ends he => by
      simp only [State.commitmentDue, he, Bool.false_eq_true] at h
    exact ⟨hidle, (hdue hidle).mp h⟩
  · exact fun ⟨hidle, h⟩ => (hdue hidle).mpr h

/-! ### The end of a pulse (R103, R110) -/

theorem exec_pulseEnd_pulse {kind : PulseKind} {ends : Instant} (hr : s.resetHeld = false)
    (he : (s.line i).emission = .pulse kind ends) :
    exec (.pulseEnd i) s =
      .next (if s.hasPassed ends = true ∧ s.mergeComesFirst i ends = false then
          s.setLine i { s.line i with emission := .none }
        else s) := by
  refine next_congr ((State.unlessHeld_released hr _).trans ?_)
  simp only [he]

theorem exec_pulseEnd_idle (he : (s.line i).idle) : exec (.pulseEnd i) s = .next s := by
  refine next_congr ?_
  rcases pulseEndState_cases i s with h | ⟨kind, ends, hem, _⟩
  · exact h
  · exact absurd hem (he kind ends)

/-! ### Commitments (R110) -/

theorem exec_commitmentStart_due {c : Commitment} {rest : List Commitment} (hr : s.resetHeld = false)
    (hc : (s.line i).commitments = c :: rest) (hrun : (s.line i).state = .running)
    (hm : (s.line i).settings.mode = .marks) (hreached : s.hasReached c.start = true) :
    exec (.commitmentStart i load) s =
      .next ((s.setLine i { s.line i with commitments := rest }).startCommitment i c load) := by
  refine next_congr ((State.unlessHeld_released hr _).trans ?_)
  simp only [hc]
  exact if_pos ⟨hrun, hm, hreached⟩

theorem exec_commitmentStart_notDue (hr : s.resetHeld = false)
    (hno : ∀ c rest, (s.line i).commitments = c :: rest →
      ¬ ((s.line i).state = .running ∧ (s.line i).settings.mode = .marks ∧ s.hasReached c.start = true)) :
    exec (.commitmentStart i load) s = .next (s.judgeOvertaken i .marks load) := by
  refine next_congr ((State.unlessHeld_released hr _).trans ?_)
  cases hc : (s.line i).commitments with
  | nil => simp only [hc]
  | cons c rest =>
    simp only [hc]
    exact if_neg (hno c rest hc)

/-- The pulse in flight takes the commitment in (R110). -/
theorem State.startCommitment_pulse {l : Line} {kind : PulseKind} {ends : Instant} (he : l.emission = .pulse kind ends)
    (c : Commitment) :
    (s.setLine i l).startCommitment i c load =
      s.setLine i
        { l with emission := .pulse kind (laterOf ends c.ends), flags := { l.flags with markMerged := true } } := by
  simp only [State.startCommitment, State.line_setLine, he, State.setLine_setLine]

/-- With nothing in flight the commitment starts its pulse, and its load is judged (R110, R114). -/
theorem State.startCommitment_idle {l : Line} (he : l.emission = .none) (c : Commitment) :
    (s.setLine i l).startCommitment i c load = (s.setLine i (l.startPulse .mark c.ends)).judgeLoad i load := by
  simp only [State.startCommitment, State.line_setLine, he, State.setLine_setLine]

end

/-- Settles O34. -/
theorem pulsesStartMergeFaultAndEnd : Obligations.PulsesStartMergeFaultAndEnd := by
  refine ⟨fun s i hr => by simp [State.outputLevel, hr], gatePasses_iff, fun s i hr => ?_⟩
  intro l inactive
  refine ⟨⟨fun kind ends he => ?_, fun he => ?_, fun hw hst => ?_⟩, l.gatedNow_iff _, ?_⟩
  · exact (State.outputLevel_released hr i).trans (Line.level_active (Line.active_pulse he))
  · exact (State.outputLevel_released hr i).trans (Line.level_inactive (Line.active_none he))
  · exact (State.outputLevel_released hr i).trans (Line.level_inactive (Line.active_none (hw.emission_none hst)))
  intro faulted early reached serves startWaits mergeWaits
  have hmerge (ends : Instant) : s.mergeComesFirst i ends = true ↔ mergeWaits ends := s.mergeComesFirst_iff i ends
  refine ⟨fun hm => ?_, State.startDue_pulse, State.startDue_marks, fun a b _ hb => ⟨fun hle hnear => ?_,
    fun hlt hnear => not_notAfter_of_lt hb hlt hnear⟩, fun _ => rfl, s.pulseStartNow_short, s.pulseStartNow_long,
    fun t load hrun hm hfirst ht hf => ⟨fun hg => ?_, fun hg => ?_⟩, fun load hno => ?_,
    fun kind ends he => ⟨fun hp hno => ?_, fun hno => ?_⟩, exec_pulseEnd_idle, fun load hnil => ?_,
    fun c rest load hc => ⟨fun hno => ?_, fun hrun hm hreached => ⟨fun kind ends he => ?_, fun he => ?_⟩⟩⟩
  · simp only [State.startDue, show (s.line i).settings.mode = .off from hm]
  · exact ⟨notAfter_of_le hle hnear, laterOf_of_le hb hle hnear⟩
  · exact (exec_pulseStart_due hr hrun hm hfirst ht).trans (next_congr (State.startTrainPulse_gated hg))
  · have hstart (load : Load) := (exec_pulseStart_due (load := load) hr hrun hm hfirst ht).trans
      (next_congr (State.startTrainPulse_passed hg hf))
    exact ⟨hstart .good, fun hload => (hstart load).trans (next_congr (s.judgeLoad_setLine i _ hload))⟩
  · exact State.findsNoStart_of_judgeOvertaken (exec_pulseStart_notDue hr hno)
  · refine (exec_pulseEnd_pulse hr he).trans (next_congr (if_pos ⟨hp, ?_⟩))
    exact Bool.eq_false_iff.mpr (mt (hmerge ends).mp hno)
  · refine (exec_pulseEnd_pulse hr he).trans (next_congr (if_neg ?_))
    rintro ⟨hp, hfree⟩
    rcases hno with hnot | hwaits
    · exact Bool.false_ne_true (hnot.symm.trans hp)
    · exact Bool.false_ne_true (hfree.symm.trans ((hmerge ends).mpr hwaits))
  · exact State.findsNoStart_of_judgeOvertaken
      (exec_commitmentStart_notDue hr fun c rest hc => by rw [hnil] at hc; cases hc)
  · refine State.findsNoStart_of_judgeOvertaken (exec_commitmentStart_notDue hr fun c' rest' hc' => ?_)
    cases hc.symm.trans hc'
    exact hno
  · exact (exec_commitmentStart_due hr hc hrun hm hreached).trans
      (next_congr (State.startCommitment_pulse (l := { l with commitments := rest }) he c))
  · have hstart (load : Load) := (exec_commitmentStart_due (load := load) hr hc hrun hm hreached).trans
      (next_congr (State.startCommitment_idle (l := { l with commitments := rest }) he c))
    exact ⟨hstart .good, fun hload => (hstart load).trans (next_congr (s.judgeLoad_setLine i _ hload))⟩

end Sys2Proof.Machine
end

section
/-! SUPPORT. The fifty symbols of a frame: its ten segments one after another, the field that stands at a slot, and the
slots that hold a MARK (R120, R121). -/

namespace Sys2Proof.Machine

open Sys2Proof

/-! ### A field's symbols (R121) -/

/-- The symbol of bit `i` of a number. -/
def bitSymbol (n i : Nat) : Symbol := if n.testBit i then .one else .zero

theorem bitSymbol_ne_mark (n i : Nat) : bitSymbol n i ≠ .mark := by
  unfold bitSymbol
  split <;> decide

theorem fieldSymbols_eq (w n : Nat) : fieldSymbols w n = (List.range w).map (bitSymbol n) :=
  List.map_congr_left fun i _ => by simp [bitSymbol, Nat.testBit_eq_decide_div_mod_eq]

@[simp] theorem length_fieldSymbols (w n : Nat) : (fieldSymbols w n).length = w := by simp [fieldSymbols]

theorem getElem?_fieldSymbols {w i : Nat} (hi : i < w) (n : Nat) : (fieldSymbols w n)[i]? = some (bitSymbol n i) := by
  simp [fieldSymbols_eq, hi]

@[simp] theorem mark_notMem_fieldSymbols (w n : Nat) : Symbol.mark ∉ fieldSymbols w n := by
  simp [fieldSymbols_eq, bitSymbol_ne_mark]

/-! ### The segments of a frame (R121) -/

/-- The ten segments of the slot plan in their order: each MARK, each field, the check and the pad. -/
def frameSegments (secOfDay dayOfYear year grade leapField : Nat) (localOffset : Int) : List (List Symbol) :=
  [[.mark], fieldSymbols 17 secOfDay, fieldSymbols 9 dayOfYear, fieldSymbols 7 year, [.mark], fieldSymbols 3 grade,
    fieldSymbols 2 leapField, fieldSymbols 7 (localOffset % 128).toNat,
    fieldSymbols 2 (countOnes (frameBody secOfDay dayOfYear year grade leapField localOffset) % 4), [.zero]]

/-- An element of a segment stands behind the segments before it. -/
theorem getElem?_flatten_segment {α : Type} (segments : List (List α)) {j i : Nat} (hj : j < segments.length)
    (hi : i < segments[j].length) : segments.flatten[(segments.take j).flatten.length + i]? = segments[j][i]? := by
  have hsplit : segments.flatten = (segments.take j).flatten ++ (segments[j] ++ (segments.drop (j + 1)).flatten) := by
    rw [← List.flatten_cons, ← List.drop_eq_getElem_cons hj, ← List.flatten_append, List.take_append_drop]
  rw [hsplit, List.getElem?_append_right (by omega), Nat.add_sub_cancel_left, List.getElem?_append_left hi]

/-- A list with one `x` at its head and one more behind `before` holds `x` nowhere else. -/
theorem eq_zero_or_eq_of_getElem?_eq {α : Type} {x : α} {before behind : List α} (hbefore : x ∉ before)
    (hbehind : x ∉ behind) {k : Nat} (hk : (x :: (before ++ x :: behind))[k]? = some x) :
    k = 0 ∨ k = before.length + 1 := by
  cases k with
  | zero => exact .inl rfl
  | succ k =>
    rw [List.getElem?_cons_succ] at hk
    rcases lt_trichotomy k before.length with hlt | heq | hgt
    · rw [List.getElem?_append_left hlt] at hk
      exact absurd (List.mem_of_getElem? hk) hbefore
    · exact .inr (congrArg (· + 1) heq)
    · obtain ⟨m, rfl⟩ := Nat.exists_eq_add_of_lt hgt
      rw [List.getElem?_append_right (by omega), Nat.add_assoc, Nat.add_sub_cancel_left, List.getElem?_cons_succ] at hk
      exact absurd (List.mem_of_getElem? hk) hbehind

section
variable (sod day year grade leap : Nat) (off : Int)

theorem length_frameBody : (frameBody sod day year grade leap off).length = 46 := by simp [frameBody]

theorem frameSymbols_eq_flatten :
    frameSymbols sod day year grade leap off = (frameSegments sod day year grade leap off).flatten := by
  simp [frameSymbols, frameBody, frameSegments]

/-- The check of slots 47 and 48 counts the ONEs of slots 1 to 46. -/
theorem drop_take_frameSymbols :
    ((frameSymbols sod day year grade leap off).drop 1).take 46 = frameBody sod day year grade leap off := by
  have hlen := length_frameBody sod day year grade leap off
  simp only [frameSymbols, List.cons_append, List.drop_succ_cons, List.drop_zero, List.append_assoc]
  exact List.take_left' hlen

end

section
variable {sod day year grade leap : Nat} {off : Int}

/-- Bit `k` of the field that is segment `j` stands `k` slots behind the segment's first. -/
theorem frameSymbols_field {j w n first : Nat} (hj : (frameSegments sod day year grade leap off)[j]? = some (fieldSymbols w n))
    (hfirst : ((frameSegments sod day year grade leap off).take j).flatten.length = first) :
    ∀ k < w, (frameSymbols sod day year grade leap off)[first + k]? = some (bitSymbol n k) := by
  intro k hk
  obtain ⟨hlt, hseg⟩ := List.getElem?_eq_some_iff.mp hj
  have hat := getElem?_flatten_segment (frameSegments sod day year grade leap off) (i := k) hlt (by simpa [hseg] using hk)
  rwa [hfirst, hseg, getElem?_fieldSymbols hk, ← frameSymbols_eq_flatten] at hat

/-- A segment of one symbol. -/
theorem frameSymbols_single {j first : Nat} {x : Symbol} (hj : (frameSegments sod day year grade leap off)[j]? = some [x])
    (hfirst : ((frameSegments sod day year grade leap off).take j).flatten.length = first) :
    (frameSymbols sod day year grade leap off)[first]? = some x := by
  obtain ⟨hlt, hseg⟩ := List.getElem?_eq_some_iff.mp hj
  have hat := getElem?_flatten_segment (frameSegments sod day year grade leap off) (i := 0) hlt (by simp [hseg])
  rwa [hfirst, hseg, ← frameSymbols_eq_flatten] at hat

theorem frameSymbols_mark {k : Nat} (hk : (frameSymbols sod day year grade leap off)[k]? = some .mark) : k = 0 ∨ k = 34 := by
  have hsplit : frameSymbols sod day year grade leap off =
      .mark :: ((fieldSymbols 17 sod ++ fieldSymbols 9 day ++ fieldSymbols 7 year) ++
        .mark :: ((frameSegments sod day year grade leap off).drop 5).flatten) := by
    simp [frameSymbols_eq_flatten, frameSegments]
  rw [hsplit] at hk
  simpa using eq_zero_or_eq_of_getElem?_eq (by simp) (by simp [frameSegments]) hk

end

/-- local_offset in two's complement of 7 bits (R121). -/
theorem offset_mod_eq {off : Int} (hlow : -64 ≤ off) (hhigh : off < 64) :
    (off % 128).toNat = if off < 0 then (off + 128).toNat else off.toNat := by
  split <;> omega

/-- Settles O37: each field by the segment that it is, the MARKs by the split of the plan at slot 34. -/
theorem frameSymbolsFollowTheSlotPlan : Obligations.FrameSymbolsFollowTheSlotPlan := by
  intro sod day year grade leap off hlow hhigh ss bit
  have hlength : ss.length = 50 := by simp [ss, frameSymbols, length_frameBody]
  have hoffset : ∀ k < 7, ss[40 + k]? = some (bitSymbol (off % 128).toNat k) :=
    frameSymbols_field (j := 7) rfl (by simp [frameSegments])
  have hcheck : ∀ k < 2, ss[47 + k]? = some (bitSymbol (countOnes (frameBody sod day year grade leap off) % 4) k) :=
    frameSymbols_field (j := 8) rfl (by simp [frameSegments])
  rw [offset_mod_eq hlow hhigh] at hoffset
  rw [← drop_take_frameSymbols] at hcheck
  exact ⟨hlength, frameSymbols_single (j := 0) rfl rfl, frameSymbols_single (j := 4) rfl (by simp [frameSegments]),
    frameSymbols_single (j := 9) rfl (by simp [frameSegments]), fun k => frameSymbols_mark,
    frameSymbols_field (j := 1) rfl rfl, frameSymbols_field (j := 2) rfl (by simp [frameSegments]),
    frameSymbols_field (j := 3) rfl (by simp [frameSegments]), frameSymbols_field (j := 5) rfl (by simp [frameSegments]),
    frameSymbols_field (j := 6) rfl (by simp [frameSegments]), hoffset, hcheck⟩

end Sys2Proof.Machine
end

section
/-! SUPPORT. The composition of a frame: the label of a second ahead, the frame's fields, the copies that the lines take,
and the release (R106, R122 to R126). -/

namespace Sys2Proof.Machine

open Sys2Proof

/-! ### The label of a second ahead (R106, R124) -/

section
variable {ts : TimescaleUnit} {r : Leap}

theorem TimescaleUnit.labelAhead_none (h : ts.leap = none) (sec : Nat) :
    ts.labelAhead sec = ⟨labelOf (sec - (ts.utcOffset : Int)), sec - (ts.utcOffset : Int), false⟩ := by
  simp only [TimescaleUnit.labelAhead, h]

theorem TimescaleUnit.labelAhead_insert (h : ts.leap = some r) (hk : r.kind = .insert) (sec : Nat) :
    ts.labelAhead sec =
      if (sec : Int) = r.dayEnd + ts.utcOffset then
        ⟨{ labelOf (r.dayEnd - 1) with secOfDay := 86400 }, sec - (ts.utcOffset : Int), true⟩
      else if (sec : Int) > r.dayEnd + ts.utcOffset then
        ⟨labelOf (sec - (ts.utcOffset + 1 : Int)), sec - (ts.utcOffset + 1 : Int), false⟩
      else ⟨labelOf (sec - (ts.utcOffset : Int)), sec - (ts.utcOffset : Int), false⟩ := by
  simp only [TimescaleUnit.labelAhead, h, hk, insertedLabel]

theorem TimescaleUnit.labelAhead_delete (h : ts.leap = some r) (hk : r.kind = .delete) (sec : Nat) :
    ts.labelAhead sec =
      if (sec : Int) ≥ r.dayEnd - 1 + ts.utcOffset then
        ⟨labelOf (sec - (ts.utcOffset - 1 : Int)), sec - (ts.utcOffset - 1 : Int), false⟩
      else ⟨labelOf (sec - (ts.utcOffset : Int)), sec - (ts.utcOffset : Int), false⟩ := by
  simp only [TimescaleUnit.labelAhead, h, hk]

/-! ### The leap field (R125) -/

theorem TimescaleUnit.leapFieldOf_none (h : ts.leap = none) (x : SecondLabel) : ts.leapFieldOf x = 0 := by
  simp only [TimescaleUnit.leapFieldOf, h]

theorem TimescaleUnit.leapFieldOf_some (h : ts.leap = some r) (x : SecondLabel) :
    ts.leapFieldOf x =
      if x.inserted then 3
      else if r.kind = .insert ∧ r.dayEnd - 86400 ≤ x.utcCount ∧ x.utcCount ≤ r.dayEnd - 1 then 1
      else if r.kind = .delete ∧ r.dayEnd - 86400 ≤ x.utcCount ∧ x.utcCount ≤ r.dayEnd - 2 then 2
      else 0 := by
  simp only [TimescaleUnit.leapFieldOf, h]

end

/-! ### The composed frame (R122, R124, R126) -/

theorem State.composeFrame_eq_none_iff (s : State) (sec : Nat) :
    s.composeFrame sec = none ↔ (s.ts.labelAhead sec).label.year < 2000 ∨ 2127 < (s.ts.labelAhead sec).label.year := by
  simp only [State.composeFrame]
  split
  · simp only [reduceCtorEq, false_iff]
    omega
  · simp only [true_iff]
    omega

/-- What a composed frame holds. -/
theorem State.composeFrame_eq_some {s : State} {sec : Nat} {f : Frame} (h : s.composeFrame sec = some f) :
    2000 ≤ (s.ts.labelAhead sec).label.year ∧
      f =
        { target := sec
          secOfDay := (s.ts.labelAhead sec).label.secOfDay
          dayOfYear := (s.ts.labelAhead sec).label.dayOfYear
          year := ((s.ts.labelAhead sec).label.year - 2000).toNat
          grade := s.engine.announced
          leapField := s.ts.leapFieldOf (s.ts.labelAhead sec)
          localOffset := s.ts.localOffset
          symbols := frameSymbols (s.ts.labelAhead sec).label.secOfDay (s.ts.labelAhead sec).label.dayOfYear
            ((s.ts.labelAhead sec).label.year - 2000).toNat s.engine.announced.val
            (s.ts.leapFieldOf (s.ts.labelAhead sec)) s.ts.localOffset } := by
  simp only [State.composeFrame] at h
  split at h
  · rename_i hyear
    cases h
    exact ⟨hyear.1, rfl⟩
  · cases h

/-! ### The copies of the lines and the release (R122, R123) -/

theorem Line.takeFrame_eq (l : Line) (f : Frame) :
    l.takeFrame f =
      if l.state = .running ∧ l.settings.mode = .coded then
        { l with held := some (heldFrameOf f l.settings.compensation) }
      else l := by
  simp only [Line.takeFrame, Line.runningCoded_iff]

/-- With no frame composed the lines stay as they are. -/
theorem State.compose_eq (s : State) :
    s.compose =
      { s with
        composer := ⟨s.composeFrame s.nextSecond, some s.ts.tickCount⟩
        lines := s.lines.map fun l => (s.composeFrame s.nextSecond).elim l l.takeFrame } := by
  unfold State.compose
  cases hf : s.composeFrame s.nextSecond <;> rfl

section
variable {s : State}

theorem exec_composition (hr : s.resetHeld = false) :
    exec .composition s =
      .next (if s.reachedNow (s.latestMultiple (10 ^ 9) 100000000) = true ∧ s.composer.composedAt ≠ some s.ts.tickCount then
          s.compose
        else s) :=
  next_congr (State.unlessHeld_released hr _)

theorem exec_frameRelease_some (hr : s.resetHeld = false) {f : Frame} (hf : s.composer.frame = some f) :
    exec .frameRelease s =
      .next (if s.hasPassed (f.target * 10 ^ 9) = true then { s with composer := { s.composer with frame := none } }
        else s) := by
  refine next_congr ((State.unlessHeld_released hr _).trans ?_)
  simp only [hf, Config.nsPerSec, Nat.reducePow]

end

/-- Settles O35. -/
theorem compositionBuildsAndReleasesTheFrame : Obligations.CompositionBuildsAndReleasesTheFrame := by
  intro s hr sec copied latch u x
  have hcopied : copied (s.composeFrame sec) = fun l => (s.composeFrame sec).elim l l.takeFrame := by
    cases s.composeFrame sec with
    | none => rfl
    | some f => exact funext fun l => (l.takeFrame_eq f).symm
  refine ⟨fun hno => ?_, fun hreached hnew => ?_, s.composeFrame_eq_none_iff sec, fun f hf => ?_,
    fun hl => TimescaleUnit.labelAhead_none hl sec, fun r hl hk => ⟨fun heq => ?_, fun hafter => ?_, fun hbefore => ?_⟩,
    fun r hl hk => ⟨fun hfrom => ?_, fun hbefore => ?_⟩, fun f hf => ⟨fun hp => ?_, fun hp => ?_⟩⟩
  · refine (exec_composition hr).trans (next_congr (if_neg fun ⟨hreached, hnew⟩ => ?_))
    rcases hno with hnot | hdone
    · exact Bool.false_ne_true (hnot.symm.trans hreached)
    · exact hnew hdone
  · rw [hcopied]
    exact (exec_composition hr).trans (next_congr ((if_pos ⟨hreached, hnew⟩).trans s.compose_eq))
  · obtain ⟨hyear, rfl⟩ := State.composeFrame_eq_some hf
    exact ⟨rfl, rfl, rfl, Int.toNat_of_nonneg (by omega), rfl, rfl, rfl, fun hl => TimescaleUnit.leapFieldOf_none hl _,
      fun r hl => TimescaleUnit.leapFieldOf_some hl _⟩
  · exact (TimescaleUnit.labelAhead_insert hl hk sec).trans (if_pos heq)
  · exact (TimescaleUnit.labelAhead_insert hl hk sec).trans ((if_neg (by omega)).trans (if_pos hafter))
  · exact (TimescaleUnit.labelAhead_insert hl hk sec).trans ((if_neg (by omega)).trans (if_neg (by omega)))
  · exact (TimescaleUnit.labelAhead_delete hl hk sec).trans (if_pos hfrom)
  · exact (TimescaleUnit.labelAhead_delete hl hk sec).trans (if_neg (by omega))
  · exact (exec_frameRelease_some hr hf).trans (next_congr (if_pos hp))
  · exact (exec_frameRelease_some hr hf).trans (next_congr (if_neg (Bool.eq_false_iff.mp hp)))

end Sys2Proof.Machine
end

section
/-! SUPPORT. Commands that leave the network ports and the client table: those of the mark scheduler, of the
output lines and of the frame composer. -/

namespace Sys2Proof.Machine

open Sys2Proof

/-- What the state holds of the network side: the ports with their settings, and the client table. -/
def State.networkSide (s : State) : Network × ClientTable := (s.net, s.clients)

theorem State.networkSide_of_driven {s t : State} (h : t.driven = s.driven) : t.networkSide = s.networkSide := by
  unfold State.driven at h
  simp only [Prod.mk.injEq] at h
  obtain ⟨_, _, _, _, hnet, hclients⟩ := h
  exact Prod.ext hnet hclients

theorem State.onlyLines.networkSide {s t : State} (h : s.onlyLines t) : t.networkSide = s.networkSide := by
  rw [h.eq]
  rfl

theorem State.networkSide_handOutcome (s : State) (o : Outcome) : (s.handOutcome o).networkSide = s.networkSide := by
  rw [State.handOutcome_frame]
  rfl

theorem State.networkSide_unlessHeld {s : State} {f : State → State} (h : (f s).networkSide = s.networkSide) :
    (s.unlessHeld f).networkSide = s.networkSide :=
  State.unlessHeld_induct (P := fun t => t.networkSide = s.networkSide) rfl h

theorem State.networkSide_takeCommand {s : State} {mp : Mp} {row : CommandRow} {act : List Word → State → Judged}
    (h : ∀ ws, ((act ws s).leaves s).networkSide = s.networkSide) :
    (s.takeCommand mp row act).networkSide = s.networkSide :=
  State.takeCommand_leaves (P := fun t => t.networkSide = s.networkSide) rfl (fun _ _ _ ht => ht) h

theorem Judged.networkSide_withParams {α : Type} {s : State} {params : Option α} {act : α → Judged}
    (h : ∀ x, ((act x).leaves s).networkSide = s.networkSide) :
    ((withParams params act).leaves s).networkSide = s.networkSide := by
  cases params with
  | none => rfl
  | some x => exact h x

/-! ### The mark scheduler (chapter 4) -/

theorem networkSide_markTakingState (faulty : BitVec 16) (s : State) :
    (markTakingState faulty s).networkSide = s.networkSide := by
  refine State.networkSide_unlessHeld ?_
  split
  · exact (s.judgeOvertakenAll_onlyLines _).networkSide
  · split
    · rw [State.takeMark_frame]
      rfl
    · exact (s.judgeOvertakenAll_onlyLines _).networkSide

theorem networkSide_addMarkState (mp : Mp) (s : State) : (addMarkState mp s).networkSide = s.networkSide := by
  refine State.networkSide_takeCommand fun ws => ?_
  unfold addMarkAct
  split
  · rfl
  · refine Judged.networkSide_withParams fun p => ?_
    unfold State.placeMark
    split_ifs
    · rfl
    · rfl
    · rfl
    · split <;> rfl

theorem networkSide_cancelMarkState (mp : Mp) (s : State) : (cancelMarkState mp s).networkSide = s.networkSide := by
  refine State.networkSide_takeCommand fun ws => Judged.networkSide_withParams fun id => ?_
  unfold State.cancelById
  split
  · rfl
  · split
    · exact State.networkSide_handOutcome _ _
    · rfl

theorem networkSide_portClearState (mp : Mp) (len : Nat) (s : State) :
    (portClearState mp len s).networkSide = s.networkSide := by
  refine State.endTransaction_induct (P := fun t => t.networkSide = s.networkSide) rfl (fun _ _ ht => ht)
    fun x t ht => ?_
  dsimp only
  split <;> exact ht

/-! ### The output lines and the frame composer (chapters 5 and 6) -/

theorem networkSide_lineRestartState (mp : Mp) (s : State) : (lineRestartState mp s).networkSide = s.networkSide := by
  refine State.networkSide_takeCommand fun ws => Judged.networkSide_withParams fun i => ?_
  split <;> rfl

theorem networkSide_senseLineState (mp : Mp) (s : State) : (senseLineState mp s).networkSide = s.networkSide := by
  refine State.networkSide_takeCommand fun ws => Judged.networkSide_withParams fun x => ?_
  dsimp only [Judged.leaves]
  split <;> rfl

theorem networkSide_compositionState (s : State) : (compositionState s).networkSide = s.networkSide := by
  refine State.networkSide_unlessHeld ?_
  split
  · rw [State.compose_eq]
    rfl
  · rfl

theorem networkSide_frameReleaseState (s : State) : (frameReleaseState s).networkSide = s.networkSide := by
  refine State.networkSide_unlessHeld ?_
  dsimp only
  split
  · rfl
  · split <;> rfl

/-! ### Every such command -/

/-- The commands of the mark scheduler, of the output lines and of the frame composer, and PORT_CLEAR. -/
def actsOnMarksOrLines : Instr → Bool
  | .addMark _ | .cancelMark _ | .takeOutcomes _ | .markTaking _ | .setLine _ | .changePoint _ | .pulseStart _ _
  | .pulseEnd _ | .commitmentStart _ _ | .lineRestart _ | .senseLine _ | .composition | .frameRelease | .frameBegin _ _
  | .symbolStart _ _ | .symbolEnd _ | .frameEnd _ | .portClear _ _ => true
  | _ => false

theorem networkSide_exec {c : Instr} (hc : actsOnMarksOrLines c = true) (s : State) :
    ∃ t, exec c s = .next t ∧ t.networkSide = s.networkSide := by
  cases c with
  | addMark mp => exact ⟨_, rfl, networkSide_addMarkState mp s⟩
  | cancelMark mp => exact ⟨_, rfl, networkSide_cancelMarkState mp s⟩
  | takeOutcomes mp => exact ⟨_, rfl, State.networkSide_takeCommand fun _ => rfl⟩
  | markTaking faulty => exact ⟨_, rfl, networkSide_markTakingState faulty s⟩
  | portClear mp len => exact ⟨_, rfl, networkSide_portClearState mp len s⟩
  | setLine mp =>
    exact ⟨_, rfl, State.networkSide_takeCommand fun _ => Judged.networkSide_withParams fun _ => rfl⟩
  | lineRestart mp => exact ⟨_, rfl, networkSide_lineRestartState mp s⟩
  | senseLine mp => exact ⟨_, rfl, networkSide_senseLineState mp s⟩
  | changePoint i => exact ⟨_, rfl, (changePointState_onlyLines i s).networkSide⟩
  | pulseStart i load => exact ⟨_, rfl, (pulseStartState_onlyLines i load s).networkSide⟩
  | pulseEnd i => exact ⟨_, rfl, (pulseEndState_onlyLines i s).networkSide⟩
  | commitmentStart i load => exact ⟨_, rfl, (commitmentStartState_onlyLines i load s).networkSide⟩
  | frameBegin i load => exact ⟨_, rfl, (frameBeginState_onlyLines i load s).networkSide⟩
  | symbolStart i load => exact ⟨_, rfl, (symbolStartState_onlyLines i load s).networkSide⟩
  | symbolEnd i => exact ⟨_, rfl, (symbolEndState_onlyLines i s).networkSide⟩
  | frameEnd i => exact ⟨_, rfl, (frameEndState_onlyLines i s).networkSide⟩
  | composition => exact ⟨_, rfl, networkSide_compositionState s⟩
  | frameRelease => exact ⟨_, rfl, networkSide_frameReleaseState s⟩
  | _ => cases hc

end Sys2Proof.Machine
end

section
/-! SUPPORT. A legal network port: what a change of one part of it asks, and that each event and each command keeps both
ports legal (R135 to R142, R147). -/

namespace Sys2Proof.Machine

open Sys2Proof

/-! ### Port states (R137) -/

theorem portStateOf_eq (enabled : Bool) (link : LinkState) :
    portStateOf enabled link = if enabled then (if link = .up then .active else .down) else .disabled := by
  cases enabled <;> cases link <;> rfl

theorem portStateOf_eq_active_iff (enabled : Bool) (link : LinkState) :
    portStateOf enabled link = .active ↔ enabled = true ∧ link = .up := by
  cases enabled <;> cases link <;> decide

/-! ### Changes of one part of a port -/

/-- A port with nothing queued, pending, on the wire or in reception. -/
def NetPort.quiet (port : NetPort) : Prop :=
  port.queue = [] ∧ port.wire = .idle ∧ port.pendingBeacon = none ∧ port.reception = none

theorem firstDueAfter_lt (t : Instant) (interval : Nat) : firstDueAfter t interval < Config.nsRange :=
  Nat.mod_lt _ (by decide)

section
variable {port : NetPort} {st : PortState}

/-- A quiet port is legal in every state, since none asks more of it than its sequence and its schedule. -/
theorem NetPort.quiet.wf (h : port.quiet) (hseq : port.beaconSeq ≤ 65535) (hdue : port.nextDue < Config.nsRange) :
    port.wf st := by
  obtain ⟨hq, hw, hb, hr⟩ := h
  exact ⟨by simp [hq], fun _ => ⟨hq, hw, hb, hr⟩, fun _ => ⟨hq, hb⟩, hseq, hdue⟩

/-- In ACTIVE a port may have anything waiting for a wire that is not idle. -/
theorem NetPort.wf_active_iff :
    port.wf .active ↔
      port.queue.length ≤ 32 ∧ (port.wire = .idle → port.queue = [] ∧ port.pendingBeacon = none) ∧
        port.beaconSeq ≤ 65535 ∧ port.nextDue < Config.nsRange :=
  ⟨fun ⟨hlen, _, hidle, hseq, hdue⟩ => ⟨hlen, hidle, hseq, hdue⟩,
    fun ⟨hlen, hidle, hseq, hdue⟩ => ⟨hlen, absurd rfl, hidle, hseq, hdue⟩⟩

theorem NetPort.wf.quiet (h : port.wf st) (hst : st ≠ .active) : port.quiet := h.2.1 hst

/-- A port that is not quiet is in ACTIVE. -/
theorem NetPort.wf.active (h : port.wf st) (hq : ¬ port.quiet) : st = .active := by
  by_contra hst
  exact hq (h.quiet hst)

theorem NetPort.wf.withCounters (h : port.wf st) (k : PortCounters) : NetPort.wf { port with counters := k } st := h

theorem NetPort.wf.withNextDue (h : port.wf st) {t : Instant} (ht : t < Config.nsRange) :
    NetPort.wf { port with nextDue := t } st := by
  obtain ⟨hlen, hout, hidle, hseq, _⟩ := h
  exact ⟨hlen, hout, hidle, hseq, ht⟩

theorem NetPort.wf.receptionEnded (h : port.wf st) : NetPort.wf { port with reception := none } st := by
  obtain ⟨hlen, hout, hidle, hseq, hdue⟩ := h
  refine ⟨hlen, fun hst => ?_, hidle, hseq, hdue⟩
  obtain ⟨hq, hw, hb, _⟩ := hout hst
  exact ⟨hq, hw, hb, rfl⟩

theorem NetPort.wf.receptionBegun (h : port.wf .active) (r : Reception) :
    NetPort.wf { port with reception := some r } .active := by
  obtain ⟨hlen, hidle, hseq, hdue⟩ := NetPort.wf_active_iff.mp h
  exact NetPort.wf_active_iff.mpr ⟨hlen, hidle, hseq, hdue⟩

/-- A port that leaves ACTIVE is quiet (R138). -/
theorem NetPort.quiet_flushed (port : NetPort) : port.flushed.quiet := ⟨rfl, rfl, rfl, rfl⟩

/-- A step empties the queue and keeps what is on the wire (R147). -/
theorem NetPort.wf.onStep (h : port.wf st) (new : Instant) (interval : Nat) : (port.onStep new interval).wf st := by
  obtain ⟨_, hout, hidle, hseq, _⟩ := h
  refine ⟨Nat.zero_le _, fun hst => ?_, fun hw => ⟨rfl, (hidle hw).2⟩, hseq, firstDueAfter_lt _ _⟩
  obtain ⟨_, hw, hb, hr⟩ := hout hst
  exact ⟨rfl, hw, hb, by simp [NetPort.onStep, hr]⟩

theorem NetPort.wf.cleared (h : port.wf st) : port.cleared.wf st := by
  obtain ⟨_, hout, hidle, hseq, hdue⟩ := h
  refine ⟨Nat.zero_le _, fun hst => ?_, fun hw => ⟨rfl, (hidle hw).2⟩, hseq, hdue⟩
  obtain ⟨_, hw, hb, hr⟩ := hout hst
  exact ⟨rfl, hw, hb, hr⟩

/-! ### The transmit arbiter (R140, R141) -/

/-- The arbiter leaves an ACTIVE port legal, whatever waited for the wire before. -/
theorem State.handWire_wf (s : State) (hlen : port.queue.length ≤ 32) (hseq : port.beaconSeq ≤ 65535)
    (hdue : port.nextDue < Config.nsRange) : (s.handWire port).wf .active := by
  obtain ⟨_, hnext, _, _, hshort⟩ := s.handWire_keeps port
  refine NetPort.wf_active_iff.mpr ⟨hshort.trans hlen, s.handWire_idle port, ?_, hnext ▸ hdue⟩
  rcases s.handWire_cases port with ⟨k, _, h⟩ | ⟨a, rest, _, _, h⟩ | ⟨_, _, h⟩ <;> rw [h]
  · change (port.beaconSeq + 1) % 65536 ≤ 65535
    omega
  · exact hseq
  · exact hseq

theorem State.offerWire_wf (s : State) (hlen : port.queue.length ≤ 32) (hseq : port.beaconSeq ≤ 65535)
    (hdue : port.nextDue < Config.nsRange) : (s.offerWire port).wf .active := by
  unfold State.offerWire
  have busy (hw : port.wire ≠ .idle) : port.wf .active :=
    NetPort.wf_active_iff.mpr ⟨hlen, fun h => absurd h hw, hseq, hdue⟩
  split
  · exact s.handWire_wf hlen hseq hdue
  · rename_i b hw
    exact busy (by rw [hw]; exact nofun)
  · rename_i a source hw
    exact busy (by rw [hw]; exact nofun)

theorem State.beaconAt_wf (s : State) (p : NetId) (h : port.wf (s.portState p)) :
    (s.beaconAt p port).wf (s.portState p) := by
  unfold State.beaconAt
  split
  · dsimp only
    split
    · rename_i hmakes
      obtain ⟨hactive, _⟩ := hmakes
      obtain ⟨hlen, _, _, hseq, _⟩ := h
      rw [hactive]
      exact s.offerWire_wf hlen hseq (firstDueAfter_lt _ _)
    · exact h.withNextDue (firstDueAfter_lt _ _)
  · exact h

end

/-! ### Operations that keep the ports legal -/

theorem State.netWf_iff (s : State) : s.netWf ↔ s.net.settings.wf ∧ ∀ p, (s.netPort p).wf (s.portState p) :=
  and_congr_right fun _ => ⟨fun h p => h p (by cases p <;> simp), fun h p _ => h p⟩

/-- `t` has legal network ports where `s` has. -/
def State.netSafe (s t : State) : Prop := s.netWf → t.netWf

theorem State.netSafe_refl (s : State) : s.netSafe s := id

theorem State.netSafe.trans {s t u : State} (h : s.netSafe t) (k : t.netSafe u) : s.netSafe u := k ∘ h

theorem State.netSafe_of_net {s t : State} (h : t.net = s.net) : s.netSafe t := by
  unfold State.netSafe State.netWf State.portState State.netPort
  rw [h]
  exact id

theorem State.netSafe_of_networkSide {s t : State} (h : t.networkSide = s.networkSide) : s.netSafe t :=
  State.netSafe_of_net (congrArg Prod.fst h)

/-- With the settings kept, each port may be judged from its own record. -/
theorem State.netSafe_of_each {s t : State} (hset : t.net.settings = s.net.settings)
    (h : ∀ p, (s.netPort p).wf (s.portState p) → (t.netPort p).wf (t.portState p)) : s.netSafe t := by
  intro hw
  obtain ⟨hs, hp⟩ := s.netWf_iff.mp hw
  exact t.netWf_iff.mpr ⟨hset ▸ hs, fun p => h p (hp p)⟩

theorem State.portState_eq (s : State) (p : NetId) :
    s.portState p =
      if s.net.settings.enable.get p then (if (s.netPort p).link = .up then .active else .down) else .disabled :=
  portStateOf_eq _ _

/-- The state of a port goes by its own record. -/
theorem State.portState_setNetPort (s : State) (p : NetId) (x : NetPort) :
    (s.setNetPort p x).portState p = portStateOf (s.net.settings.enable.get p) x.link := by
  rw [State.portState, State.netPort_setNetPort]
  rfl

theorem State.portState_setNetPort_other (s : State) {p q : NetId} (h : q ≠ p) (x : NetPort) :
    (s.setNetPort p x).portState q = s.portState q := by
  rw [State.portState, State.netPort_setNetPort_other s h]
  rfl

/-- A port whose link stays as it was keeps its state. -/
theorem State.portState_setNetPort_of_link {s : State} {p : NetId} {x : NetPort} (h : x.link = (s.netPort p).link)
    (q : NetId) : (s.setNetPort p x).portState q = s.portState q := by
  by_cases hq : q = p
  · rw [hq, State.portState_setNetPort, h]
    rfl
  · exact s.portState_setNetPort_other hq x

theorem State.setNetPort_netSafe {s : State} {p : NetId} {x : NetPort}
    (h : (s.netPort p).wf (s.portState p) → x.wf (portStateOf (s.net.settings.enable.get p) x.link)) :
    s.netSafe (s.setNetPort p x) := State.netSafe_of_each rfl fun q hq => by
  by_cases hp : q = p
  · rw [hp, State.portState_setNetPort, State.netPort_setNetPort]
    exact h (hp ▸ hq)
  · rwa [s.portState_setNetPort_other hp, s.netPort_setNetPort_other hp]

/-- A port whose link stays as it was is judged in the state it was in. -/
theorem State.setNetPort_netSafe_of_link {s : State} {p : NetId} {x : NetPort} (hl : x.link = (s.netPort p).link)
    (h : (s.netPort p).wf (s.portState p) → x.wf (s.portState p)) : s.netSafe (s.setNetPort p x) :=
  State.setNetPort_netSafe fun hw => by
    rw [hl]
    exact h hw

theorem State.count_netSafe (s : State) (p : NetId) (f : PortCounters → PortCounters) : s.netSafe (s.count p f) :=
  State.setNetPort_netSafe_of_link rfl fun hw => hw.withCounters _

theorem State.netPort_count (s : State) (p : NetId) (f : PortCounters → PortCounters) :
    (s.count p f).netPort p = { s.netPort p with counters := f (s.netPort p).counters } :=
  s.netPort_setNetPort p _

theorem State.stepTo_netSafe (s : State) (src : Origin) (new : Instant) (clearFrac : Bool) :
    s.netSafe (s.stepTo src new clearFrac) := by
  have hset : (s.stepTo src new clearFrac).net.settings = s.net.settings := by rw [State.stepTo_frame]
  refine State.netSafe_of_each hset fun p hw => ?_
  rw [State.portState, hset, State.netPort_stepTo]
  exact hw.onStep new _

theorem State.netSafe_drivenRule : DrivenRule State.netSafe where
  trans := State.netSafe.trans
  keeps h := State.netSafe_of_networkSide (State.networkSide_of_driven h)
  step := State.stepTo_netSafe

/-! ### Links, beacons and transmissions (R137 to R141, R149) -/

/-- A link-up brings a port to ACTIVE, or leaves its state. -/
theorem linkUpState_netSafe (p : NetId) (s : State) : s.netSafe (linkUpState p s) := by
  refine State.setNetPort_netSafe fun hw => ?_
  by_cases hst : s.portState p = .active
  · obtain ⟨hon, _⟩ := (portStateOf_eq_active_iff _ _).mp hst
    rw [hst] at hw
    rw [hon]
    exact hw
  · have hquiet := hw.quiet hst
    obtain ⟨_, _, _, hseq, hdue⟩ := hw
    exact NetPort.quiet.wf hquiet hseq hdue

/-- After a link-down the port is quiet, flushed if it was in ACTIVE. -/
theorem linkDownState_netSafe (p : NetId) (s : State) : s.netSafe (linkDownState p s) := by
  refine State.setNetPort_netSafe fun hw => ?_
  split
  · obtain ⟨_, _, _, hseq, hdue⟩ := hw
    exact NetPort.quiet.wf (s.netPort p).quiet_flushed hseq hdue
  · rename_i hst
    have hquiet := hw.quiet hst
    obtain ⟨_, _, _, hseq, hdue⟩ := hw
    exact NetPort.quiet.wf hquiet hseq hdue

theorem State.link_beaconAt (s : State) (p : NetId) (port : NetPort) : (s.beaconAt p port).link = port.link := by
  unfold State.beaconAt
  split
  · dsimp only
    split
    · exact (s.offerWire_keeps _).1
    · rfl
  · rfl

/-- An event that acts on each port by itself. -/
theorem State.netPort_each (s : State) (f : NetId → NetPort → NetPort) (p : NetId) :
    State.netPort { s with net := { s.net with ports := ⟨f .na s.net.ports.na, f .nb s.net.ports.nb⟩ } } p =
      f p (s.netPort p) := by
  cases p <;> rfl

theorem State.each_netSafe {s : State} {f : NetId → NetPort → NetPort} (hlink : ∀ p port, (f p port).link = port.link)
    (h : ∀ p, (s.netPort p).wf (s.portState p) → (f p (s.netPort p)).wf (s.portState p)) :
    s.netSafe { s with net := { s.net with ports := ⟨f .na s.net.ports.na, f .nb s.net.ports.nb⟩ } } :=
  State.netSafe_of_each rfl fun p hw => by
    rw [State.portState, s.netPort_each, hlink]
    exact h p hw

theorem beaconDueState_netSafe (s : State) : s.netSafe (beaconDueState s) :=
  State.unlessHeld_induct s.netSafe_refl (State.each_netSafe s.link_beaconAt fun p hw => s.beaconAt_wf p hw)

/-- A frame on the wire says that the port is in ACTIVE. -/
theorem NetPort.wf.handWire {port : NetPort} {st : PortState} (h : port.wf st) (hw : port.wire ≠ .idle) (s : State)
    (k : PortCounters) : (s.handWire { port with counters := k }).wf st := by
  rw [h.active fun hq => hw hq.2.1]
  obtain ⟨hlen, _, _, hseq, hdue⟩ := h
  exact s.handWire_wf hlen hseq hdue

theorem transmitEndState_netSafe (p : NetId) (s : State) : s.netSafe (transmitEndState p s) := by
  refine State.unlessHeld_induct s.netSafe_refl ?_
  dsimp only
  split
  · exact s.netSafe_refl
  · rename_i b hwire
    exact State.setNetPort_netSafe_of_link (s.handWire_keeps _).1
      fun hw => hw.handWire (by rw [hwire]; exact nofun) s _
  · rename_i a source hwire
    exact State.setNetPort_netSafe_of_link (s.handWire_keeps _).1
      fun hw => hw.handWire (by rw [hwire]; exact nofun) s _

/-! ### Asks (R143 to R145) -/

theorem askTimingPointState_netSafe (p : NetId) (s : State) : s.netSafe (askTimingPointState p s) := by
  refine State.unlessHeld_induct s.netSafe_refl ?_
  dsimp only
  split
  · rename_i hactive
    refine State.setNetPort_netSafe_of_link rfl fun hw => ?_
    rw [hactive] at hw ⊢
    exact hw.receptionBegun _
  · exact s.netSafe_refl

theorem State.net_onSub (s : State) (p : NetId) (a : NetAddress) (f : SubRecord → SubRecord) :
    (s.onSub p a f).net = s.net := by
  unfold State.onSub
  split
  · rfl
  · split <;> rfl

theorem State.net_takeReport (s : State) (c : Client) (p : NetId) (ask : Ask) (r : Reception) :
    (s.takeReport c p ask r).net = s.net := by
  unfold State.takeReport
  split
  · rfl
  · dsimp only
    split <;> rfl

theorem State.net_recordAnswered (s : State) (p : NetId) (a : NetAddress) (ask : Ask) (r : Reception) :
    (s.recordAnswered p a ask r).net = s.net := by
  unfold State.recordAnswered
  split
  · exact State.net_takeReport _ _ _ _ _
  · split
    · rfl
    · exact State.net_takeReport _ _ _ _ _

/-- An answer joins a queue with room at a port in ACTIVE (R142). -/
theorem State.queueAnswer_netSafe {s : State} {p : NetId} (hactive : s.portState p = .active)
    (hroom : (s.netPort p).queue.length < 32) (a : Answer) : s.netSafe (s.queueAnswer p a) :=
  State.setNetPort_netSafe_of_link (s.offerWire_keeps _).1 fun hw => by
    obtain ⟨_, _, _, hseq, hdue⟩ := hw
    rw [hactive]
    refine s.offerWire_wf ?_ hseq hdue
    rw [List.length_append, List.length_singleton]
    omega

theorem State.handleAsk_netSafe {s : State} {p : NetId} (hactive : s.portState p = .active) (a : NetAddress) (ask : Ask)
    (r : Reception) : s.netSafe (s.handleAsk p a ask r) := by
  have dropped (f : SubRecord → SubRecord) (g : PortCounters → PortCounters) :
      s.netSafe ((s.onSub p a f).count p g) :=
    (State.netSafe_of_net (s.net_onSub p a f)).trans (State.count_netSafe _ p g)
  have answered {t : State} (hnet : t.net.settings = s.net.settings) (hlink : (t.netPort p).link = (s.netPort p).link)
      (hq : (t.netPort p).queue = (s.netPort p).queue) (hroom : s.queueHasRoom p = true) (b : Answer) :
      t.netSafe (t.queueAnswer p b) := by
    refine State.queueAnswer_netSafe ?_ (hq ▸ of_decide_eq_true hroom) b
    rw [State.portState, hnet, hlink]
    exact hactive
  unfold State.handleAsk
  split
  · exact dropped _ _
  · exact dropped _ _
  · split
    · rename_i hroom
      have hnet := s.net_recordAnswered p a ask r
      exact (State.netSafe_of_net hnet).trans (answered (by rw [hnet]) (by rw [State.netPort, hnet]; rfl)
        (by rw [State.netPort, hnet]; rfl) hroom _)
    · exact dropped _ _
  · split
    · rename_i hroom
      have counted := s.count_netSafe p fun k => { k with untracked := wrap32 k.untracked 1 }
      refine counted.trans ?_
      refine answered ?_ ?_ ?_ hroom _
      · rfl
      · rw [State.netPort_count]
      · rw [State.netPort_count]
    · exact s.count_netSafe p _

theorem State.arriveCandidate_netSafe {s : State} {p : NetId} (hactive : s.portState p = .active) (f : RxFrame)
    (r : Reception) : s.netSafe (s.arriveCandidate p f r) := by
  unfold State.arriveCandidate
  split
  · exact s.count_netSafe p _
  · split
    · exact s.count_netSafe p _
    · split_ifs
      · exact s.count_netSafe p _
      · exact s.count_netSafe p _
      · exact State.handleAsk_netSafe hactive _ _ r

/-- A frame in reception says that the port is in ACTIVE. -/
theorem askArrivalState_netSafe (p : NetId) (f : RxFrame) (s : State) : s.netSafe (askArrivalState p f s) := by
  refine State.unlessHeld_induct s.netSafe_refl ?_
  dsimp only
  split
  · exact s.netSafe_refl
  · rename_i r hr
    intro hw
    obtain ⟨_, hports⟩ := s.netWf_iff.mp hw
    have hactive : s.portState p = .active := (hports p).active fun hq => by
      obtain ⟨_, _, _, hnone⟩ := hq
      rw [hr] at hnone
      cases hnone
    have hended : s.netSafe (s.setNetPort p { s.netPort p with reception := none }) :=
      State.setNetPort_netSafe_of_link rfl fun hw => hw.receptionEnded
    have hstill := (State.portState_setNetPort_of_link (s := s) (p := p)
      (x := { s.netPort p with reception := none }) rfl p).trans hactive
    refine hended.trans ?_ hw
    split_ifs
    · exact State.count_netSafe _ p _
    · exact State.arriveCandidate_netSafe hstill f r
    · exact State.netSafe_refl _

/-! ### The commands of the ports and the resets (R150, R152, R187, R190) -/

theorem State.takeCommand_netSafe {s : State} {mp : Mp} {row : CommandRow} {act : List Word → State → Judged}
    (h : ∀ ws, s.netSafe ((act ws s).leaves s)) : s.netSafe (s.takeCommand mp row act) :=
  State.takeCommand_leaves s.netSafe_refl (fun _ _ _ ht => ht.trans (State.netSafe_of_net rfl)) h

theorem Judged.withParams_netSafe {α : Type} {s : State} {params : Option α} {act : α → Judged}
    (h : ∀ x, params = some x → s.netSafe ((act x).leaves s)) : s.netSafe ((withParams params act).leaves s) := by
  cases params with
  | none => exact s.netSafe_refl
  | some x => exact h x rfl

theorem State.netPort_changeNetwork (s : State) (new : NetSettings) (p : NetId) :
    (s.changeNetwork new).netPort p = s.portOnSettings p new := by
  cases p <;> rfl

/-- What a change of settings makes of a port: a flush where it leaves ACTIVE, and the schedule (R138, R139, R150). -/
theorem State.portOnSettings_eq (s : State) (p : NetId) (new : NetSettings) :
    s.portOnSettings p new =
      { if s.portState p = .active ∧ new.enable.get p = false then (s.netPort p).flushed else s.netPort p with
        nextDue :=
          if s.net.settings.interval = new.interval then (s.netPort p).nextDue
          else firstDueAfter s.nowNs new.interval } := by
  unfold State.portOnSettings
  dsimp only
  split_ifs <;> rfl

theorem State.portState_changeNetwork (s : State) (new : NetSettings) (p : NetId) :
    (s.changeNetwork new).portState p = portStateOf (new.enable.get p) (s.netPort p).link := by
  rw [State.portState, State.netPort_changeNetwork, State.portOnSettings_eq]
  dsimp only
  split_ifs <;> rfl

/-- A port that stays in ACTIVE is as it was, and any other is quiet. -/
theorem State.changeNetwork_netSafe {s : State} {new : NetSettings} (hnew : new.wf) :
    s.netSafe (s.changeNetwork new) := by
  intro hw
  obtain ⟨_, hports⟩ := s.netWf_iff.mp hw
  refine (State.netWf_iff _).mpr ⟨hnew, fun p => ?_⟩
  have hp := hports p
  obtain ⟨_, _, _, hseq, hdue⟩ := hports p
  have hdue' : (if s.net.settings.interval = new.interval then (s.netPort p).nextDue
      else firstDueAfter s.nowNs new.interval) < Config.nsRange := by
    split
    · exact hdue
    · exact firstDueAfter_lt _ _
  rw [State.netPort_changeNetwork, State.portState_changeNetwork, State.portOnSettings_eq]
  refine NetPort.wf.withNextDue ?_ hdue'
  by_cases hst : s.portState p = .active
  · obtain ⟨_, hup⟩ := (portStateOf_eq_active_iff _ _).mp hst
    cases hon : new.enable.get p with
    | false =>
      rw [if_pos ⟨hst, rfl⟩]
      exact NetPort.quiet.wf (s.netPort p).quiet_flushed hseq hdue
    | true =>
      rw [if_neg fun h => Bool.false_ne_true h.2.symm, hup]
      rwa [hst] at hp
  · rw [if_neg fun h => hst h.1]
    exact NetPort.quiet.wf (hp.quiet hst) hseq hdue

theorem setNetworkState_netSafe (mp : Mp) (s : State) : s.netSafe (setNetworkState mp s) := by
  refine State.takeCommand_netSafe fun ws => Judged.withParams_netSafe fun new hnew => ?_
  obtain ⟨hwf, _⟩ := (setNetworkParams_iff ws new).mp hnew
  exact State.changeNetwork_netSafe hwf

theorem State.cleared_netSafe {s t : State} (hset : t.net.settings = s.net.settings)
    (hports : t.net.ports = s.net.ports.map NetPort.cleared) : s.netSafe t :=
  State.netSafe_of_each hset fun p hw => by
    have hport : t.netPort p = (s.netPort p).cleared := by
      rw [State.netPort, hports]
      exact Two.get_map _ _ p
    rw [State.portState, hset, hport]
    exact hw.cleared

theorem restartState_netSafe (mp : Mp) (s : State) : s.netSafe (restartState mp s) := by
  refine State.unlessHeld_induct s.netSafe_refl ?_
  split
  · exact s.netSafe_refl
  · unfold State.judgeRestart
    split_ifs
    · exact State.netSafe_of_net rfl
    · exact State.netSafe_of_net rfl
    · rw [State.restart_eq]
      exact State.cleared_netSafe rfl rfl
    · exact s.netSafe_refl

/-- At power-on both ports are quiet, whatever their links report (R190). -/
theorem powerOnState_netSafe (held : Bool) (s : State) : s.netSafe (powerOnState held s) := by
  intro _
  obtain ⟨_, _, _, _, _, ⟨hset, _⟩, _⟩ := resetStateIsLegal
  refine (State.netWf_iff _).mpr ⟨hset, fun p => ?_⟩
  have quiet (link : LinkState) (st : PortState) : (NetPort.powerOn link).wf st :=
    NetPort.quiet.wf ⟨rfl, rfl, rfl, rfl⟩ (Nat.zero_le _) (show 1000000000 < Config.nsRange by decide)
  cases p <;> exact quiet _ _

theorem forgetClientState_netSafe (mp : Mp) (s : State) : s.netSafe (forgetClientState mp s) := by
  refine State.takeCommand_netSafe fun ws => Judged.withParams_netSafe fun a _ => State.netSafe_of_net ?_
  unfold State.forgetClient
  split <;> rfl

theorem net_idleCheckState (s : State) : (idleCheckState s).net = s.net := by
  refine State.unlessHeld_induct (P := fun t => t.net = s.net) rfl ?_
  dsimp only
  split
  · split <;> rfl
  · rfl

/-! ### Every command -/

/-- Every command keeps the network ports legal. -/
theorem exec_netSafe (c : Instr) (s : State) : ∃ t, exec c s = .next t ∧ s.netSafe t := by
  by_cases hdriven : reachesByStepAlone c = true
  · exact State.netSafe_drivenRule.exec hdriven
  by_cases hlines : actsOnMarksOrLines c = true
  · obtain ⟨t, ht, h⟩ := networkSide_exec hlines s
    exact ⟨t, ht, State.netSafe_of_networkSide h⟩
  cases c with
  | linkUp p => exact ⟨_, rfl, linkUpState_netSafe p s⟩
  | linkDown p => exact ⟨_, rfl, linkDownState_netSafe p s⟩
  | beaconDue => exact ⟨_, rfl, beaconDueState_netSafe s⟩
  | transmitEnd p => exact ⟨_, rfl, transmitEndState_netSafe p s⟩
  | askTimingPoint p => exact ⟨_, rfl, askTimingPointState_netSafe p s⟩
  | askArrival p f => exact ⟨_, rfl, askArrivalState_netSafe p f s⟩
  | setNetwork mp => exact ⟨_, rfl, setNetworkState_netSafe mp s⟩
  | networkClear mp => exact ⟨_, rfl, State.takeCommand_netSafe fun _ => State.cleared_netSafe rfl rfl⟩
  | forgetClient mp => exact ⟨_, rfl, forgetClientState_netSafe mp s⟩
  | idleCheck => exact ⟨_, rfl, State.netSafe_of_net (net_idleCheckState s)⟩
  | restart mp => exact ⟨_, rfl, restartState_netSafe mp s⟩
  | powerOn held => exact ⟨_, rfl, powerOnState_netSafe held s⟩
  | _ => exact absurd rfl (by assumption)

/-- Settles O58: a step runs one command, or idles. -/
theorem stepKeepsTheNetwork : Obligations.StepKeepsTheNetwork := by
  intro s t hw hstep
  unfold step at hstep
  split at hstep
  · cases hstep
    exact hw
  · rename_i c rest _
    obtain ⟨u, hu, hsafe⟩ := exec_netSafe c { s with pending := rest }
    rw [hu] at hstep
    cases hstep
    exact hsafe hw

end Sys2Proof.Machine
end

section
/-! SUPPORT. A port that leaves ACTIVE, by its link or by SET_NETWORK (R137 to R139, R150). -/

namespace Sys2Proof.Machine

open Sys2Proof

/-! ### The flush (R138) -/

/-- The answers that a flush cuts off on the wire: one, where the wire carries one. -/
def Wire.cutAnswers (w : Wire) : Nat :=
  match w with
  | .answer _ _ => 1
  | .idle | .beacon _ => 0

theorem NetPort.flushed_eq (port : NetPort) :
    port.flushed =
      { port with
        queue := []
        wire := .idle
        pendingBeacon := none
        reception := none
        counters := { port.counters with
          linkFlush := (port.counters.linkFlush + port.queue.length + port.wire.cutAnswers) % 2 ^ 32 } } := by
  rw [Nat.add_assoc]
  rfl

/-! ### Link reports (R137) -/

section
variable {s : State} {p : NetId}

theorem linkDownState_of_not_active (h : s.portState p ≠ .active) :
    linkDownState p s = s.setNetPort p { s.netPort p with link := .down } := by
  unfold linkDownState
  dsimp only
  rw [if_neg h]

theorem linkDownState_of_active (h : s.portState p = .active) :
    linkDownState p s =
      s.setNetPort p
        { (s.netPort p).flushed with
          link := .down
          counters := { (s.netPort p).flushed.counters with
            linkLosses := wrap32 (s.netPort p).counters.linkLosses 1 } } := by
  unfold linkDownState
  dsimp only
  rw [if_pos h]
  rfl

end

/-- Settles O38. -/
theorem linkReportsMoveThePort : Obligations.LinkReportsMoveThePort := by
  intro s p port cut
  refine ⟨fun t => t.portState_eq p, rfl, fun h => next_congr (linkDownState_of_not_active h), fun h => ?_⟩
  refine next_congr ((linkDownState_of_active h).trans ?_)
  rw [NetPort.flushed_eq]
  rfl

/-! ### SET_NETWORK (R150) -/

/-- What SET_NETWORK makes of a port, where it leaves ACTIVE and where it does not. -/
theorem State.portOnSettings_flushed {s : State} {p : NetId} {new : NetSettings}
    (h : s.portState p = .active ∧ new.enable.get p = false) :
    s.portOnSettings p new =
      { (s.netPort p).flushed with
        nextDue :=
          if s.net.settings.interval = new.interval then (s.netPort p).nextDue
          else firstDueAfter s.nowNs new.interval } := by
  rw [State.portOnSettings_eq, if_pos h]

theorem State.portOnSettings_kept {s : State} {p : NetId} {new : NetSettings}
    (h : ¬ (s.portState p = .active ∧ new.enable.get p = false)) :
    s.portOnSettings p new =
      { s.netPort p with
        nextDue :=
          if s.net.settings.interval = new.interval then (s.netPort p).nextDue
          else firstDueAfter s.nowNs new.interval } := by
  rw [State.portOnSettings_eq, if_neg h]

/-- Settles O42. -/
theorem setNetworkActsInOneEvent : Obligations.SetNetworkActsInOneEvent := by
  intro s mp ws hw
  refine ⟨fun hnone => next_congr (State.takeCommand_refused hw (by rw [setNetworkAct, hnone]; rfl)),
    fun new hnew => ⟨s.changeNetwork new, ?_, rfl, rfl, fun p => ?_⟩⟩
  · exact next_congr (State.takeCommand_taken hw (by rw [setNetworkAct, hnew]; rfl))
  · intro port due cut
    refine ⟨fun h => ?_, fun h => ?_, ?_⟩
    · rw [State.netPort_changeNetwork, State.portOnSettings_flushed h, NetPort.flushed_eq]
      rfl
    · rw [State.netPort_changeNetwork, State.portOnSettings_kept h]
      rfl
    · rw [State.portState_changeNetwork, portStateOf_eq]

end Sys2Proof.Machine
end

section
/-! SUPPORT. The arrival of an ask: what the port drops, and what the client table makes of the asks it passes
(R143 to R145, R154 to R163). -/

namespace Sys2Proof.Machine

open Sys2Proof

/-! ### The client table (R154, R159) -/

section
variable (t : ClientTable)

theorem ClientTable.not_mem_slots_iff (k : Nat) : k ∉ t.entries.map (·.slot) ↔ ∀ x ∈ t.entries, x.slot ≠ k := by
  rw [List.mem_map]
  exact ⟨fun h x hx hk => h ⟨x, hx, hk⟩, fun h ⟨x, hx, hk⟩ => h x hx hk⟩

theorem ClientTable.mem_slots_iff (k : Nat) : k ∈ t.entries.map (·.slot) ↔ ¬ ∀ x ∈ t.entries, x.slot ≠ k := by
  rw [← t.not_mem_slots_iff k, not_not]

theorem ClientTable.freeSlot_eq_some_iff (k : Nat) :
    t.freeSlot = some k ↔
      k < 96 ∧ (∀ x ∈ t.entries, x.slot ≠ k) ∧ ∀ j < k, ¬ ∀ x ∈ t.entries, x.slot ≠ j := by
  rw [ClientTable.freeSlot, lowestFree_eq_some_iff]
  exact and_congr_right fun _ => and_congr (t.not_mem_slots_iff k) (forall₂_congr fun j _ => t.mem_slots_iff j)

theorem ClientTable.freeSlot_eq_none_iff :
    t.freeSlot = none ↔ ∀ k < 96, ¬ ∀ x ∈ t.entries, x.slot ≠ k := by
  simp only [ClientTable.freeSlot, lowestFree_eq_none_iff, t.mem_slots_iff]

theorem ClientTable.find_eq_none_iff (a : NetAddress) : t.find a = none ↔ ∀ x ∈ t.entries, x.address ≠ a := by
  simp [ClientTable.find]

theorem ClientTable.find_some {a : NetAddress} {x : Client} (h : t.find a = some x) : x ∈ t.entries ∧ x.address = a :=
  ⟨List.mem_of_find?_eq_some h, by simpa using List.find?_some h⟩

/-- An entry joins in front of the first one with a higher slot. -/
theorem insertBy_slot (c : Client) (cs : List Client) :
    insertBy (fun y x => decide (x.slot < y.slot)) c cs =
      cs.takeWhile (fun x => decide (x.slot ≤ c.slot)) ++ c :: cs.dropWhile (fun x => decide (x.slot ≤ c.slot)) := by
  induction cs with
  | nil => rfl
  | cons y ys ih =>
    unfold insertBy
    by_cases h : c.slot < y.slot
    · simp [h, not_le.mpr h]
    · simp [h, not_lt.mp h, ih]

/-- Of two entries put in one slot the second stands. -/
theorem ClientTable.put_put {c d : Client} (h : d.slot = c.slot) : (t.put c).put d = t.put d := by
  simp only [ClientTable.put, List.map_map, ClientTable.mk.injEq, and_true]
  refine List.map_congr_left fun x _ => ?_
  by_cases hx : x.slot = c.slot
  · simp [hx, h]
  · simp [hx, h]

/-- An entry put in the slot of one just added stands in its place. -/
theorem ClientTable.put_add {c d : Client} (hfree : ∀ x ∈ t.entries, x.slot ≠ c.slot) (h : d.slot = c.slot) :
    (t.add c).put d = t.add d := by
  have kept : ∀ xs : List Client, (∀ x ∈ xs, x ∈ t.entries) →
      xs.map (fun x => if x.slot = d.slot then d else x) = xs := fun xs hxs => by
    refine (List.map_congr_left fun x hx => ?_).trans xs.map_id
    exact if_neg (h ▸ hfree x (hxs x hx))
  simp only [ClientTable.put, ClientTable.add, insertBy_slot, ClientTable.mk.injEq, and_true, List.map_append,
    List.map_cons, h, if_true]
  rw [← h, kept _ fun x hx => (List.takeWhile_sublist _).subset hx,
    kept _ fun x hx => (List.dropWhile_sublist _).subset hx]

end

/-! ### Self-reports (R162, R163) -/

/-- An entry with the self-report of an ask, if it carries one, judged against the straggler limit. -/
def Client.withReport (c : Client) (limit : Nat) (p : NetId) (r : Reception) (report : Option AskReport) : Client :=
  match report with
  | none => c
  | some x =>
    { c with
      state := if limit < x.offset.natAbs then .straggler else .tracked
      report := some ⟨x.offset, x.pathDelay, x.grade, r.t2, p⟩ }

/-- STRAGGLER posted, or not. -/
def State.tell (s : State) (b : Bool) : State := if b then s.post .straggler else s

/-- The state with another client table. -/
def State.setClients (s : State) (t : ClientTable) : State := { s with clients := t }

theorem State.setClients_setNetPort (s : State) (p : NetId) (x : NetPort) (t : ClientTable) :
    (s.setNetPort p x).setClients t = (s.setClients t).setNetPort p x := rfl

theorem State.tell_setNetPort (s : State) (p : NetId) (x : NetPort) (b : Bool) :
    (s.setNetPort p x).tell b = (s.tell b).setNetPort p x := by
  cases b <;> rfl

theorem State.nowNs_tell (s : State) (b : Bool) : (s.tell b).nowNs = s.nowNs := by cases b <;> rfl

theorem State.net_tell (s : State) (b : Bool) : (s.tell b).net = s.net := by cases b <;> rfl

theorem State.reportState_eq (s : State) (offset : Int) :
    s.reportState offset = if s.net.settings.stragglerLimit < offset.natAbs then .straggler else .tracked := by
  unfold State.reportState
  split_ifs with h1 h2 h2
  · omega
  · rfl
  · rfl
  · omega

/-- The self-report of a recorded ask, whichever way the table `t` holds the entry. -/
theorem State.takeReport_eq (s : State) {t : Client → ClientTable} {c : Client}
    (ht : ∀ d : Client, d.slot = c.slot → (t c).put d = t d) {st : ClientState} (hst : c.state = st)
    (p : NetId) (ask : Ask) (r : Reception) :
    (s.setClients (t c)).takeReport c p ask r =
      (s.setClients (t (c.withReport s.net.settings.stragglerLimit p r ask.report))).tell
        (decide ((∃ x ∈ ask.report, s.net.settings.stragglerLimit < x.offset.natAbs) ∧ st ≠ .straggler)) := by
  subst hst
  unfold State.takeReport
  cases hr : ask.report with
  | none => simp [State.tell, Client.withReport]
  | some x =>
    have hstate : (s.setClients (t c)).reportState x.offset =
        if s.net.settings.stragglerLimit < x.offset.natAbs then .straggler else .tracked := State.reportState_eq _ _
    have hput : (s.setClients (t c)).clients.put (c.withReport s.net.settings.stragglerLimit p r (some x)) =
        t (c.withReport s.net.settings.stragglerLimit p r (some x)) := ht _ rfl
    dsimp only
    rw [hstate, ← hput]
    by_cases hlate : s.net.settings.stragglerLimit < x.offset.natAbs <;> by_cases hc : c.state = .straggler <;>
      simp [hlate, hc, State.tell, State.setClients, Client.withReport]

/-! ### What the table finds (R157) -/

theorem Client.slot_setSub (c : Client) (p : NetId) (x : Option SubRecord) : (c.setSub p x).slot = c.slot := by
  cases p <;> rfl

theorem Client.state_setSub (c : Client) (p : NetId) (x : Option SubRecord) : (c.setSub p x).state = c.state := by
  cases p <;> rfl

/-- The sub-record of an ask that is answered: a new one, or the one that stands, answered again (R155, R159). -/
def Client.answeredSub (c : Client) (p : NetId) (ask : Ask) (r : Reception) : SubRecord :=
  match c.sub p with
  | some x => x.answeredBy ask r
  | none => newSub ask r

section
variable {s : State} {p : NetId} {a : NetAddress} {ask : Ask} {c : Client} {x : SubRecord} {run : Nat}

theorem State.judgeAsk_setNetPort (s : State) (q : NetId) (y : NetPort) (p : NetId) (a : NetAddress) (ask : Ask)
    (run : Nat) : (s.setNetPort q y).judgeAsk p a ask run = s.judgeAsk p a ask run := rfl

theorem State.judgeAsk_repeated (hf : s.clients.find a = some c) (hx : c.sub p = some x)
    (h : ask.sequence = x.sequence) :
    s.judgeAsk p a ask run = .repeated := by
  simp only [State.judgeAsk, hf, hx, if_pos h]

theorem State.judgeAsk_spacing (hf : s.clients.find a = some c) (hx : c.sub p = some x) (h : ask.sequence ≠ x.sequence)
    (hr : run < x.answeredRun + s.net.settings.spacing) : s.judgeAsk p a ask run = .spacing := by
  simp only [State.judgeAsk, hf, hx, if_neg h, if_pos hr]

theorem State.judgeAsk_pass (hf : s.clients.find a = some c)
    (h : ∀ x, c.sub p = some x → ask.sequence ≠ x.sequence ∧ x.answeredRun + s.net.settings.spacing ≤ run) :
    s.judgeAsk p a ask run = .pass := by
  simp only [State.judgeAsk, hf]
  cases hx : c.sub p with
  | none => rfl
  | some x =>
    obtain ⟨hseq, hr⟩ := h x hx
    dsimp only
    rw [if_neg hseq, if_neg (not_lt.mpr hr)]

theorem State.judgeAsk_unknown (hf : s.clients.find a = none) :
    s.judgeAsk p a ask run = if s.clients.freeSlot.isSome then .pass else .passUntracked := by
  simp only [State.judgeAsk, hf]

/-! ### What is recorded (R157 to R160) -/

theorem State.onSub_setNetPort (s : State) (q : NetId) (y : NetPort) (p : NetId) (a : NetAddress)
    (f : SubRecord → SubRecord) : (s.setNetPort q y).onSub p a f = (s.onSub p a f).setNetPort q y := by
  unfold State.onSub
  rw [State.clients_setNetPort]
  split
  · rfl
  · split <;> rfl

theorem State.onSub_known (hf : s.clients.find a = some c) (hx : c.sub p = some x) (f : SubRecord → SubRecord) :
    s.onSub p a f = s.setClients (s.clients.put (c.setSub p (some (f x)))) := by
  simp only [State.onSub, hf, hx, State.setClients]

theorem State.onSub_newPort (hf : s.clients.find a = some c) (hx : c.sub p = none) (f : SubRecord → SubRecord) :
    s.onSub p a f = s := by
  simp only [State.onSub, hf, hx]

theorem State.onSub_unknown (hf : s.clients.find a = none) (f : SubRecord → SubRecord) : s.onSub p a f = s := by
  simp only [State.onSub, hf]

theorem State.recordAnswered_known (hf : s.clients.find a = some c) (r : Reception) :
    s.recordAnswered p a ask r =
      (s.setClients (s.clients.put
        (Client.withReport { c.setSub p (some (c.answeredSub p ask r)) with tag := ask.tag }
          s.net.settings.stragglerLimit p r ask.report))).tell
        (decide ((∃ x ∈ ask.report, s.net.settings.stragglerLimit < x.offset.natAbs) ∧ c.state ≠ .straggler)) := by
  have hreport := s.takeReport_eq (t := s.clients.put)
    (c := { c.setSub p (some (c.answeredSub p ask r)) with tag := ask.tag }) (fun d hd => s.clients.put_put hd)
    (c.state_setSub p (some (c.answeredSub p ask r))) p ask r
  simp only [State.recordAnswered, hf]
  exact hreport

theorem State.recordAnswered_new (hf : s.clients.find a = none) {slot : Nat} (hslot : s.clients.freeSlot = some slot)
    (r : Reception) :
    s.recordAnswered p a ask r =
      (s.setClients (s.clients.add
        (((⟨slot, a, ask.tag, .new, none, none, none⟩ : Client).setSub p (some (newSub ask r))).withReport
          s.net.settings.stragglerLimit p r ask.report))).tell
        (decide (∃ x ∈ ask.report, s.net.settings.stragglerLimit < x.offset.natAbs)) := by
  obtain ⟨_, hfree, _⟩ := (s.clients.freeSlot_eq_some_iff slot).mp hslot
  have hreport := s.takeReport_eq (t := s.clients.add)
    (c := (⟨slot, a, ask.tag, .new, none, none, none⟩ : Client).setSub p (some (newSub ask r)))
    (fun d hd => s.clients.put_add (by rwa [Client.slot_setSub]) hd)
    (Client.state_setSub _ p (some (newSub ask r))) p ask r
  simp only [State.recordAnswered, hf, hslot]
  refine hreport.trans (congrArg _ (decide_eq_decide.mpr (and_iff_left ?_)))
  exact nofun

end

/-! ### The port that answers or drops (R141, R142, R145) -/

theorem Two.set_set {α : Type} (q : Two α) (p : NetId) (x y : α) : (q.set p x).set p y = q.set p y := by cases p <;> rfl

theorem State.setNetPort_setNetPort (s : State) (p : NetId) (x y : NetPort) :
    (s.setNetPort p x).setNetPort p y = s.setNetPort p y := by
  simp only [State.setNetPort, Two.set_set]

theorem State.count_setNetPort (s : State) (p : NetId) (x : NetPort) (f : PortCounters → PortCounters) :
    (s.setNetPort p x).count p f = s.setNetPort p { x with counters := f x.counters } := by
  rw [State.count, State.netPort_setNetPort, State.setNetPort_setNetPort]

/-- A port that has queued an answer at `now`: with the wire idle it has left at once. -/
def NetPort.withAnswer (port : NetPort) (a : Answer) (now : Instant) (source : NetAddress) : NetPort :=
  if port.wire = .idle then { port with wire := .answer { a with t3 := some now } source }
  else { port with queue := port.queue ++ [a] }

/-- Nothing waits for an idle wire. -/
def NetPort.idleAlone (port : NetPort) : Prop := port.wire = .idle → port.queue = [] ∧ port.pendingBeacon = none

theorem State.queueAnswer_setNetPort (s : State) (p : NetId) {x : NetPort} (h : x.idleAlone) (a : Answer) :
    (s.setNetPort p x).queueAnswer p a = s.setNetPort p (x.withAnswer a s.nowNs s.net.settings.address) := by
  unfold State.queueAnswer
  dsimp only
  rw [State.netPort_setNetPort, State.setNetPort_setNetPort]
  congr 1
  unfold State.offerWire NetPort.withAnswer
  cases hw : x.wire with
  | idle =>
    obtain ⟨hq, hb⟩ := h hw
    simp only [State.handWire, hq, hb, List.nil_append, if_true]
    rfl
  | beacon b => rfl
  | answer b source => rfl

/-! ### The events (R143 to R145) -/

section
variable {s : State} {p : NetId} {f : RxFrame} {r : Reception} {ask : Ask}

theorem exec_askArrival_none (hs : s.resetHeld = false) (hr : (s.netPort p).reception = none) :
    exec (.askArrival p f) s = .next s := by
  refine next_congr ((State.unlessHeld_released hs _).trans ?_)
  simp only [hr]

theorem exec_askArrival_failed (hs : s.resetHeld = false) (hr : (s.netPort p).reception = some r)
    (hok : f.receptionOk = false) :
    exec (.askArrival p f) s =
      .next ((s.setNetPort p { s.netPort p with reception := none }).count p
        fun k => { k with receiveErrors := wrap32 k.receiveErrors 1 }) := by
  refine next_congr ((State.unlessHeld_released hs _).trans ?_)
  simp only [hr, if_pos hok]

theorem exec_askArrival_otherType (hs : s.resetHeld = false) (hr : (s.netPort p).reception = some r)
    (hok : f.receptionOk = true) (ht : f.frameType ≠ Config.frameType) :
    exec (.askArrival p f) s = .next (s.setNetPort p { s.netPort p with reception := none }) := by
  refine next_congr ((State.unlessHeld_released hs _).trans ?_)
  simp only [hr, if_neg (Bool.eq_false_iff.not.mpr (not_not.mpr hok)), if_neg ht]

theorem exec_askArrival_candidate (hs : s.resetHeld = false) (hr : (s.netPort p).reception = some r)
    (hok : f.receptionOk = true) (ht : f.frameType = Config.frameType) :
    exec (.askArrival p f) s =
      .next ((s.setNetPort p { s.netPort p with reception := none }).arriveCandidate p f r) := by
  refine next_congr ((State.unlessHeld_released hs _).trans ?_)
  simp only [hr, if_neg (Bool.eq_false_iff.not.mpr (not_not.mpr hok)), if_pos ht]

theorem State.addressedHere_iff (s : State) (f : RxFrame) : s.addressedHere f = true ↔ s.takesFrame f := by
  unfold State.addressedHere
  simp only [Bool.and_eq_true, Bool.or_eq_true, decide_eq_true_eq, Bool.not_eq_true']

theorem State.arriveCandidate_marked (h : r.marked = true) :
    s.arriveCandidate p f r = s.count p fun k => { k with stepFlush := wrap32 k.stepFlush 1 } := by
  unfold State.arriveCandidate
  rw [if_pos h]

theorem State.arriveCandidate_unknown (h : r.marked = false) (hno : askOf f.body = none ∨ ¬ s.takesFrame f) :
    s.arriveCandidate p f r = s.count p fun k => { k with unknown := wrap32 k.unknown 1 } := by
  unfold State.arriveCandidate
  rw [if_neg (Bool.eq_false_iff.mp h)]
  cases hask : askOf f.body with
  | none => rfl
  | some ask =>
    have hnot : s.addressedHere f = false := by
      rw [Bool.eq_false_iff, ne_eq, s.addressedHere_iff f]
      exact hno.resolve_left fun hnone => by rw [hask] at hnone; cases hnone
    dsimp only
    rw [if_pos hnot]

theorem State.arriveCandidate_notReady (h : r.marked = false) (hask : askOf f.body = some ask) (hto : s.takesFrame f)
    (hfree : s.engine.state = .freerun) :
    s.arriveCandidate p f r = s.count p fun k => { k with notReady := wrap32 k.notReady 1 } := by
  unfold State.arriveCandidate
  rw [if_neg (Bool.eq_false_iff.mp h), hask]
  dsimp only
  rw [if_neg (Bool.eq_false_iff.not.mpr (not_not.mpr ((s.addressedHere_iff f).mpr hto))), if_pos hfree]

theorem State.arriveCandidate_passed (h : r.marked = false) (hask : askOf f.body = some ask) (hto : s.takesFrame f)
    (hfree : s.engine.state ≠ .freerun) : s.arriveCandidate p f r = s.handleAsk p f.source ask r := by
  unfold State.arriveCandidate
  rw [if_neg (Bool.eq_false_iff.mp h), hask]
  dsimp only
  rw [if_neg (Bool.eq_false_iff.not.mpr (not_not.mpr ((s.addressedHere_iff f).mpr hto))), if_neg hfree]

/-- An ask that the port passes is judged by the table with its reception ended. -/
theorem State.askPassed.exec (h : s.askPassed p f r ask) :
    Sys2Proof.Machine.exec (.askArrival p f) s =
      .next ((s.setNetPort p { s.netPort p with reception := none }).handleAsk p f.source ask r) := by
  obtain ⟨hs, hr, hok, ht, hmark, hask, hto, hfree⟩ := h
  rw [exec_askArrival_candidate hs hr hok ht]
  exact next_congr (State.arriveCandidate_passed hmark hask hto hfree)

end

/-! ### An ask judged (R145, R157 to R160) -/

section
variable {s : State} {p : NetId} {a : NetAddress} {ask : Ask} {r : Reception} {port : NetPort}

/-- An ask that the table drops: its record, and the counter of the port. -/
theorem State.handleAsk_dropped (f : SubRecord → SubRecord) (k : PortCounters → PortCounters)
    (h : (s.setNetPort p port).handleAsk p a ask r = ((s.setNetPort p port).onSub p a f).count p k) :
    (s.setNetPort p port).handleAsk p a ask r =
      (s.onSub p a f).setNetPort p { port with counters := k port.counters } := by
  rw [h, State.onSub_setNetPort, State.count_setNetPort]

theorem State.handleAsk_repeated (h : s.judgeAsk p a ask r.run = .repeated) :
    (s.setNetPort p port).handleAsk p a ask r =
      (s.onSub p a fun x => { x with repeats := wrap32 x.repeats 1, lastArrival := r.t2 }).setNetPort p
        { port with counters := { port.counters with repeats := wrap32 port.counters.repeats 1 } } := by
  refine State.handleAsk_dropped _ (fun k => { k with repeats := wrap32 k.repeats 1 }) ?_
  simp only [State.handleAsk, State.judgeAsk_setNetPort, h]

theorem State.handleAsk_spacing (h : s.judgeAsk p a ask r.run = .spacing) :
    (s.setNetPort p port).handleAsk p a ask r =
      (s.onSub p a fun x => { x with refused := wrap32 x.refused 1, lastArrival := r.t2 }).setNetPort p
        { port with counters := { port.counters with spacing := wrap32 port.counters.spacing 1 } } := by
  refine State.handleAsk_dropped _ (fun k => { k with spacing := wrap32 k.spacing 1 }) ?_
  simp only [State.handleAsk, State.judgeAsk_setNetPort, h]

theorem State.queueHasRoom_setNetPort (s : State) (p : NetId) (port : NetPort) :
    (s.setNetPort p port).queueHasRoom p = decide (port.queue.length < 32) := by
  rw [State.queueHasRoom, State.netPort_setNetPort]

theorem State.handleAsk_full (h : s.judgeAsk p a ask r.run = .pass) (hq : 32 ≤ port.queue.length) :
    (s.setNetPort p port).handleAsk p a ask r =
      (s.onSub p a fun x => { x with lastArrival := r.t2 }).setNetPort p
        { port with counters := { port.counters with queueFull := wrap32 port.counters.queueFull 1 } } := by
  refine State.handleAsk_dropped _ (fun k => { k with queueFull := wrap32 k.queueFull 1 }) ?_
  simp [State.handleAsk, State.judgeAsk_setNetPort, h, State.queueHasRoom_setNetPort, not_lt.mpr hq]

theorem State.handleAsk_fullUntracked (h : s.judgeAsk p a ask r.run = .passUntracked) (hq : 32 ≤ port.queue.length) :
    (s.setNetPort p port).handleAsk p a ask r =
      s.setNetPort p
        { port with counters := { port.counters with queueFull := wrap32 port.counters.queueFull 1 } } := by
  rw [← s.count_setNetPort p port fun k => { k with queueFull := wrap32 k.queueFull 1 }]
  simp [State.handleAsk, State.judgeAsk_setNetPort, h, State.queueHasRoom_setNetPort, not_lt.mpr hq]

/-- An ask that is answered: its record leaves the port to the answer. -/
theorem State.handleAsk_answered (h : s.judgeAsk p a ask r.run = .pass) (hq : port.queue.length < 32)
    (hidle : port.idleAlone) {t : ClientTable} {told : Bool}
    (hrec : (s.setNetPort p port).recordAnswered p a ask r = ((s.setNetPort p port).setClients t).tell told) :
    (s.setNetPort p port).handleAsk p a ask r =
      ((s.setClients t).tell told).setNetPort p
        (port.withAnswer (s.answerTo a ask r false) s.nowNs s.net.settings.address) := by
  have hhandled : (s.setNetPort p port).handleAsk p a ask r =
      ((s.setNetPort p port).recordAnswered p a ask r).queueAnswer p (s.answerTo a ask r false) := by
    simp only [State.handleAsk, State.judgeAsk_setNetPort, h, State.queueHasRoom_setNetPort, decide_eq_true hq, if_true]
    rfl
  rw [hhandled, hrec, State.setClients_setNetPort, State.tell_setNetPort, State.queueAnswer_setNetPort _ p hidle,
    State.nowNs_tell, State.net_tell]
  rfl

theorem State.handleAsk_answeredUntracked (h : s.judgeAsk p a ask r.run = .passUntracked) (hq : port.queue.length < 32)
    (hidle : port.idleAlone) :
    (s.setNetPort p port).handleAsk p a ask r =
      s.setNetPort p
        (NetPort.withAnswer
          { port with counters := { port.counters with untracked := wrap32 port.counters.untracked 1 } }
          (s.answerTo a ask r true) s.nowNs s.net.settings.address) := by
  have hhandled : (s.setNetPort p port).handleAsk p a ask r =
      ((s.setNetPort p port).count p fun k => { k with untracked := wrap32 k.untracked 1 }).queueAnswer p
        (s.answerTo a ask r true) := by
    simp only [State.handleAsk, State.judgeAsk_setNetPort, h, State.queueHasRoom_setNetPort, decide_eq_true hq, if_true]
    rfl
  rw [hhandled, State.count_setNetPort, State.queueAnswer_setNetPort]
  exact hidle

end

end Sys2Proof.Machine
end

section
/-! SUPPORT. The client table's verdicts on the asks that a port passes (R157 to R163). -/

namespace Sys2Proof.Machine

open Sys2Proof

theorem Client.answeredSub_eq {c : Client} {p : NetId} {ask : Ask} {r : Reception} {y : SubRecord}
    (hnew : c.sub p = none → y = newSub ask r) (hold : ∀ x, c.sub p = some x → y = x.answeredBy ask r) :
    c.answeredSub p ask r = y := by
  unfold Client.answeredSub
  cases hx : c.sub p with
  | none => exact (hnew hx).symm
  | some x => exact (hold x hx).symm

/-- Settles O41. -/
theorem clientTableAnswersAsks : Obligations.ClientTableAnswersAsks := by
  refine ⟨fun t c => ⟨t.freeSlot_eq_some_iff, t.freeSlot_eq_none_iff, t.find_eq_none_iff, fun a x h => t.find_some h,
    rfl, congrArg (fun xs => { t with entries := xs }) (insertBy_slot c t.entries)⟩, fun s p f r ask h => ?_⟩
  intro port ended k arrival answer queued late reported withClients told fullQueue room
  have harrival : arrival = .next ((s.setNetPort p ended).handleAsk p f.source ask r) := h.exec
  have hroom (hr : room) : ended.queue.length < 32 ∧ ended.idleAlone := hr
  have hqueued (x : NetPort) (b : Bool) (hw : x.wire = port.wire) (hq : x.queue = port.queue) :
      x.withAnswer (s.answerTo f.source ask r b) s.nowNs s.net.settings.address = queued x b := by
    simp only [NetPort.withAnswer, queued]
    by_cases hi : port.wire = .idle
    · rw [if_pos (hw.trans hi), if_pos hi]
      rfl
    · rw [if_neg fun h => hi (hw.symm.trans h), if_neg hi, hq]
      rfl
  have hreported (c : Client) : c.withReport s.net.settings.stragglerLimit p r ask.report = reported c := rfl
  refine ⟨fun c hf => ⟨fun x hx => ⟨fun hseq => ?_, fun hseq hrun => ?_, fun hseq hrun hfull => ?_⟩,
    fun hnone hfull => ?_, fun y hnew hold hr => ?_⟩,
    fun hf => ⟨fun hfull => ?_, fun hr hno => ?_, fun slot hr hslot => ?_⟩⟩
  all_goals refine harrival.trans (next_congr ?_)
  · rw [State.handleAsk_repeated (port := ended) (State.judgeAsk_repeated hf hx hseq), State.onSub_known hf hx]
    rfl
  · rw [State.handleAsk_spacing (port := ended) (State.judgeAsk_spacing hf hx hseq hrun), State.onSub_known hf hx]
    rfl
  · have hjudge : s.judgeAsk p f.source ask r.run = .pass :=
      State.judgeAsk_pass hf fun y hy => by
        cases hx.symm.trans hy
        exact ⟨hseq, hrun⟩
    rw [State.handleAsk_full (port := ended) hjudge hfull, State.onSub_known hf hx]
    rfl
  · have hjudge : s.judgeAsk p f.source ask r.run = .pass :=
      State.judgeAsk_pass hf fun y hy => by cases hnone.symm.trans hy
    rw [State.handleAsk_full (port := ended) hjudge hfull, State.onSub_newPort hf hnone]
    rfl
  · obtain ⟨hq, hidle⟩ := hroom hr
    have hjudge : s.judgeAsk p f.source ask r.run = .pass := State.judgeAsk_pass hf fun x hx =>
      have ⟨hseq, hrun, _⟩ := hold x hx
      ⟨hseq, hrun⟩
    have hy : c.answeredSub p ask r = y := Client.answeredSub_eq hnew fun x hx => (hold x hx).2.2
    have hrecord := State.recordAnswered_known (s := s.setNetPort p ended) (p := p) (ask := ask) hf r
    rw [State.handleAsk_answered (port := ended) hjudge hq hidle hrecord, hqueued ended false rfl rfl, hy,
      State.net_setNetPort, hreported]
    rfl
  · cases hslot : s.clients.freeSlot with
    | some slot =>
      have hjudge : s.judgeAsk p f.source ask r.run = .pass := by rw [State.judgeAsk_unknown hf, hslot]; rfl
      rw [State.handleAsk_full (port := ended) hjudge hfull, State.onSub_unknown hf]
      rfl
    | none =>
      have hjudge : s.judgeAsk p f.source ask r.run = .passUntracked := by rw [State.judgeAsk_unknown hf, hslot]; rfl
      rw [State.handleAsk_fullUntracked (port := ended) hjudge hfull]
      rfl
  · obtain ⟨hq, hidle⟩ := hroom hr
    have hjudge : s.judgeAsk p f.source ask r.run = .passUntracked := by rw [State.judgeAsk_unknown hf, hno]; rfl
    rw [State.handleAsk_answeredUntracked (port := ended) hjudge hq hidle,
      hqueued { ended with counters := { k with untracked := wrap32 k.untracked 1 } } true rfl rfl]
    rfl
  · obtain ⟨hq, hidle⟩ := hroom hr
    have hjudge : s.judgeAsk p f.source ask r.run = .pass := by rw [State.judgeAsk_unknown hf, hslot]; rfl
    have hrecord := State.recordAnswered_new (s := s.setNetPort p ended) (p := p) (ask := ask) hf hslot r
    rw [State.handleAsk_answered (port := ended) hjudge hq hidle hrecord, hqueued ended false rfl rfl,
      State.net_setNetPort, hreported]
    rfl

end Sys2Proof.Machine
end

section
/-! SUPPORT. What a body reads as, and what the port makes of a frame before it passes it (R143, R144, R153, R194). -/

namespace Sys2Proof.Machine

open Sys2Proof

/-! ### Well-formed asks (10.6, R194) -/

theorem numberAt_lt (bs : List Byte) (k n : Nat) : numberAt bs k n < 256 ^ n :=
  (beNat_lt ((bs.drop k).take n)).trans_le (Nat.pow_le_pow_right (by decide) (List.length_take_le _ _))

/-- What an ask carries besides a self-report. -/
def askHead (body : List Byte) : Ask where
  sequence := BitVec.ofNat 16 (numberAt body 4 2)
  tag := BitVec.ofNat 16 (numberAt body 6 2)
  t1 := (body.drop 8).take 10
  report := none

/-- The self-report that a body carries, its grade apart. -/
def askReport (body : List Byte) (g : Grade) : AskReport :=
  ⟨toSigned 32 (numberAt body 19 4), numberAt body 23 4, g⟩

theorem askReportOf_eq_some_iff (body : List Byte) (x : AskReport) :
    askReportOf body = some x ↔ ∃ g : Grade, g.val = numberAt body 27 1 ∧ askReport body g = x := by
  have hfield (k n : Nat) : fieldAt body k n = numberAt body k n := rfl
  simp only [askReportOf, Option.map_eq_some_iff, gradeOf_eq_some_iff, hfield, askReport]
  exact exists_congr fun g => and_congr_left fun _ => eq_comm

theorem askOf_eq_some_iff (body : List Byte) (x : Ask) :
    askOf body = some x ↔
      (numberAt body 0 1 = 2 ∧ numberAt body 1 1 = 1 ∧ 4 + numberAt body 2 2 ≤ body.length) ∧
        ((numberAt body 18 1 = 0 ∧ numberAt body 2 2 = 15 ∧ x = askHead body) ∨
          (numberAt body 18 1 = 1 ∧ numberAt body 2 2 = 24 ∧
            ∃ g : Grade, g.val = numberAt body 27 1 ∧
              x = { askHead body with report := some (askReport body g) })) := by
  have hfield (k n : Nat) : fieldAt body k n = numberAt body k n := rfl
  unfold askOf
  simp only [hfield, Option.ite_none_right_eq_some]
  refine and_congr_right fun _ => ?_
  by_cases hplain : numberAt body 18 1 = 0 ∧ numberAt body 2 2 = 15
  · obtain ⟨hflag, hlen⟩ := hplain
    rw [if_pos ⟨hflag, hlen⟩, Option.some.injEq]
    simp only [hflag, hlen, true_and, zero_ne_one, false_and, or_false]
    exact eq_comm
  · rw [if_neg hplain]
    have hnot : ¬ (numberAt body 18 1 = 0 ∧ numberAt body 2 2 = 15 ∧ x = askHead body) :=
      fun ⟨hflag, hlen, _⟩ => hplain ⟨hflag, hlen⟩
    simp only [hnot, false_or, Option.ite_none_right_eq_some, Option.map_eq_some_iff, askReportOf_eq_some_iff,
      and_assoc]
    refine and_congr_right fun _ => and_congr_right fun _ => ⟨?_, ?_⟩
    · rintro ⟨_, ⟨g, hg, rfl⟩, rfl⟩
      exact ⟨g, hg, rfl⟩
    · rintro ⟨g, hg, rfl⟩
      exact ⟨_, ⟨g, hg, rfl⟩, rfl⟩

theorem askHead_sequence (body : List Byte) : (askHead body).sequence.toNat = numberAt body 4 2 :=
  (BitVec.toNat_ofNat _ 16).trans (Nat.mod_eq_of_lt (numberAt_lt body 4 2))

theorem askHead_tag (body : List Byte) : (askHead body).tag.toNat = numberAt body 6 2 :=
  (BitVec.toNat_ofNat _ 16).trans (Nat.mod_eq_of_lt (numberAt_lt body 6 2))

/-- A body whose self-report flag, length or client grade does not accord is no ask, and neither is one of another kind
or version (R194). -/
theorem askOf_eq_none {body : List Byte}
    (h : ¬ (numberAt body 0 1 = 2 ∧ numberAt body 1 1 = 1 ∧ 4 + numberAt body 2 2 ≤ body.length ∧
      ((numberAt body 18 1 = 0 ∧ numberAt body 2 2 = 15) ∨
        (numberAt body 18 1 = 1 ∧ numberAt body 2 2 = 24 ∧ numberAt body 27 1 ≤ 7)))) :
    askOf body = none := by
  refine Option.eq_none_iff_forall_ne_some.mpr fun x hx => h ?_
  obtain ⟨⟨hkind, hver, hlen⟩, ⟨hflag, h15, _⟩ | ⟨hflag, h24, g, hg, _⟩⟩ := (askOf_eq_some_iff body x).mp hx
  · exact ⟨hkind, hver, hlen, .inl ⟨hflag, h15⟩⟩
  · exact ⟨hkind, hver, hlen, .inr ⟨hflag, h24, hg ▸ Nat.le_of_lt_succ g.isLt⟩⟩

/-! ### The timing point (R143) -/

theorem exec_askTimingPoint {s : State} (hs : s.resetHeld = false) (p : NetId) :
    exec (.askTimingPoint p) s =
      .next (if s.portState p = .active then
          s.setNetPort p { s.netPort p with reception := some ⟨s.nowNs, s.run, false⟩ }
        else s) :=
  next_congr (State.unlessHeld_released hs _)

/-- Settles O40. -/
theorem asksAreStampedAndJudgedByThePort : Obligations.AsksAreStampedAndJudgedByThePort := by
  refine ⟨fun body => ⟨fun hbad => askOf_eq_none hbad, fun hgood => ?_⟩, fun s p hs => ?_⟩
  · obtain ⟨hkind, hver, hlen, ⟨hflag, h15⟩ | ⟨hflag, h24, hgrade⟩⟩ := hgood
    · refine ⟨askHead body, (askOf_eq_some_iff body _).mpr ⟨⟨hkind, hver, hlen⟩, .inl ⟨hflag, h15, rfl⟩⟩,
        askHead_sequence body, askHead_tag body, rfl, fun _ => rfl, fun hreporting => ?_⟩
      exact absurd (hflag.symm.trans hreporting.1) zero_ne_one
    · have hg : (⟨numberAt body 27 1, Nat.lt_succ_of_le hgrade⟩ : Grade).val = numberAt body 27 1 := rfl
      refine ⟨_, (askOf_eq_some_iff body _).mpr ⟨⟨hkind, hver, hlen⟩, .inr ⟨hflag, h24, _, hg, rfl⟩⟩,
        askHead_sequence body, askHead_tag body, rfl, fun hplain => ?_, fun _ => ⟨_, hg, rfl⟩⟩
      exact absurd (hplain.1.symm.trans hflag) zero_ne_one
  · intro port
    refine ⟨fun hactive => (exec_askTimingPoint hs p).trans (next_congr (if_pos hactive)),
      fun hnot => (exec_askTimingPoint hs p).trans (next_congr (if_neg hnot)),
      fun f => ⟨exec_askArrival_none hs, fun r hr => ?_⟩⟩
    intro counts k
    have hto : (s.setNetPort p { s.netPort p with reception := none }).takesFrame f ↔ s.takesFrame f := Iff.rfl
    refine ⟨fun hok => ?_, fun hok ht => exec_askArrival_otherType hs hr hok ht, fun hok ht hmark => ?_,
      fun hok ht hmark => ⟨fun hno => ?_, fun ask hask htakes hfree => ?_⟩⟩
    · refine (exec_askArrival_failed hs hr hok).trans (next_congr ?_)
      rw [State.count_setNetPort]
      rfl
    · refine (exec_askArrival_candidate hs hr hok ht).trans (next_congr ?_)
      rw [State.arriveCandidate_marked hmark, State.count_setNetPort]
      rfl
    · refine (exec_askArrival_candidate hs hr hok ht).trans (next_congr ?_)
      rw [State.arriveCandidate_unknown hmark (hno.imp_right (mt hto.mp)), State.count_setNetPort]
      rfl
    · refine (exec_askArrival_candidate hs hr hok ht).trans (next_congr ?_)
      rw [State.arriveCandidate_notReady hmark hask (hto.mpr htakes) hfree, State.count_setNetPort]
      rfl

end Sys2Proof.Machine
end

section
/-! SUPPORT. The bytes of the frames that leave: fields one after another, the padding and the check sequence
(10.6, R195). -/

namespace Sys2Proof.Machine

open Sys2Proof

/-! ### Fields one after another -/

/-- Fields as they stand in a frame, each of so many bytes, most significant byte first. -/
def frameLayout (fields : List (Nat × Nat)) : List Byte := fields.flatMap fun x => beBytes x.1 x.2

theorem beBytes_length (n v : Nat) : (beBytes n v).length = n := (beBytes_spec v n).1

theorem foldl_beBytes (n v acc : Nat) :
    (beBytes n v).foldl (fun x b => x * 256 + b.toNat) acc = acc * 256 ^ n + v % 256 ^ n := by
  induction n generalizing acc with
  | zero => simp [beBytes, Nat.mod_one]
  | succ n ih =>
    have hsplit : v % 256 ^ (n + 1) = v % 256 ^ n + 256 ^ n * (v / 256 ^ n % 256) := Nat.mod_pow_succ
    rw [beBytes, List.foldl_cons, ih, BitVec.toNat_ofNat, hsplit, Nat.pow_succ]
    ring

theorem numberAt_beBytes (n v : Nat) (rest : List Byte) : numberAt (beBytes n v ++ rest) 0 n = v % 256 ^ n := by
  have htake : ((beBytes n v ++ rest).drop 0).take n = beBytes n v := by
    rw [List.drop_zero, List.take_append_of_le_length (beBytes_length n v).ge,
      List.take_of_length_le (beBytes_length n v).le]
  rw [numberAt, htake, foldl_beBytes, Nat.zero_mul, Nat.zero_add]

theorem numberAt_append (before rest : List Byte) (k n : Nat) :
    numberAt (before ++ rest) (before.length + k) n = numberAt rest k n := by
  rw [numberAt, List.drop_length_add_append]

theorem length_frameLayout (fields : List (Nat × Nat)) : (frameLayout fields).length = (fields.map (·.1)).sum := by
  simp [frameLayout, List.length_flatMap, beBytes_length]

/-- Each field stands behind those before it. -/
theorem numberAt_frameLayout {fields : List (Nat × Nat)} {i n v : Nat} (h : fields[i]? = some (n, v))
    (rest : List Byte) :
    numberAt (frameLayout fields ++ rest) ((fields.take i).map (·.1)).sum n = v % 256 ^ n := by
  induction fields generalizing i with
  | nil => cases h
  | cons x fields ih =>
    rw [frameLayout, List.flatMap_cons, List.append_assoc]
    cases i with
    | zero =>
      cases h
      exact numberAt_beBytes n v _
    | succ i =>
      have hskip := numberAt_append (beBytes x.1 x.2) (frameLayout fields ++ rest) ((fields.take i).map (·.1)).sum n
      rw [beBytes_length] at hskip
      rw [List.take_succ_cons, List.map_cons, List.sum_cons]
      exact hskip.trans (ih h)

/-! ### Beacons (10.6) -/

/-- The fields of a beacon, its common header first. -/
def BeaconFrame.fields (b : BeaconFrame) : List (Nat × Nat) :=
  [(1, 1), (1, 1), (2, 29), (2, b.sequence), (6, b.departure / 10 ^ 9), (4, b.departure % 10 ^ 9), (1, b.utcOffset),
    (1, (b.leap.map fun r => r.kind.code).getD 0), (1, (b.leap.map fun r => r.phase.code).getD 0),
    (6, (b.leap.map fun r => dayEndBits r.dayEnd).getD 0), (1, b.grade.val), (4, b.uncertainty),
    (1, b.engineState.code), (1, (b.refKind.map RefKind.code).getD 0), (1, intervalCode b.interval)]

theorem BeaconFrame.bytes_eq (b : BeaconFrame) : b.bytes = frameLayout b.fields := by
  simp only [BeaconFrame.bytes, BeaconFrame.body, frameHeader, instantBytes, frameLayout, BeaconFrame.fields,
    List.flatMap_cons, List.flatMap_nil, List.append_assoc, List.append_nil, Config.nsPerSec, Nat.reducePow]

/-- How many bytes each field of a beacon has. -/
def beaconWidths : List Nat := [1, 1, 2, 2, 6, 4, 1, 1, 1, 6, 1, 4, 1, 1, 1]

theorem BeaconFrame.widths_fields (b : BeaconFrame) : b.fields.map (·.1) = beaconWidths := rfl

theorem BeaconFrame.length_bytes (b : BeaconFrame) : b.bytes.length = 33 := by
  rw [b.bytes_eq, length_frameLayout, b.widths_fields]
  decide

/-- The field of place `i`, at its offset in the frame. -/
theorem BeaconFrame.numberAt_field {b : BeaconFrame} {k n v : Nat} (i : Nat) (hk : (beaconWidths.take i).sum = k)
    (h : b.fields[i]? = some (n, v)) : numberAt b.bytes k n = v % 256 ^ n := by
  have hfield := numberAt_frameLayout h []
  rwa [List.append_nil, ← b.bytes_eq, List.map_take, b.widths_fields, hk] at hfield

/-- A day end that fits its 48 bits stands in them. -/
theorem dayEndBits_of_fits {d : Int} (h0 : 0 ≤ d) (h : d < 2 ^ 48) : ((dayEndBits d % 256 ^ 6 : Nat) : Int) = d := by
  rw [dayEndBits, if_pos ⟨h0, h⟩]
  omega

theorem intervalCode_eq {code : Nat} (h : code < 5) : intervalCode (125 * 2 ^ code) % 256 ^ 1 = code := by
  interval_cases code <;> rfl

/-! ### Answers (10.6) -/

/-- The fields of an answer before the ask's t1, and those behind it. -/
def Answer.fieldsBefore (a : Answer) : List (Nat × Nat) :=
  [(1, 3), (1, 1), (2, 36), (2, a.sequence.toNat), (2, a.tag.toNat)]

def Answer.fieldsBehind (a : Answer) : List (Nat × Nat) :=
  [(6, a.t2 / 10 ^ 9), (4, a.t2 % 10 ^ 9), (6, a.t3.getD 0 / 10 ^ 9), (4, a.t3.getD 0 % 10 ^ 9), (1, a.untracked.toNat),
    (1, a.grade.val)]

theorem Answer.bytes_eq (a : Answer) :
    a.bytes = frameLayout a.fieldsBefore ++ (a.t1 ++ frameLayout a.fieldsBehind) := by
  simp only [Answer.bytes, Answer.body, frameHeader, instantBytes, frameLayout, Answer.fieldsBefore,
    Answer.fieldsBehind, List.flatMap_cons, List.flatMap_nil, List.append_assoc, List.append_nil, Config.nsPerSec, Nat.reducePow]

section
variable {a : Answer}

theorem Answer.length_bytes (h : a.t1.length = 10) : a.bytes.length = 40 := by
  rw [a.bytes_eq, List.length_append, List.length_append, h, length_frameLayout, length_frameLayout]
  rfl

theorem Answer.numberAt_before {i n v : Nat} (hi : a.fieldsBefore[i]? = some (n, v)) :
    numberAt a.bytes ((a.fieldsBefore.take i).map (·.1)).sum n = v % 256 ^ n := by
  rw [a.bytes_eq]
  exact numberAt_frameLayout hi _

theorem Answer.numberAt_behind (h : a.t1.length = 10) {i n v : Nat} (hi : a.fieldsBehind[i]? = some (n, v)) :
    numberAt a.bytes (18 + ((a.fieldsBehind.take i).map (·.1)).sum) n = v % 256 ^ n := by
  have hlen : (frameLayout a.fieldsBefore ++ a.t1).length = 18 := by
    rw [List.length_append, h, length_frameLayout]
    rfl
  have hfield := numberAt_append (frameLayout a.fieldsBefore ++ a.t1) (frameLayout a.fieldsBehind)
    ((a.fieldsBehind.take i).map (·.1)).sum n
  rw [hlen, List.append_assoc, ← a.bytes_eq] at hfield
  rw [hfield, ← numberAt_frameLayout hi [], List.append_nil]

theorem Answer.bytes_t1 (h : a.t1.length = 10) : (a.bytes.drop 8).take 10 = a.t1 := by
  have hlen : (frameLayout a.fieldsBefore).length = 8 := by
    rw [length_frameLayout]
    rfl
  rw [a.bytes_eq, ← hlen, List.drop_left, ← h, List.take_left]

end

/-! ### Octets (10.6, R195; log entry 35) -/

/-- What stands in front of a frame's stamped bytes. -/
def frameAddresses (destination source : NetAddress) (type : BitVec 16) : List (Nat × Nat) :=
  [(6, destination.toNat), (6, source.toNat), (2, type.toNat)]

/-- A frame as written, padding included, the check sequence apart. -/
def frameWritten (destination source : NetAddress) (type : BitVec 16) (bytes : List Byte) : List Byte :=
  frameLayout (frameAddresses destination source type) ++ (bytes ++ List.replicate (60 - (14 + bytes.length)) 0)

section
variable (destination source : NetAddress) (type : BitVec 16) (bytes : List Byte)

theorem length_frameAddresses : (frameLayout (frameAddresses destination source type)).length = 14 := by
  rw [length_frameLayout]
  rfl

theorem frameOctets_eq :
    frameOctets destination source type bytes =
      frameWritten destination source type bytes ++ checkSequence (frameWritten destination source type bytes) := by
  have hwritten : padFrame (beBytes 6 destination.toNat ++ beBytes 6 source.toNat ++ beBytes 2 type.toNat ++ bytes) =
      frameWritten destination source type bytes := by
    simp only [padFrame, frameWritten, frameLayout, frameAddresses, List.flatMap_cons, List.flatMap_nil,
      List.append_assoc, List.append_nil, List.length_append, beBytes_length]
    congr 5
    omega
  simp only [frameOctets, hwritten]

theorem length_frameWritten : (frameWritten destination source type bytes).length = max 60 (14 + bytes.length) := by
  rw [frameWritten, List.length_append, List.length_append, length_frameAddresses, List.length_replicate]
  omega

theorem frameWritten_bytes : ((frameWritten destination source type bytes).drop 14).take bytes.length = bytes := by
  rw [frameWritten, ← length_frameAddresses destination source type, List.drop_left, List.take_left]

theorem frameWritten_padding :
    ∀ x ∈ (frameWritten destination source type bytes).drop (14 + bytes.length), x = 0 := by
  rw [frameWritten, ← length_frameAddresses destination source type, List.drop_length_add_append, List.drop_left]
  exact fun x hx => List.eq_of_mem_replicate hx

end

theorem numberAt_checkSequence (bs : List Byte) : numberAt (checkSequence bs).reverse 0 4 = (crc32 bs).toNat := by
  have h := numberAt_beBytes 4 (crc32 bs).toNat []
  rw [List.append_nil] at h
  rw [checkSequence, List.reverse_reverse, h]
  exact Nat.mod_eq_of_lt (crc32 bs).isLt

/-- The check sequence goes on by one byte from the complement of what it was. -/
theorem crc32_append_singleton (bs : List Byte) (b : Byte) : crc32 (bs ++ [b]) = ~~~(crcByte (~~~(crc32 bs)) b) := by
  simp only [crc32, List.foldl_append, List.foldl_cons, List.foldl_nil, BitVec.not_not]

end Sys2Proof.Machine
end

section
/-! SUPPORT. The beacon schedule and the transmit arbiter (R139 to R141, R149). -/

namespace Sys2Proof.Machine

open Sys2Proof

/-! ### The departing beacon (R140; log entry 34) -/

theorem State.leapReached_eq_leapShown {s : State} (hr : s.resetHeld = false) :
    (s.leapReached.utcOffset, s.leapReached.leap) = s.leapShown := by
  have hnot (sec : Int) : s.secondReached sec = false ↔ ¬ s.secondMet sec := by
    rw [Bool.eq_false_iff, ne_eq, s.secondReached_iff]
  unfold State.leapShown
  cases hl : s.ts.leap with
  | none =>
    rw [State.leapReached_none hr hl, hl]
  | some r =>
    cases hk : r.kind with
    | insert =>
      rw [State.leapReached_insert hr hl hk]
      simp only [hk, hnot, s.secondReached_iff]
      rfl
    | delete =>
      rw [State.leapReached_delete hr hl hk]
      simp only [hk, s.secondReached_iff]
      rfl

/-- A beacon carries the leap state of the second in which it departs. -/
theorem State.departingBeacon_eq {s : State} (hr : s.resetHeld = false) (port : NetPort) (interval : Nat) :
    s.departingBeacon port interval =
      { sequence := port.beaconSeq
        source := s.net.settings.address
        departure := s.nowNs
        utcOffset := s.leapShown.1
        leap := s.leapShown.2
        grade := s.grade
        uncertainty := s.uncertainty.getD 4294967295000 / 1000
        engineState := s.engine.state
        refKind := s.engine.selection.map fun r => (s.ref r).settings.kind
        interval := interval } := by
  rw [← State.leapReached_eq_leapShown hr]
  rfl

/-! ### The wire handed on (R140, R141) -/

section
variable {s : State} {port : NetPort}

theorem State.handWire_beacon {k : Nat} (h : port.pendingBeacon = some k) :
    s.handWire port =
      { port with
        wire := .beacon (s.departingBeacon port k)
        pendingBeacon := none
        beaconSeq := (port.beaconSeq + 1) % 65536 } := by
  simp only [State.handWire, h]

theorem State.handWire_answer {x : Answer} {rest : List Answer} (hb : port.pendingBeacon = none)
    (hq : port.queue = x :: rest) :
    s.handWire port =
      { port with wire := .answer { x with t3 := some s.nowNs } s.net.settings.address, queue := rest } := by
  simp only [State.handWire, hb, hq]

theorem State.handWire_nothing (hb : port.pendingBeacon = none) (hq : port.queue = []) :
    s.handWire port = { port with wire := .idle } := by
  simp only [State.handWire, hb, hq]

theorem State.offerWire_idle (h : port.wire = .idle) : s.offerWire port = s.handWire port := by
  simp only [State.offerWire, h]

theorem State.offerWire_busy (h : port.wire ≠ .idle) : s.offerWire port = port := by
  unfold State.offerWire
  split
  · exact absurd (by assumption) h
  · rfl
  · rfl

/-! ### The schedule (R139) -/

/-- The port makes a beacon at a due instant. -/
def State.makesBeacon (s : State) (p : NetId) (port : NetPort) : Prop :=
  s.portState p = .active ∧ s.engine.state ≠ .freerun ∧ port.pendingBeacon = none

variable {p : NetId}

theorem State.beaconAt_notDue (h : s.hasPassed port.nextDue = false) : s.beaconAt p port = port :=
  if_neg (Bool.eq_false_iff.mp h)

section
variable {t : Instant} (ht : firstDueAfter port.nextDue s.net.settings.interval = t)
  (h : s.hasPassed port.nextDue = true)
include ht h

theorem State.beaconAt_withoutBeacon (hm : ¬ s.makesBeacon p port) :
    s.beaconAt p port = { port with nextDue := t } := by
  unfold State.beaconAt
  dsimp only
  rw [ht, if_pos h]
  exact if_neg hm

theorem State.beaconAt_makes (hm : s.makesBeacon p port) :
    s.beaconAt p port =
      s.offerWire { port with nextDue := t, pendingBeacon := some s.net.settings.interval } := by
  unfold State.beaconAt
  dsimp only
  rw [ht, if_pos h]
  exact if_pos hm

/-- Over an idle wire the beacon departs at once. -/
theorem State.beaconAt_departs (hm : s.makesBeacon p port) (hw : port.wire = .idle) :
    s.beaconAt p port =
      s.handWire { port with nextDue := t, pendingBeacon := some s.net.settings.interval } :=
  (State.beaconAt_makes ht h hm).trans (State.offerWire_idle hw)

theorem State.beaconAt_waits (hm : s.makesBeacon p port) (hw : port.wire ≠ .idle) :
    s.beaconAt p port = { port with nextDue := t, pendingBeacon := some s.net.settings.interval } :=
  (State.beaconAt_makes ht h hm).trans (State.offerWire_busy hw)

end

theorem exec_beaconDue (hs : s.resetHeld = false) :
    exec .beaconDue s =
      .next { s with net := { s.net with ports := ⟨s.beaconAt .na s.net.ports.na, s.beaconAt .nb s.net.ports.nb⟩ } } :=
  next_congr (State.unlessHeld_released hs _)

/-- One of two ports by its name. -/
theorem Two.match_each {α β : Type} (f : NetId → α → β) (q : Two α) (p : NetId) :
    (match p with
      | .na => f .na q.na
      | .nb => f .nb q.nb) = f p (q.get p) := by
  cases p <;> rfl

/-! ### The end of a transmission (R149) -/

/-- The counters of a port whose frame has been sent. -/
def NetPort.sentCounters (port : NetPort) : PortCounters :=
  { port.counters with
    beaconsSent := match port.wire with
      | .beacon _ => (port.counters.beaconsSent + 1) % 2 ^ 32
      | .idle | .answer _ _ => port.counters.beaconsSent
    answersSent := match port.wire with
      | .answer _ _ => (port.counters.answersSent + 1) % 2 ^ 32
      | .idle | .beacon _ => port.counters.answersSent }

theorem NetPort.sentCounters_beacon {b : BeaconFrame} (h : port.wire = .beacon b) :
    port.sentCounters =
      { port.counters with beaconsSent := (port.counters.beaconsSent + 1) % 2 ^ 32 } := by
  simp only [NetPort.sentCounters, h]

theorem NetPort.sentCounters_answer {a : Answer} {source : NetAddress} (h : port.wire = .answer a source) :
    port.sentCounters =
      { port.counters with answersSent := (port.counters.answersSent + 1) % 2 ^ 32 } := by
  simp only [NetPort.sentCounters, h]

theorem exec_transmitEnd_idle (hs : s.resetHeld = false) (h : (s.netPort p).wire = .idle) :
    exec (.transmitEnd p) s = .next s := by
  refine next_congr ((State.unlessHeld_released hs _).trans ?_)
  simp only [h]

theorem exec_transmitEnd_busy (hs : s.resetHeld = false) (h : (s.netPort p).wire ≠ .idle) :
    exec (.transmitEnd p) s =
      .next (s.setNetPort p (s.handWire { s.netPort p with counters := (s.netPort p).sentCounters })) := by
  refine next_congr ((State.unlessHeld_released hs _).trans ?_)
  dsimp only
  split
  · rename_i hw
    exact absurd hw h
  · rename_i b hw
    rw [NetPort.sentCounters_beacon hw]
    rfl
  · rename_i a source hw
    rw [NetPort.sentCounters_answer hw]
    rfl

end

/-! ### The layouts (10.6) -/

theorem LeapKind.code_fits_byte (k : LeapKind) : k.code % 256 ^ 1 = k.code := by cases k <;> rfl

theorem LeapPhase.code_fits_byte (x : LeapPhase) : x.code % 256 ^ 1 = x.code := by cases x <;> rfl

theorem EngineState.code_fits_byte (x : EngineState) : x.code % 256 ^ 1 = x.code := by cases x <;> rfl

theorem RefKind.code_fits_byte (k : RefKind) : k.code % 256 ^ 1 = k.code := by cases k <;> rfl

theorem grade_fits_byte (g : Grade) : g.val % 256 ^ 1 = g.val := by omega

/-- Nanoseconds below a second fit the four bytes of an instant. -/
theorem nanoseconds_fit (t : Nat) : t % 10 ^ 9 % 256 ^ 4 = t % 10 ^ 9 := by omega

theorem BeaconFrame.numberAt_leap {b : BeaconFrame} {r : Leap} (h : b.leap = some r) :
    numberAt b.bytes 17 1 = r.kind.code ∧ numberAt b.bytes 18 1 = r.phase.code ∧
      (0 ≤ r.dayEnd → r.dayEnd < 2 ^ 48 → (numberAt b.bytes 19 6 : Int) = r.dayEnd) := by
  have hkind : numberAt b.bytes 17 1 = _ := b.numberAt_field 7 (by decide) rfl
  have hphase : numberAt b.bytes 18 1 = _ := b.numberAt_field 8 (by decide) rfl
  have hday : numberAt b.bytes 19 6 = _ := b.numberAt_field 9 (by decide) rfl
  rw [hkind, hphase, hday, h]
  exact ⟨r.kind.code_fits_byte, r.phase.code_fits_byte, fun h0 hlt => dayEndBits_of_fits h0 hlt⟩

theorem BeaconFrame.numberAt_noLeap {b : BeaconFrame} (h : b.leap = none) :
    numberAt b.bytes 17 1 = 0 ∧ numberAt b.bytes 18 1 = 0 ∧ numberAt b.bytes 19 6 = 0 := by
  have hkind : numberAt b.bytes 17 1 = _ := b.numberAt_field 7 (by decide) rfl
  have hphase : numberAt b.bytes 18 1 = _ := b.numberAt_field 8 (by decide) rfl
  have hday : numberAt b.bytes 19 6 = _ := b.numberAt_field 9 (by decide) rfl
  rw [hkind, hphase, hday, h]
  exact ⟨rfl, rfl, rfl⟩

theorem beaconLayout (b : BeaconFrame) :
    b.bytes.length = 33 ∧ numberAt b.bytes 0 1 = 1 ∧ numberAt b.bytes 1 1 = 1 ∧ numberAt b.bytes 2 2 = 29 ∧
      numberAt b.bytes 4 2 = b.sequence % 2 ^ 16 ∧ numberAt b.bytes 6 6 = b.departure / 10 ^ 9 % 2 ^ 48 ∧
      numberAt b.bytes 12 4 = b.departure % 10 ^ 9 ∧ numberAt b.bytes 16 1 = b.utcOffset % 2 ^ 8 ∧
      numberAt b.bytes 25 1 = b.grade.val ∧ numberAt b.bytes 26 4 = b.uncertainty % 2 ^ 32 ∧
      numberAt b.bytes 30 1 = b.engineState.code ∧
      numberAt b.bytes 31 1 = (b.refKind.map RefKind.code).getD 0 ∧
      ∀ code < 5, b.interval = 125 * 2 ^ code → numberAt b.bytes 32 1 = code := by
  have hengine : numberAt b.bytes 30 1 = _ := b.numberAt_field 12 (by decide) rfl
  have href : numberAt b.bytes 31 1 = _ := b.numberAt_field 13 (by decide) rfl
  have hint : numberAt b.bytes 32 1 = _ := b.numberAt_field 14 (by decide) rfl
  refine ⟨b.length_bytes, b.numberAt_field 0 (by decide) rfl, b.numberAt_field 1 (by decide) rfl,
    b.numberAt_field 2 (by decide) rfl, b.numberAt_field 3 (by decide) rfl, b.numberAt_field 4 (by decide) rfl,
    (b.numberAt_field 5 (by decide) rfl).trans (nanoseconds_fit _), b.numberAt_field 6 (by decide) rfl,
    (b.numberAt_field 10 (by decide) rfl).trans (grade_fits_byte _), b.numberAt_field 11 (by decide) rfl,
    hengine.trans b.engineState.code_fits_byte, href.trans ?_, fun code hcode hinterval => ?_⟩
  · cases b.refKind with
    | none => rfl
    | some kind => exact kind.code_fits_byte
  · rw [hint, hinterval, intervalCode_eq hcode]

theorem answerLayout {a : Answer} (h : a.t1.length = 10) :
    a.bytes.length = 40 ∧ numberAt a.bytes 0 1 = 3 ∧ numberAt a.bytes 1 1 = 1 ∧ numberAt a.bytes 2 2 = 36 ∧
      numberAt a.bytes 4 2 = a.sequence.toNat ∧ numberAt a.bytes 6 2 = a.tag.toNat ∧ (a.bytes.drop 8).take 10 = a.t1 ∧
      numberAt a.bytes 18 6 = a.t2 / 10 ^ 9 % 2 ^ 48 ∧ numberAt a.bytes 24 4 = a.t2 % 10 ^ 9 ∧
      (∀ t3, a.t3 = some t3 → numberAt a.bytes 28 6 = t3 / 10 ^ 9 % 2 ^ 48 ∧ numberAt a.bytes 34 4 = t3 % 10 ^ 9) ∧
      numberAt a.bytes 38 1 = (if a.untracked then 1 else 0) ∧ numberAt a.bytes 39 1 = a.grade.val := by
  refine ⟨Answer.length_bytes h, Answer.numberAt_before (i := 0) rfl, Answer.numberAt_before (i := 1) rfl,
    Answer.numberAt_before (i := 2) rfl,
    (Answer.numberAt_before (i := 3) rfl).trans (Nat.mod_eq_of_lt a.sequence.isLt),
    (Answer.numberAt_before (i := 4) rfl).trans (Nat.mod_eq_of_lt a.tag.isLt), Answer.bytes_t1 h,
    Answer.numberAt_behind h (i := 0) rfl, (Answer.numberAt_behind h (i := 1) rfl).trans (nanoseconds_fit _),
    fun t3 ht3 => ?_, (Answer.numberAt_behind h (i := 4) rfl).trans ?_,
    (Answer.numberAt_behind h (i := 5) rfl).trans (grade_fits_byte _)⟩
  · have hsec : numberAt a.bytes 28 6 = _ := Answer.numberAt_behind h (i := 2) rfl
    have hns : numberAt a.bytes 34 4 = _ := (Answer.numberAt_behind h (i := 3) rfl).trans (nanoseconds_fit _)
    rw [hsec, hns, ht3]
    exact ⟨rfl, rfl⟩
  · cases a.untracked <;> rfl

theorem octetsLayout {w : Wire} {destination source : NetAddress} {type : BitVec 16} {bytes : List Byte}
    (h : w.frame = some (destination, source, type, bytes)) :
    ∃ written check : List Byte, w.octets = some (written ++ check) ∧ written.length = max 60 (14 + bytes.length) ∧
      numberAt written 0 6 = destination.toNat ∧ numberAt written 6 6 = source.toNat ∧
      numberAt written 12 2 = type.toNat ∧ (written.drop 14).take bytes.length = bytes ∧
      (∀ x ∈ written.drop (14 + bytes.length), x = 0) ∧ check.length = 4 ∧
      numberAt check.reverse 0 4 = (crc32 written).toNat := by
  have haddress {i n v : Nat} (hi : (frameAddresses destination source type)[i]? = some (n, v)) :
      numberAt (frameWritten destination source type bytes)
        (((frameAddresses destination source type).take i).map (·.1)).sum n = v % 256 ^ n := numberAt_frameLayout hi _
  refine ⟨frameWritten destination source type bytes, checkSequence (frameWritten destination source type bytes), ?_,
    length_frameWritten _ _ _ _, (haddress (i := 0) rfl).trans (Nat.mod_eq_of_lt destination.isLt),
    (haddress (i := 1) rfl).trans (Nat.mod_eq_of_lt source.isLt),
    (haddress (i := 2) rfl).trans (Nat.mod_eq_of_lt type.isLt), frameWritten_bytes _ _ _ _,
    frameWritten_padding _ _ _ _,
    ?_, numberAt_checkSequence _⟩
  · rw [Wire.octets, h]
    exact congrArg some (frameOctets_eq _ _ _ _)
  · rw [checkSequence, List.length_reverse, beBytes_length]

/-- Settles O39. -/
theorem beaconsAndAnswersShareTheWire : Obligations.BeaconsAndAnswersShareTheWire := by
  refine ⟨fun b => ?_, fun a ha => answerLayout ha, ⟨rfl, fun _ => rfl, fun _ _ => rfl, fun w d src type bytes h =>
    octetsLayout h⟩, fun bs b => ⟨by decide, crc32_append_singleton bs b⟩, fun s hs => ?_⟩
  · obtain ⟨hlen, hkind, hver, hbody, hseq, hsec, hns, hutc, hgrade, hunc, hengine, href, hint⟩ := beaconLayout b
    refine ⟨hlen, hkind, hver, hbody, hseq, hsec, hns, hutc, b.numberAt_noLeap, fun r hr => ?_, hgrade, hunc,
      hengine.trans ?_, href.trans ?_, hint⟩
    · obtain ⟨hk, hp, hd⟩ := b.numberAt_leap hr
      exact ⟨hk.trans (by cases r.kind <;> rfl), hp.trans (by cases r.phase <;> rfl), hd⟩
    · cases b.engineState <;> rfl
    · rcases b.refKind with _ | kind
      · rfl
      · cases kind <;> rfl
  intro beacon sentBeacon next
  have hsent (port : NetPort) (k : Nat) (hb : port.pendingBeacon = some k) : s.handWire port = sentBeacon port k := by
    rw [State.handWire_beacon hb, State.departingBeacon_eq hs]
  refine ⟨⟨_, _, exec_beaconDue hs, fun p => ?_⟩, fun p => ?_⟩
  · intro port new moved makes
    have hnew : new = s.beaconAt p port := Two.match_each s.beaconAt s.net.ports p
    -- The new due instant is kept from the kernel's own unfolding, which would count up the range of the timescale.
    obtain ⟨t, ht⟩ : ∃ t, firstDueAfter port.nextDue s.net.settings.interval = t := ⟨_, rfl⟩
    have hmoved : moved = { port with nextDue := t } := ht ▸ rfl
    clear_value moved
    subst hmoved
    refine ⟨fun hdue => hnew.trans (State.beaconAt_notDue hdue),
      fun hdue hm => hnew.trans (State.beaconAt_withoutBeacon ht hdue hm), fun hdue hm hw => ?_,
      fun hdue hm hw => hnew.trans (State.beaconAt_waits ht hdue hm hw)⟩
    rw [hnew, State.beaconAt_departs ht hdue hm hw, hsent _ _ rfl]
  · intro port
    refine ⟨exec_transmitEnd_idle hs, fun hw => ?_⟩
    intro counted
    have hend : exec (.transmitEnd p) s = .next (s.setNetPort p (s.handWire counted)) := exec_transmitEnd_busy hs hw
    refine ⟨fun k hk => hend.trans (next_congr ?_), fun x rest hb hq => hend.trans (next_congr ?_),
      fun hb hq => hend.trans (next_congr ?_)⟩
    · rw [hsent counted k hk]
    · rw [State.handWire_answer (port := counted) hb hq]
    · rw [State.handWire_nothing (port := counted) hb hq]

end Sys2Proof.Machine
end

section
/-! SUPPORT. A legal client table: what each operation on the table makes of it, and that each event and each command keeps
it legal (R154 to R156). -/

namespace Sys2Proof.Machine

open Sys2Proof

/-! ### Legal entries (R154 to R156) -/

section
variable {c : Client} {p : NetId}

theorem Client.address_setSub (c : Client) (p : NetId) (x : Option SubRecord) : (c.setSub p x).address = c.address := by
  cases p <;> rfl

theorem Client.report_setSub (c : Client) (p : NetId) (x : Option SubRecord) : (c.setSub p x).report = c.report := by
  cases p <;> rfl

/-- An entry that is given a sub-record is legal, whether it had one before or not. -/
theorem Client.wf_setSub_some (hslot : c.slot < 96) (haddress : isGroup c.address = false)
    (hstate : c.state = .new ↔ c.report = none) (p : NetId) (x : SubRecord) : (c.setSub p (some x)).wf := by
  refine ⟨by rwa [c.slot_setSub], by rwa [c.address_setSub], ?_, by rwa [c.state_setSub, c.report_setSub]⟩
  cases p
  · exact .inl rfl
  · exact .inr rfl

theorem Client.wf.setSub (h : c.wf) (p : NetId) (x : SubRecord) : (c.setSub p (some x)).wf := by
  obtain ⟨hslot, haddress, _, hstate⟩ := h
  exact Client.wf_setSub_some hslot haddress hstate p x

theorem Client.slot_withReport (c : Client) (limit : Nat) (p : NetId) (r : Reception) (report : Option AskReport) :
    (c.withReport limit p r report).slot = c.slot := by
  cases report <;> rfl

theorem Client.address_withReport (c : Client) (limit : Nat) (p : NetId) (r : Reception) (report : Option AskReport) :
    (c.withReport limit p r report).address = c.address := by
  cases report <;> rfl

/-- A self-report takes an entry out of NEW (R162). -/
theorem Client.wf.withReport (h : c.wf) (limit : Nat) (p : NetId) (r : Reception) (report : Option AskReport) :
    (c.withReport limit p r report).wf := by
  cases report with
  | none => exact h
  | some x =>
    obtain ⟨hslot, haddress, hsub, _⟩ := h
    refine ⟨hslot, haddress, hsub, fun hnew => ?_, nofun⟩
    simp only [Client.withReport] at hnew
    split at hnew <;> cases hnew

/-- An entry with a young sub-record stays legal as the old ones leave it (R164). -/
theorem Client.wf.aged (h : c.wf) {span run : Nat} (hstays : (c.aged span run).isLost = false) : (c.aged span run).wf := by
  obtain ⟨hslot, haddress, _, hstate⟩ := h
  refine ⟨hslot, haddress, ?_, hstate⟩
  simpa [Client.isLost, Option.isSome_iff_ne_none, ← not_and_or] using hstays

end

/-! ### Legal tables -/

/-- A client table is legal: legal entries in slot order, no two with one address. -/
def ClientTable.wf (t : ClientTable) : Prop :=
  (∀ c ∈ t.entries, c.wf) ∧ t.entries.Pairwise (fun a b => a.slot < b.slot) ∧ (t.entries.map (·.address)).Nodup

theorem State.clientsWf_iff (s : State) : s.clientsWf ↔ s.clients.wf := Iff.rfl

section
variable {t : ClientTable} {c : Client}

theorem ClientTable.wf_empty (checked : Option Nat) : (ClientTable.mk [] checked).wf := ⟨nofun, .nil, .nil⟩

theorem ClientTable.wf.entry (h : t.wf) (hc : c ∈ t.entries) : c.wf := by
  obtain ⟨hentries, _⟩ := h
  exact hentries c hc

theorem ClientTable.wf.filter (h : t.wf) (p : Client → Bool) (checked : Option Nat) :
    (ClientTable.mk (t.entries.filter p) checked).wf := by
  obtain ⟨hentries, hslots, haddresses⟩ := h
  exact ⟨fun c hc => hentries c (List.mem_of_mem_filter hc), hslots.sublist List.filter_sublist,
    haddresses.sublist (List.filter_sublist.map _)⟩

/-- A change of the entries that leaves each its slot and its address keeps the table legal where the entries it makes
are. -/
theorem ClientTable.wf.map (h : t.wf) {f : Client → Client} (hslot : ∀ c ∈ t.entries, (f c).slot = c.slot)
    (haddress : ∀ c ∈ t.entries, (f c).address = c.address) (hf : ∀ c ∈ t.entries, (f c).wf) :
    ClientTable.wf { t with entries := t.entries.map f } := by
  obtain ⟨_, hslots, haddresses⟩ := h
  refine ⟨fun d hd => ?_, List.pairwise_map.mpr (hslots.imp_of_mem fun {a b} ha hb hlt => ?_), ?_⟩
  · obtain ⟨c, hc, rfl⟩ := List.mem_map.mp hd
    exact hf c hc
  · rwa [hslot a ha, hslot b hb]
  · rw [List.map_map, List.map_congr_left (g := (·.address)) haddress]
    exact haddresses

/-- No two entries stand in one slot. -/
theorem ClientTable.wf.eq_of_slot (h : t.wf) {x y : Client} (hx : x ∈ t.entries) (hy : y ∈ t.entries)
    (hslot : x.slot = y.slot) : x = y := by
  obtain ⟨_, hslots, _⟩ := h
  have hnodup : (t.entries.map (·.slot)).Nodup := List.pairwise_map.mpr (hslots.imp fun hlt => Nat.ne_of_lt hlt)
  exact List.inj_on_of_nodup_map hnodup hx hy hslot

/-- A legal entry may replace the one in its slot that has its address. -/
theorem ClientTable.wf.put (h : t.wf) (hc : c.wf) {x : Client} (hx : x ∈ t.entries) (hslot : c.slot = x.slot)
    (haddress : c.address = x.address) : (t.put c).wf := by
  refine h.map (fun d hd => ?_) (fun d hd => ?_) fun d hd => ?_
  · split
    · rename_i hsame
      exact hsame.symm
    · rfl
  · split
    · rename_i hsame
      rw [haddress, h.eq_of_slot hd hx (hsame.trans hslot)]
    · rfl
  · split
    · exact hc
    · exact h.entry hd

/-- A legal entry may join in a free slot under an address that no entry has. -/
theorem ClientTable.wf.add (h : t.wf) (hc : c.wf) (hfree : ∀ x ∈ t.entries, x.slot ≠ c.slot)
    (hnew : ∀ x ∈ t.entries, x.address ≠ c.address) : (t.add c).wf := by
  obtain ⟨hentries, hslots, haddresses⟩ := h
  have hperm : (t.add c).entries.Perm (c :: t.entries) := insertBy_perm _ _ _
  refine ⟨fun d hd => ?_, ?_, ?_⟩
  · rcases List.mem_cons.mp (hperm.subset hd) with rfl | hd
    · exact hc
    · exact hentries d hd
  · refine insertBy_pairwise (fun _ _ _ => Nat.lt_trans) (fun y _ hy => of_decide_eq_true hy) (fun y hy hn => ?_) hslots
    exact Nat.lt_of_le_of_ne (Nat.not_lt.mp (of_decide_eq_false hn)) (hfree y hy)
  · refine ((hperm.map _).nodup_iff).mpr (List.nodup_cons.mpr ⟨fun hmem => ?_, haddresses⟩)
    obtain ⟨x, hx, hsame⟩ := List.mem_map.mp hmem
    exact hnew x hx hsame

/-- The entries that keep a young sub-record, without their old ones, make a legal table (R164, R165). -/
theorem ClientTable.wf.aged (h : t.wf) (span run : Nat) (checked : Option Nat) :
    (ClientTable.mk ((t.entries.filter fun c => !(c.aged span run).isLost).map (·.aged span run)) checked).wf := by
  refine (h.filter (fun c => !(c.aged span run).isLost) checked).map (fun _ _ => rfl) (fun _ _ => rfl) fun c hc => ?_
  obtain ⟨hc, hstays⟩ := List.mem_filter.mp hc
  exact (h.entry hc).aged (by simpa using hstays)

end

/-! ### Operations that keep the table legal -/

/-- `t` has a legal client table where `s` has. -/
def State.clientsSafe (s t : State) : Prop := s.clientsWf → t.clientsWf

theorem State.clientsSafe_refl (s : State) : s.clientsSafe s := id

theorem State.clientsSafe.trans {s t u : State} (h : s.clientsSafe t) (k : t.clientsSafe u) : s.clientsSafe u := k ∘ h

theorem State.clientsSafe_of_clients {s t : State} (h : t.clients = s.clients) : s.clientsSafe t := by
  unfold State.clientsSafe
  rw [State.clientsWf_iff, State.clientsWf_iff, h]
  exact id

theorem State.clientsSafe_of_networkSide {s t : State} (h : t.networkSide = s.networkSide) : s.clientsSafe t :=
  State.clientsSafe_of_clients (congrArg Prod.snd h)

theorem State.clientsSafe_drivenRule : DrivenRule State.clientsSafe where
  trans := State.clientsSafe.trans
  keeps h := State.clientsSafe_of_networkSide (State.networkSide_of_driven h)
  step s src new clearFrac := State.clientsSafe_of_clients (by rw [State.stepTo_frame])

theorem State.takeCommand_clientsSafe {s : State} {mp : Mp} {row : CommandRow} {act : List Word → State → Judged}
    (h : ∀ ws, s.clientsSafe ((act ws s).leaves s)) : s.clientsSafe (s.takeCommand mp row act) :=
  State.takeCommand_leaves s.clientsSafe_refl (fun _ _ _ ht => ht.trans (State.clientsSafe_of_clients rfl)) h

theorem Judged.withParams_clientsSafe {α : Type} {s : State} {params : Option α} {act : α → Judged}
    (h : ∀ x, s.clientsSafe ((act x).leaves s)) : s.clientsSafe ((withParams params act).leaves s) := by
  cases params with
  | none => exact s.clientsSafe_refl
  | some x => exact h x

/-! ### Asks (R157 to R163) -/

theorem State.clients_tell (s : State) (b : Bool) : (s.tell b).clients = s.clients := by cases b <;> rfl

theorem State.clients_count (s : State) (p : NetId) (f : PortCounters → PortCounters) :
    (s.count p f).clients = s.clients := rfl

theorem State.clients_queueAnswer (s : State) (p : NetId) (a : Answer) : (s.queueAnswer p a).clients = s.clients := rfl

theorem State.recordAnswered_full {s : State} {p : NetId} {a : NetAddress} {ask : Ask} (hf : s.clients.find a = none)
    (hslot : s.clients.freeSlot = none) (r : Reception) : s.recordAnswered p a ask r = s := by
  simp only [State.recordAnswered, hf, hslot]

theorem State.onSub_clientsSafe (s : State) (p : NetId) (a : NetAddress) (f : SubRecord → SubRecord) :
    s.clientsSafe (s.onSub p a f) := by
  intro hw
  cases hf : s.clients.find a with
  | none => rwa [State.onSub_unknown hf]
  | some c =>
    cases hx : c.sub p with
    | none => rwa [State.onSub_newPort hf hx]
    | some x =>
      obtain ⟨hc, _⟩ := s.clients.find_some hf
      rw [State.onSub_known hf hx]
      exact ClientTable.wf.put hw ((ClientTable.wf.entry hw hc).setSub p _) hc (c.slot_setSub _ _) (c.address_setSub _ _)

/-- A recorded ask changes the entry of its address, or adds one in a free slot, from an individual address (R159). -/
theorem State.recordAnswered_clientsSafe (s : State) (p : NetId) {a : NetAddress} (ha : isGroup a = false) (ask : Ask)
    (r : Reception) : s.clientsSafe (s.recordAnswered p a ask r) := by
  intro hw
  cases hf : s.clients.find a with
  | some c =>
    obtain ⟨hc, _⟩ := s.clients.find_some hf
    have hsub : (c.setSub p (some (c.answeredSub p ask r))).wf := (ClientTable.wf.entry hw hc).setSub p _
    have htagged : Client.wf { c.setSub p (some (c.answeredSub p ask r)) with tag := ask.tag } := hsub
    rw [State.clientsWf_iff, State.recordAnswered_known hf, State.clients_tell]
    refine ClientTable.wf.put hw (htagged.withReport _ _ _ _) hc ?_ ?_
    · exact (Client.slot_withReport _ _ _ _ _).trans (c.slot_setSub _ _)
    · exact (Client.address_withReport _ _ _ _ _).trans (c.address_setSub _ _)
  | none =>
    cases hslot : s.clients.freeSlot with
    | none => rwa [State.recordAnswered_full hf hslot]
    | some k =>
      obtain ⟨hk, hfree, _⟩ := (s.clients.freeSlot_eq_some_iff k).mp hslot
      have hunknown := (s.clients.find_eq_none_iff a).mp hf
      have hentry : ((⟨k, a, ask.tag, .new, none, none, none⟩ : Client).setSub p (some (newSub ask r))).wf :=
        Client.wf_setSub_some (c := ⟨k, a, ask.tag, .new, none, none, none⟩) hk ha (iff_of_true rfl rfl) p _
      rw [State.clientsWf_iff, State.recordAnswered_new hf hslot, State.clients_tell]
      refine ClientTable.wf.add hw (hentry.withReport _ _ _ _) ?_ ?_
      · rwa [Client.slot_withReport, Client.slot_setSub]
      · rwa [Client.address_withReport, Client.address_setSub]

theorem State.handleAsk_clientsSafe (s : State) (p : NetId) {a : NetAddress} (ha : isGroup a = false) (ask : Ask)
    (r : Reception) : s.clientsSafe (s.handleAsk p a ask r) := by
  have dropped (f : SubRecord → SubRecord) (g : PortCounters → PortCounters) :
      s.clientsSafe ((s.onSub p a f).count p g) :=
    (s.onSub_clientsSafe p a f).trans (State.clientsSafe_of_clients (State.clients_count _ p g))
  unfold State.handleAsk
  split
  · exact dropped _ _
  · exact dropped _ _
  · split
    · exact (s.recordAnswered_clientsSafe p ha ask r).trans
        (State.clientsSafe_of_clients (State.clients_queueAnswer _ p _))
    · exact dropped _ _
  · split
    · exact State.clientsSafe_of_clients (by rw [State.clients_queueAnswer, State.clients_count])
    · exact State.clientsSafe_of_clients (s.clients_count p _)

/-- An ask reaches the table from an individual address alone (R144). -/
theorem State.arriveCandidate_clientsSafe (s : State) (p : NetId) (f : RxFrame) (r : Reception) :
    s.clientsSafe (s.arriveCandidate p f r) := by
  have counted (g : PortCounters → PortCounters) : s.clientsSafe (s.count p g) :=
    State.clientsSafe_of_clients (s.clients_count p g)
  unfold State.arriveCandidate
  split
  · exact counted _
  · split
    · exact counted _
    · split_ifs with hnot
      · exact counted _
      · exact counted _
      · obtain ⟨_, hsource⟩ := (s.addressedHere_iff f).mp (Bool.eq_true_of_not_eq_false hnot)
        exact s.handleAsk_clientsSafe p hsource _ r

theorem askArrivalState_clientsSafe (p : NetId) (f : RxFrame) (s : State) : s.clientsSafe (askArrivalState p f s) := by
  refine State.unlessHeld_induct s.clientsSafe_refl ?_
  dsimp only
  split
  · exact s.clientsSafe_refl
  · have ended : s.clientsSafe (s.setNetPort p { s.netPort p with reception := none }) :=
      State.clientsSafe_of_clients rfl
    split_ifs
    · exact State.clientsSafe_of_clients rfl
    · exact ended.trans (State.arriveCandidate_clientsSafe _ p f _)
    · exact ended

/-! ### The idle check (R164, R165) -/

/-- The state after an idle check, but for the flag: the entries that keep a young sub-record, without their old ones. -/
def State.idleChecked (s : State) : State :=
  s.setClients
    ⟨(s.clients.entries.filter fun c => !(c.aged s.net.settings.idleSpan s.run).isLost).map
      (·.aged s.net.settings.idleSpan s.run), some s.ts.tickCount⟩

/-- No entry is left without a sub-record by an idle check. -/
def State.allStay (s : State) : Bool :=
  s.clients.entries.all fun c => !(c.aged s.net.settings.idleSpan s.run).isLost

theorem idleCheckState_eq (s : State) :
    idleCheckState s =
      s.unlessHeld fun s =>
        if s.ts.tickCount % 250000000 = 0 ∧ 0 < s.ts.tickCount ∧ s.clients.checkedAt ≠ some s.ts.tickCount then
          if s.allStay then s.idleChecked else s.idleChecked.post .clientLost
        else s := by
  unfold idleCheckState State.unlessHeld
  have hentries : (s.clients.entries.map fun c => c.aged s.net.settings.idleSpan s.run).filter (fun c => !c.isLost) =
      (s.clients.entries.filter fun c => !(c.aged s.net.settings.idleSpan s.run).isLost).map
        (·.aged s.net.settings.idleSpan s.run) := List.filter_map
  have hlost : (s.clients.entries.map fun c => c.aged s.net.settings.idleSpan s.run).any Client.isLost =
      !s.allStay := by
    rw [List.any_map, State.allStay, List.not_all_eq_any_not]
    simp only [Bool.not_not]
    rfl
  dsimp only
  rw [hentries, hlost]
  cases s.allStay <;> rfl

theorem State.idleChecked_clientsSafe (s : State) : s.clientsSafe s.idleChecked :=
  fun hw => ClientTable.wf.aged hw _ _ _

theorem idleCheckState_clientsSafe (s : State) : s.clientsSafe (idleCheckState s) := by
  rw [idleCheckState_eq]
  refine State.unlessHeld_induct s.clientsSafe_refl ?_
  split_ifs
  · exact s.idleChecked_clientsSafe
  · exact s.idleChecked_clientsSafe.trans (State.clientsSafe_of_clients rfl)
  · exact s.clientsSafe_refl

/-! ### The network ports, which leave the table (R137 to R150) -/

theorem clients_beaconDueState (s : State) : (beaconDueState s).clients = s.clients :=
  State.unlessHeld_induct (P := fun t => t.clients = s.clients) rfl rfl

theorem clients_transmitEndState (p : NetId) (s : State) : (transmitEndState p s).clients = s.clients := by
  refine State.unlessHeld_induct (P := fun t => t.clients = s.clients) rfl ?_
  dsimp only
  split <;> rfl

theorem clients_askTimingPointState (p : NetId) (s : State) : (askTimingPointState p s).clients = s.clients := by
  refine State.unlessHeld_induct (P := fun t => t.clients = s.clients) rfl ?_
  dsimp only
  split <;> rfl

/-! ### FORGET_CLIENT, NETWORK_CLEAR and the resets (R167, R170, R187, R190) -/

theorem State.clientsSafe_of_empty {s t : State} {checked : Option Nat} (h : t.clients = ⟨[], checked⟩) :
    s.clientsSafe t := fun _ => by
  rw [State.clientsWf_iff, h]
  exact ClientTable.wf_empty checked

theorem forgetClientState_clientsSafe (mp : Mp) (s : State) : s.clientsSafe (forgetClientState mp s) := by
  refine State.takeCommand_clientsSafe fun ws => Judged.withParams_clientsSafe fun a => ?_
  unfold State.forgetClient
  split
  · exact s.clientsSafe_refl
  · exact fun hw => ClientTable.wf.filter hw _ _

theorem networkClearState_clientsSafe (mp : Mp) (s : State) : s.clientsSafe (networkClearState mp s) :=
  State.takeCommand_clientsSafe fun _ => State.clientsSafe_of_empty rfl

theorem restartState_clientsSafe (mp : Mp) (s : State) : s.clientsSafe (restartState mp s) := by
  refine State.unlessHeld_induct s.clientsSafe_refl ?_
  split
  · exact s.clientsSafe_refl
  · unfold State.judgeRestart
    split_ifs
    · exact State.clientsSafe_of_clients rfl
    · exact State.clientsSafe_of_clients rfl
    · rw [State.restart_eq]
      exact State.clientsSafe_of_empty rfl
    · exact s.clientsSafe_refl

/-! ### Every command -/

/-- Every command keeps the client table legal. -/
theorem exec_clientsSafe (c : Instr) (s : State) : ∃ t, exec c s = .next t ∧ s.clientsSafe t := by
  by_cases hdriven : reachesByStepAlone c = true
  · exact State.clientsSafe_drivenRule.exec hdriven
  by_cases hlines : actsOnMarksOrLines c = true
  · obtain ⟨t, ht, h⟩ := networkSide_exec hlines s
    exact ⟨t, ht, State.clientsSafe_of_networkSide h⟩
  cases c with
  | linkUp p => exact ⟨_, rfl, State.clientsSafe_of_clients rfl⟩
  | linkDown p => exact ⟨_, rfl, State.clientsSafe_of_clients rfl⟩
  | beaconDue => exact ⟨_, rfl, State.clientsSafe_of_clients (clients_beaconDueState s)⟩
  | transmitEnd p => exact ⟨_, rfl, State.clientsSafe_of_clients (clients_transmitEndState p s)⟩
  | askTimingPoint p => exact ⟨_, rfl, State.clientsSafe_of_clients (clients_askTimingPointState p s)⟩
  | askArrival p f => exact ⟨_, rfl, askArrivalState_clientsSafe p f s⟩
  | setNetwork mp =>
    exact ⟨_, rfl, State.takeCommand_clientsSafe fun _ => Judged.withParams_clientsSafe fun _ =>
      State.clientsSafe_of_clients rfl⟩
  | networkClear mp => exact ⟨_, rfl, networkClearState_clientsSafe mp s⟩
  | forgetClient mp => exact ⟨_, rfl, forgetClientState_clientsSafe mp s⟩
  | idleCheck => exact ⟨_, rfl, idleCheckState_clientsSafe s⟩
  | restart mp => exact ⟨_, rfl, restartState_clientsSafe mp s⟩
  | powerOn held => exact ⟨_, rfl, State.clientsSafe_of_empty rfl⟩
  | _ => exact absurd rfl (by assumption)

/-- Settles O59: a step runs one command, or idles. -/
theorem stepKeepsTheClients : Obligations.StepKeepsTheClients := by
  intro s t hw hstep
  unfold step at hstep
  split at hstep
  · cases hstep
    exact hw
  · rename_i c rest _
    obtain ⟨u, hu, hsafe⟩ := exec_clientsSafe c { s with pending := rest }
    rw [hu] at hstep
    cases hstep
    exact hsafe hw

end Sys2Proof.Machine
end

section
/-! SUPPORT. The idle check as its statement writes it, and FORGET_CLIENT (R164, R165, R167). -/

namespace Sys2Proof.Machine

open Sys2Proof

/-! ### The idle check (R164, R165) -/

theorem keepYoung_eq (span run : Nat) (x : Option SubRecord) :
    keepYoung span run x = x.filter fun y => decide (run ≤ y.answeredRun + span) := by
  unfold keepYoung
  congr 1
  funext y
  rw [← decide_not, decide_eq_decide]
  exact Nat.not_lt

theorem Client.not_isLost (c : Client) : (!c.isLost) = (c.subA.isSome || c.subB.isSome) := by
  rw [Client.isLost, Bool.not_and, Option.not_isNone, Option.not_isNone]

section
variable {s : State}

theorem exec_idleCheck_notDue (hr : s.resetHeld = false)
    (h : s.ts.tickCount % 250000000 ≠ 0 ∨ s.ts.tickCount = 0 ∨ s.clients.checkedAt = some s.ts.tickCount) :
    exec .idleCheck s = .next s := by
  refine next_congr ((idleCheckState_eq s).trans ((State.unlessHeld_released hr _).trans (if_neg ?_)))
  rintro ⟨hsecond, hpositive, hnew⟩
  rcases h with hpart | hzero | hdone
  · exact hpart hsecond
  · exact hpositive.ne' hzero
  · exact hnew hdone

theorem exec_idleCheck_due (hr : s.resetHeld = false) (hsecond : s.ts.tickCount % 250000000 = 0)
    (hpositive : 0 < s.ts.tickCount) (hnew : s.clients.checkedAt ≠ some s.ts.tickCount) :
    exec .idleCheck s = .next (if s.allStay then s.idleChecked else s.idleChecked.post .clientLost) :=
  next_congr ((idleCheckState_eq s).trans
    ((State.unlessHeld_released hr _).trans (if_pos ⟨hsecond, hpositive, hnew⟩)))

/-! ### FORGET_CLIENT (R167) -/

theorem forgetClientParams_eq_none {ws : List Word}
    (h : isGroup (BitVec.ofNat 48 (wordAt ws 0)) = true ∨ BitVec.ofNat 48 (wordAt ws 0) = 0) :
    forgetClientParams ws = none := by
  refine if_neg fun ⟨hsingle, hne⟩ => ?_
  rcases h with hgroup | hzero
  · exact Bool.false_ne_true (hsingle.symm.trans hgroup)
  · exact hne hzero

theorem forgetClientParams_eq_some {ws : List Word} (hsingle : isGroup (BitVec.ofNat 48 (wordAt ws 0)) = false)
    (hne : BitVec.ofNat 48 (wordAt ws 0) ≠ 0) : forgetClientParams ws = some (BitVec.ofNat 48 (wordAt ws 0)) :=
  if_pos ⟨hsingle, hne⟩

theorem forgetClientAct_eq {ws : List Word} {a : NetAddress} (h : forgetClientParams ws = some a) (s : State) :
    forgetClientAct ws s = s.forgetClient a := by
  rw [forgetClientAct, h]
  rfl

theorem State.forgetClient_unknown {a : NetAddress} (h : s.clients.find a = none) :
    s.forgetClient a = .refused .notFound [] := by
  simp only [State.forgetClient, h]

theorem State.forgetClient_known {a : NetAddress} {c : Client} (h : s.clients.find a = some c) :
    s.forgetClient a = .taken (s.setClients (s.clients.remove a)) (pack c.values) := by
  simp only [State.forgetClient, h, c.record_eq, State.setClients]

end

/-- Settles O43. -/
theorem clientsExpireOrAreForgotten : Obligations.ClientsExpireOrAreForgotten := by
  intro s span young aged stays
  have haged (c : Client) : c.aged s.net.settings.idleSpan s.run = aged c := by
    rw [Client.aged, keepYoung_eq, keepYoung_eq]
    rfl
  have hstays (c : Client) : (!(c.aged s.net.settings.idleSpan s.run).isLost) = stays c := by
    rw [Client.not_isLost, haged]
  refine ⟨fun hr => ⟨exec_idleCheck_notDue hr, fun hsecond hpositive hnew => ?_⟩, fun mp ws hw => ?_⟩
  · intro t
    have hall : s.allStay = s.clients.entries.all stays := by
      rw [State.allStay, funext hstays]
    have hchecked : s.idleChecked = t := by
      rw [State.idleChecked, funext hstays, funext haged]
      rfl
    rw [exec_idleCheck_due hr hsecond hpositive hnew, hall, hchecked]
    exact ⟨fun h => next_congr (if_pos h), fun h => next_congr (if_neg (Bool.eq_false_iff.mp h))⟩
  · intro a
    refine ⟨fun hbad => next_congr (State.takeCommand_refused hw ?_), fun hsingle hne =>
      ⟨fun hf => next_congr (State.takeCommand_refused hw ?_), fun c hf => next_congr (State.takeCommand_taken hw ?_)⟩⟩
    · rw [forgetClientAct, forgetClientParams_eq_none hbad]
      rfl
    · rw [forgetClientAct_eq (forgetClientParams_eq_some hsingle hne), State.forgetClient_unknown hf]
    · rw [forgetClientAct_eq (forgetClientParams_eq_some hsingle hne), State.forgetClient_known hf]
      rfl

end Sys2Proof.Machine
end

section
/-! SUPPORT. The mailboxes but for their summaries: the events post flags, and no operation of a block writes anything
else of a mailbox. -/

namespace Sys2Proof.Machine

open Sys2Proof

/-- A mailbox without its summary. -/
def MasterPort.mailbox (p : MasterPort) : MasterPort := { p with summary := 0 }

/-- The four mailboxes without their summaries. -/
def State.mailboxes (s : State) : Four MasterPort := s.ports.map MasterPort.mailbox

theorem State.mailboxes_get (s : State) (m : Mp) : s.mailboxes.get m = (s.port m).mailbox := Four.get_map _ _ m

theorem Four.ext_get {α : Type} {q r : Four α} (h : ∀ i, q.get i = r.get i) : q = r := by
  obtain ⟨q0, q1, q2, q3⟩ := q
  obtain ⟨r0, r1, r2, r3⟩ := r
  have h0 : q0 = r0 := h 0
  have h1 : q1 = r1 := h 1
  have h2 : q2 = r2 := h 2
  have h3 : q3 = r3 := h 3
  rw [h0, h1, h2, h3]

theorem State.onlyPosts.mailboxes {s t : State} (h : s.onlyPosts t) : t.mailboxes = s.mailboxes :=
  Four.ext_get fun m => by
    rw [State.mailboxes_get, State.mailboxes_get, (h m).1]
    rfl

/-! ### The timescale unit and the engine -/

theorem State.mailboxes_setEngine (s : State) (e : Engine) : (s.setEngine e).mailboxes = s.mailboxes := rfl

theorem State.mailboxes_enterState (s : State) (st : EngineState) : (s.enterState st).mailboxes = s.mailboxes := rfl

theorem State.mailboxes_alignLeap (s : State) : s.alignLeap.mailboxes = s.mailboxes := s.alignLeap_onlyPosts.mailboxes

theorem State.mailboxes_stepTo (s : State) (src : Origin) (new : Instant) (clearFrac : Bool) :
    (s.stepTo src new clearFrac).mailboxes = s.mailboxes := (s.onlyPosts_stepTo src new clearFrac).mailboxes

theorem State.mailboxes_setUncertainty (s : State) (ps : Nat) : (s.setUncertainty ps).mailboxes = s.mailboxes :=
  (s.setUncertainty_onlyPosts ps).mailboxes

theorem State.mailboxes_reevaluate (s : State) : s.reevaluate.mailboxes = s.mailboxes := s.reevaluate_onlyPosts.mailboxes

theorem State.flagsSet.mailboxes {s t : State} {flags : BitVec 16} (h : s.flagsSet t flags) :
    t.mailboxes = s.mailboxes :=
  Four.ext_get fun m => by
    rw [State.mailboxes_get, State.mailboxes_get, h m]
    rfl

theorem State.mailboxes_vouch (s : State) (declared : Nat) : (s.vouch declared).mailboxes = s.mailboxes := by
  unfold State.vouch
  split
  · rfl
  · exact s.mailboxes_setUncertainty _

theorem State.mailboxes_changeEngine (s : State) (new : EngineSettings) (limit : Nat) :
    (s.changeEngine new limit).mailboxes = s.mailboxes := by
  rw [State.changeEngine_eq]
  rfl

theorem State.mailboxes_pinned (s : State) (declared : Nat) : (s.pinned declared).mailboxes = s.mailboxes := by
  obtain ⟨_, _, _, hflags⟩ := s.pinned_spec declared
  exact hflags.mailboxes

theorem State.mailboxes_takeAnnouncement (s : State) (r : RefId) (a : Announcement) :
    (s.takeAnnouncement r a).mailboxes = s.mailboxes := by
  unfold State.takeAnnouncement
  dsimp only
  split
  · split
    · rfl
    · split <;> rfl
  · split <;> rfl
  · split <;> rfl

theorem State.mailboxes_dropLeapWithoutRoom (s : State) : s.dropLeapWithoutRoom.mailboxes = s.mailboxes := by
  unfold State.dropLeapWithoutRoom
  split
  · rfl
  · split <;> rfl

theorem State.mailboxes_updatedBy (s : State) (r : RefId) (m : Option Message) :
    (s.updatedBy r m).mailboxes = s.mailboxes := by
  cases m with
  | none => rfl
  | some m =>
    show (s.leapUpdate r m).mailboxes = _
    unfold State.leapUpdate
    split
    · rfl
    · rw [State.mailboxes_alignLeap, State.mailboxes_dropLeapWithoutRoom, State.mailboxes_takeAnnouncement]
      rfl

theorem State.mailboxes_lockTest (s : State) (x : Int) (a : Nat) :
    ((s.loopUpdate x).lockTest x a).mailboxes = s.mailboxes := by
  unfold State.lockTest
  dsimp only
  split
  · rw [State.mailboxes_enterState, State.mailboxes_setUncertainty]
    rfl
  · rfl

theorem State.mailboxes_initialStepOn (s : State) (x : Int) (a : Nat) : (s.initialStepOn x a).mailboxes = s.mailboxes := by
  unfold State.initialStepOn
  split
  · rfl
  · rw [State.mailboxes_setEngine, State.mailboxes_setUncertainty, State.mailboxes_stepTo]

theorem State.mailboxes_autoStepOn (s : State) (x : Int) : (s.autoStepOn x).mailboxes = s.mailboxes := by
  unfold State.autoStepOn
  split
  · rfl
  · rw [State.mailboxes_setEngine, State.mailboxes_stepTo]

theorem State.mailboxes_engineSlewOn (s : State) (x : Int) : (s.engineSlewOn x).mailboxes = s.mailboxes := by
  unfold State.engineSlewOn
  dsimp only
  split <;> rfl

theorem State.mailboxes_needStep (s : State) : s.needStep.mailboxes = s.mailboxes := by
  rw [State.needStep_eq rfl]
  split <;> rfl

theorem State.mailboxes_correct (s : State) (r : RefId) (x : Int) (a : Nat) :
    (s.correct r x a).1.mailboxes = s.mailboxes := by
  unfold State.correct State.acquiringCorrection
  dsimp only
  split_ifs
  · rfl
  · exact State.mailboxes_setUncertainty _ _
  · rfl
  · exact s.mailboxes_initialStepOn x a
  · exact s.mailboxes_lockTest x a
  · exact s.mailboxes_autoStepOn x
  · exact s.mailboxes_engineSlewOn x
  · exact s.mailboxes_needStep

theorem State.mailboxes_useMeasurement (s : State) (r : RefId) (x : Int) (a : Nat) (m : Option Message) :
    (s.useMeasurement r x a m).mailboxes = s.mailboxes := by
  by_cases h : s.engine.state.follows ∧ s.engine.selection = some r
  · have hcorrect := ((s.updatedBy r m).mailboxes_correct r x a).trans (s.mailboxes_updatedBy r m)
    rw [State.useMeasurement_corrects h.1 h.2 rfl]
    exact hcorrect
  · rw [State.useMeasurement_unused h]

/-! ### The reference inputs -/

theorem State.mailboxes_disqualify (s : State) (r : RefId) (x : Reference) :
    (s.disqualify r x).mailboxes = s.mailboxes := State.mailboxes_reevaluate _

theorem State.mailboxes_refFailed (s : State) (r : RefId) (x : Reference) (count : Nat) :
    (s.refFailed r x count).mailboxes = s.mailboxes := by
  unfold State.refFailed
  split
  · rfl
  · split
    · exact s.mailboxes_disqualify r x
    · rfl
  · rfl
  · rfl
  · rfl

theorem State.mailboxes_missEdge (s : State) (r : RefId) : (s.missEdge r).mailboxes = s.mailboxes := by
  unfold State.missEdge
  dsimp only
  split
  · split <;> rfl
  · split
    · exact s.mailboxes_disqualify r _
    · rfl
  · rfl
  · rfl
  · rfl

theorem State.mailboxes_acceptEdge (s : State) (r : RefId) (x : Reference) :
    (s.acceptEdge r x).mailboxes = s.mailboxes := by
  unfold State.acceptEdge
  dsimp only
  split
  · rfl
  · split
    · rfl
    · exact s.mailboxes_refFailed r _ _

theorem State.mailboxes_windowEdge (s : State) (r : RefId) (x : Reference) :
    (s.windowEdge r x).mailboxes = s.mailboxes := by
  unfold State.windowEdge
  split
  · rfl
  · split_ifs
    · rfl
    · exact s.mailboxes_acceptEdge r x
    · rfl

theorem State.mailboxes_seeEdge (s : State) (r : RefId) : (s.seeEdge r).mailboxes = s.mailboxes := by
  unfold State.seeEdge
  dsimp only
  split
  · rfl
  · rfl
  · rfl
  · exact s.mailboxes_windowEdge r _
  · exact s.mailboxes_windowEdge r _

theorem State.mailboxes_qualify (s : State) (r : RefId) (x : Reference) (offset : Int) :
    (s.qualify r x offset).mailboxes = s.mailboxes := by
  by_cases hg : x.good offset
  · rw [State.qualify_good hg]
    split
    · exact State.mailboxes_reevaluate _
    · rfl
  · rw [State.qualify_far hg]
    rfl

theorem State.mailboxes_measureUsable (s : State) (r : RefId) (x : Reference) (offset : Int) (accuracy : Nat)
    (m : Option Message) : (s.measureUsable r x offset accuracy m).mailboxes = s.mailboxes := by
  rw [State.measureUsable_eq]
  split
  · exact s.mailboxes_disqualify r _
  · refine (State.mailboxes_useMeasurement _ r offset accuracy m).trans ?_
    split <;> rfl

theorem State.mailboxes_measured (s : State) (r : RefId) (x : Reference) (c : Capture) (offset : Int) (accuracy : Nat)
    (m : Option Message) (fit : Bool) : (s.measured r x c offset accuracy m fit).mailboxes = s.mailboxes := by
  unfold State.measured
  dsimp only
  split
  · split
    · exact s.mailboxes_qualify r _ offset
    · rfl
  · split
    · exact s.mailboxes_measureUsable r _ offset accuracy m
    · exact s.mailboxes_disqualify r _
  · rfl
  · rfl
  · rfl

theorem State.mailboxes_badMessage (s : State) (r : RefId) (x : Reference) :
    (s.badMessage r x).mailboxes = s.mailboxes := s.mailboxes_refFailed r _ _

theorem State.mailboxes_arriveMessage (s : State) (r : RefId) (m : Option Message) :
    (s.arriveMessage r m).mailboxes = s.mailboxes := by
  unfold State.arriveMessage State.judgeMessage
  dsimp only
  split
  · exact s.mailboxes_badMessage r _
  · split
    · exact s.mailboxes_badMessage r _
    · split
      · exact s.mailboxes_measured r _ _ _ _ _ _
      · exact s.mailboxes_badMessage r _

theorem State.mailboxes_refLeavesFor (s : State) (r : RefId) (x : Reference) (st : RefState) :
    (s.refLeavesFor r x st).mailboxes = s.mailboxes := by
  unfold State.refLeavesFor
  dsimp only
  split
  · exact State.mailboxes_reevaluate _
  · rfl

theorem State.mailboxes_changeReference (s : State) (r : RefId) (new : RefSettings) :
    (s.changeReference r new).mailboxes = s.mailboxes := by
  have retold (t : State) (p : Prop) [Decidable p] (h : t.mailboxes = s.mailboxes) :
      (if p then t.reevaluate else t).mailboxes = s.mailboxes := by
    split
    · exact t.mailboxes_reevaluate.trans h
    · exact h
  unfold State.changeReference
  dsimp only
  split
  · exact retold _ _ (s.mailboxes_refLeavesFor r _ _)
  · exact retold _ _ rfl

/-! ### The output lines and the mark scheduler -/

theorem State.mailboxes_judgeLoad (s : State) (i : LineId) (load : Load) : (s.judgeLoad i load).mailboxes = s.mailboxes := by
  rcases s.judgeLoad_cases i load with ⟨_, h⟩ | ⟨_, h⟩ <;> rw [h]
  rfl

theorem State.mailboxes_judgeOvertaken (s : State) (i : LineId) (mode : LineMode) (load : Load) :
    (s.judgeOvertaken i mode load).mailboxes = s.mailboxes := by
  rcases s.judgeOvertaken_cases i mode load with h | ⟨_, _, _, _, h⟩ <;> rw [h]
  rfl

theorem State.mailboxes_judgeOvertakenAll (s : State) (faulty : BitVec 16) :
    (s.judgeOvertakenAll faulty).mailboxes = s.mailboxes :=
  List.foldlRecOn allLines _ (motive := fun t : State => t.mailboxes = s.mailboxes) rfl
    fun t ht i _ => (t.mailboxes_judgeOvertaken i .marks _).trans ht

theorem State.mailboxes_startCommitment (s : State) (i : LineId) (c : Commitment) (load : Load) :
    (s.startCommitment i c load).mailboxes = s.mailboxes := by
  unfold State.startCommitment
  dsimp only
  split
  · rfl
  · exact State.mailboxes_judgeLoad _ i load

theorem State.mailboxes_commit (s : State) (i : LineId) (c : Commitment) (load : Load) :
    (s.commit i c load).mailboxes = s.mailboxes := by
  unfold State.commit
  dsimp only
  split
  · exact State.mailboxes_startCommitment _ i c load
  · rfl

theorem mailboxes_offerLines (m : Mark) (faulty : BitVec 16) (is : List LineId) (acc : State × Nat × Nat) :
    (offerLines m faulty is acc).1.mailboxes = acc.1.mailboxes := by
  induction is generalizing acc with
  | nil => rfl
  | cons i is ih =>
    obtain ⟨s, yes, no⟩ := acc
    unfold offerLines
    split
    · split
      · exact (ih _).trans (s.mailboxes_commit i _ _)
      · exact ih _
    · exact ih _

theorem State.mailboxes_handOutcome (s : State) (o : Outcome) : (s.handOutcome o).mailboxes = s.mailboxes :=
  (s.handOutcome_onlyPosts o).mailboxes

theorem State.mailboxes_retireOrRearm (s : State) (m : Mark) : (s.retireOrRearm m).mailboxes = s.mailboxes := by
  unfold State.retireOrRearm
  split
  · exact s.mailboxes_handOutcome _
  · rfl

theorem State.mailboxes_takeMark (s : State) (m : Mark) (faulty : BitVec 16) :
    (s.takeMark m faulty).mailboxes = s.mailboxes := by
  unfold State.takeMark
  split
  · exact s.mailboxes_retireOrRearm _
  · exact (State.mailboxes_retireOrRearm _ _).trans (mailboxes_offerLines m faulty allLines (s, 0, 0))

theorem State.mailboxes_startTrainPulse (s : State) (i : LineId) (t : Int) (load : Load) :
    (s.startTrainPulse i t load).mailboxes = s.mailboxes := by
  unfold State.startTrainPulse
  dsimp only
  split
  · exact State.mailboxes_judgeLoad _ i load
  · rfl

theorem State.mailboxes_startSymbol (s : State) (i : LineId) (h : HeldFrame) (slot : Nat) (load : Load) :
    (s.startSymbol i h slot load).mailboxes = s.mailboxes := State.mailboxes_judgeLoad _ i load

/-! ### The client table -/

theorem State.mailboxes_onSub (s : State) (p : NetId) (a : NetAddress) (f : SubRecord → SubRecord) :
    (s.onSub p a f).mailboxes = s.mailboxes := by
  unfold State.onSub
  split
  · rfl
  · split <;> rfl

theorem State.mailboxes_takeReport (s : State) (c : Client) (p : NetId) (ask : Ask) (r : Reception) :
    (s.takeReport c p ask r).mailboxes = s.mailboxes := by
  unfold State.takeReport
  split
  · rfl
  · dsimp only
    split <;> rfl

theorem State.mailboxes_recordAnswered (s : State) (p : NetId) (a : NetAddress) (ask : Ask) (r : Reception) :
    (s.recordAnswered p a ask r).mailboxes = s.mailboxes := by
  unfold State.recordAnswered
  split
  · exact State.mailboxes_takeReport _ _ p ask r
  · split
    · rfl
    · exact State.mailboxes_takeReport _ _ p ask r

theorem State.mailboxes_handleAsk (s : State) (p : NetId) (a : NetAddress) (ask : Ask) (r : Reception) :
    (s.handleAsk p a ask r).mailboxes = s.mailboxes := by
  unfold State.handleAsk
  split
  · exact s.mailboxes_onSub p a _
  · exact s.mailboxes_onSub p a _
  · split
    · exact s.mailboxes_recordAnswered p a ask r
    · exact s.mailboxes_onSub p a _
  · split <;> rfl

theorem State.mailboxes_arriveCandidate (s : State) (p : NetId) (f : RxFrame) (r : Reception) :
    (s.arriveCandidate p f r).mailboxes = s.mailboxes := by
  unfold State.arriveCandidate
  split
  · rfl
  · split
    · rfl
    · split_ifs
      · rfl
      · rfl
      · exact s.mailboxes_handleAsk p _ _ r

end Sys2Proof.Machine
end

section
/-! SUPPORT. The events of the timescale unit, the references, the lines, the marks and the network leave every mailbox but
for its summary, and so do the owners of most posted commands, until the result is written. -/

namespace Sys2Proof.Machine

open Sys2Proof

theorem State.mailboxes_of_ports {s t : State} (h : t.ports = s.ports) : t.mailboxes = s.mailboxes :=
  congrArg (Four.map MasterPort.mailbox) h

theorem State.mailboxes_unlessHeld {s : State} {f : State → State} (h : (f s).mailboxes = s.mailboxes) :
    (s.unlessHeld f).mailboxes = s.mailboxes :=
  State.unlessHeld_induct (P := fun t => t.mailboxes = s.mailboxes) rfl h

/-! ### Events of the timescale unit and of the references -/

theorem mailboxes_slewCompletionState (s : State) : (slewCompletionState s).mailboxes = s.mailboxes := by
  refine State.mailboxes_unlessHeld ?_
  split
  · rfl
  · split <;> rfl

theorem mailboxes_insertedSecondStartState (s : State) : (insertedSecondStartState s).mailboxes = s.mailboxes := by
  refine State.mailboxes_unlessHeld ?_
  split
  · rfl
  · split <;> rfl

theorem mailboxes_leapInstantState (s : State) : (leapInstantState s).mailboxes = s.mailboxes := by
  refine State.mailboxes_unlessHeld ?_
  split
  · rfl
  · split
    · split <;> rfl
    · split <;> rfl

theorem mailboxes_gradeGrowthCrossingState (s : State) : (gradeGrowthCrossingState s).mailboxes = s.mailboxes := by
  refine State.mailboxes_unlessHeld ?_
  split <;> rfl

theorem mailboxes_referenceEdgeState (r : RefId) (e : Edge) (s : State) :
    (referenceEdgeState r e s).mailboxes = s.mailboxes := by
  refine State.mailboxes_unlessHeld ?_
  split
  · refine (State.mailboxes_seeEdge _ r).trans ?_
    split
    · exact s.mailboxes_missEdge r
    · rfl
  · rfl

theorem mailboxes_missingEdgeExpiryState (r : RefId) (s : State) :
    (missingEdgeExpiryState r s).mailboxes = s.mailboxes := by
  refine State.mailboxes_unlessHeld ?_
  split
  · exact s.mailboxes_missEdge r
  · rfl

theorem mailboxes_messageCharacterState (r : RefId) (c : Character) (s : State) :
    (messageCharacterState r c s).mailboxes = s.mailboxes := by
  refine State.mailboxes_unlessHeld ?_
  unfold State.receiveCharacter
  dsimp only
  split
  · split
    · rfl
    · rfl
    · exact s.mailboxes_arriveMessage r _
  · rfl

theorem mailboxes_messageArrivalState (r : RefId) (c : Character) (s : State) :
    (messageArrivalState r c s).mailboxes = s.mailboxes := by
  refine State.mailboxes_unlessHeld ?_
  dsimp only
  split
  · split
    · rfl
    · rfl
    · exact s.mailboxes_arriveMessage r _
  · rfl

theorem mailboxes_settleExpiryState (r : RefId) (s : State) : (settleExpiryState r s).mailboxes = s.mailboxes := by
  refine State.mailboxes_unlessHeld ?_
  dsimp only
  split
  · split
    · exact s.mailboxes_measured r _ _ _ _ _ _
    · rfl
  · rfl

theorem mailboxes_holdOffExpiryState (r : RefId) (s : State) : (holdOffExpiryState r s).mailboxes = s.mailboxes := by
  refine State.mailboxes_unlessHeld ?_
  dsimp only
  split
  · rfl
  · split <;> rfl

/-! ### Events of the marks, the lines and the frames -/

theorem mailboxes_markTakingState (faulty : BitVec 16) (s : State) : (markTakingState faulty s).mailboxes = s.mailboxes := by
  refine State.mailboxes_unlessHeld ?_
  split
  · exact s.mailboxes_judgeOvertakenAll faulty
  · split
    · exact State.mailboxes_takeMark _ _ faulty
    · exact s.mailboxes_judgeOvertakenAll faulty

theorem mailboxes_changePointState (i : LineId) (s : State) : (changePointState i s).mailboxes = s.mailboxes := by
  refine State.mailboxes_unlessHeld ?_
  dsimp only
  split
  · rfl
  · split <;> rfl

theorem mailboxes_pulseStartState (i : LineId) (load : Load) (s : State) :
    (pulseStartState i load s).mailboxes = s.mailboxes := by
  refine State.mailboxes_unlessHeld ?_
  split
  · exact s.mailboxes_judgeOvertaken i .pulse load
  · exact s.mailboxes_startTrainPulse i _ load

theorem mailboxes_pulseEndState (i : LineId) (s : State) : (pulseEndState i s).mailboxes = s.mailboxes := by
  rcases pulseEndState_cases i s with h | ⟨_, _, _, _, _, h⟩ <;> rw [h]
  rfl

theorem mailboxes_commitmentStartState (i : LineId) (load : Load) (s : State) :
    (commitmentStartState i load s).mailboxes = s.mailboxes := by
  refine State.mailboxes_unlessHeld ?_
  dsimp only
  split
  · exact s.mailboxes_judgeOvertaken i .marks load
  · split
    · exact State.mailboxes_startCommitment _ i _ load
    · exact s.mailboxes_judgeOvertaken i .marks load

theorem mailboxes_frameBeginState (i : LineId) (load : Load) (s : State) :
    (frameBeginState i load s).mailboxes = s.mailboxes := by
  refine State.mailboxes_unlessHeld ?_
  dsimp only
  split
  · exact s.mailboxes_judgeOvertaken i .coded load
  · split
    · exact State.mailboxes_startSymbol _ i _ 0 load
    · exact s.mailboxes_judgeOvertaken i .coded load

theorem mailboxes_symbolStartState (i : LineId) (load : Load) (s : State) :
    (symbolStartState i load s).mailboxes = s.mailboxes := by
  refine State.mailboxes_unlessHeld ?_
  split
  · split
    · exact s.mailboxes_startSymbol i _ _ load
    · exact s.mailboxes_judgeOvertaken i .coded load
  · exact s.mailboxes_judgeOvertaken i .coded load

theorem mailboxes_symbolEndState (i : LineId) (s : State) : (symbolEndState i s).mailboxes = s.mailboxes := by
  refine State.mailboxes_unlessHeld ?_
  dsimp only
  split
  · split <;> rfl
  · rfl

theorem mailboxes_frameEndState (i : LineId) (s : State) : (frameEndState i s).mailboxes = s.mailboxes := by
  refine State.mailboxes_unlessHeld ?_
  dsimp only
  split
  · split <;> rfl
  · rfl

theorem mailboxes_compositionState (s : State) : (compositionState s).mailboxes = s.mailboxes := by
  refine State.mailboxes_unlessHeld ?_
  split
  · rw [State.compose_eq]
    rfl
  · rfl

theorem mailboxes_frameReleaseState (s : State) : (frameReleaseState s).mailboxes = s.mailboxes := by
  refine State.mailboxes_unlessHeld ?_
  dsimp only
  split
  · rfl
  · split <;> rfl

/-! ### Events of the network and of the claim -/

theorem mailboxes_beaconDueState (s : State) : (beaconDueState s).mailboxes = s.mailboxes :=
  State.mailboxes_unlessHeld (State.mailboxes_of_ports rfl)

theorem mailboxes_transmitEndState (p : NetId) (s : State) : (transmitEndState p s).mailboxes = s.mailboxes := by
  refine State.mailboxes_unlessHeld ?_
  dsimp only
  split <;> rfl

theorem mailboxes_askTimingPointState (p : NetId) (s : State) : (askTimingPointState p s).mailboxes = s.mailboxes := by
  refine State.mailboxes_unlessHeld ?_
  split <;> rfl

theorem mailboxes_askArrivalState (p : NetId) (f : RxFrame) (s : State) :
    (askArrivalState p f s).mailboxes = s.mailboxes := by
  refine State.mailboxes_unlessHeld ?_
  dsimp only
  split
  · rfl
  · split_ifs
    · rfl
    · exact State.mailboxes_arriveCandidate _ p f _
    · rfl

theorem mailboxes_idleCheckState (s : State) : (idleCheckState s).mailboxes = s.mailboxes := by
  rw [idleCheckState_eq]
  refine State.mailboxes_unlessHeld ?_
  split_ifs <;> rfl

theorem mailboxes_leaseExpiryState (s : State) : (leaseExpiryState s).mailboxes = s.mailboxes := by
  refine State.mailboxes_unlessHeld ?_
  split
  · rfl
  · split <;> rfl

/-! ### What the owners of posted commands make of the mailboxes -/

theorem Judged.mailboxes_withParams {α : Type} {s : State} {params : Option α} {act : α → Judged}
    (h : ∀ x, ((act x).leaves s).mailboxes = s.mailboxes) :
    ((withParams params act).leaves s).mailboxes = s.mailboxes := by
  cases params with
  | none => rfl
  | some x => exact h x

theorem mailboxes_setTimeAct (mp : Mp) (ws : List Word) (s : State) :
    ((setTimeAct mp ws s).leaves s).mailboxes = s.mailboxes := by
  unfold setTimeAct
  split
  · exact Judged.mailboxes_withParams fun x => (State.mailboxes_vouch _ _).trans (s.mailboxes_stepTo _ _ _)
  · rfl

theorem mailboxes_stepByAct (mp : Mp) (ws : List Word) (s : State) :
    ((stepByAct mp ws s).leaves s).mailboxes = s.mailboxes := by
  unfold stepByAct
  split
  · exact Judged.mailboxes_withParams fun x => s.mailboxes_stepTo _ _ _
  · rfl

theorem mailboxes_slewByAct (mp : Mp) (ws : List Word) (s : State) :
    ((slewByAct mp ws s).leaves s).mailboxes = s.mailboxes := by
  unfold slewByAct
  split
  · refine Judged.mailboxes_withParams fun a => ?_
    unfold State.slewOrBusy
    split <;> rfl
  · rfl

theorem mailboxes_setLeapAct (mp : Mp) (ws : List Word) (s : State) :
    ((setLeapAct mp ws s).leaves s).mailboxes = s.mailboxes := by
  unfold setLeapAct
  split
  · rfl
  · refine Judged.mailboxes_withParams fun x => ?_
    dsimp only
    split <;> rfl

theorem mailboxes_clearLeapAct (ws : List Word) (s : State) : ((clearLeapAct ws s).leaves s).mailboxes = s.mailboxes := by
  unfold clearLeapAct
  split_ifs <;> rfl

theorem mailboxes_setUtcOffsetAct (ws : List Word) (s : State) :
    ((setUtcOffsetAct ws s).leaves s).mailboxes = s.mailboxes := by
  unfold setUtcOffsetAct
  dsimp only
  split_ifs
  · rfl
  · rfl
  · exact State.mailboxes_alignLeap _

theorem mailboxes_unpinAct (ws : List Word) (s : State) : ((unpinAct ws s).leaves s).mailboxes = s.mailboxes := by
  unfold unpinAct
  split
  · exact (State.mailboxes_reevaluate _).trans s.enterHoldover_onlyPosts.mailboxes
  · rfl

theorem mailboxes_addMarkAct (mp : Mp) (ws : List Word) (s : State) :
    ((addMarkAct mp ws s).leaves s).mailboxes = s.mailboxes := by
  unfold addMarkAct
  split
  · rfl
  · refine Judged.mailboxes_withParams fun p => ?_
    unfold State.placeMark
    split_ifs
    · rfl
    · rfl
    · rfl
    · split <;> rfl

theorem mailboxes_cancelMarkAct (mp : Mp) (ws : List Word) (s : State) :
    ((cancelMarkAct mp ws s).leaves s).mailboxes = s.mailboxes := by
  refine Judged.mailboxes_withParams fun id => ?_
  unfold State.cancelById
  split
  · rfl
  · split
    · exact State.mailboxes_handOutcome _ _
    · rfl

theorem mailboxes_lineRestartAct (ws : List Word) (s : State) :
    ((lineRestartAct ws s).leaves s).mailboxes = s.mailboxes := by
  refine Judged.mailboxes_withParams fun i => ?_
  split <;> rfl

theorem mailboxes_senseLineAct (ws : List Word) (s : State) :
    ((senseLineAct ws s).leaves s).mailboxes = s.mailboxes := by
  refine Judged.mailboxes_withParams fun x => ?_
  dsimp only [Judged.leaves]
  split <;> rfl

theorem mailboxes_forgetClientAct (ws : List Word) (s : State) :
    ((forgetClientAct ws s).leaves s).mailboxes = s.mailboxes := by
  refine Judged.mailboxes_withParams fun a => ?_
  unfold State.forgetClient
  split <;> rfl

theorem mailboxes_claimAct (mp : Mp) (ws : List Word) (s : State) :
    ((claimAct mp ws s).leaves s).mailboxes = s.mailboxes := by
  refine Judged.mailboxes_withParams fun lease => ?_
  dsimp only
  split
  · rfl
  · split <;> rfl

theorem mailboxes_releaseAct (mp : Mp) (ws : List Word) (s : State) :
    ((releaseAct mp ws s).leaves s).mailboxes = s.mailboxes := by
  unfold releaseAct
  split <;> rfl

end Sys2Proof.Machine
end

section
/-! SUPPORT. Each command keeps each mailbox legal (R171, R174): what leaves the mailboxes, what writes a result, and what
the transactions make of the mailbox of their own port. -/

namespace Sys2Proof.Machine

open Sys2Proof

/-- Where the mailboxes of `s` are legal, those of `t` are. -/
def State.portsSafe (s t : State) : Prop := s.portsWf → t.portsWf

section
variable {s t : State} {mp : Mp} {x : MasterPort}

theorem State.portsSafe_refl (s : State) : s.portsSafe s := id

theorem State.portsSafe.trans {s t u : State} (h : s.portsSafe t) (k : t.portsSafe u) : s.portsSafe u := k ∘ h

/-- A summary is no part of a legal mailbox. -/
theorem MasterPort.wf_mailbox (p : MasterPort) : p.mailbox.wf ↔ p.wf := Iff.rfl

theorem State.portsSafe_of_mailboxes (h : t.mailboxes = s.mailboxes) : s.portsSafe t := fun hw m => by
  rw [← MasterPort.wf_mailbox, ← State.mailboxes_get, h, State.mailboxes_get, MasterPort.wf_mailbox]
  exact hw m

theorem State.setPort_portsSafe (h : (s.port mp).wf → x.wf) : s.portsSafe (s.setPort mp x) := fun hw m => by
  by_cases hm : m = mp
  · rw [hm, State.port_setPort]
    exact h (hw mp)
  · rw [State.port_setPort_other s hm]
    exact hw m

theorem length_resultWords (ws : List Word) : (resultWords ws).length = 16 := by
  simp [resultWords]

/-- A result leaves a mailbox in DONE, with an empty slot and 16 words. -/
theorem MasterPort.wf_finished {p : MasterPort} (h : p.wf) (code : ResultCode) (ws : List Word) :
    { p with slot := none, result := some ⟨code, resultWords ws⟩, handshake := .done }.wf := by
  obtain ⟨hparams, _⟩ := h
  refine ⟨hparams, iff_of_false nofun nofun, fun _ => rfl, nofun, fun y hy => ?_⟩
  cases hy
  exact length_resultWords ws

theorem State.finish_portsSafe (s : State) (mp : Mp) (code : ResultCode) (ws : List Word) :
    s.portsSafe (s.finish mp code ws) :=
  State.setPort_portsSafe fun h => MasterPort.wf_finished h code ws

/-! ### Rules for commands and transactions -/

theorem State.takeCommand_portsSafe {row : CommandRow} {act : List Word → State → Judged}
    (h : ∀ ws, s.portsSafe ((act ws s).leaves s)) : s.portsSafe (s.takeCommand mp row act) :=
  State.takeCommand_leaves s.portsSafe_refl (fun t code ws ht => ht.trans (t.finish_portsSafe mp code ws)) h

theorem State.endTransaction_portsSafe {len : Nat} {data : Transaction → List Byte} {fits : Bool}
    {act : Transaction → State → State} (h : ∀ (y : Transaction) (u : State), u.portsSafe (act y u)) :
    s.portsSafe (s.endTransaction mp len data fits act) := by
  refine State.unlessHeld_induct s.portsSafe_refl ?_
  dsimp only
  split
  · exact s.portsSafe_refl
  · split
    · refine State.portsSafe.trans (State.setPort_portsSafe ?_) (h _ _)
      exact id
    · exact State.setPort_portsSafe id

/-! ### Mailboxes at POWER_ON, RESTART and PORT_CLEAR -/

theorem MasterPort.wf_powerOn : MasterPort.powerOn.wf :=
  ⟨rfl, iff_of_false nofun nofun, nofun, nofun, nofun⟩

theorem powerOnState_portsSafe (held : Bool) (s : State) : s.portsSafe (powerOnState held s) := fun _ m => by
  have hport : (powerOnState held s).port m = MasterPort.powerOn := Four.get_all _ m
  rw [hport]
  exact MasterPort.wf_powerOn

theorem State.restart_portsSafe (s : State) : s.portsSafe s.restart := fun _ m => by
  rw [State.port_restart]
  exact MasterPort.wf_powerOn

theorem restartState_portsSafe (mp : Mp) (s : State) : s.portsSafe (restartState mp s) := by
  refine State.unlessHeld_induct s.portsSafe_refl ?_
  split
  · exact s.portsSafe_refl
  · unfold State.judgeRestart
    split_ifs
    · exact s.finish_portsSafe _ _ _
    · exact s.finish_portsSafe _ _ _
    · exact s.restart_portsSafe
    · exact s.portsSafe_refl

theorem portClearState_portsSafe (mp : Mp) (len : Nat) (s : State) : s.portsSafe (portClearState mp len s) := by
  refine State.endTransaction_portsSafe fun _ u => ?_
  have hcleared : u.portsSafe ((u.setPort mp (u.port mp).portCleared).clearMarksOf mp) :=
    (State.setPort_portsSafe (x := (u.port mp).portCleared) fun _ => MasterPort.wf_powerOn).trans (State.portsSafe_of_mailboxes rfl)
  dsimp only
  split
  · exact hcleared.trans (State.portsSafe_of_mailboxes rfl)
  · exact hcleared

/-! ### Transactions -/

theorem length_bytesWords (n : Nat) (bs : List Byte) : (bytesWords n bs).length = n := by
  induction n generalizing bs with
  | zero => rfl
  | succ n ih => rw [bytesWords, List.length_cons, ih]

theorem length_overlay {params ws : List Word} {start : Nat} (h : start + ws.length ≤ params.length) :
    (overlay params start ws).length = params.length := by
  simp only [overlay, List.length_append, List.length_take, List.length_drop]
  omega

/-- A WRITE_PARAMS of correct framing names a run of words inside the 16. -/
theorem writeParamsOf_fits {rest : List Byte} {start : Nat} {ws : List Word}
    (h : writeParamsOf rest = some (start, ws)) : start + ws.length ≤ 16 := by
  unfold writeParamsOf at h
  split at h
  · split at h <;> rename_i hn
    · cases h
    · cases h
      rw [length_bytesWords]
      omega
  · cases h

theorem writeParamsState_portsSafe (mp : Mp) (rest : List Byte) (s : State) :
    s.portsSafe (writeParamsState mp rest s) := by
  refine State.endTransaction_portsSafe fun _ u => ?_
  split
  · exact u.portsSafe_refl
  · rename_i start ws hrest
    refine State.setPort_portsSafe fun ⟨hparams, hothers⟩ => ⟨?_, hothers⟩
    rw [length_overlay (hparams ▸ writeParamsOf_fits hrest), hparams]

theorem postOf_le {rest : List Byte} {number : Byte} {count : Nat} (h : postOf rest = some (number, count)) :
    count ≤ 16 := by
  unfold postOf at h
  split at h
  · split at h <;> cases h
    assumption
  · cases h

/-- A command placed leaves a mailbox in BUSY with the command and a copy of as many words as it counts. -/
theorem MasterPort.wf_placed {p : MasterPort} (h : p.wf) (number : Byte) {count : Nat} (hcount : count ≤ 16) :
    (p.placed number count).wf := by
  obtain ⟨hparams, _, _, _, hresult⟩ := h
  refine ⟨hparams, iff_of_true rfl rfl, nofun, fun y hy => ?_, hresult⟩
  cases hy
  exact ⟨hcount, by rw [List.length_take, hparams]; exact Nat.min_eq_left hcount⟩

theorem MasterPort.wf_posted {p : MasterPort} (h : p.wf) (number : Byte) {count : Nat} (hcount : count ≤ 16) :
    (p.posted number count).wf := by
  unfold MasterPort.posted
  split
  · exact h
  · exact MasterPort.wf_placed h number hcount
  · obtain ⟨hparams, _⟩ := h
    refine ⟨hparams, iff_of_true rfl rfl, nofun, fun y hy => ?_, nofun⟩
    cases hy
    exact ⟨hcount, by rw [List.length_take, hparams]; exact Nat.min_eq_left hcount⟩

theorem postState_portsSafe (mp : Mp) (rest : List Byte) (s : State) : s.portsSafe (postState mp rest s) := by
  refine State.endTransaction_portsSafe fun _ u => ?_
  split
  · exact u.portsSafe_refl
  · rename_i number count hrest
    exact State.setPort_portsSafe fun h => MasterPort.wf_posted h number (postOf_le hrest)

theorem readResultState_portsSafe (mp : Mp) (len : Nat) (s : State) : s.portsSafe (readResultState mp len s) := by
  refine State.endTransaction_portsSafe fun _ u => ?_
  dsimp only
  split <;> rename_i hdone
  · refine State.setPort_portsSafe fun ⟨hparams, hbusy, _, hslot, hresult⟩ => ⟨hparams, ?_, nofun, hslot, hresult⟩
    have hempty : ¬ (u.port mp).slot.isSome := fun h => nomatch hdone.2.symm.trans (hbusy.mpr h)
    exact iff_of_false nofun hempty
  · exact u.portsSafe_refl

theorem senseState_portsSafe (mp : Mp) (rest : List Byte) (s : State) : s.portsSafe (senseState mp rest s) := by
  refine State.endTransaction_portsSafe fun _ u => ?_
  split
  · exact State.setPort_portsSafe id
  · exact u.portsSafe_refl

theorem unknownTransactionState_portsSafe (mp : Mp) (code : Byte) (s : State) :
    s.portsSafe (unknownTransactionState mp code s) := by
  unfold unknownTransactionState
  split
  · exact s.portsSafe_refl
  · exact State.endTransaction_portsSafe fun _ u => State.setPort_portsSafe id

/-! ### Commands that write their own port's mask or cursor, and UNKNOWN_COMMAND -/

theorem unknownCommandState_portsSafe (mp : Mp) (s : State) : s.portsSafe (unknownCommandState mp s) := by
  refine State.unlessHeld_induct s.portsSafe_refl ?_
  split
  · exact s.portsSafe_refl
  · split
    · exact s.portsSafe_refl
    · exact s.finish_portsSafe _ _ _

theorem State.readTable_portsSafe (s : State) (mp : Mp) (c : Cursor) : s.portsSafe ((s.readTable mp c).leaves s) :=
  State.setPort_portsSafe id

theorem readTableState_portsSafe (mp : Mp) (s : State) : s.portsSafe (readTableState mp s) := by
  refine State.takeCommand_portsSafe fun ws => ?_
  unfold readTableAct
  cases readTableParams ws with
  | none => exact s.portsSafe_refl
  | some c => exact s.readTable_portsSafe mp c

theorem readMoreState_portsSafe (mp : Mp) (s : State) : s.portsSafe (readMoreState mp s) := by
  refine State.takeCommand_portsSafe fun ws => ?_
  unfold readMoreAct
  split
  · exact s.portsSafe_refl
  · exact s.readTable_portsSafe mp _

end

/-! ### Every command -/

/-- Every command keeps each mailbox legal. -/
theorem exec_portsSafe (c : Instr) (s : State) : ∃ t, exec c s = .next t ∧ s.portsSafe t := by
  have keeps {t : State} (hx : exec c s = .next t) (h : t.mailboxes = s.mailboxes) :
      ∃ t, exec c s = .next t ∧ s.portsSafe t := ⟨t, hx, State.portsSafe_of_mailboxes h⟩
  have command {mp : Mp} {row : CommandRow} {act : List Word → State → Judged}
      (hx : exec c s = .next (s.takeCommand mp row act)) (h : ∀ ws, ((act ws s).leaves s).mailboxes = s.mailboxes) :
      ∃ t, exec c s = .next t ∧ s.portsSafe t :=
    ⟨_, hx, State.takeCommand_portsSafe fun ws => State.portsSafe_of_mailboxes (h ws)⟩
  cases c with
  | powerOn held => exact ⟨_, rfl, powerOnState_portsSafe held s⟩
  | restart mp => exact ⟨_, rfl, restartState_portsSafe mp s⟩
  | portClear mp len => exact ⟨_, rfl, portClearState_portsSafe mp len s⟩
  | writeParams mp rest => exact ⟨_, rfl, writeParamsState_portsSafe mp rest s⟩
  | post mp rest => exact ⟨_, rfl, postState_portsSafe mp rest s⟩
  | readResult mp len => exact ⟨_, rfl, readResultState_portsSafe mp len s⟩
  | readState mp len => exact ⟨_, rfl, State.endTransaction_portsSafe fun _ u => u.portsSafe_refl⟩
  | sense mp rest => exact ⟨_, rfl, senseState_portsSafe mp rest s⟩
  | readErrors mp len => exact ⟨_, rfl, State.endTransaction_portsSafe fun _ _ => State.setPort_portsSafe id⟩
  | unknownTransaction mp code => exact ⟨_, rfl, unknownTransactionState_portsSafe mp code s⟩
  | transactionBegin mp => exact ⟨_, rfl, State.unlessHeld_induct s.portsSafe_refl (State.setPort_portsSafe id)⟩
  | unknownCommand mp => exact ⟨_, rfl, unknownCommandState_portsSafe mp s⟩
  | setEventMask mp => exact ⟨_, rfl, State.takeCommand_portsSafe fun _ => State.setPort_portsSafe id⟩
  | readTable mp => exact ⟨_, rfl, readTableState_portsSafe mp s⟩
  | readMore mp => exact ⟨_, rfl, readMoreState_portsSafe mp s⟩
  | resetRelease => exact keeps rfl rfl
  | tick => exact keeps rfl (State.mailboxes_unlessHeld rfl)
  | slewCompletion => exact keeps rfl (mailboxes_slewCompletionState s)
  | insertedSecondStart => exact keeps rfl (mailboxes_insertedSecondStartState s)
  | leapInstant => exact keeps rfl (mailboxes_leapInstantState s)
  | gradeGrowthCrossing => exact keeps rfl (mailboxes_gradeGrowthCrossingState s)
  | referenceEdge r e => exact keeps rfl (mailboxes_referenceEdgeState r e s)
  | missingEdgeExpiry r => exact keeps rfl (mailboxes_missingEdgeExpiryState r s)
  | messageCharacter r ch => exact keeps rfl (mailboxes_messageCharacterState r ch s)
  | messageArrival r ch => exact keeps rfl (mailboxes_messageArrivalState r ch s)
  | settleExpiry r => exact keeps rfl (mailboxes_settleExpiryState r s)
  | holdOffExpiry r => exact keeps rfl (mailboxes_holdOffExpiryState r s)
  | markTaking faulty => exact keeps rfl (mailboxes_markTakingState faulty s)
  | changePoint i => exact keeps rfl (mailboxes_changePointState i s)
  | pulseStart i load => exact keeps rfl (mailboxes_pulseStartState i load s)
  | pulseEnd i => exact keeps rfl (mailboxes_pulseEndState i s)
  | commitmentStart i load => exact keeps rfl (mailboxes_commitmentStartState i load s)
  | frameBegin i load => exact keeps rfl (mailboxes_frameBeginState i load s)
  | symbolStart i load => exact keeps rfl (mailboxes_symbolStartState i load s)
  | symbolEnd i => exact keeps rfl (mailboxes_symbolEndState i s)
  | frameEnd i => exact keeps rfl (mailboxes_frameEndState i s)
  | composition => exact keeps rfl (mailboxes_compositionState s)
  | frameRelease => exact keeps rfl (mailboxes_frameReleaseState s)
  | linkUp p | linkDown p => exact keeps rfl rfl
  | beaconDue => exact keeps rfl (mailboxes_beaconDueState s)
  | transmitEnd p => exact keeps rfl (mailboxes_transmitEndState p s)
  | askTimingPoint p => exact keeps rfl (mailboxes_askTimingPointState p s)
  | askArrival p f => exact keeps rfl (mailboxes_askArrivalState p f s)
  | idleCheck => exact keeps rfl (mailboxes_idleCheckState s)
  | leaseExpiry => exact keeps rfl (mailboxes_leaseExpiryState s)
  | readTime mp | readEngine mp | identify mp | takeOutcomes mp | networkClear mp => exact command rfl fun _ => rfl
  | readReference mp => exact command rfl fun _ => Judged.mailboxes_withParams fun _ => rfl
  | readPort mp => exact command rfl fun _ => Judged.mailboxes_withParams fun _ => rfl
  | setLocalOffset mp => exact command rfl fun _ => Judged.mailboxes_withParams fun _ => rfl
  | setLine mp => exact command rfl fun _ => Judged.mailboxes_withParams fun _ => rfl
  | setNetwork mp => exact command rfl fun _ => Judged.mailboxes_withParams fun _ => rfl
  | setTime mp => exact command rfl fun ws => mailboxes_setTimeAct mp ws s
  | stepBy mp => exact command rfl fun ws => mailboxes_stepByAct mp ws s
  | slewBy mp => exact command rfl fun ws => mailboxes_slewByAct mp ws s
  | setLeap mp => exact command rfl fun ws => mailboxes_setLeapAct mp ws s
  | clearLeap mp => exact command rfl fun ws => mailboxes_clearLeapAct ws s
  | setUtcOffset mp => exact command rfl fun ws => mailboxes_setUtcOffsetAct ws s
  | setReference mp =>
    exact command rfl fun _ => Judged.mailboxes_withParams fun _ => s.mailboxes_changeReference _ _
  | setEngine mp => exact command rfl fun _ => Judged.mailboxes_withParams fun _ => s.mailboxes_changeEngine _ _
  | pin mp => exact command rfl fun _ => s.mailboxes_pinned _
  | unpin mp => exact command rfl fun ws => mailboxes_unpinAct ws s
  | addMark mp => exact command rfl fun ws => mailboxes_addMarkAct mp ws s
  | cancelMark mp => exact command rfl fun ws => mailboxes_cancelMarkAct mp ws s
  | lineRestart mp => exact command rfl fun ws => mailboxes_lineRestartAct ws s
  | senseLine mp => exact command rfl fun ws => mailboxes_senseLineAct ws s
  | forgetClient mp => exact command rfl fun ws => mailboxes_forgetClientAct ws s
  | claim mp => exact command rfl fun ws => mailboxes_claimAct mp ws s
  | release mp => exact command rfl fun ws => mailboxes_releaseAct mp ws s

/-- Settles O60: a step runs one command, or idles. -/
theorem stepKeepsThePorts : Obligations.StepKeepsThePorts := by
  intro s t hw hstep
  unfold step at hstep
  split at hstep
  · cases hstep
    exact hw
  · rename_i c rest _
    obtain ⟨u, hu, hsafe⟩ := exec_portsSafe c { s with pending := rest }
    rw [hu] at hstep
    cases hstep
    exact hsafe hw

end Sys2Proof.Machine
end

section
/-! SUPPORT. The taking of posted commands: the common checks for every command of the table, the result that a command
leaves, and NETWORK_CLEAR, IDENTIFY, CLAIM, RELEASE and the expiry of the claim (R152, R174, R177 to R180, R186, R189). -/

namespace Sys2Proof.Machine

open Sys2Proof

/-! ### Commands that wait with the claim, and without it -/

section
variable {s : State} {mp : Mp}

theorem State.slotHas.waits_held {row : CommandRow} {ws : List Word} (h : s.slotHas mp row ws)
    (hclaim : s.holdsClaim mp = true) : s.waits mp row ws :=
  ⟨h.1, h.2, fun _ => hclaim⟩

theorem State.slotHas.claimNeeded {row : CommandRow} {ws : List Word} (h : s.slotHas mp row ws) (hrow : row.claim = true)
    (hclaim : s.holdsClaim mp = false) (act : List Word → State → Judged) :
    s.takeCommand mp row act = s.finish mp .claimNeeded [] :=
  State.takeCommand_claimNeeded h.1 h.2 rfl rfl hrow hclaim act

theorem State.holdsClaim_iff : s.holdsClaim mp = true ↔ ∃ c, s.claim = some c ∧ c.holder = mp := by
  cases h : s.claim <;> simp [State.holdsClaim, h]

end

/-! ### NETWORK_CLEAR and IDENTIFY (R186, R189) -/

/-- Settles O7: the port holds the claim, or it does not. -/
theorem networkClearEmptiesPortsAndTable : Obligations.NetworkClearEmptiesPortsAndTable := by
  intro s mp ws h
  exact ⟨fun hc => next_congr (State.takeCommand_taken (State.slotHas.waits_held h hc) rfl),
    fun hc => next_congr (State.slotHas.claimNeeded h rfl hc networkClearAct)⟩

/-- The vendor code, the part code and the revision fill 40 bits of one word (10.4). -/
theorem pack_identity :
    pack [.bits 16 Config.vendorCode, .bits 16 Config.partCode, .bits 8 Config.revision] = [0x0104600A71#128] :=
  (pack_bits (fields := [(16, 0x0A71), (16, 0x0460), (8, 0x01)]) (by simp) (by simp)).trans (by decide)

/-- Settles O18. -/
theorem identifyGivesTheFixedCodes : Obligations.IdentifyGivesTheFixedCodes := by
  intro s mp ws h
  refine next_congr (State.takeCommand_taken (State.slotHas.waits h rfl) ?_)
  rw [identifyAct, pack_identity]

/-! ### The common checks (R177) -/

section
variable {s : State} {mp : Mp}

/-- A posted command is taken as its row says; RESTART alone, which has no result, has a taking of its own. -/
theorem exec_of_postedRow {c : Instr} {row : CommandRow} (h : postedRow c = some (mp, row)) :
    (∃ act, ∀ s, exec c s = .next (s.takeCommand mp row act)) ∨ (c = .restart mp ∧ row = .restart) := by
  cases c with
  | restart m =>
    cases h
    exact .inr ⟨rfl, rfl⟩
  | readTime m | setTime m | stepBy m | slewBy m | setLeap m | clearLeap m | setUtcOffset m | setLocalOffset m
  | setReference m | readReference m | setEngine m | readEngine m | pin m | unpin m | addMark m | cancelMark m
  | takeOutcomes m | setLine m | lineRestart m | senseLine m | setNetwork m | readPort m | forgetClient m | claim m
  | release m | setEventMask m | readTable m | readMore m | identify m | networkClear m =>
    cases h
    exact .inl ⟨_, fun _ => rfl⟩
  | _ => cases h

variable {x : Posted} (hr : s.resetHeld = false) (hx : (s.port mp).slot = some x)
include hr hx

theorem restartState_slot :
    restartState mp s = if x.number = CommandRow.restart.number then s.judgeRestart mp x else s := by
  refine (State.unlessHeld_released hr _).trans ?_
  simp only [hx]

theorem exec_posted_other {c : Instr} {row : CommandRow} (h : postedRow c = some (mp, row)) (hn : x.number ≠ row.number) :
    exec c s = .next s := by
  rcases exec_of_postedRow h with ⟨act, hact⟩ | ⟨rfl, rfl⟩
  · rw [hact]
    exact next_congr (State.takeCommand_other (fun p hp => by rw [hx] at hp; cases hp; exact hn) act)
  · exact next_congr ((restartState_slot hr hx).trans (if_neg hn))

theorem exec_posted_params {c : Instr} {row : CommandRow} (h : postedRow c = some (mp, row)) (hn : x.number = row.number)
    (hw : x.count ≠ row.words) : exec c s = .next (s.finish mp .params []) := by
  rcases exec_of_postedRow h with ⟨act, hact⟩ | ⟨rfl, rfl⟩
  · rw [hact]
    exact next_congr (State.takeCommand_params hr hx hn hw act)
  · refine next_congr ((restartState_slot hr hx).trans ((if_pos hn).trans ?_))
    exact if_pos hw

theorem exec_posted_claimNeeded {c : Instr} {row : CommandRow} (h : postedRow c = some (mp, row))
    (hn : x.number = row.number) (hw : x.count = row.words) (hc : row.claim = true) (hh : s.holdsClaim mp = false) :
    exec c s = .next (s.finish mp .claimNeeded []) := by
  rcases exec_of_postedRow h with ⟨act, hact⟩ | ⟨rfl, rfl⟩
  · rw [hact]
    exact next_congr (State.takeCommand_claimNeeded hr hx hn hw hc hh act)
  · refine next_congr ((restartState_slot hr hx).trans ((if_pos hn).trans ?_))
    exact (if_neg (not_not.mpr hw)).trans (if_pos hh)

theorem unknownCommandState_slot :
    unknownCommandState mp s =
      if commandTable.any fun row => row.number = x.number then s else s.finish mp .unknown [] := by
  refine (State.unlessHeld_released hr _).trans ?_
  simp only [hx]

theorem exec_unknownCommand_named (h : ∃ row ∈ commandTable, row.number = x.number) :
    exec (.unknownCommand mp) s = .next s := by
  obtain ⟨row, hrow, hn⟩ := h
  exact next_congr ((unknownCommandState_slot hr hx).trans
    (if_pos (List.any_eq_true.mpr ⟨row, hrow, decide_eq_true hn⟩)))

theorem exec_unknownCommand_unnamed (h : ∀ row ∈ commandTable, row.number ≠ x.number) :
    exec (.unknownCommand mp) s = .next (s.finish mp .unknown []) := by
  refine next_congr ((unknownCommandState_slot hr hx).trans (if_neg fun hany => ?_))
  obtain ⟨row, hrow, hn⟩ := List.any_eq_true.mp hany
  exact h row hrow (of_decide_eq_true hn)

end

/-! ### The result that a command leaves (R171, R174) -/

/-- A result of at most 16 words stands in the area as it is, with words of 0 above. -/
theorem resultWords_of_le {ws : List Word} (h : ws.length ≤ 16) :
    resultWords ws = ws ++ List.replicate (16 - ws.length) 0 := by
  rw [resultWords, List.take_append, List.take_of_length_le h, List.take_replicate]
  congr 2
  omega

theorem State.port_finish (s : State) (mp : Mp) (code : ResultCode) (ws : List Word) :
    (s.finish mp code ws).port mp =
      { s.port mp with slot := none, result := some ⟨code, resultWords ws⟩, handshake := .done } :=
  State.port_setPort _ _ _

theorem State.port_finish_other (s : State) {mp m : Mp} (h : m ≠ mp) (code : ResultCode) (ws : List Word) :
    (s.finish mp code ws).port m = s.port m :=
  State.port_setPort_other s h _

/-- Settles O47: the tables by evaluation, and each check by the lemma that names it. -/
theorem commonChecksComeFirst : Obligations.CommonChecksComeFirst := by
  refine ⟨fun _ => rfl, rfl, rfl, rfl, fun s mp x hr hx => ⟨fun c row h =>
    ⟨exec_posted_other hr hx h, exec_posted_params hr hx h, exec_posted_claimNeeded hr hx h⟩,
    exec_unknownCommand_unnamed hr hx, exec_unknownCommand_named hr hx, fun code ws hle => ⟨?_, fun m hm => ?_, rfl⟩⟩⟩
  · rw [State.port_finish, resultWords_of_le hle]
  · exact s.port_finish_other hm code ws

/-! ### CLAIM (R178) -/

section
variable {s : State} {mp : Mp}

theorem claimAct_range {ws : List Word} (h : wordAt ws 0 % 2 ^ 8 = 0 ∨ 120 < wordAt ws 0 % 2 ^ 8) :
    claimAct mp ws s = .refused .range [] := by
  have hnone : claimParams ws = none := if_neg (by omega)
  rw [claimAct, hnone]
  rfl

/-- What CLAIM answers with a lease in its range: by the claim record as it stands. -/
theorem claimAct_lease {ws : List Word} (hlo : 1 ≤ wordAt ws 0 % 2 ^ 8) (hhi : wordAt ws 0 % 2 ^ 8 ≤ 120) :
    claimAct mp ws s =
      let expiry := s.run + wordAt ws 0 % 2 ^ 8 * 1000
      let granted := { s with claim := some ⟨mp, expiry⟩ }
      match s.claim with
      | none => .taken (granted.post .claimTaken) (pack [.bits 8 mp.val, .bits 48 expiry])
      | some c =>
        if c.holder = mp then .taken granted (pack [.bits 8 mp.val, .bits 48 expiry])
        else .refused .claimed (pack [.bits 8 c.holder.val, .bits 48 (c.expiry - s.run)]) := by
  have hsome : claimParams ws = some (wordAt ws 0 % 2 ^ 8) := if_pos ⟨hlo, hhi⟩
  rw [claimAct, hsome]
  cases hc : s.claim <;> rfl

/-! ### LEASE_EXPIRY (R180) -/

theorem exec_leaseExpiry_free (hr : s.resetHeld = false) (h : s.claim = none) : exec .leaseExpiry s = .next s := by
  refine next_congr ((State.unlessHeld_released hr _).trans ?_)
  simp only [h]

theorem exec_leaseExpiry_claimed {c : Claim} (hr : s.resetHeld = false) (h : s.claim = some c) :
    exec .leaseExpiry s = .next (if c.expiry ≤ s.run then s.endClaim else s) := by
  refine next_congr ((State.unlessHeld_released hr _).trans ?_)
  simp only [h]

end

/-- Settles O48. -/
theorem claimIsGrantedRenewedAndExpires : Obligations.ClaimIsGrantedRenewedAndExpires := by
  refine ⟨fun s mp ws hw => ?_, fun s hr => ⟨fun c hc => ⟨fun h => ?_, fun h => ?_⟩, exec_leaseExpiry_free hr⟩⟩
  · intro lease held words
    refine ⟨fun h => next_congr (State.takeCommand_refused hw (claimAct_range h)), fun hlo hhi =>
      ⟨fun hfree => ?_, fun c hc => ⟨fun hown => ?_, fun hother => ?_⟩⟩⟩
    · refine next_congr (State.takeCommand_taken hw ?_)
      simp only [claimAct_lease hlo hhi, hfree]
      rfl
    · refine next_congr (State.takeCommand_taken hw ?_)
      simp only [claimAct_lease hlo hhi, hc, if_pos hown]
      rfl
    · refine next_congr (State.takeCommand_refused hw ?_)
      simp only [claimAct_lease hlo hhi, hc, if_neg hother]
  · rw [exec_leaseExpiry_claimed hr hc, if_pos h]
    rfl
  · rw [exec_leaseExpiry_claimed hr hc, if_neg (Nat.not_le.mpr h)]

/-! ### RELEASE (R179) -/

/-- Settles O49: the poster holds the claim, or another master or none does. -/
theorem releaseEndsTheHoldersClaim : Obligations.ReleaseEndsTheHoldersClaim := by
  intro s mp ws h
  have hw := State.slotHas.waits h rfl
  refine ⟨fun hown => ⟨s.endClaim, next_congr (State.takeCommand_taken hw ?_), rfl, fun m => ?_⟩, fun hother =>
    next_congr (State.takeCommand_refused hw ?_)⟩
  · exact if_pos (State.holdsClaim_iff.mpr hown)
  · rw [State.port_endClaim]
    rfl
  · refine if_neg fun hholds => ?_
    obtain ⟨c, hc, hmp⟩ := State.holdsClaim_iff.mp hholds
    exact hother c hc hmp

end Sys2Proof.Machine
end

section
/-! SUPPORT. The bytes and the words of a link, and the transactions: their beginning, their framing, and what each one of
correct framing makes of the mailbox of its own port (R171 to R176, R181 to R183, R191). -/

namespace Sys2Proof.Machine

open Sys2Proof

/-! ### Bytes and words (10.1, 10.2) -/

/-- The eight bits from bit 8 `k` up are byte `k` of the number, counted from the least significant. -/
theorem extractLsb'_byte {w : Nat} (x : BitVec w) (k : Nat) :
    x.extractLsb' (8 * k) 8 = BitVec.ofNat 8 (x.toNat / 256 ^ k) := by
  have hpow : (256 : Nat) ^ k = 2 ^ (8 * k) := by rw [Nat.pow_mul]
  refine BitVec.eq_of_toNat_eq ?_
  rw [BitVec.extractLsb'_toNat, BitVec.toNat_ofNat, Nat.shiftRight_eq_div_pow, hpow]

theorem length_wordBytes (w : Word) : (wordBytes w).length = 16 := beBytes_length 16 _

theorem getElem?_wordBytes (w : Word) {k : Nat} (h : k < 16) :
    (wordBytes w)[k]? = some (w.extractLsb' (8 * (15 - k)) 8) := by
  rw [wordBytes, (beBytes_spec _ 16).2 k h, extractLsb'_byte]

theorem toNat_bytesWord {bs : List Byte} (h : bs.length = 16) : (bytesWord bs).toNat = numberAt bs 0 16 := by
  have hlt : beNat bs < 2 ^ 128 := by
    have hbound := beNat_lt bs
    rw [h] at hbound
    exact hbound.trans_eq (by norm_num)
  have hall : (bs.drop 0).take 16 = bs := List.take_of_length_le h.le
  rw [bytesWord, BitVec.toNat_ofNat, Nat.mod_eq_of_lt hlt, numberAt, hall]
  rfl

theorem getElem?_bytesWords (n j : Nat) (bs : List Byte) (h : j < n) :
    (bytesWords n bs)[j]? = some (bytesWord ((bs.drop (16 * j)).take 16)) := by
  induction n generalizing j bs with
  | zero => exact absurd h (Nat.not_lt_zero j)
  | succ n ih =>
    cases j with
    | zero => rfl
    | succ j =>
      rw [bytesWords, List.getElem?_cons_succ, ih j (bs.drop 16) (by omega), List.drop_drop, Nat.mul_succ, Nat.add_comm]

theorem getElem?_overlay {params ws : List Word} {start : Nat} (h : start + ws.length ≤ params.length) (k : Nat) :
    (overlay params start ws)[k]? = if start ≤ k ∧ k < start + ws.length then ws[k - start]? else params[k]? := by
  have hstart : (params.take start).length = start := List.length_take_of_le (by omega)
  have hrun : (params.take start ++ ws).length = start + ws.length := by rw [List.length_append, hstart]
  unfold overlay
  by_cases hbelow : k < start
  · rw [if_neg (by omega), List.getElem?_append_left (by omega), List.getElem?_append_left (by omega),
      List.getElem?_take_of_lt hbelow]
  · by_cases hin : k < start + ws.length
    · rw [if_pos ⟨by omega, hin⟩, List.getElem?_append_left (by omega), List.getElem?_append_right (by omega), hstart]
    · rw [if_neg (by omega), List.getElem?_append_right (by omega), hrun, List.getElem?_drop]
      congr 1
      omega

/-! ### The attention line, the header and the nine bytes of READ_STATE (R182, 10.1) -/

theorem MasterPort.attention_eq (p : MasterPort) : p.attention = decide (p.summary &&& ~~~p.mask ≠ 0) := by
  rw [MasterPort.attention, bne, Bool.beq_eq_decide_eq, decide_not]

theorem MasterPort.toNat_attention (p : MasterPort) :
    p.attention.toNat = if p.summary &&& ~~~p.mask ≠ 0 then 1 else 0 := by
  rw [MasterPort.attention_eq]
  split <;> rename_i h
  · rw [decide_eq_true h]
    rfl
  · rw [decide_eq_false h]
    rfl

/-- The attention line is asserted while a flag is set and unmasked. -/
theorem MasterPort.attention_iff (p : MasterPort) :
    p.attention = true ↔ ∃ k < 16, p.summary.getLsbD k = true ∧ p.mask.getLsbD k = false := by
  have hbit {k : Nat} (hk : k < 16) :
      (p.summary &&& ~~~p.mask).getLsbD k = (p.summary.getLsbD k && !p.mask.getLsbD k) := by
    rw [BitVec.getLsbD_and, BitVec.getLsbD_not, decide_eq_true hk, Bool.true_and]
  rw [MasterPort.attention_eq, decide_eq_true_iff]
  constructor
  · intro hne
    by_contra hnone
    refine hne (BitVec.eq_of_getLsbD_eq fun k hk => ?_)
    rw [hbit hk, BitVec.ofNat_eq_ofNat, BitVec.getLsbD_zero]
    refine Bool.eq_false_iff.mpr fun hset => hnone ⟨k, hk, ?_⟩
    simpa using hset
  · rintro ⟨k, hk, hs, hm⟩ hzero
    have hset := hbit hk
    rw [hzero, hs, hm, BitVec.ofNat_eq_ofNat, BitVec.getLsbD_zero] at hset
    exact nomatch hset

theorem ErrorFlags.any_eq (e : ErrorFlags) : e.any = decide (e ≠ ⟨false, false, false⟩) := by
  obtain ⟨u, l, r⟩ := e
  cases u <;> cases l <;> cases r <;> rfl

theorem ErrorFlags.toByte_eq (e : ErrorFlags) :
    e.toByte = BitVec.ofNat 8 ((if e.unknownTransaction then 1 else 0) + (if e.length then 2 else 0) +
      (if e.resultOverwritten then 4 else 0)) := by
  obtain ⟨u, l, r⟩ := e
  cases u <;> cases l <;> cases r <;> rfl

theorem orFF_byte {α : Type} (o : Option α) (f : α → Byte) : orFF (o.map fun x => (f x).toNat) = (o.map f).getD 0xFF#8 := by
  cases o with
  | none => rfl
  | some x => exact BitVec.ofNat_toNat 8 (f x) |>.trans (BitVec.setWidth_eq _)

theorem beBytes_two (m : BitVec 16) : beBytes 2 m.toNat = [m.extractLsb' 8 8, m.extractLsb' 0 8] := by
  rw [extractLsb'_byte m 1, extractLsb'_byte m 0]
  rfl

theorem Handshake.code_byte (h : Handshake) :
    BitVec.ofNat 8 h.code = match h with
      | .idle => 0x00#8
      | .busy => 0x01#8
      | .done => 0x02#8 := by
  cases h <;> rfl

theorem MasterPort.stateBytes_eq (p : MasterPort) :
    p.stateBytes =
      [BitVec.ofNat 8 p.handshake.code, p.lastCommand.getD 0xFF#8, (p.slot.map (·.number)).getD 0xFF#8,
        BitVec.ofNat 8 ((p.slot.map (·.count)).getD 0xFF), BitVec.ofNat 8 ((p.cursor.map fun c => tableCode c.table).getD 0xFF),
        BitVec.ofNat 8 ((p.cursor.map (·.slot)).getD 0xFF), (if p.summary &&& ~~~p.mask ≠ 0 then 0x01#8 else 0x00#8),
        p.mask.extractLsb' 8 8, p.mask.extractLsb' 0 8] := by
  have hlast : orFF (p.lastCommand.map (·.toNat)) = p.lastCommand.getD 0xFF#8 := by
    have h := orFF_byte p.lastCommand id
    rwa [Option.map_id] at h
  have hattention : BitVec.ofNat 8 p.attention.toNat = if p.summary &&& ~~~p.mask ≠ 0 then 0x01#8 else 0x00#8 := by
    rw [MasterPort.toNat_attention, apply_ite (BitVec.ofNat 8)]
  unfold MasterPort.stateBytes
  rw [hlast, orFF_byte p.slot (·.number), hattention, beBytes_two]
  simp only [Table.code_eq, orFF, List.cons_append, List.nil_append]

/-! ### POST by the handshake (R174) -/

section
variable {p : MasterPort} {number : Byte} {count : Nat}

theorem MasterPort.posted_idle (h : p.handshake = .idle) : p.posted number count = p.placed number count := by
  simp only [MasterPort.posted, h]

theorem MasterPort.posted_busy (h : p.handshake = .busy) : p.posted number count = p := by
  simp only [MasterPort.posted, h]

theorem MasterPort.posted_done (h : p.handshake = .done) :
    p.posted number count =
      MasterPort.placed { p with result := none, errors := { p.errors with resultOverwritten := true } } number count := by
  simp only [MasterPort.posted, h]

end

/-! ### The beginning and the end of a transaction (R172) -/

/-- A mailbox whose transaction has ended, having shifted out `out`. -/
def MasterPort.ended (p : MasterPort) (out : List Byte) : MasterPort := { p with transaction := none, dataOut := out }

theorem MasterPort.header_eq (p : MasterPort) (mp : Mp) :
    p.header mp = BitVec.ofNat 8 (p.handshake.code + (if p.summary &&& ~~~p.mask ≠ 0 then 4 else 0) +
      (if p.errors = ⟨false, false, false⟩ then 0 else 8) + 16 * mp.val + 128) := by
  have hattention : 4 * p.attention.toNat = if p.summary &&& ~~~p.mask ≠ 0 then 4 else 0 := by
    rw [MasterPort.toNat_attention, mul_ite]
  have herrors : 8 * p.errors.any.toNat = if p.errors = ⟨false, false, false⟩ then 0 else 8 := by
    rw [ErrorFlags.any_eq]
    split <;> rename_i h <;> simp [h]
  rw [MasterPort.header, hattention, herrors]

section
variable {s : State} {mp : Mp} {x : Transaction} (hr : s.resetHeld = false)
include hr

theorem exec_transactionBegin :
    exec (.transactionBegin mp) s = .next (s.setPort mp
      { s.port mp with transaction := some ((s.port mp).begun mp), dataOut := [(s.port mp).header mp] }) :=
  next_congr (State.unlessHeld_released hr _)

variable (hx : (s.port mp).transaction = some x)
include hx

/-- A transaction of correct framing, whose effect is on the mailbox of its port. -/
theorem State.endTransaction_writes {len : Nat} {data : Transaction → List Byte} {fits : Bool}
    {act : Transaction → State → State} {f : MasterPort → MasterPort} {out : List Byte} (hfits : fits = true)
    (hout : (x.header :: data x).take len = out) (hact : ∀ u, act x u = u.setPort mp (f (u.port mp))) :
    s.endTransaction mp len data fits act = s.setPort mp (f ((s.port mp).ended out)) := by
  rw [hfits, State.endTransaction_fits hr hx, hact, State.port_setPort, State.setPort_setPort, hout]
  rfl

/-- A transaction out of its framing sets LENGTH alone and ends (R172). -/
theorem exec_misfit {c : Instr} {len : Nat} {data : Transaction → List Byte} {fits : Bool}
    {act : Transaction → State → State} (hc : exec c s = .next (s.endTransaction mp len data fits act))
    (hfits : fits = false) :
    ∃ out, exec c s = .next (s.setPort mp
      { s.port mp with transaction := none, dataOut := out, errors := { (s.port mp).errors with length := true } }) := by
  rw [hc, hfits, State.endTransaction_length hr hx]
  exact ⟨_, rfl⟩

/-! ### WRITE_PARAMS and POST (R173, R174) -/

theorem exec_writeParams {start n : Byte} {data : List Byte} (hpos : 1 ≤ n.toNat) (hrun : start.toNat + n.toNat ≤ 16)
    (hlen : data.length = 16 * n.toNat) :
    exec (.writeParams mp (start :: n :: data)) s = .next (s.setPort mp
      { (s.port mp).ended [x.header] with
        params := overlay (s.port mp).params start.toNat (bytesWords n.toNat data) }) := by
  have hframed : writeParamsOf (start :: n :: data) = some (start.toNat, bytesWords n.toNat data) := if_neg (by omega)
  refine next_congr (State.endTransaction_writes hr hx
    (f := fun p => { p with params := overlay p.params start.toNat (bytesWords n.toNat data) }) ?_ ?_ fun u => ?_)
  · rw [hframed]
    rfl
  · rw [Nat.add_comm]
    rfl
  · simp only [hframed]

theorem exec_post {number n : Byte} (hn : n.toNat ≤ 16) :
    exec (.post mp [number, n]) s = .next (s.setPort mp (((s.port mp).ended [x.header]).posted number n.toNat)) := by
  have hframed : postOf [number, n] = some (number, n.toNat) := if_pos hn
  refine next_congr (State.endTransaction_writes hr hx (f := fun p => p.posted number n.toNat) ?_ rfl fun u => ?_)
  · rw [hframed]
    rfl
  · simp only [hframed]

/-! ### The reads (R175, R176, R183) -/

theorem exec_readState (hlen : x.stateBytes.length = 9) :
    exec (.readState mp 10) s = .next (s.setPort mp ((s.port mp).ended (x.header :: x.stateBytes))) := by
  refine next_congr ((State.endTransaction_fits hr hx 10 (fun t => t.stateBytes) fun _ s => s).trans ?_)
  rw [List.take_of_length_le (by simp [hlen])]
  rfl

theorem exec_readErrors :
    exec (.readErrors mp 2) s = .next (s.setPort mp
      { (s.port mp).ended [x.header, x.errors.toByte] with errors := (s.port mp).errors.without x.errors }) :=
  next_congr (State.endTransaction_writes hr hx (f := fun p => { p with errors := p.errors.without x.errors }) rfl rfl
    fun _ => rfl)

theorem exec_sense {option skipped : Byte} :
    exec (.sense mp [option, skipped]) s = .next (s.setPort mp
      (if option.getLsbD 0 then
        { (s.port mp).ended (x.header :: beBytes 2 x.summary.toNat) with
          summary := (s.port mp).summary &&& ~~~x.summary }
      else (s.port mp).ended (x.header :: beBytes 2 x.summary.toNat))) := by
  refine next_congr ((State.endTransaction_fits hr hx 3 (fun t => beBytes 2 t.summary.toNat) _).trans ?_)
  have hclears : senseClears [option, skipped] = option.getLsbD 0 := rfl
  rw [hclears]
  split
  · rw [State.port_setPort, State.setPort_setPort]
    rfl
  · rfl

theorem exec_readResult (hlen : (resultBytes x.result).length = 257) :
    exec (.readResult mp 258) s = .next (s.setPort mp
      (if x.handshake = .done ∧ (s.port mp).handshake = .done then
        { (s.port mp).ended (x.header :: resultBytes x.result) with handshake := .idle }
      else (s.port mp).ended (x.header :: resultBytes x.result))) := by
  refine next_congr ((State.endTransaction_fits hr hx 258 (fun t => resultBytes t.result) _).trans ?_)
  rw [List.take_of_length_le (by simp [hlen])]
  dsimp only
  rw [State.port_setPort]
  dsimp only
  split
  · rw [State.setPort_setPort]
    rfl
  · rfl

theorem exec_unknownTransaction {code : Byte} (hcode : isTransactionCode code = false) :
    exec (.unknownTransaction mp code) s = .next (s.setPort mp
      { (s.port mp).ended [x.header] with errors := { (s.port mp).errors with unknownTransaction := true } }) := by
  refine next_congr ((if_neg (Bool.eq_false_iff.mp hcode)).trans ?_)
  exact State.endTransaction_writes hr hx
    (f := fun p => { p with errors := { p.errors with unknownTransaction := true } }) rfl rfl fun _ => rfl

end

/-- A result area of 16 words fills 257 bytes, and so does an empty one. -/
theorem length_resultBytes {r : Option Result} (h : ∀ y ∈ r, y.words.length = 16) : (resultBytes r).length = 257 := by
  cases r with
  | none => rw [resultBytes, List.length_cons, List.length_replicate]
  | some y =>
    have hwords : y.words.map (fun w => (wordBytes w).length) = List.replicate 16 16 := by
      rw [List.map_congr_left fun w _ => length_wordBytes w, List.map_const', h y rfl]
    rw [resultBytes, List.length_cons, List.length_flatMap, hwords]
    rfl

/-! ### Framings that are not correct (R172, R191) -/

theorem postOf_length {rest : List Byte} (h : rest.length ≠ 2) : postOf rest = none := by
  unfold postOf
  split
  · exact absurd rfl h
  · rfl

theorem postOf_count {number n : Byte} (h : 16 < n.toNat) : postOf [number, n] = none := if_neg (Nat.not_le.mpr h)

theorem writeParamsOf_short {rest : List Byte} (h : rest.length < 2) : writeParamsOf rest = none := by
  unfold writeParamsOf
  split
  · simp at h
  · rfl

theorem writeParamsOf_misfit {start n : Byte} {data : List Byte}
    (h : n.toNat = 0 ∨ 16 < start.toNat + n.toNat ∨ data.length ≠ 16 * n.toNat) :
    writeParamsOf (start :: n :: data) = none := if_pos h

/-! ### The obligations -/

/-- Settles O44: the beginning, the words written one by one, and POST by the handshake. -/
theorem transactionsWriteAndPost : Obligations.TransactionsWriteAndPost := by
  intro s mp hr p header
  have hheader : p.header mp = header := by
    rw [MasterPort.header_eq]
    cases h : p.handshake <;> simp only [header, h] <;> rfl
  refine ⟨?_, fun x hx => ?_⟩
  · rw [exec_transactionBegin hr, ← hheader]
    rfl
  intro q
  refine ⟨fun start n data hpos hrun hlen hparams => ?_, fun number n hn => ?_⟩
  · have hwords := length_bytesWords n.toNat data
    have hfits : start.toNat + (bytesWords n.toNat data).length ≤ p.params.length := by rw [hwords, hparams]; exact hrun
    refine ⟨_, exec_writeParams hr hx hpos hrun hlen, (length_overlay hfits).trans hparams, fun k _ => ?_⟩
    rw [getElem?_overlay hfits, hwords]
    split <;> rename_i hk
    · exact getElem?_bytesWords _ _ _ (by omega)
    · rfl
  · have hpost := exec_post (number := number) hr hx hn
    have hposted {y : MasterPort} (h : q.posted number n.toNat = y) :
        exec (.post mp [number, n]) s = .next (s.setPort mp y) := hpost.trans (next_congr (congrArg (s.setPort mp) h))
    exact ⟨fun h => hposted (MasterPort.posted_idle h), fun h => hposted (MasterPort.posted_done h),
      fun h => hposted (MasterPort.posted_busy h)⟩

/-- Settles O45. -/
theorem readsReturnWhatWasFixed : Obligations.ReadsReturnWhatWasFixed := by
  refine ⟨fun bs h => toNat_bytesWord h, fun w => ⟨length_wordBytes w, fun k hk => getElem?_wordBytes w hk⟩,
    fun s mp x hr hx => ?_⟩
  intro p shifted
  refine ⟨fun res hres hlen => ?_, fun hnone hother => ?_, fun hlen => exec_readState hr hx hlen,
    p.stateBytes_eq.trans (congrArg (· :: _) p.handshake.code_byte), ?_⟩
  · have hread := exec_readResult hr hx (length_resultBytes fun y hy => by rw [hres] at hy; cases hy; exact hlen)
    rw [hres] at hread
    exact ⟨fun hbegun hnow => hread.trans (by rw [if_pos ⟨hbegun, hnow⟩]; rfl),
      fun hbegun => hread.trans (by rw [if_neg fun h => hbegun h.1]; rfl)⟩
  · have hread := exec_readResult hr hx (length_resultBytes (r := x.result) (by rw [hnone]; nofun))
    rw [hnone, if_neg fun h => hother h.1] at hread
    exact hread
  · rw [exec_readErrors hr hx, ErrorFlags.toByte_eq]
    rfl

/-- Settles O46: each framing that its transaction refuses. -/
theorem badFramingSetsItsFlagAlone : Obligations.BadFramingSetsItsFlagAlone := by
  intro s mp x hr hx p setsLength
  refine ⟨fun len h => exec_misfit hr hx rfl (decide_eq_false h), fun len h => exec_misfit hr hx rfl (decide_eq_false h),
    fun len h => exec_misfit hr hx rfl (decide_eq_false h), fun len h => exec_misfit hr hx rfl (decide_eq_false h),
    fun rest h => exec_misfit hr hx rfl (decide_eq_false h),
    fun rest h => exec_misfit hr hx rfl (by rw [postOf_length h]; rfl),
    fun number n h => exec_misfit hr hx rfl (by rw [postOf_count h]; rfl),
    fun rest h => exec_misfit hr hx rfl (by rw [writeParamsOf_short h]; rfl),
    fun start n data h => exec_misfit hr hx rfl (by rw [writeParamsOf_misfit h]; rfl), fun code h => ?_⟩
  exact exec_unknownTransaction hr hx (Bool.eq_false_iff.mpr fun hmem => h (List.contains_iff_mem.mp hmem))

theorem pack_mask (n : Nat) : pack [.bits 16 (BitVec.ofNat 16 n).toNat] = [BitVec.ofNat 128 (n % 2 ^ 16)] := by
  refine (pack_bits (fields := [(16, (BitVec.ofNat 16 n).toNat)]) (by simp) (by simp)).trans ?_
  simp [wordOf]

/-- Settles O50. -/
theorem summariesAreSensedAndMasked : Obligations.SummariesAreSensedAndMasked := by
  intro s mp hr p
  refine ⟨fun x option skipped hx => ?_, fun ws h => ?_, ?_, fun e => ⟨p.has_eq_getLsbD e, rfl⟩, rfl⟩
  · have hsense := exec_sense (option := option) (skipped := skipped) hr hx
    exact ⟨fun hset => hsense.trans (by rw [if_pos hset]; rfl),
      fun hclear => hsense.trans (by rw [if_neg (Bool.eq_false_iff.mp hclear)]; rfl)⟩
  · refine next_congr (State.takeCommand_taken (State.slotHas.waits h rfl) ?_)
    rw [setEventMaskAct, setEventMaskParams, pack_mask]
  · rw [State.attentionOutput, hr, Bool.not_false, Bool.true_and]
    exact p.attention_iff

end Sys2Proof.Machine
end
